-- ==== Sys2Proof/Word.lean ====
section
/-! DEFINITION. The widths of the gate's words, the identifiers of section 5.3 of 00_scope.md, and the
small closed types that a trunk transaction, a card bus operation and a resident port are described with. -/

namespace Sys2Proof

/-- A word is 4 bytes; byte lane 0 carries bits 7 to 0 (00_scope.md, section 5.1; 11_formats.md). -/
abbrev Word := BitVec 32

/-- A 32-bit trunk byte address (R88). -/
abbrev TrunkAddr := BitVec 32

/-- A 28-bit card byte address (R2). -/
abbrev CardAddr := BitVec 28

/-- A count of microseconds of the timebase (R1). -/
abbrev Time := BitVec 32

/-- One bit per byte lane: byte enables, or check bits (R89, R96). -/
abbrev Lanes := BitVec 4

/-- The tag of a control record, or a report's sequence number: 0 to 65535. -/
abbrev Tag := BitVec 16

/-- One bit per trunk master (R2, read mask and write mask). -/
abbrev MasterMask := BitVec 16

/-- A trunk master, equal to the slot number of its card (00_scope.md, section 5.3). -/
abbrev MasterId := Fin 16

/-- A window entry's id (00_scope.md, section 5.3). -/
abbrev WindowId := Fin 32

/-- A delayed-read slot's id (00_scope.md, section 5.3). -/
abbrev SlotId := Fin 8

/-- The size of one beat, or of one card-bus operation: 1, 2 or 4 bytes (R88, R119). -/
inductive BeatUnit where
  | one | two | four
  deriving DecidableEq, Repr

/-- The lock attribute of a trunk transaction: NONE, OPEN, HOLD or CLOSE (R88). -/
inductive LockAttr where
  | noLock | openLock | holdLock | closeLock
  deriving DecidableEq, Repr

/-- The resident ports of the card bus arbiter (R126). -/
inductive Port where
  | a | b | c
  deriving DecidableEq, Repr

/-- The direction of a trunk transaction (R88). -/
inductive Direction where
  | read | write
  deriving DecidableEq, Repr

/-- One beat of write data: the data word of four lanes, one byte enable per lane, and the check code
that travels with the beat (R89, R96). -/
structure Beat where
  data : Word
  enables : Lanes
  code : Lanes
  deriving DecidableEq, Repr

/-- One word with its check code, as a slot holds it (R47) and as a read answered DONE returns it (R89). -/
structure CheckedWord where
  word : Word
  code : Lanes
  deriving DecidableEq, Repr

/-- What a trunk transaction moves: a read asks for a number of beats, a write brings its beats (R88). -/
inductive Payload where
  | read (beats : Nat)
  | write (beats : List Beat)
  deriving DecidableEq, Repr

/-- A trunk transaction as the trunk interface takes it (R88). -/
structure Txn where
  master : MasterId
  addr : TrunkAddr
  unit : BeatUnit
  lock : LockAttr
  payload : Payload
  deriving DecidableEq, Repr

/-- How the card bus target answers an operation of the gate: ACK, for a read with the data on its four
lanes, or TARGET ERROR (R113). -/
inductive TargetAnswer where
  | ack (data : Word)
  | targetError
  deriving DecidableEq, Repr

end Sys2Proof
end

