-- ==== Sys2Proof/Syntax.lean ====
section
/-! DEFINITION. The commands: one constructor of `Instr` for each row of spec/opcode_table.json. A command
is an event the outside sends to the gate, or the event in which the gate executes the control entry at
the head of its queue or takes a timer's expiry (95_what_each_step_holds.md: each row is one whole step). -/

namespace Sys2Proof

/-- A command: one row of the table of operations, with the values that come with the event. -/
inductive Instr where
  /-- TIMEBASE_TICK (R1). -/
  | timebaseTick
  /-- POWER_ON_RESET_ASSERT (R175), with the level of the geographic slot lines (R91). -/
  | powerOnResetAssert (slotLines : BitVec 4)
  /-- POWER_ON_RESET_RELEASE (R175), with the level of the geographic slot lines (R91). -/
  | powerOnResetRelease (slotLines : BitVec 4)
  /-- CARD_RESET_ASSERT (R175), with the level of the geographic slot lines (R91). -/
  | cardResetAssert (slotLines : BitVec 4)
  /-- CARD_RESET_RELEASE (R175), with the level of the geographic slot lines (R91). -/
  | cardResetRelease (slotLines : BitVec 4)
  /-- TRUNK_RESET (R180). -/
  | trunkReset
  /-- WINDOW_WRITE (R29): a trunk write. -/
  | windowWrite (master : MasterId) (addr : TrunkAddr) (unit : BeatUnit) (lock : LockAttr) (beats : List Beat)
  /-- WINDOW_READ (R49): a trunk read. -/
  | windowRead (master : MasterId) (addr : TrunkAddr) (unit : BeatUnit) (lock : LockAttr) (beats : Nat)
  /-- IDENTITY (R183). -/
  | identity (master : MasterId)
  /-- STATUS (R170). -/
  | status (master : MasterId)
  /-- COUNTS (R41). -/
  | counts (master : MasterId)
  /-- REPORT_HEAD (R144). -/
  | reportHead (master : MasterId)
  /-- WINDOW_READBACK (R22). -/
  | windowReadback (master : MasterId) (window : WindowId)
  /-- MASTER_READBACK (R106). -/
  | masterReadback (master : MasterId) (subject : MasterId)
  /-- CLAIM (R141): the data word with its check code. -/
  | claim (master : MasterId) (data : CheckedWord)
  /-- RELINQUISH (R142). -/
  | relinquish (master : MasterId) (data : CheckedWord)
  /-- RELEASE (R144). -/
  | release (master : MasterId) (data : CheckedWord)
  /-- ATTENTION (R145). -/
  | attention (master : MasterId) (data : CheckedWord)
  /-- RESET_GATE (R146). -/
  | resetGate (master : MasterId) (data : CheckedWord)
  /-- CONTROL_INTAKE (R149): the words of the record with their check codes. -/
  | controlIntake (master : MasterId) (words : List CheckedWord)
  /-- CONTROL_REGION_REFUSED (R139): a transaction given whole. -/
  | controlRegionRefused (txn : Txn)
  /-- LOAD_WINDOW (R152): the execution of the record at the head. -/
  | loadWindow
  /-- RETIRE_WINDOW (R153). -/
  | retireWindow
  /-- MODIFY_WINDOW (R154). -/
  | modifyWindow
  /-- THAW_WINDOW (R155). -/
  | thawWindow
  /-- SET_MASTER (R156). -/
  | setMaster
  /-- SET_TIMERS (R157). -/
  | setTimers
  /-- SET_ARBITRATION (R158). -/
  | setArbitration
  /-- ENABLE (R159). -/
  | enable
  /-- QUIESCE (R160). -/
  | quiesce
  /-- FENCE (R161). -/
  | fence
  /-- PIECE_END (R114): the target answers the gate's outstanding operation. -/
  | pieceEnd (answer : TargetAnswer)
  /-- NO_RESPONSE (R113): the response timer of the outstanding operation expires. -/
  | noResponse
  /-- HOLD_TIMER_EXPIRY (R62) of a slot. -/
  | holdTimerExpiry (slot : SlotId)
  /-- LOCK_HOLD_TIMER_EXPIRY (R81). -/
  | lockHoldTimerExpiry
  /-- OVERSTAY_TIMER_EXPIRY (R134). -/
  | overstayTimerExpiry
  /-- RESIDENT_REQUEST_RAISE (R129). -/
  | residentRequestRaise (port : Port)
  /-- RESIDENT_REQUEST_DROP (R126). -/
  | residentRequestDrop (port : Port)
  /-- RESIDENT_HOLD_RAISE (R130). -/
  | residentHoldRaise (port : Port)
  /-- RESIDENT_HOLD_DROP (R130). -/
  | residentHoldDrop (port : Port)
  /-- RESIDENT_WRITE_OBSERVED (R119): a write of a resident on the card bus ends. -/
  | residentWriteObserved (port : Port) (addr : CardAddr) (size : BeatUnit)
  deriving DecidableEq, Repr

end Sys2Proof
end

