-- ==== Sys2Proof/Config.lean ====
section
/-! DEFINITION. What the part fixes for every run: the identity codes (R183), the default settings
(R98, R125, R138), the capacities, and the one free value. -/

namespace Sys2Proof.Config

/-- FREE VALUE (log 5). The choices the manual leaves to the part: the n-th choice taken is
`freeChoice n`. It has no body, so nothing in Lean can evaluate it or prove a value of it. -/
opaque freeChoice : Nat → Nat

/-- Vendor code of the IDENTITY word (R183). -/
def vendorCode : Nat := 0x6A3D

/-- Part code of the IDENTITY word (R183). -/
def partCode : Nat := 0x320

/-- Revision code of the IDENTITY word (R183). -/
def revisionCode : Nat := 1

/-- The posted write queue holds at most 32 entries (R26). -/
def queuePlaces : Nat := 32

/-- At most 30 entries of the posted write queue are data entries (R26). -/
def dataPlaces : Nat := 30

/-- The report queue holds at most 16 reports (R163). -/
def reportPlaces : Nat := 16

/-- Default credit limit (R98). -/
def creditDefault : Nat := 4

/-- Default read limit (R98). -/
def readLimitDefault : Nat := 2

/-- Default read hold limit in microseconds (R138). -/
def readHoldDefault : Nat := 256

/-- Default lock hold limit in microseconds (R138). -/
def lockHoldDefault : Nat := 64

/-- Default card response limit in microseconds (R138). -/
def cardResponseDefault : Nat := 8

/-- Default resident tenure limit; 0 means no limit (R138). -/
def residentTenureDefault : Nat := 0

/-- Default high-water mark (R125). -/
def highWaterDefault : Nat := 24

end Sys2Proof.Config
end

