-- ==== Sys2Proof/Machine/State.lean ====
section
/-! DEFINITION. The state of the gate as plain data, block by block in the order of 00_scope.md section 2.1,
its faults and refusals, and the state right after power-on reset. -/

namespace Sys2Proof.Machine

/-! ### Timers -/

/-- A running timer: the time it was started at and its limit. Its deadline is start + limit (R1). -/
structure Timer where
  start : Time
  limit : Nat
  deriving DecidableEq, Repr

/-! ### Window table (chapter 1) -/

/-- The states of a window (R2). -/
inductive WindowState where
  | free | live | draining
  deriving DecidableEq, Repr

/-- The data width of a card-bus target: 8, 16 or 32 bits (R2). -/
inductive PortWidth where
  | bits8 | bits16 | bits32
  deriving DecidableEq, Repr

/-- What a card-bus write error does to the window (R2). -/
inductive ErrorPolicy where
  | continues | freezes
  deriving DecidableEq, Repr

/-- A window entry (R2). -/
structure Window where
  state : WindowState
  frozen : Bool
  trunkBase : TrunkAddr
  sizeCode : Nat
  cardBase : CardAddr
  portWidth : PortWidth
  lockable : Bool
  policy : ErrorPolicy
  readMask : MasterMask
  writeMask : MasterMask
  refCount : Nat
  discards : Nat
  retireTag : Option Tag
  deriving DecidableEq, Repr

/-- A window entry after power-on reset (R2, column "After power-on"). -/
def Window.powerOn : Window where
  state := .free
  frozen := false
  trunkBase := 0
  sizeCode := 0
  cardBase := 0
  portWidth := .bits8
  lockable := false
  policy := .continues
  readMask := 0
  writeMask := 0
  refCount := 0
  discards := 0
  retireTag := none

/-! ### Master table (chapter 5) -/

/-- Whether a master's window transactions pass the admission step (R98). -/
inductive Admission where
  | opened | barred
  deriving DecidableEq, Repr

/-- A master record, the broken-lock note of the lock unit included (R98, R71). -/
structure Master where
  admission : Admission
  creditLimit : Nat
  readLimit : Nat
  outWrites : Nat
  outReads : Nat
  violations : Nat
  barThreshold : Nat
  note : Option WindowId
  deriving DecidableEq, Repr

/-- A master record after power-on reset (R98, column "After power-on"). -/
def Master.powerOn : Master where
  admission := .opened
  creditLimit := Config.creditDefault
  readLimit := Config.readLimitDefault
  outWrites := 0
  outReads := 0
  violations := 0
  barThreshold := 0
  note := none

/-! ### Posted write queue (chapter 2) -/

/-- Whether a data entry belongs to a locked sequence, and whether it ends it (R27). -/
inductive SeqFlag where
  | none | inSequence | close
  deriving DecidableEq, Repr

/-- A data entry (R27). `names` is whether the window table still counts the entry: a gate reset with
CLEAR makes an entry in drain name no window while its captured window id is kept (R23). -/
structure DataEntry where
  master : MasterId
  window : WindowId
  names : Bool
  cardAddr : CardAddr
  unit : BeatUnit
  beats : List Beat
  portWidth : PortWidth
  seq : SeqFlag
  void : Bool
  deriving DecidableEq, Repr

/-- The ordered commands (R148). -/
inductive Command where
  | loadWindow | retireWindow | modifyWindow | thawWindow | setMaster | setTimers | setArbitration
  | enable | quiesce | fence
  deriving DecidableEq, Repr

/-- A control entry (R28). -/
structure ControlEntry where
  command : Command
  tag : Tag
  operands : List Word
  writer : MasterId
  deriving DecidableEq, Repr

/-- An entry of the posted write queue (R26). -/
inductive Entry where
  | data (d : DataEntry)
  | control (c : ControlEntry)
  deriving DecidableEq, Repr

/-- The posted write queue: its entries, head first (R26), and its counters (R41). -/
structure WriteQueue where
  entries : List Entry
  accepted : BitVec 32
  performed : BitVec 32
  dropped : BitVec 32
  deriving DecidableEq, Repr

/-- The queue after power-on or card reset (R44). -/
def WriteQueue.powerOn : WriteQueue := ⟨[], 0, 0, 0⟩

/-! ### Delayed read table (chapter 3) -/

/-- The states of a slot (R47). -/
inductive SlotState where
  | free | waiting | fetching | ready | stale | failed
  deriving DecidableEq, Repr

/-- The key of a slot: the five fields a returning read is matched by (R47, R49). -/
structure SlotKey where
  master : MasterId
  addr : TrunkAddr
  unit : BeatUnit
  beats : Nat
  lock : LockAttr
  deriving DecidableEq, Repr

/-- A delayed-read slot (R47). -/
structure Slot where
  state : SlotState
  key : SlotKey
  window : WindowId
  cardAddr : CardAddr
  portWidth : PortWidth
  locked : Bool
  ahead : Nat
  data : Option (List CheckedWord)
  hold : Option Timer
  releaseMark : Bool
  deriving DecidableEq, Repr

/-- A FREE slot: the values of R47, which every freed slot takes (R66). -/
def Slot.powerOn : Slot where
  state := .free
  key := ⟨0, 0, .one, 1, .noLock⟩
  window := 0
  cardAddr := 0
  portWidth := .bits8
  locked := false
  ahead := 0
  data := none
  hold := none
  releaseMark := false

/-! ### Lock unit (chapter 4) -/

/-- The states of the lock (R71). -/
inductive LockState where
  | free | pending | owned
  deriving DecidableEq, Repr

/-- The lock record (R71). The broken-lock notes are in the master records. -/
structure Lock where
  state : LockState
  owner : Option MasterId
  window : Option WindowId
  slot : Option SlotId
  hold : Option Timer
  closing : Bool
  deriving DecidableEq, Repr

/-- The FREE lock (R71). -/
def Lock.powerOn : Lock := ⟨.free, none, none, none, none, false⟩

/-! ### Card bus controller (chapter 6) -/

/-- A data entry's drain or a slot's fetch (R109). -/
inductive AccessKind where
  | drain | fetch
  deriving DecidableEq, Repr

/-- An operation of the gate on the card bus: address, size, direction, byte enables, and for a write the
data driven on the enabled lanes (R110, R111, R112). -/
structure CardOp where
  addr : CardAddr
  size : BeatUnit
  write : Bool
  enables : Lanes
  data : Word
  deriving DecidableEq, Repr

/-- The outstanding operation with its response timer (R109, R113). -/
structure PieceOp where
  op : CardOp
  timer : Timer
  deriving DecidableEq, Repr

/-- The access in flight (R109). A drain's subject is the head entry of the queue; a fetch's subject is
`slot`, absent once the fetch has been detached. -/
structure Access where
  kind : AccessKind
  slot : Option SlotId
  cardAddr : CardAddr
  unit : BeatUnit
  beats : Nat
  portWidth : PortWidth
  beat : Nat
  piece : Nat
  bytes : Nat
  gathered : List Word
  op : Option PieceOp
  stop : Bool
  deriving DecidableEq, Repr

/-- The card bus controller (R109). -/
structure Controller where
  request : Bool
  tenure : Bool
  access : Option Access
  deriving DecidableEq, Repr

/-- The controller after power-on reset (R109). -/
def Controller.powerOn : Controller := ⟨false, false, none⟩

/-! ### Card bus arbiter (chapter 7) -/

/-- The requesters of the card bus: the gate, and the resident ports (R125). -/
inductive Requester where
  | gate
  | port (p : Port)
  deriving DecidableEq, Repr

/-- The arbiter's state with its owner, and in LOCKED whether the owner is in a tenure (R125, R127). -/
inductive ArbState where
  | stopped
  | parked (owner : Requester)
  | tenure (owner : Requester)
  | locked (owner : Requester) (inTenure : Bool)
  deriving DecidableEq, Repr

/-- Where the grant is parked when nobody requests (R125, R129). -/
inductive ParkPolicy where
  | last | gate | portA | portB | portC
  deriving DecidableEq, Repr

/-- One level or one choice per resident port. -/
structure PortSet where
  a : Bool
  b : Bool
  c : Bool
  deriving DecidableEq, Repr

/-- The arbiter's record (R125). `overstay` holds the overstay deadline and the overstay limit. -/
structure Arbiter where
  state : ArbState
  pointer : Requester
  lockHold : Bool
  overstay : Option Timer
  policy : ParkPolicy
  highWater : Nat
  enabled : PortSet
  deriving DecidableEq, Repr

/-- The arbiter on release of power-on or card reset (R125, R135). -/
def Arbiter.powerOn : Arbiter where
  state := .parked (.port .a)
  pointer := .port .a
  lockHold := false
  overstay := none
  policy := .last
  highWater := Config.highWaterDefault
  enabled := ⟨true, true, true⟩

/-- The arbiter while power-on or card reset is asserted (R135). -/
def Arbiter.held : Arbiter where
  state := .stopped
  pointer := .port .a
  lockHold := false
  overstay := none
  policy := .last
  highWater := Config.highWaterDefault
  enabled := ⟨true, true, true⟩

/-- The levels of the residents' request and hold lines (R126): inputs of the gate. -/
structure ResidentLines where
  request : PortSet
  hold : PortSet
  deriving DecidableEq, Repr

/-! ### Control unit (chapter 8) -/

/-- The control unit's record (R138). -/
structure ControlUnit where
  manager : Option MasterId
  attention : Bool
  readHold : Nat
  lockHold : Nat
  cardResponse : Nat
  residentTenure : Nat
  deriving DecidableEq, Repr

/-- The control unit after power-on reset (R138). -/
def ControlUnit.powerOn : ControlUnit where
  manager := none
  attention := false
  readHold := Config.readHoldDefault
  lockHold := Config.lockHoldDefault
  cardResponse := Config.cardResponseDefault
  residentTenure := Config.residentTenureDefault

/-! ### Report queue (chapter 9) -/

/-- The kinds of report (R164, R186). -/
inductive ReportKind where
  | result | resetNotice | writeLost | readFailed | readAbandoned | lockBroken | violation
  | masterBarred | dataCheck | windowFrozen | windowFreed | quiesced | residentOverstay | fault
  deriving DecidableEq, Repr

/-- The status of a RESULT (R151). -/
inductive Status where
  | ok | already | busy | badOperand | wrongState | started
  deriving DecidableEq, Repr

/-- What the maker of a report fills (R164). -/
structure ReportBody where
  kind : ReportKind
  tag : Option Tag
  status : Option Status
  master : Option MasterId
  window : Option WindowId
  addr : Option Word
  detail : Word
  deriving DecidableEq, Repr

/-- A stored report: the maker's fields, and the two the report queue fills (R164, R165). -/
structure Report where
  seq : Tag
  suppressed : Nat
  body : ReportBody
  deriving DecidableEq, Repr

/-- The posted write queue's request for a place for a RESULT (R167). -/
inductive SpaceRequest where
  | none | waiting | held
  deriving DecidableEq, Repr

/-- The report queue's record (R163), with the numbers a card reset handed over for the RESET NOTICE
(CARD) made at its release (R44, R171). -/
structure ReportQueue where
  reports : List Report
  nextSeq : Tag
  suppressed : Nat
  space : SpaceRequest
  cardData : Nat
  cardControl : Nat
  deriving DecidableEq, Repr

/-- The report queue after power-on reset, before the RESET NOTICE (POWER) is stored (R163, R172). -/
def ReportQueue.powerOn : ReportQueue := ⟨[], 0, 0, .none, 0, 0⟩

/-! ### Gate state controller (chapter 10) -/

/-- The gate states (R173). -/
inductive GateState where
  | reset | standby | enabled | quiescing | faulted
  deriving DecidableEq, Repr

/-- Why the gate is FAULTED (R173). -/
inductive FaultCause where
  | none | queueCheck | slotCheck
  deriving DecidableEq, Repr

/-- The gate state controller's record (R173). -/
structure GateController where
  state : GateState
  cause : FaultCause
  quiesceTag : Option Tag
  deriving DecidableEq, Repr

/-! ### Trunk interface -/

/-- The outcome of a trunk transaction; DONE carries the words of a read (R89, R90). -/
inductive Answer where
  | done (words : List CheckedWord)
  | retry
  | refuse
  | unclaimed
  deriving DecidableEq, Repr

/-- The trunk interface: the slot number (R91), the service line's level (R169), and the last answer it
drove (the model's record of an output, log 4). -/
structure TrunkInterface where
  slotNumber : BitVec 4
  serviceLine : Bool
  answer : Option Answer
  deriving DecidableEq, Repr

/-! ### The gate -/

/-- The whole gate, and the model's own queue of commands and count of free choices taken. -/
structure State where
  /-- The timebase's count of microseconds (R1). -/
  timebase : Time
  /-- Power-on reset is asserted (R175). -/
  porAsserted : Bool
  /-- Card reset is asserted (R175). -/
  cardAsserted : Bool
  ti : TrunkInterface
  windows : Vector Window 32
  masters : Vector Master 16
  pwq : WriteQueue
  slots : Vector Slot 8
  /-- The non-FREE slots, oldest first (R48). -/
  ageOrder : List SlotId
  lock : Lock
  cbc : Controller
  arb : Arbiter
  lines : ResidentLines
  cu : ControlUnit
  rq : ReportQueue
  gsc : GateController
  /-- MODEL: how many free choices have been taken (log 5). -/
  freeCount : Nat
  /-- MODEL: the commands waiting, first in, first out (log 6). -/
  pending : List Instr
  deriving DecidableEq, Repr

/-- Why the machine stops. -/
inductive Fault where
  /-- Raised by a trunk transaction of 0 or of more than 16 beats (R88 gives a transaction 1 to 16). Safe:
  the trunk carries no such transaction, so the hardware has no behaviour that the model leaves out. -/
  | illFormed
  deriving DecidableEq, Repr

/-- Why a command has no meaning. -/
inductive Refusal where
  /-- Raised by an arm of `exec` whose command is not modelled yet; no arm raises it now. Safe. -/
  | notModelled (mnemonic : String)
  deriving DecidableEq, Repr

/-- The RESET NOTICE (POWER) as power-on reset stores it: sequence 0, suppressed 0 (R171, R186). -/
def powerNotice : Report := ⟨0, 0, ⟨.resetNotice, none, none, none, none, none, 0⟩⟩

/-- The gate right after the release of power-on reset (the columns "After power-on", R171, R175; log 1 to
log 6 for the fields the spec gives no value for). -/
def State.reset : State where
  timebase := 0
  porAsserted := false
  cardAsserted := false
  ti := ⟨0, false, none⟩
  windows := Vector.replicate 32 Window.powerOn
  masters := Vector.replicate 16 Master.powerOn
  pwq := WriteQueue.powerOn
  slots := Vector.replicate 8 Slot.powerOn
  ageOrder := []
  lock := Lock.powerOn
  cbc := Controller.powerOn
  arb := Arbiter.powerOn
  lines := ⟨⟨false, false, false⟩, ⟨false, false, false⟩⟩
  cu := ControlUnit.powerOn
  rq := ⟨[powerNotice], 1, 0, .none, 0, 0⟩
  gsc := ⟨.standby, .none, none⟩
  freeCount := 0
  pending := []

end Sys2Proof.Machine
end

