-- ==== Sys2Proof/Machine/Lanes.lean ====
section
/-! DEFINITION. Bytes, lanes and check codes: sizes in bytes, the lanes a beat or piece occupies, the check
code of a word, the cutting of beats into pieces, byte ranges, fields of words, and updates of a table. -/

namespace Sys2Proof.Machine

/-- The size of a unit in bytes. -/
def unitBytes : BeatUnit → Nat
  | .one => 1
  | .two => 2
  | .four => 4

/-- The unit of a number of bytes, for a piece size (R110). -/
def unitOfBytes (n : Nat) : BeatUnit :=
  if n = 1 then .one else if n = 2 then .two else .four

/-- A port width in bytes. -/
def portBytes : PortWidth → Nat
  | .bits8 => 1
  | .bits16 => 2
  | .bits32 => 4

/-- The lanes of `n` bytes at a byte address whose remainder mod 4 is `low` (R89, R110). -/
def laneMask (low n : Nat) : Lanes := BitVec.ofNat 4 ((2 ^ n - 1) * 2 ^ low)

/-- The byte of a lane. -/
def laneByte (w : Word) (lane : Nat) : BitVec 8 := w.extractLsb' (8 * lane) 8

/-- Whether a byte has an odd number of ones. -/
def oddOnes (b : BitVec 8) : Bool :=
  (b.getLsbD 0 ^^ b.getLsbD 1) ^^ (b.getLsbD 2 ^^ b.getLsbD 3) ^^
    ((b.getLsbD 4 ^^ b.getLsbD 5) ^^ (b.getLsbD 6 ^^ b.getLsbD 7))

/-- The check code of a word: each lane's check bit makes the number of ones among the lane's bits and the
check bit odd (R96). -/
def checkCode (w : Word) : Lanes :=
  BitVec.ofBool (!oddOnes (laneByte w 3)) ++ BitVec.ofBool (!oddOnes (laneByte w 2)) ++
    BitVec.ofBool (!oddOnes (laneByte w 1)) ++ BitVec.ofBool (!oddOnes (laneByte w 0))

/-- Whether a check code agrees with its word in every lane (R96). -/
def codeAgrees (w : Word) (code : Lanes) : Bool := checkCode w = code

/-- Whether a beat's check code agrees with its data word. -/
def beatAgrees (b : Beat) : Bool := codeAgrees b.data b.code

/-- Whether a stored word's check code agrees with it (R121). -/
def wordAgrees (c : CheckedWord) : Bool := codeAgrees c.word c.code

/-- A word with the check code formed for it (R59, R96). -/
def withCode (w : Word) : CheckedWord := ⟨w, checkCode w⟩

/-- The bytes of `data` on the enabled lanes, and the bytes of `old` on the others. -/
def mergeLanes (old data : Word) (lanes : Lanes) : Word :=
  let pick (lane : Nat) : BitVec 8 := if lanes.getLsbD lane then laneByte data lane else laneByte old lane
  pick 3 ++ pick 2 ++ pick 1 ++ pick 0

/-- How many lanes are set. -/
def laneCount (l : Lanes) : Nat :=
  (l.getLsbD 0).toNat + (l.getLsbD 1).toNat + (l.getLsbD 2).toNat + (l.getLsbD 3).toNat

/-! ### Pieces (R110) -/

/-- The size of a piece in bytes: the smaller of the unit and the port width (R110). -/
def pieceBytes (u : BeatUnit) (p : PortWidth) : Nat := min (unitBytes u) (portBytes p)

/-- How many pieces a beat has (R110). -/
def piecesPerBeat (u : BeatUnit) (p : PortWidth) : Nat := unitBytes u / pieceBytes u p

/-- The card address of piece `k` of beat `i` (R110). -/
def pieceAddr (base : CardAddr) (u : BeatUnit) (p : PortWidth) (i k : Nat) : CardAddr :=
  base + BitVec.ofNat 28 (i * unitBytes u + k * pieceBytes u p)

/-- The lanes a piece at card address `c` occupies (R110). -/
def pieceLanes (c : CardAddr) (u : BeatUnit) (p : PortWidth) : Lanes := laneMask (c.toNat % 4) (pieceBytes u p)

/-! ### Byte ranges (R27, R38) -/

/-- Whether [a, a + n) and [b, b + m) share a byte address (R38). -/
def rangesOverlap (a n b m : Nat) : Bool := a < b + m && b < a + n

/-- The number of bytes of a transaction, entry or slot. -/
def spanBytes (u : BeatUnit) (beats : Nat) : Nat := beats * unitBytes u

/-! ### Fields of words (chapter 11) -/

/-- The field of `width` bits of a word whose lowest bit is bit `low`. -/
def field (w : Word) (low width : Nat) : Nat := (w.toNat / 2 ^ low) % 2 ^ width

/-- A bit of a word. -/
def flagBit (w : Word) (low : Nat) : Bool := field w low 1 = 1

/-! ### Tables -/

/-- A table with entry `i` replaced by `f` of it. -/
def modAt {n : Nat} {α : Type} (t : Vector α n) (i : Fin n) (f : α → α) : Vector α n := t.set i.val (f t[i]) i.isLt

/-- A table with `f` applied to every entry. -/
def mapTable {n : Nat} {α : Type} (t : Vector α n) (f : α → α) : Vector α n := Vector.ofFn fun i => f t[i]

/-- How many entries of a table satisfy `p`. -/
def countTable {n : Nat} {α : Type} (t : Vector α n) (p : α → Bool) : Nat := t.toList.countP p

end Sys2Proof.Machine
end

