-- ==== Sys2Proof/Machine/Ops.lean ====
section
/-! DEFINITION. The named operations over the gate's blocks: timers, reports and the service line, claims on
the window and master tables, the freeing of slots, the posted write queue's head, and the completion of
a quiesce. A block has no exception entry: a failed buffer check is in Machine/Faulting.lean. -/

namespace Sys2Proof.Machine

/-! ### Timers (R1) -/

/-- A timer with a limit, started now (R1). -/
def startTimer (s : State) (limit : Nat) : Timer := ⟨s.timebase, limit⟩

/-- A timer's deadline: start + limit, mod 2^32 (R1). -/
def deadline (t : Timer) : Time := t.start + BitVec.ofNat 32 t.limit

/-- Whether a timer has expired: the count, less its start mod 2^32, is at or above its limit (R1). -/
def expired (now : Time) (t : Timer) : Bool := t.limit ≤ (now - t.start).toNat

/-! ### Reports (chapter 9) -/

/-- The service line is asserted while attention is on and a report is stored (R169). -/
def driveLine (s : State) : State :=
  { s with ti.serviceLine := s.cu.attention && !s.rq.reports.isEmpty }

/-- A place of the sixteen taken by neither a stored report nor a HELD request is free (R163). -/
def freePlaces (s : State) : Nat :=
  Config.reportPlaces - s.rq.reports.length - (if s.rq.space = .held then 1 else 0)

/-- Storing a report at the tail (R165). -/
def storeReport (b : ReportBody) (s : State) : State :=
  driveLine { s with
    rq.reports := s.rq.reports ++ [⟨s.rq.nextSeq, s.rq.suppressed, b⟩]
    rq.nextSeq := s.rq.nextSeq + 1
    rq.suppressed := 0 }

/-- Offering a report of a kind other than RESULT: stored in a free place, else suppressed (R166). -/
def offerReport (b : ReportBody) (s : State) : State :=
  if 0 < freePlaces s then storeReport b s
  else { s with rq.suppressed := min 255 (s.rq.suppressed + 1) }

/-- Storing a RESULT in the place held for it; the request becomes NONE (R166, R167). -/
def storeResult (b : ReportBody) (s : State) : State :=
  storeReport b { s with rq.space := .none }

/-- A report that fills the fields given (R164); `detail` is a sum of its fields' contributions. -/
def reportBody (kind : ReportKind) (master : Option MasterId) (window : Option WindowId)
    (addr : Option Word) (detail : Nat) : ReportBody :=
  ⟨kind, none, none, master, window, addr, BitVec.ofNat 32 detail⟩

/-! ### Claims on the tables (R13, R14, R99) -/

/-- A window's reference count rises by one (R13). -/
def raiseRef (w : WindowId) (s : State) : State :=
  { s with windows := modAt s.windows w fun e => { e with refCount := e.refCount + 1 } }

/-- A window's reference count falls by one (R14). -/
def lowerRef (w : WindowId) (s : State) : State :=
  { s with windows := modAt s.windows w fun e => { e with refCount := e.refCount - 1 } }

/-- A master's outstanding-writes count rises by one (R30, R99). -/
def raiseWrites (m : MasterId) (s : State) : State :=
  { s with masters := modAt s.masters m fun e => { e with outWrites := e.outWrites + 1 } }

/-- A master's outstanding-writes count falls by one (R37, R99). -/
def lowerWrites (m : MasterId) (s : State) : State :=
  { s with masters := modAt s.masters m fun e => { e with outWrites := e.outWrites - 1 } }

/-- A master's outstanding-reads count rises by one (R55, R99). -/
def raiseReads (m : MasterId) (s : State) : State :=
  { s with masters := modAt s.masters m fun e => { e with outReads := e.outReads + 1 } }

/-- A master's outstanding-reads count falls by one (R66, R99). -/
def lowerReads (m : MasterId) (s : State) : State :=
  { s with masters := modAt s.masters m fun e => { e with outReads := e.outReads - 1 } }

/-- Sets a master's broken-lock note (R76). -/
def setNote (m : MasterId) (note : Option WindowId) (s : State) : State :=
  { s with masters := modAt s.masters m fun e => { e with note := note } }

/-! ### The freeing of DRAINING windows (R15) -/

/-- A window that becomes FREE: frozen reads no, the retire tag is absent, the other fields stay (R15). -/
def freedWindow (e : Window) : Window := { e with state := .free, frozen := false, retireTag := none }

/-- The WINDOW FREED report of a window: its id, and the retire tag in the detail (R15, R186). -/
def windowFreedBody (w : WindowId) (tag : Option Tag) : ReportBody :=
  reportBody .windowFreed none (some w) none ((tag.map BitVec.toNat).getD 0)

/-- A DRAINING window whose count is 0 becomes FREE with its report (R15). -/
def freeIfDrained (s : State) (w : WindowId) : State :=
  if s.windows[w].state = .draining ∧ s.windows[w].refCount = 0 then
    offerReport (windowFreedBody w s.windows[w].retireTag) { s with windows := modAt s.windows w freedWindow }
  else s

/-- The DRAINING windows that an event's decrements have brought to 0 become FREE, their reports in
ascending window id (R15). -/
def freeDrainedWindows (s : State) : State := (List.finRange 32).foldl freeIfDrained s

/-! ### Slots (chapter 3) -/

/-- Writes a slot. -/
def modSlot (i : SlotId) (f : Slot → Slot) (s : State) : State := { s with slots := modAt s.slots i f }

/-- A slot is freed: it takes the values of R47, leaves the age order, and its master's and window's counts
fall by one (R66). A FREE slot stays as it is. -/
def freeSlot (i : SlotId) (s : State) : State :=
  if s.slots[i].state = .free then s
  else
    lowerRef s.slots[i].window (lowerReads s.slots[i].key.master
      { s with slots := modAt s.slots i (fun _ => Slot.powerOn), ageOrder := s.ageOrder.filter (· != i) })

/-- A slot is withdrawn: freed, or given the release mark while it is FETCHING (R67). A marked slot keeps its locked
flag until its fetch ends and frees it (log 30). -/
def withdrawSlot (i : SlotId) (s : State) : State :=
  if s.slots[i].state = .fetching then modSlot i (fun e => { e with releaseMark := true }) s else freeSlot i s

/-- Withdraws every non-FREE slot that satisfies `p` (R67). -/
def withdrawSlots (p : Slot → Bool) (s : State) : State :=
  (List.finRange 8).foldl (fun s i => if p s.slots[i] && s.slots[i].state != .free then withdrawSlot i s else s) s

/-- Every slot is freed at a reset or a fault (R70). -/
def freeAllSlots (s : State) : State := (List.finRange 8).foldl (fun s i => freeSlot i s) s

/-- The number of non-FREE slots. -/
def slotsInUse (s : State) : Nat := countTable s.slots fun e => e.state != .free

/-- A slot is eligible when it is WAITING with ahead count 0 (R57). -/
def eligible (s : State) (i : SlotId) : Bool := s.slots[i].state = .waiting && s.slots[i].ahead = 0

/-- A READY slot that is not locked and overlaps a write becomes STALE (R38, R64). -/
def staleSlot (addr : CardAddr) (bytes : Nat) (e : Slot) : Slot :=
  if e.state = .ready && !e.locked &&
      rangesOverlap e.cardAddr.toNat (spanBytes e.key.unit e.key.beats) addr.toNat bytes then
    { e with state := .stale }
  else e

/-- The staleness test of a write of `bytes` bytes at a card address (R64). -/
def markStale (addr : CardAddr) (bytes : Nat) (s : State) : State :=
  { s with slots := mapTable s.slots (staleSlot addr bytes) }

/-! ### The posted write queue (chapter 2) -/

/-- Whether an entry is a data entry. -/
def isData : Entry → Bool
  | .data _ => true
  | .control _ => false

/-- The number of data entries in the queue (R26). -/
def dataCount (s : State) : Nat := s.pwq.entries.countP isData

/-- The number of entries in the queue (R26). -/
def queueLength (s : State) : Nat := s.pwq.entries.length

/-- Whether the head entry is in drain: the controller's access is a drain, and a drain's subject is the
head (R35, R109). -/
def inDrain (s : State) : Bool :=
  match s.cbc.access with
  | some a => a.kind = .drain
  | none => false

/-- A WAITING slot's ahead count falls by one when an entry leaves the head (R37, R57). -/
def lowerAhead (e : Slot) : Slot :=
  if e.state = .waiting && 0 < e.ahead then { e with ahead := e.ahead - 1 } else e

/-- The claims of a data entry's removal on the master and window tables (R37, R23). -/
def dropClaims (d : DataEntry) (s : State) : State :=
  let s := lowerWrites d.master s
  if d.names then lowerRef d.window s else s

/-- The claims of an entry's removal (R37). -/
def entryClaims (e : Entry) (s : State) : State :=
  match e with
  | .data d => dropClaims d s
  | .control _ => s

/-- The removal of the head entry with its effects on counts, ahead counts and claims (R37). -/
def removeHead (s : State) : State :=
  match s.pwq.entries with
  | [] => s
  | e :: rest =>
    entryClaims e { s with pwq.entries := rest, slots := mapTable s.slots lowerAhead }

/-- One more data entry dropped (R41). -/
def countDropped (s : State) : State := { s with pwq.dropped := s.pwq.dropped + 1 }

/-- One more data entry performed (R41). -/
def countPerformed (s : State) : State := { s with pwq.performed := s.pwq.performed + 1 }

/-- A window's discard count rises by one, staying at 65535 (R20). -/
def countDiscard (w : WindowId) (s : State) : State :=
  { s with windows := modAt s.windows w fun e => { e with discards := min 65535 (e.discards + 1) } }

/-- Whether a data entry names a window that is frozen at this moment (R20, R32). -/
def entryFrozen (s : State) (d : DataEntry) : Bool := d.names && s.windows[d.window].frozen

/-- The data entries that leave from the head without a card-bus access: the void ones (R34), and those of
a window that is frozen (R20). `fuel` bounds the number of entries looked at. -/
def dropDeadHeads : Nat → State → State
  | 0, s => s
  | fuel + 1, s =>
    match s.pwq.entries with
    | .data d :: _ =>
      if inDrain s then s
      else if d.void then dropDeadHeads fuel (removeHead (countDropped s))
      else if entryFrozen s d then dropDeadHeads fuel (removeHead (countDropped (countDiscard d.window s)))
      else s
    | _ => s

/-- A control entry that has reached the head asks the report queue for a place (R167). -/
def askForPlace (s : State) : State :=
  match s.pwq.entries with
  | .control _ :: _ =>
    if s.rq.space = .none then
      { s with rq.space := if 0 < freePlaces s then .held else .waiting }
    else s
  | _ => s

/-! ### Quiesce completion (R177) -/

/-- The three completion conditions (R177). -/
def quiesceConditions (s : State) : Bool :=
  dataCount s = 0 && slotsInUse s = 0 && s.lock.state = .free

/-- The completion test while the gate is QUIESCING (R177). -/
def testQuiesce (s : State) : State :=
  if s.gsc.state = .quiescing && quiesceConditions s then
    offerReport (reportBody .quiesced none none none ((s.gsc.quiesceTag.map BitVec.toNat).getD 0))
      { s with gsc.state := .standby, gsc.quiesceTag := none }
  else s

/-- The void entries and those of frozen windows leave the head within the event that brings them there (R20, R32,
R34). -/
def leaveDeadHeads (s : State) : State := dropDeadHeads (queueLength s) s

/-- What an event ends with, once for the whole event: every DRAINING window that it has brought to 0 becomes FREE, the
reports in ascending window id (R15), then a quiesce completes (R177), then a control entry that has reached the head
asks for its place (R167); log 13. -/
def finishEvent (s : State) : State := askForPlace (testQuiesce (freeDrainedWindows s))

/-- A data entry appended at the tail (R30). -/
def appendData (d : DataEntry) (s : State) : State :=
  raiseRef d.window (raiseWrites d.master
    { s with pwq.entries := s.pwq.entries ++ [.data d], pwq.accepted := s.pwq.accepted + 1 })

/-- A control entry appended at the tail (R31). -/
def appendControl (c : ControlEntry) (s : State) : State :=
  { s with pwq.entries := s.pwq.entries ++ [.control c] }

/-! ### The emptying of the queue at a gate reset or a fault (R46) -/

/-- The entries that stay: the one in drain (R46). -/
def keptEntries (s : State) : List Entry := if inDrain s then s.pwq.entries.take 1 else []

/-- The entries removed at once (R46). -/
def removedEntries (s : State) : List Entry := if inDrain s then s.pwq.entries.drop 1 else s.pwq.entries

/-- The queue is emptied: every entry whose drain has not begun is removed with its claims, the data entries
among them count as dropped, and the space request becomes NONE (R46, R167). The ahead counts need no
lowering: the same event frees every slot (R70). -/
def emptyQueue (s : State) : State :=
  let removed := removedEntries s
  removed.foldl (fun s e => entryClaims e s)
    { s with
      pwq.entries := keptEntries s
      pwq.dropped := s.pwq.dropped + BitVec.ofNat 32 (removed.countP isData)
      rq.space := .none }

/-- The number of data entries removed at once (R46). -/
def removedData (s : State) : Nat := (removedEntries s).countP isData

/-- The number of control entries removed at once (R46). -/
def removedControl (s : State) : Nat := (removedEntries s).countP fun e => !isData e

end Sys2Proof.Machine
end

