-- ==== Sys2Proof/Machine/Arbiter.lean ====
section
/-! DEFINITION. The card bus arbiter (chapter 7): requests, decisions, parking, holds, settings; and the
gate's own request and tenure, which the arbiter grants (R116, R118). -/

namespace Sys2Proof.Machine

/-- The level or choice of a port. -/
def portOf (ps : PortSet) : Port → Bool
  | .a => ps.a
  | .b => ps.b
  | .c => ps.c

/-- Sets the level of a port. -/
def setPort (ps : PortSet) (p : Port) (on : Bool) : PortSet :=
  match p with
  | .a => { ps with a := on }
  | .b => { ps with b := on }
  | .c => { ps with c := on }

/-- A resident's request line changes (R126). -/
def setRequestLine (p : Port) (on : Bool) (s : State) : State :=
  { s with lines.request := setPort s.lines.request p on }

/-- A resident's hold line changes (R126). -/
def setHoldLine (p : Port) (on : Bool) (s : State) : State :=
  { s with lines.hold := setPort s.lines.hold p on }

/-- A requester that the arbiter counts at a decision: the gate if its request is raised, an enabled
resident port whose request line is raised (R128). -/
def requesting (s : State) : Requester → Bool
  | .gate => s.cbc.request
  | .port p => portOf s.arb.enabled p && portOf s.lines.request p

/-- The rotation G, A, B, C, G, starting after a requester, which is met last (R128). -/
def rotationAfter : Requester → List Requester
  | .gate => [.port .a, .port .b, .port .c, .gate]
  | .port .a => [.port .b, .port .c, .gate, .port .a]
  | .port .b => [.port .c, .gate, .port .a, .port .b]
  | .port .c => [.gate, .port .a, .port .b, .port .c]

/-- The gate requests and the data count is at or above the high-water mark (R42, R128). -/
def urgent (s : State) : Bool := s.cbc.request && s.arb.highWater ≤ dataCount s

/-- The winner of a decision, if anybody requests (R128). -/
def winner (s : State) : Option Requester :=
  if urgent s then some .gate else (rotationAfter s.arb.pointer).find? (requesting s)

/-- The overstay timer of an ownership that begins now, if the resident tenure limit is not 0 (R133). -/
def overstayTimer (s : State) : Option Timer :=
  if s.cu.residentTenure = 0 then none else some (startTimer s s.cu.residentTenure)

/-- A requester receives the grant and its tenure begins; the pointer becomes it, and a resident whose
hold line is raised begins in LOCKED (R128, R129, R130, R133). -/
def grantTo (r : Requester) (s : State) : State :=
  match r with
  | .gate =>
    { s with arb.state := .tenure .gate, arb.pointer := .gate, arb.overstay := none, cbc.tenure := true }
  | .port p =>
    { s with
      arb.state := if portOf s.lines.hold p then .locked (.port p) true else .tenure (.port p)
      arb.pointer := .port p
      arb.overstay := overstayTimer s }

/-- The requester named by a park policy (R129). -/
def policyTarget (s : State) : Requester :=
  match s.arb.policy with
  | .last => s.arb.pointer
  | .gate => .gate
  | .portA => .port .a
  | .portB => .port .b
  | .portC => .port .c

/-- The park target: the policy's requester, or the gate where that is a port not enabled (R129). -/
def parkTarget (s : State) : Requester :=
  match policyTarget s with
  | .gate => .gate
  | .port p => if portOf s.arb.enabled p then .port p else .gate

/-- The grant parks at the park target; the pointer keeps its value (R129). -/
def park (s : State) : State :=
  { s with arb.state := .parked (parkTarget s), arb.overstay := none }

/-- A decision (R128). The previous owner has lost the grant by it, and its overstay timer ends (R133). -/
def decision (s : State) : State :=
  match winner s with
  | some r => grantTo r s
  | none => park s

/-- A request arrives at the arbiter (R127): a parked owner begins its tenure at once (R129), another's
request in PARKED is a decision, an owner between tenures begins a new tenure (R130), all others wait. -/
def requestArrives (r : Requester) (s : State) : State :=
  match s.arb.state with
  | .stopped => s
  | .parked owner => if owner = r then grantTo r s else decision s
  | .tenure _ => s
  | .locked owner inTenure =>
    if owner = r && !inTenure then { s with arb.state := .locked owner true } else s

/-! ### The gate's request and tenure -/

/-- The data entry that the queue offers at its head: not void, not frozen, its drain not begun (R32, R35). -/
def offeredHead (s : State) : Option DataEntry :=
  match s.pwq.entries with
  | .data d :: _ => if inDrain s || d.void || entryFrozen s d then none else some d
  | _ => none

/-- The eligible slot that comes first in the age order (R58, R117). -/
def oldestEligible (s : State) : Option SlotId := s.ageOrder.find? (eligible s)

/-- The controller has a candidate (section 6.4). -/
def hasCandidate (s : State) : Bool := (oldestEligible s).isSome || (offeredHead s).isSome

/-- The controller reviews its request while it holds no tenure (R116). -/
def reviewRequest (s : State) : State :=
  if s.cbc.tenure then s
  else if hasCandidate s then
    if s.cbc.request then s else requestArrives .gate { s with cbc.request := true }
  else { s with cbc.request := false }

/-- The arbiter takes the end of the gate's tenure: a decision (R126, R128, R131). -/
def gateTenureEnds (s : State) : State :=
  match s.arb.state with
  | .tenure .gate => decision s
  | .locked .gate _ => decision s
  | _ => s

/-- The controller ends its tenure and reviews its request in the same event, so that the decision counts a
renewed request (R118, R126). -/
def endTenure (s : State) : State :=
  gateTenureEnds { s with cbc.tenure := false, cbc.request := hasCandidate s }

/-- The controller settles its tenure at the end of an access: it continues under the lock hold and ends
otherwise (R118). A tenure that a fault has ended already is not ended again. -/
def settleTenure (s : State) : State := if s.arb.lockHold || !s.cbc.tenure then s else endTenure s

/-- The lock unit takes the gate's lock hold: LOCKED(G) with the owner in tenure (R131). -/
def takeHold (s : State) : State :=
  { s with arb.lockHold := true, arb.state := .locked .gate true }

/-- The lock unit releases the gate's lock hold, and the gate goes on in TENURE(G): an access in flight to its end, and a
tenure held idle to `endIdleTenure` within the event (R131, R136). -/
def releaseHold (s : State) : State :=
  if s.arb.lockHold then { s with arb.lockHold := false, arb.state := .tenure .gate } else s

/-- The tenure that the gate held idle under the lock hold ends, where the event has released the hold (`held` is the lock
hold before). The end is a decision that counts the gate's renewed request (R118, R126, R131), so an event that gives the
gate a candidate takes it last (log 32). -/
def endIdleTenure (held : Bool) (s : State) : State :=
  if held && !s.arb.lockHold && s.cbc.access.isNone then endTenure s else s

/-! ### Settings (R132) -/

/-- A free choice is taken (log 5). -/
def takeChoice (s : State) : State := { s with freeCount := s.freeCount + 1 }

/-- The value of the free choice taken next (log 5). -/
def choiceValue (s : State) : Nat := Config.freeChoice s.freeCount

/-- The owner's port is newly enabled in mid-tenure with its hold line raised: whether the arbiter heeds the
hold is open, and a free choice (log 11). -/
def heedHoldByChoice (p : Port) (s : State) : State :=
  if choiceValue s % 2 = 0 then takeChoice s
  else takeChoice { s with arb.state := .locked (.port p) true }

/-- What new settings do to the arbiter's present state (R132), given the ports enabled before. -/
def settingsTakeEffect (before : PortSet) (s : State) : State :=
  match s.arb.state with
  | .parked _ => decision s
  | .locked (.port p) inTenure =>
    if portOf s.arb.enabled p then s
    else if inTenure then { s with arb.state := .tenure (.port p) }
    else decision s
  | .tenure (.port p) =>
    if portOf s.arb.enabled p && !portOf before p && portOf s.lines.hold p then heedHoldByChoice p s else s
  | _ => s

/-- Writes the three settings, with their effects on the present state (R132, R137). -/
def writeSettings (policy : ParkPolicy) (highWater : Nat) (enabled : PortSet) (s : State) : State :=
  settingsTakeEffect s.arb.enabled
    { s with arb.policy := policy, arb.highWater := highWater, arb.enabled := enabled }

/-! ### Release of a reset (R135) -/

/-- The ports whose request lines are raised, in the order A, B, C. -/
def raisedPorts (ps : PortSet) : List Port := [Port.a, Port.b, Port.c].filter (portOf ps)

/-- A list with the element at `k` mod its length moved to the front. -/
def broughtForward (k : Nat) (ps : List Port) : List Port :=
  match ps[k % ps.length]? with
  | some p => p :: ps.filter (· != p)
  | none => ps

/-- The arbiter takes one request line as an arrival (R135). -/
def takeArrival (s : State) (p : Port) : State :=
  requestArrives (.port p) (setRequestLine p true s)

/-- The request lines raised at the release are taken as arrivals in PARKED(A), one after the other; where
more than one is raised, which is taken first is a free choice (R135, log 10). -/
def takeArrivals (s : State) : State :=
  let raised := raisedPorts s.lines.request
  let s0 := { s with lines.request := ⟨false, false, false⟩ }
  if raised.length ≤ 1 then raised.foldl takeArrival s0
  else takeChoice ((broughtForward (choiceValue s) raised).foldl takeArrival s0)

end Sys2Proof.Machine
end

