-- ==== Sys2Proof/Machine/Flags.lean ====
section
/-! DEFINITION. The words the gate returns: IDENTITY, COUNTS (R183), STATUS (R184), REPORT HEAD (R186),
WINDOW READBACK and MASTER READBACK (R187). Each word is the sum of its fields' contributions. -/

namespace Sys2Proof.Machine

/-- A flag as a bit. -/
def bit (b : Bool) : Nat := if b then 1 else 0

/-- The IDENTITY word (R183). -/
def identityWord : Word :=
  BitVec.ofNat 32 (Config.vendorCode + 2 ^ 16 * Config.partCode + 2 ^ 28 * Config.revisionCode)

/-- The COUNTS words (R183). -/
def countsWords (s : State) : List Word := [s.pwq.accepted, s.pwq.performed, s.pwq.dropped]

/-- The code of a lock state (R184). -/
def lockCode : LockState → Nat
  | .free => 0
  | .pending => 1
  | .owned => 2

/-- The code of a gate state; RESET is never seen (R170, R184). -/
def gateCode : GateState → Nat
  | .reset => 0
  | .standby => 0
  | .enabled => 1
  | .quiescing => 2
  | .faulted => 3

/-- Bits 3:2 of STATUS: the fault cause in FAULTED, the lock state otherwise (R184). -/
def lockOrCause (s : State) : Nat :=
  if s.gsc.state = .faulted then
    match s.gsc.cause with
    | .none => 0
    | .queueCheck => 1
    | .slotCheck => 2
  else lockCode s.lock.state

/-- The manager id field of STATUS: 0 when no manager is set (R184). -/
def managerField (s : State) : Nat := (s.cu.manager.map Fin.val).getD 0

/-- The report field of STATUS: the report count, or 17 while the space request is WAITING (R184). -/
def reportField (s : State) : Nat := if s.rq.space = .waiting then 17 else s.rq.reports.length

/-- The STATUS word (R170, R184). -/
def statusWord (s : State) : Word :=
  BitVec.ofNat 32 (gateCode s.gsc.state + 2 ^ 2 * lockOrCause s + 2 ^ 4 * bit s.cu.manager.isSome
    + 2 ^ 5 * managerField s + 2 ^ 9 * bit s.cu.attention + 2 ^ 10 * dataCount s + 2 ^ 15 * slotsInUse s
    + 2 ^ 19 * reportField s + 2 ^ 24 * s.rq.suppressed)

/-- The code of a report kind (R186). -/
def kindCode : ReportKind → Nat
  | .result => 1
  | .resetNotice => 2
  | .writeLost => 3
  | .readFailed => 4
  | .readAbandoned => 5
  | .lockBroken => 6
  | .violation => 7
  | .masterBarred => 8
  | .dataCheck => 9
  | .windowFrozen => 10
  | .windowFreed => 11
  | .quiesced => 12
  | .residentOverstay => 13
  | .fault => 14

/-- The code of a RESULT's status (R186). -/
def statusCode : Status → Nat
  | .ok => 0
  | .already => 1
  | .busy => 2
  | .badOperand => 3
  | .wrongState => 4
  | .started => 5

/-- The four words of a report (R186). -/
def reportWords (r : Report) : List Word :=
  [BitVec.ofNat 32 (r.seq.toNat + 2 ^ 16 * kindCode r.body.kind + 2 ^ 21 * bit r.body.master.isSome
      + 2 ^ 22 * bit r.body.window.isSome + 2 ^ 23 * bit r.body.addr.isSome + 2 ^ 24 * r.suppressed),
   BitVec.ofNat 32 ((r.body.tag.map BitVec.toNat).getD 0 + 2 ^ 16 * (r.body.status.map statusCode).getD 0
      + 2 ^ 20 * (r.body.master.map Fin.val).getD 0 + 2 ^ 24 * (r.body.window.map Fin.val).getD 0),
   r.body.addr.getD 0,
   r.body.detail]

/-- The EMPTY marker: kind code 0, the next sequence number and the suppressed count (R168, R186). -/
def emptyMarker (s : State) : List Word :=
  [BitVec.ofNat 32 (s.rq.nextSeq.toNat + 2 ^ 24 * s.rq.suppressed), 0, 0, 0]

/-- The words of REPORT HEAD (R144, R168). -/
def reportHeadWords (s : State) : List Word :=
  match s.rq.reports with
  | r :: _ => reportWords r
  | [] => emptyMarker s

/-- The code of a window state (R187). -/
def windowCode : WindowState → Nat
  | .free => 0
  | .live => 1
  | .draining => 2

/-- The code of a port width (R185, R187). -/
def portWidthCode : PortWidth → Nat
  | .bits8 => 0
  | .bits16 => 1
  | .bits32 => 2

/-- The code of an error policy (R185, R187). -/
def policyCode : ErrorPolicy → Nat
  | .continues => 0
  | .freezes => 1

/-- The code of an admission (R185, R187). -/
def admissionCode : Admission → Nat
  | .opened => 0
  | .barred => 1

/-- The eight words of WINDOW READBACK (R22, R187). -/
def windowWords (e : Window) : List Word :=
  [BitVec.ofNat 32 (windowCode e.state + 2 ^ 2 * bit e.frozen + 2 ^ 3 * bit e.retireTag.isSome + 2 ^ 4 * e.sizeCode
      + 2 ^ 10 * portWidthCode e.portWidth + 2 ^ 12 * bit e.lockable + 2 ^ 13 * policyCode e.policy),
   e.trunkBase,
   e.cardBase.setWidth 32,
   BitVec.ofNat 32 (e.readMask.toNat + 2 ^ 16 * e.writeMask.toNat),
   BitVec.ofNat 32 e.refCount,
   BitVec.ofNat 32 e.discards,
   BitVec.ofNat 32 ((e.retireTag.map BitVec.toNat).getD 0),
   0]

/-- The four words of MASTER READBACK (R106, R187). -/
def masterWords (e : Master) : List Word :=
  [BitVec.ofNat 32 (admissionCode e.admission + 2 ^ 8 * e.creditLimit + 2 ^ 16 * e.readLimit + 2 ^ 24 * e.barThreshold),
   BitVec.ofNat 32 (e.outWrites + 2 ^ 8 * e.outReads),
   BitVec.ofNat 32 e.violations,
   BitVec.ofNat 32 ((e.note.map Fin.val).getD 0 + 2 ^ 8 * bit e.note.isSome)]

end Sys2Proof.Machine
end

