-- ==== Sys2Proof/Machine/Operands.lean ====
section
/-! DEFINITION. The operand forms: the words of ordered records (R148, R149, R185) and the shapes of
control-region transactions (R139). -/

namespace Sys2Proof.Machine

/-! ### Word 0 of a record (R185) -/

/-- The command of a command code (R185). -/
def commandOfCode (n : Nat) : Option Command :=
  if n = 0x01 then some .loadWindow
  else if n = 0x02 then some .retireWindow
  else if n = 0x03 then some .modifyWindow
  else if n = 0x04 then some .thawWindow
  else if n = 0x10 then some .setMaster
  else if n = 0x11 then some .setTimers
  else if n = 0x12 then some .setArbitration
  else if n = 0x20 then some .enable
  else if n = 0x21 then some .quiesce
  else if n = 0x22 then some .fence
  else none

/-- The number of operand words of a command (R148, R185). -/
def operandWords : Command → Nat
  | .loadWindow => 4
  | .retireWindow => 1
  | .modifyWindow => 2
  | .thawWindow => 1
  | .setMaster => 2
  | .setTimers => 2
  | .setArbitration => 1
  | .enable => 0
  | .quiesce => 0
  | .fence => 0

/-- The command field of word 0: bits 7:0 (R185). -/
def recordCommand (w0 : Word) : Option Command := commandOfCode (field w0 0 8)

/-- The tag field of word 0: bits 23:8 (R185). -/
def recordTag (w0 : Word) : Tag := BitVec.ofNat 16 (field w0 8 16)

/-- The length field of word 0: bits 27:24 (R185). -/
def recordLength (w0 : Word) : Nat := field w0 24 4

/-- The bits of each operand word that are not reserved (R185). -/
def usedBits : Command → List Word
  | .loadWindow => [0x001F1FFF, 0xFFFFFFFF, 0x0FFFFFFF, 0xFFFFFFFF]
  | .retireWindow => [0x000000FF]
  | .modifyWindow => [0x001C00FF, 0xFFFFFFFF]
  | .thawWindow => [0x000000FF]
  | .setMaster => [0x000007FF, 0x00FFFFFF]
  | .setTimers => [0xFFFFFFFF, 0xFFFFFFFF]
  | .setArbitration => [0x0007FF07]
  | .enable => []
  | .quiesce => []
  | .fence => []

/-- No operand word has a 1 outside the used bits (R149, R182). -/
def reservedClear : List Word → List Word → Bool
  | used :: us, w :: ws => (w &&& ~~~used) = 0 && reservedClear us ws
  | _, _ => true

/-- The control entry of a record whose form passes conditions 1 to 3 of R149. -/
def recordEntry (writer : MasterId) (words : List Word) : Option ControlEntry :=
  match words with
  | [] => none
  | w0 :: operands =>
    match recordCommand w0 with
    | none => none
    | some c =>
      if recordLength w0 = operandWords c && operands.length = operandWords c &&
          field w0 28 4 = 0 && reservedClear (usedBits c) operands then
        some ⟨c, recordTag w0, operands, writer⟩
      else none

/-! ### Operand fields (R185) -/

/-- Operand word `k`, numbered from 1 (R185). -/
def operand (c : ControlEntry) (k : Nat) : Word := c.operands.getD (k - 1) 0

/-- The window id of a window command, if it is 0 to 31 (R185, R151). -/
def operandWindow (c : ControlEntry) : Option WindowId :=
  if h : field (operand c 1) 0 8 < 32 then some ⟨field (operand c 1) 0 8, h⟩ else none

/-- The master id of SET MASTER, if it is 0 to 15 (R156, R185). -/
def operandMaster (c : ControlEntry) : Option MasterId :=
  if h : field (operand c 1) 0 8 < 16 then some ⟨field (operand c 1) 0 8, h⟩ else none

/-- A port width code: 0 = 8, 1 = 16, 2 = 32 bits (R185). -/
def portWidthOfCode (n : Nat) : Option PortWidth :=
  if n = 0 then some .bits8 else if n = 1 then some .bits16 else if n = 2 then some .bits32 else none

/-- An error policy code: 0 CONTINUE, 1 FREEZE (R185). -/
def policyOfCode (n : Nat) : Option ErrorPolicy :=
  if n = 0 then some .continues else if n = 1 then some .freezes else none

/-- An admission code: 0 OPEN, 1 BARRED (R185). -/
def admissionOfCode (n : Nat) : Option Admission :=
  if n = 0 then some .opened else if n = 1 then some .barred else none

/-- A park policy code: 0 LAST, 1 GATE, 2 A, 3 B, 4 C (R185). -/
def parkPolicyOfCode (n : Nat) : Option ParkPolicy :=
  if n = 0 then some .last
  else if n = 1 then some .gate
  else if n = 2 then some .portA
  else if n = 3 then some .portB
  else if n = 4 then some .portC
  else none

/-- A window's size in bytes (R2). -/
def windowSize (sizeCode : Nat) : Nat := 2 ^ sizeCode

/-- The conditions of R3 on the size code and the two bases. -/
def geometryLegal (sizeCode : Nat) (trunkBase : TrunkAddr) (cardBase : CardAddr) : Bool :=
  12 ≤ sizeCode && sizeCode ≤ 26 &&
    trunkBase.toNat % windowSize sizeCode = 0 && cardBase.toNat % windowSize sizeCode = 0 &&
    cardBase.toNat + windowSize sizeCode ≤ 2 ^ 28

/-- The operands of LOAD WINDOW, as a LIVE window entry, if they are legal (R152, R185). -/
structure LoadOperands where
  window : WindowId
  trunkBase : TrunkAddr
  sizeCode : Nat
  cardBase : CardAddr
  portWidth : PortWidth
  lockable : Bool
  policy : ErrorPolicy
  readMask : MasterMask
  writeMask : MasterMask
  deriving DecidableEq, Repr

/-- The read mask: bits 15:0 of a mask word (R185). -/
def readMaskOf (w : Word) : MasterMask := BitVec.ofNat 16 (field w 0 16)

/-- The write mask: bits 31:16 of a mask word (R185). -/
def writeMaskOf (w : Word) : MasterMask := BitVec.ofNat 16 (field w 16 16)

/-- The operands of LOAD WINDOW, if every one of them is legal (R3, R152, R185). -/
def loadOperands (c : ControlEntry) : Option LoadOperands :=
  match operandWindow c, portWidthOfCode (field (operand c 1) 16 2), policyOfCode (field (operand c 1) 19 2) with
  | some w, some pw, some ep =>
    let sizeCode := field (operand c 1) 8 5
    let cardBase : CardAddr := BitVec.ofNat 28 (field (operand c 3) 0 28)
    if geometryLegal sizeCode (operand c 2) cardBase then
      some ⟨w, operand c 2, sizeCode, cardBase, pw, flagBit (operand c 1) 18, ep,
        readMaskOf (operand c 4), writeMaskOf (operand c 4)⟩
    else none
  | _, _, _ => none

/-- The enabled-port set of SET ARBITRATION: bits 16, 17, 18 (R185). -/
def operandPorts (w : Word) : PortSet := ⟨flagBit w 16, flagBit w 17, flagBit w 18⟩

/-! ### The control region (R91, R139) -/

/-- The base of the gate's control region (R91). -/
def regionBase (slotNumber : BitVec 4) : TrunkAddr :=
  BitVec.ofNat 32 (0xFFF00000 + slotNumber.toNat * 0x10000)

/-- Whether an address lies in the gate's own control region (R6, R91). -/
def inRegion (slotNumber : BitVec 4) (a : TrunkAddr) : Bool :=
  (regionBase slotNumber).toNat ≤ a.toNat && a.toNat < (regionBase slotNumber).toNat + 0x10000

/-- The operations of the control region, with their data words (R139). -/
inductive ControlOp where
  | identity
  | status
  | counts
  | claim (data : Word)
  | relinquish (data : Word)
  | release (data : Word)
  | attention (data : Word)
  | resetGate (data : Word)
  | reportHead
  | intake (words : List Word)
  | windowReadback (w : WindowId)
  | masterReadback (m : MasterId)
  deriving DecidableEq, Repr

/-- The read at an offset with a number of beats (R139). -/
def readShape (offset beats : Nat) : Option ControlOp :=
  if offset = 0x0000 then (if beats = 1 then some .identity else none)
  else if offset = 0x0004 then (if beats = 1 then some .status else none)
  else if offset = 0x0010 then (if beats = 3 then some .counts else none)
  else if offset = 0x0200 then (if beats = 4 then some .reportHead else none)
  else if offset % 0x20 = 0 && 0x1000 ≤ offset && offset < 0x1400 then
    (if beats = 8 then some (.windowReadback (Fin.ofNat 32 ((offset - 0x1000) / 0x20))) else none)
  else if offset % 0x10 = 0 && 0x2000 ≤ offset && offset < 0x2100 then
    (if beats = 4 then some (.masterReadback (Fin.ofNat 16 ((offset - 0x2000) / 0x10))) else none)
  else none

/-- The write at an offset with its data words (R139). -/
def writeShape (offset : Nat) (words : List Word) : Option ControlOp :=
  if offset = 0x0400 then (if 1 ≤ words.length && words.length ≤ 16 then some (.intake words) else none)
  else
    match words with
    | [w] =>
      if offset = 0x0100 then some (.claim w)
      else if offset = 0x0104 then some (.relinquish w)
      else if offset = 0x0108 then some (.release w)
      else if offset = 0x010C then some (.attention w)
      else if offset = 0x0110 then some (.resetGate w)
      else none
    | _ => none

/-- The operation a control-region transaction has the shape of, if any: unit 4, lock attribute NONE, and on
a write all four byte enables of every beat (R139). `offset` is the address less the region's base. -/
def shapeOf (offset : Nat) (t : Txn) : Option ControlOp :=
  if t.unit = .four && t.lock = .noLock then
    match t.payload with
    | .read beats => readShape offset beats
    | .write beats =>
      if beats.all (fun b => b.enables = 0xF) then writeShape offset (beats.map (·.data)) else none
  else none

/-- The offset of an address in the gate's control region. -/
def regionOffset (slotNumber : BitVec 4) (a : TrunkAddr) : Nat := a.toNat - (regionBase slotNumber).toNat

end Sys2Proof.Machine
end

