-- ==== Sys2Proof/Machine/LockUnit.lean ====
section
/-! DEFINITION. The lock unit (chapter 4): whether a lock stands, voiding, breaking, closing. -/

namespace Sys2Proof.Machine

/-- Why a lock is broken (R83). -/
inductive BreakCause where
  | timeout | retired | frozen | master | reset | fault
  deriving DecidableEq, Repr

/-- The code of a break's cause (R186, LOCK BROKEN). -/
def breakCode : BreakCause → Nat
  | .timeout => 0
  | .retired => 1
  | .frozen => 2
  | .master => 3
  | .reset => 4
  | .fault => 5

/-- A lock stands (R71). -/
def lockStands (s : State) : Bool := s.lock.state != .free

/-- A lock stands on window `w`. -/
def lockedWindow (s : State) (w : WindowId) : Bool := lockStands s && s.lock.window = some w

/-- A lock stands on window `w` with owner `m`. -/
def lockOwnedBy (s : State) (m : MasterId) (w : WindowId) : Bool := lockedWindow s w && s.lock.owner = some m

/-- A sequence entry that is not void yet (R40). -/
def voidable : Entry → Bool
  | .data d => d.seq != .none && !d.void
  | .control _ => false

/-- An entry marked void, if it is a sequence entry (R40). -/
def markedVoid : Entry → Entry
  | .data d => if d.seq != .none && !d.void then .data { d with void := true } else .data d
  | .control c => .control c

/-- The entries whose drain has not begun, which a break may mark (R40). -/
def notBegun (s : State) : List Entry := if inDrain s then s.pwq.entries.drop 1 else s.pwq.entries

/-- The number of entries a break marks void (R40). -/
def voidCount (s : State) : Nat := (notBegun s).countP voidable

/-- The sequence entries whose drain has not begun are marked void (R40). -/
def markVoid (s : State) : State :=
  { s with pwq.entries :=
      (if inDrain s then s.pwq.entries.take 1 else []) ++ (notBegun s).map markedVoid }

/-- The lock becomes FREE (R71). -/
def clearLock (s : State) : State := { s with lock := Lock.powerOn }

/-- The locked slot, if the lock named one, is withdrawn at a break (R84, step 3). -/
def withdrawLockedSlot (slot : Option SlotId) (s : State) : State :=
  match slot with
  | some i => withdrawSlot i s
  | none => s

/-- The owner's note is set to the lock's window, unless the cause is RESET (R76, R84, step 5). -/
def noteBreak (cause : BreakCause) (l : Lock) (s : State) : State :=
  match l.owner with
  | some m => if cause = .reset then s else setNote m l.window s
  | none => s

/-- The LOCK BROKEN report (R85, R186). -/
def lockBrokenBody (cause : BreakCause) (l : Lock) (voided : Nat) : ReportBody :=
  reportBody .lockBroken l.owner l.window none (breakCode cause + 256 * voided)

/-- A standing lock is broken, in the order of R84; a FREE lock is left as it is (R83). The completion test
of step 7 is made with the event's others (R177). -/
def breakLock (cause : BreakCause) (s : State) : State :=
  if lockStands s then
    let l := s.lock
    let s := clearLock s
    let s := if l.state = .owned then releaseHold s else s
    let s := withdrawLockedSlot l.slot s
    let voided := voidCount s
    let s := markVoid s
    let s := noteBreak cause l s
    offerReport (lockBrokenBody cause l voided) s
  else s

/-- An uncollected locked slot outlives the lock as an ordinary READY slot whose hold timer starts now
(R56, R82). -/
def unlockReadySlot (slot : Option SlotId) (s : State) : State :=
  match slot with
  | some i =>
    if s.slots[i].state = .ready && s.slots[i].locked then
      modSlot i (fun e => { e with locked := false, hold := some (startTimer s s.cu.readHold) }) s
    else s
  | none => s

/-- The lock unit's part in the end of a drain: it acts on the CLOSE entry of the lock that is OWNED and
whose timer that drain's beginning has stopped (R82). -/
def closeLock (d : DataEntry) (s : State) : State :=
  if d.seq = .close && s.lock.state = .owned && s.lock.hold = none then
    releaseHold (unlockReadySlot s.lock.slot (clearLock s))
  else s

/-- The beginning of a CLOSE drain stops the lock's hold timer (R35, R81). -/
def stopLockTimer (d : DataEntry) (s : State) : State :=
  if d.seq = .close && s.lock.state = .owned then { s with lock.hold := none } else s

/-- The lock's hold timer runs and is due (R1, R81). -/
def lockTimerDue (s : State) : Bool := s.lock.state = .owned && s.lock.hold.any (expired s.timebase)

/-- The expiry of the lock's hold timer reaches the lock unit together with the beginning of the CLOSE drain, and may be
taken first: the lock is then broken with cause TIMEOUT while the drain goes on (R81). Which is taken first is a free
choice (log 33). -/
def raceCloseTimer (d : DataEntry) (s : State) : State :=
  if choiceValue s % 2 = 0 then stopLockTimer d (takeChoice s) else breakLock .timeout (takeChoice s)

/-- The lock unit's part in the beginning of a drain: a CLOSE drain stops the lock's hold timer, unless the timer is due
at this moment and its expiry is taken first (R35, R81). The access is already the drain, so a break passes its entry
by (R40). -/
def drainBegins (d : DataEntry) (s : State) : State :=
  if d.seq = .close && lockTimerDue s then raceCloseTimer d s else stopLockTimer d s

end Sys2Proof.Machine
end

