-- ==== Sys2Proof/Machine/Faulting.lean ====
section
/-! DEFINITION. The stop mark (R123, R124) and the fault of the gate (R178). -/

namespace Sys2Proof.Machine

/-- The access in flight takes the stop mark, and a fetch is detached from its slot (R124). -/
def stopped (a : Access) : Access := { a with stop := true, slot := none }

/-- A gate reset or a fault gives the access in flight the stop mark (R124). -/
def markStop (s : State) : State := { s with cbc.access := s.cbc.access.map stopped }

/-- A trunk reset detaches a fetch and gives it the stop mark, and leaves a drain as it is (R123). -/
def detachFetch (s : State) : State :=
  { s with cbc.access := s.cbc.access.map fun a => if a.kind = .fetch then stopped a else a }

/-- The code of a fault's cause (R184, R186). -/
def causeCode : FaultCause → Nat
  | .none => 0
  | .queueCheck => 1
  | .slotCheck => 2

/-- The FAULT report with its cause and the numbers of entries removed at once (R178, R186). -/
def faultBody (cause : FaultCause) (dataRemoved controlRemoved : Nat) : ReportBody :=
  reportBody .fault none none none (causeCode cause + 256 * dataRemoved + 65536 * controlRemoved)

/-- The gate becomes FAULTED (R178, step 1). -/
def becomeFaulted (cause : FaultCause) (s : State) : State := { s with gsc := ⟨.faulted, cause, none⟩ }

/-- A failed buffer check: the blocks act in the order of R178. -/
def faultGate (cause : FaultCause) (s : State) : State :=
  let s := markStop (becomeFaulted cause s)
  let dataRemoved := removedData s
  let controlRemoved := removedControl s
  let s := endIdleTenure s.arb.lockHold (releaseHold (breakLock .fault (freeAllSlots (emptyQueue s))))
  freeDrainedWindows (offerReport (faultBody cause dataRemoved controlRemoved) s)

end Sys2Proof.Machine
end

