-- ==== Sys2Proof/Machine/Controller.lean ====
section
/-! DEFINITION. The card bus controller (chapter 6): taking up pieces, the end of a piece, the end of a drain
or a fetch, and the choice of the next access. -/

namespace Sys2Proof.Machine

/-- How an operation of the gate fails (R113). -/
inductive ErrorKind where
  | targetError | noResponse
  deriving DecidableEq, Repr

/-- The code of an error kind (R186). -/
def errorCode : ErrorKind → Nat
  | .targetError => 0
  | .noResponse => 1

/-- How a drain ends (R36). A cut-off drain names its error and the failing piece's card address. -/
inductive DrainOutcome where
  | performed
  | cutOff (kind : ErrorKind) (addr : CardAddr)
  | stopped
  | checkFailed
  deriving DecidableEq, Repr

/-- How a fetch ends (R59, R60). -/
inductive FetchOutcome where
  | success
  | failed (kind : ErrorKind) (addr : CardAddr)
  deriving DecidableEq, Repr

/-- The access record becomes absent (R114). -/
def clearAccess (s : State) : State := { s with cbc.access := none }

/-! ### The end of a drain (R36, R39, R43) -/

/-- The WRITE LOST report of a cut-off drain (R115, R186). -/
def writeLostBody (d : DataEntry) (kind : ErrorKind) (addr : CardAddr) (bytes : Nat) : ReportBody :=
  reportBody .writeLost (some d.master) (some d.window) (some (addr.setWidth 32)) (bytes + 256 * errorCode kind)

/-- The WINDOW FROZEN report (R19, R186). -/
def windowFrozenBody (d : DataEntry) (kind : ErrorKind) (addr : CardAddr) : ReportBody :=
  reportBody .windowFrozen (some d.master) (some d.window) (some (addr.setWidth 32)) (256 * errorCode kind)

/-- A card-bus error on a drain freezes the entry's window when its policy is FREEZE and it is not frozen,
and the freeze breaks a lock that stands on the window (R19, R39). -/
def freezeOnError (d : DataEntry) (kind : ErrorKind) (addr : CardAddr) (s : State) : State :=
  if d.names && s.windows[d.window].policy = .freezes && !s.windows[d.window].frozen then
    let s := { s with windows := modAt s.windows d.window fun e => { e with frozen := true } }
    let s := offerReport (windowFrozenBody d kind addr) s
    if lockedWindow s d.window then breakLock .frozen s else s
  else s

/-- The bytes performed by the access in flight (R111). -/
def bytesPerformed (s : State) : Nat :=
  match s.cbc.access with
  | some a => a.bytes
  | none => 0

/-- The consequences of a drain's outcome on the counters, the reports and the window (R36, R39, R115). -/
def drainConsequences (o : DrainOutcome) (d : DataEntry) (s : State) : State :=
  match o with
  | .performed => countPerformed s
  | .stopped => countDropped s
  | .checkFailed => countDropped s
  | .cutOff kind addr =>
    freezeOnError d kind addr (offerReport (writeLostBody d kind addr (bytesPerformed s)) (countDropped s))

/-- The staleness test of a drain's end, which every outcome but check failed has (R36, R38). -/
def drainStaleness (o : DrainOutcome) (d : DataEntry) (s : State) : State :=
  if o = .checkFailed then s else markStale d.cardAddr (spanBytes d.unit d.beats.length) s

/-- The end of the head entry's drain. The staleness test is made while the locked slot is still locked
(R56); then the lock unit takes a CLOSE drain's end (R82), the consequences follow, and the entry is
removed (R37) with the dead entries behind it. A failed check is then the gate's fault (R43, R120), whose reports precede
the WINDOW FREED report that the entry's removal may bring about (R15, log 19). -/
def drainEnded (o : DrainOutcome) (d : DataEntry) (s : State) : State :=
  let s := drainConsequences o d (closeLock d (drainStaleness o d s))
  let s := clearAccess (removeHead s)
  if o = .checkFailed then faultGate .queueCheck s else leaveDeadHeads s

/-- A drain ends, and the controller settles its tenure (R114, R118). -/
def endDrain (o : DrainOutcome) (s : State) : State :=
  match s.pwq.entries with
  | .data d :: _ => settleTenure (drainEnded o d s)
  | _ => settleTenure (clearAccess s)

/-! ### Taking up pieces (R110, R111, R112) -/

/-- The number of pieces of an access (R110). -/
def pieceTotal (a : Access) : Nat := a.beats * piecesPerBeat a.unit a.portWidth

/-- How many pieces follow the access's position (R110). -/
def piecesAfter (a : Access) : Nat := pieceTotal a - (a.beat * piecesPerBeat a.unit a.portWidth + a.piece + 1)

/-- What taking up the pieces of a drain comes to: a piece to perform, no piece left, or a beat whose stored
check code does not match (R111, R120). -/
inductive TakeUp where
  | perform (beat piece : Nat) (enables : Lanes) (data : Word)
  | finished
  | checkFailed
  deriving DecidableEq, Repr

/-- Takes up the last `remaining` pieces of a drain in order: a beat is tested before its first piece, and a
piece whose enables are all clear is skipped (R111). -/
def takeUp (a : Access) (beats : List Beat) : Nat → TakeUp
  | 0 => .finished
  | r + 1 =>
    let per := piecesPerBeat a.unit a.portWidth
    let n := pieceTotal a - (r + 1)
    match beats[n / per]? with
    | none => .finished
    | some b =>
      if n % per = 0 && !beatAgrees b then .checkFailed
      else
        let enables := b.enables &&& pieceLanes (pieceAddr a.cardAddr a.unit a.portWidth (n / per) (n % per)) a.unit a.portWidth
        if enables = 0 then takeUp a beats r else .perform (n / per) (n % per) enables b.data

/-- The operation of a piece, with its response timer started (R111, R112, R113). -/
def pieceOp (s : State) (a : Access) (beat piece : Nat) (write : Bool) (enables : Lanes) (data : Word) : PieceOp :=
  ⟨⟨pieceAddr a.cardAddr a.unit a.portWidth beat piece, unitOfBytes (pieceBytes a.unit a.portWidth), write, enables,
    mergeLanes 0 data enables⟩, startTimer s s.cu.cardResponse⟩

/-- The controller starts an operation for a piece of a drain (R111). -/
def performPiece (a : Access) (beat piece : Nat) (enables : Lanes) (data : Word) (s : State) : State :=
  { s with cbc.access := some { a with
      beat := beat, piece := piece, op := some (pieceOp s a beat piece true enables data) } }

/-- Goes on with a drain whose last `remaining` pieces are to be taken up (R111, R114). -/
def continueDrain (a : Access) (d : DataEntry) (remaining : Nat) (s : State) : State :=
  match takeUp a d.beats remaining with
  | .perform beat piece enables data => performPiece a beat piece enables data s
  | .finished => endDrain .performed s
  | .checkFailed => endDrain .checkFailed s

/-- The access record of a fetch, with the operation of a piece started (R112). -/
def fetchPiece (s : State) (a : Access) (beat piece : Nat) : Access :=
  { a with
    beat := beat
    piece := piece
    op := some (pieceOp s a beat piece false
      (pieceLanes (pieceAddr a.cardAddr a.unit a.portWidth beat piece) a.unit a.portWidth) 0) }

/-! ### The start of an access (R117) -/

/-- The access record of a slot's fetch before its first piece. -/
def fetchRecord (i : SlotId) (e : Slot) : Access where
  kind := .fetch
  slot := some i
  cardAddr := e.cardAddr
  unit := e.key.unit
  beats := e.key.beats
  portWidth := e.portWidth
  beat := 0
  piece := 0
  bytes := 0
  gathered := List.replicate e.key.beats 0
  op := none
  stop := false

/-- The fetch of an eligible slot starts with its first piece, and the slot becomes FETCHING (R58, R117). -/
def startFetch (i : SlotId) (s : State) : State :=
  modSlot i (fun e => { e with state := .fetching })
    { s with cbc.access := some (fetchPiece s (fetchRecord i s.slots[i]) 0 0) }

/-- The access record of a data entry's drain before its first piece. -/
def drainRecord (d : DataEntry) : Access where
  kind := .drain
  slot := none
  cardAddr := d.cardAddr
  unit := d.unit
  beats := d.beats.length
  portWidth := d.portWidth
  beat := 0
  piece := 0
  bytes := 0
  gathered := []
  op := none
  stop := false

/-- The drain of the offered head begins: the lock unit is told of a CLOSE entry's (R81), and the first piece is
taken up, which reads and tests beat 0 (R35, R117). -/
def startDrain (d : DataEntry) (s : State) : State :=
  continueDrain (drainRecord d) d (pieceTotal (drainRecord d))
    (drainBegins d { s with cbc.access := some (drainRecord d) })

/-- The controller at work, until it has an access in flight or nothing to do: in a tenure it starts its next
access, holds the bus idle under the lock hold, or ends a tenure it has no use for (R116, R117, R118); with
no tenure it reviews its request (R116). `fuel` bounds the accesses that end in the event of their start. -/
def runBus : Nat → State → State
  | 0, s => s
  | fuel + 1, s =>
    if s.cbc.access.isSome then s
    else if s.cbc.tenure then
      match oldestEligible s, offeredHead s with
      | some i, _ => startFetch i s
      | none, some d => runBus fuel (startDrain d s)
      | none, none => if s.arb.lockHold then s else runBus fuel (endTenure s)
    else
      let s := reviewRequest s
      if s.cbc.tenure then runBus fuel s else s

/-- Enough fuel: each pass but a few takes an entry off the queue. -/
def busFuel (s : State) : Nat := 2 * queueLength s + 4

/-- The controller acts on the candidates as they now stand. -/
def settleBus (s : State) : State := runBus (busFuel s) s

/-- The end of an event that changed the queue, the slots, the lock or the grant: the dead entries leave the head, the
controller acts, and what concerns the whole event comes last (log 13). -/
def settle (s : State) : State := finishEvent (settleBus (leaveDeadHeads s))

/-! ### The end of a fetch (R59, R60, R61) -/

/-- The READ FAILED report (R60, R186). -/
def readFailedBody (i : SlotId) (e : Slot) (kind : ErrorKind) (addr : CardAddr) : ReportBody :=
  reportBody .readFailed (some e.key.master) (some e.window) (some (addr.setWidth 32))
    (256 * errorCode kind + 65536 * i.val)

/-- The lock is PENDING on this slot. -/
def lockAwaits (s : State) (i : SlotId) : Bool := s.lock.state = .pending && s.lock.slot = some i

/-- The lock becomes OWNED: its hold timer starts and the lock unit takes the bus hold (R77). -/
def ownLock (s : State) : State :=
  takeHold { s with lock.state := .owned, lock.hold := some (startTimer s s.cu.lockHold) }

/-- A fetch ends with every piece ACK: the slot is READY with its data and new check codes; an ordinary
slot's hold timer starts, and a locked slot makes the lock OWNED (R59, R77). -/
def fetchSucceeds (i : SlotId) (words : List Word) (s : State) : State :=
  if s.slots[i].locked then
    let s := modSlot i (fun e => { e with state := .ready, data := some (words.map withCode) }) s
    if lockAwaits s i then ownLock s else s
  else
    modSlot i (fun e => { e with
      state := .ready, data := some (words.map withCode), hold := some (startTimer s s.cu.readHold) }) s

/-- A fetch ends with a card-bus error: the slot is FAILED, its hold timer starts and READ FAILED is reported
(R60); a failed locked fetch makes the lock FREE without a break and voids its sequence entries (R78). -/
def fetchFails (i : SlotId) (kind : ErrorKind) (addr : CardAddr) (s : State) : State :=
  let body := readFailedBody i s.slots[i] kind addr
  let s := modSlot i (fun e => { e with
    state := .failed, data := none, locked := false, hold := some (startTimer s s.cu.readHold) }) s
  let s := offerReport body s
  if lockAwaits s i then markVoid (clearLock s) else s

/-- The outcome of a fetch reaches its slot; a slot with the release mark is freed whatever it is (R61). -/
def fetchOutcome (o : FetchOutcome) (i : SlotId) (words : List Word) (s : State) : State :=
  if s.slots[i].state = .fetching then
    if s.slots[i].releaseMark then freeSlot i s
    else
      match o with
      | .success => fetchSucceeds i words s
      | .failed kind addr => fetchFails i kind addr s
  else s

/-- A fetch ends: its outcome goes to its slot, or to no block when it has been detached (R114, R70), and the
controller settles its tenure (R118). -/
def endFetch (o : FetchOutcome) (a : Access) (s : State) : State :=
  let s := match a.slot with
    | some i => fetchOutcome o i a.gathered s
    | none => s
  settleTenure (leaveDeadHeads (clearAccess s))

/-! ### The end of a piece (R113, R114) -/

/-- The lanes that a piece returned are placed in the beat's gathered word (R112). -/
def gather (a : Access) (p : PieceOp) (data : Word) : List Word :=
  a.gathered.set a.beat (mergeLanes (a.gathered.getD a.beat 0) data p.op.enables)

/-- The piece after the access's position, as beat and piece (R110). -/
def nextPiece (a : Access) : Nat × Nat :=
  if a.piece + 1 < piecesPerBeat a.unit a.portWidth then (a.beat, a.piece + 1) else (a.beat + 1, 0)

/-- A piece of a drain ends ACK (R111, R114). -/
def drainPieceAcked (a : Access) (p : PieceOp) (s : State) : State :=
  let a := { a with bytes := a.bytes + laneCount p.op.enables, op := none }
  let s := { s with cbc.access := some a }
  if piecesAfter a = 0 then endDrain .performed s
  else if a.stop then endDrain .stopped s
  else
    match s.pwq.entries with
    | .data d :: _ => continueDrain a d (piecesAfter a) s
    | _ => endDrain .stopped s

/-- A piece of a fetch ends ACK (R112, R114); a detached fetch ends after its current piece (R123, R124). -/
def fetchPieceAcked (a : Access) (p : PieceOp) (data : Word) (s : State) : State :=
  let a := { a with gathered := gather a p data, op := none }
  if a.slot = none || piecesAfter a = 0 then endFetch .success a s
  else { s with cbc.access := some (fetchPiece s a (nextPiece a).1 (nextPiece a).2) }

/-- A piece ends ACK. -/
def pieceAcked (a : Access) (p : PieceOp) (data : Word) (s : State) : State :=
  match a.kind with
  | .drain => drainPieceAcked a p s
  | .fetch => fetchPieceAcked a p data s

/-- A piece ends TARGET ERROR or NO RESPONSE: the remaining pieces are abandoned (R114). -/
def pieceFailed (a : Access) (p : PieceOp) (kind : ErrorKind) (s : State) : State :=
  match a.kind with
  | .drain => endDrain (.cutOff kind p.op.addr) s
  | .fetch => endFetch (.failed kind p.op.addr) a s

/-- An access that carries the stop mark with no operation outstanding ends at once (R124): a drain is
performed if no piece remained and stopped otherwise. -/
def endStoppedAccess (s : State) : State :=
  match s.cbc.access with
  | some a =>
    if a.stop && a.op = none then
      match a.kind with
      | .drain =>
        endDrain (if pieceTotal a ≤ a.beat * piecesPerBeat a.unit a.portWidth + a.piece then .performed else .stopped) s
      | .fetch => endFetch .success a s
    else s
  | none => s

end Sys2Proof.Machine
end

