-- ==== Sys2Proof/Machine/Resets.lean ====
section
/-! DEFINITION. The four resets: gate reset with KEEP or CLEAR (R147), trunk reset (R180), power-on reset and
card reset (R175), each with its effect on every block. -/

namespace Sys2Proof.Machine

/-- The kinds of reset a RESET NOTICE carries (R171). -/
inductive ResetKind where
  | power | card | trunk | gateKeep | gateClear
  deriving DecidableEq, Repr

/-- The code of a reset kind (R186). -/
def resetCode : ResetKind → Nat
  | .power => 0
  | .card => 1
  | .trunk => 2
  | .gateKeep => 3
  | .gateClear => 4

/-- The RESET NOTICE with the numbers of entries the reset removed (R171, R186). -/
def resetNoticeBody (kind : ResetKind) (dataRemoved controlRemoved : Nat) : ReportBody :=
  reportBody .resetNotice none none none (resetCode kind + 256 * dataRemoved + 65536 * controlRemoved)

/-- Every broken-lock note becomes absent (R76). -/
def clearNotes (s : State) : State := { s with masters := mapTable s.masters fun e => { e with note := none } }

/-! ### Gate reset (R146, R147) -/

/-- The entry in drain names no window from a clearing on (R23). -/
def unnamed : Entry → Entry
  | .data d => .data { d with names := false }
  | .control c => .control c

/-- The window table is cleared, and what is left in the queue names no window (R23). -/
def clearWindows (s : State) : State :=
  { s with windows := Vector.replicate 32 Window.powerOn, pwq.entries := s.pwq.entries.map unnamed }

/-- A master record's configuration and violation count at their defaults, its claims kept (R107). -/
def defaultMaster (e : Master) : Master :=
  { Master.powerOn with outWrites := e.outWrites, outReads := e.outReads, note := e.note }

/-- Attention off and the timer settings at their defaults; the manager is kept (R162). -/
def defaultControl (s : State) : State :=
  driveLine { s with cu := { ControlUnit.powerOn with manager := s.cu.manager } }

/-- What CLEAR does beyond KEEP: windows, master configuration, arbiter settings, attention and timer settings
(R147). The arbitration settings come before the timer settings, in the order of R147's table, so an ownership that the
new port set begins reads the resident tenure limit in force before the reset (R133, R137; log 31). -/
def clearConfiguration (s : State) : State :=
  let s := clearWindows s
  let s := { s with masters := mapTable s.masters defaultMaster }
  let s := writeSettings .last Config.highWaterDefault ⟨true, true, true⟩ s
  defaultControl s

/-- A gate reset: the gate state changes first (R181), the access in flight takes the stop mark (R124), the
queue is emptied (R46), the slots are freed (R70), a standing lock is broken (R87), the notes are cleared
(R76), CLEAR clears the configuration (log 15), and the reports follow in the order of R147. -/
def gateReset (clear : Bool) (s : State) : State :=
  let s := markStop { s with gsc := ⟨.standby, .none, none⟩ }
  let dataRemoved := removedData s
  let controlRemoved := removedControl s
  let s := endIdleTenure s.arb.lockHold (releaseHold (breakLock .reset (freeAllSlots (emptyQueue s))))
  let s := clearNotes s
  let s := if clear then clearConfiguration s else s
  let s := offerReport (resetNoticeBody (if clear then .gateClear else .gateKeep) dataRemoved controlRemoved) s
  settle (endStoppedAccess s)

/-! ### Trunk reset (R180) -/

/-- The gate state at a trunk reset (R180). -/
def trunkResetState (g : GateController) : GateController :=
  match g.state with
  | .reset => g
  | .standby => ⟨.standby, .none, none⟩
  | .enabled => ⟨.standby, .none, none⟩
  | .quiescing => ⟨.standby, .none, none⟩
  | .faulted => { g with quiesceTag := none }

/-- The control unit at a trunk reset: no manager, attention off (R162). -/
def dropManager (s : State) : State := driveLine { s with cu.manager := none, cu.attention := false }

/-- A trunk reset outside RESET: the gate state changes first, every slot is freed and a fetch detached (R70,
R123), a standing lock is broken (R87), the notes and the manager are cleared, and the notice precedes the
WINDOW FREED reports (R24, R171). -/
def trunkReset (s : State) : State :=
  let s := detachFetch { s with gsc := trunkResetState s.gsc }
  let s := endIdleTenure s.arb.lockHold (releaseHold (breakLock .reset (freeAllSlots s)))
  let s := dropManager (clearNotes s)
  let s := offerReport (resetNoticeBody .trunk 0 0) s
  settle (endStoppedAccess s)

/-! ### Power-on reset and card reset (R175) -/

/-- Every block but the report queue and the timebase at its reset values, while power-on or card reset is
asserted (R23, R44, R69, R86, R107, R122, R135, R162, R175). -/
def holdBlocks (slotLines : BitVec 4) (s : State) : State :=
  { s with
    ti := ⟨slotLines, false, none⟩
    windows := Vector.replicate 32 Window.powerOn
    masters := Vector.replicate 16 Master.powerOn
    pwq := WriteQueue.powerOn
    slots := Vector.replicate 8 Slot.powerOn
    ageOrder := []
    lock := Lock.powerOn
    cbc := Controller.powerOn
    arb := Arbiter.held
    cu := ControlUnit.powerOn
    gsc := ⟨.reset, .none, none⟩ }

/-- Power-on reset is asserted: the timebase is 0 and the report queue is emptied (R1, R172). -/
def assertPowerOn (slotLines : BitVec 4) (s : State) : State :=
  { holdBlocks slotLines s with timebase := 0, porAsserted := true, rq := ReportQueue.powerOn }

/-- The numbers of entries a card reset removes are handed to the report queue before the queue is cleared
(R44); stored reports are kept and the space request becomes NONE (R172). -/
def handOverNumbers (s : State) : State :=
  { s with
    rq.space := .none
    rq.cardData := dataCount s
    rq.cardControl := s.pwq.entries.countP fun e => !isData e }

/-- Card reset is asserted. While power-on reset is asserted already, the blocks are held and there is
nothing to remove (R175). -/
def assertCard (slotLines : BitVec 4) (s : State) : State :=
  { holdBlocks slotLines (handOverNumbers s) with cardAsserted := true }

/-- The last asserted reset is released: the slot number is held (R91), the arbiter is PARKED(A), the gate is
STANDBY, the notice is offered (R171), and the request lines that are raised are taken (R135). -/
def leaveReset (slotLines : BitVec 4) (kind : ResetKind) (dataRemoved controlRemoved : Nat) (s : State) : State :=
  let s := { s with
    ti.slotNumber := slotLines, arb := Arbiter.powerOn, gsc := ⟨.standby, .none, none⟩,
    rq.cardData := 0, rq.cardControl := 0 }
  takeArrivals (offerReport (resetNoticeBody kind dataRemoved controlRemoved) s)

/-- Power-on reset is released (R175). -/
def releasePowerOn (slotLines : BitVec 4) (s : State) : State :=
  if s.cardAsserted then { s with porAsserted := false, ti.slotNumber := slotLines }
  else leaveReset slotLines .power 0 0 { s with porAsserted := false }

/-- Card reset is released (R175). -/
def releaseCard (slotLines : BitVec 4) (s : State) : State :=
  if s.porAsserted then { s with cardAsserted := false, ti.slotNumber := slotLines }
  else leaveReset slotLines .card s.rq.cardData s.rq.cardControl { s with cardAsserted := false }

end Sys2Proof.Machine
end

