-- ==== Sys2Proof/Machine/Windows.lean ====
section
/-! DEFINITION. Window transactions: the claiming window and its tests (chapter 1), violations (chapter 5),
the gate-state and lock steps (R95, R73), the write step (R29, R30, R96) and the read step (R49 to R55). -/

namespace Sys2Proof.Machine

/-- The gate drives an answer onto the trunk (R90). -/
def answer (a : Answer) (s : State) : State := { s with ti.answer := some a }

/-! ### The transaction (R88) -/

/-- The number of beats of a transaction. -/
def txnBeats (t : Txn) : Nat :=
  match t.payload with
  | .read n => n
  | .write beats => beats.length

/-- The direction of a transaction. -/
def txnDirection (t : Txn) : Direction :=
  match t.payload with
  | .read _ => .read
  | .write _ => .write

/-- The key a read is matched by (R47). -/
def txnKey (t : Txn) : SlotKey := ⟨t.master, t.addr, t.unit, txnBeats t, t.lock⟩

/-! ### The window table's tests (chapter 1) -/

/-- A window takes part in matching when it is LIVE, and claims the addresses of its trunk range (R5). -/
def claims (e : Window) (a : TrunkAddr) : Bool :=
  e.state = .live && e.trunkBase.toNat ≤ a.toNat && a.toNat < e.trunkBase.toNat + 2 ^ e.sizeCode

/-- The claiming window: the LIVE window of lowest id that contains the address (R5). -/
def claimingWindow (s : State) (a : TrunkAddr) : Option WindowId :=
  (List.finRange 32).find? fun w => claims s.windows[w] a

/-- The last byte lies beyond the end of the window, computed without wrapping (R7). -/
def crossesEnd (e : Window) (t : Txn) : Bool :=
  e.trunkBase.toNat + 2 ^ e.sizeCode ≤ t.addr.toNat + txnBeats t * unitBytes t.unit - 1

/-- The address is not a multiple of the unit, or the lock attribute is illegal for the direction (R94). -/
def misaligned (t : Txn) : Bool :=
  t.addr.toNat % unitBytes t.unit != 0 ||
    (match txnDirection t with
     | .write => t.lock = .openLock
     | .read => t.lock = .closeLock)

/-- The master's bit in the mask for the direction (R9). -/
def hasRight (e : Window) (t : Txn) : Bool :=
  match txnDirection t with
  | .read => e.readMask.getLsbD t.master.val
  | .write => e.writeMask.getLsbD t.master.val

/-- The rights check fails (R9). -/
def rightsFail (s : State) (w : WindowId) (t : Txn) : Bool :=
  !hasRight s.windows[w] t ||
    (t.lock != .noLock && !s.windows[w].lockable && !lockOwnedBy s t.master w)

/-- The card address of a trunk address in a window (R10). -/
def translate (e : Window) (a : TrunkAddr) : CardAddr := e.cardBase + (a - e.trunkBase).setWidth 28

/-! ### Violations (R101, R102) -/

/-- The cause of a violation (R101). -/
inductive ViolationCause where
  | boundary | barred | rights
  deriving DecidableEq, Repr

/-- The code of a violation's cause (R186). -/
def violationCode : ViolationCause → Nat
  | .boundary => 0
  | .barred => 1
  | .rights => 2

/-- The code of a direction (R186). -/
def directionCode : Direction → Nat
  | .read => 0
  | .write => 1

/-- The VIOLATION report (R101, R186). -/
def violationBody (cause : ViolationCause) (w : WindowId) (t : Txn) : ReportBody :=
  reportBody .violation (some t.master) (some w) (some t.addr) (violationCode cause + 16 * directionCode (txnDirection t))

/-- The MASTER BARRED report (R102, R186). -/
def masterBarredBody (cause : ViolationCause) (w : WindowId) (t : Txn) (count : Nat) : ReportBody :=
  reportBody .masterBarred (some t.master) (some w) (some t.addr) (violationCode cause + 256 * count)

/-- The violation count rises by one, staying at 255 (R101, step 1). -/
def countViolation (m : MasterId) (s : State) : State :=
  { s with masters := modAt s.masters m fun e => { e with violations := min 255 (e.violations + 1) } }

/-- The bar threshold is reached by an OPEN master (R102). -/
def reachesThreshold (e : Master) : Bool :=
  e.barThreshold != 0 && e.barThreshold ≤ e.violations && e.admission = .opened

/-- The threshold bars an OPEN master, with a MASTER BARRED report (R102). -/
def applyThreshold (cause : ViolationCause) (w : WindowId) (t : Txn) (s : State) : State :=
  if reachesThreshold s.masters[t.master] then
    offerReport (masterBarredBody cause w t s.masters[t.master].violations)
      { s with masters := modAt s.masters t.master fun e => { e with admission := .barred } }
  else s

/-- A violation is charged: the count, the report of a first violation, the threshold (R101). -/
def chargeViolation (cause : ViolationCause) (w : WindowId) (t : Txn) (s : State) : State :=
  let first := s.masters[t.master].violations = 0
  let s := countViolation t.master s
  let s := if first then offerReport (violationBody cause w t) s else s
  applyThreshold cause w t s

/-! ### The gate-state step (R95) -/

/-- The slot whose key a read matches (R49). -/
def matchingSlot (s : State) (t : Txn) : Option SlotId :=
  (List.finRange 8).find? fun i => s.slots[i].state != .free && s.slots[i].key = txnKey t

/-- A read that matches a slot in READY, FAILED or STALE (R49, R95). -/
def returnsToAnswer (s : State) (t : Txn) : Bool :=
  txnDirection t = .read &&
    match matchingSlot s t with
    | some i => s.slots[i].state = .ready || s.slots[i].state = .failed || s.slots[i].state = .stale
    | none => false

/-- The gate-state step passes the transaction (R95). -/
def gatePasses (s : State) (w : WindowId) (t : Txn) : Bool :=
  match s.gsc.state with
  | .enabled => true
  | .quiescing => returnsToAnswer s t || lockOwnedBy s t.master w
  | _ => false

/-! ### The lock step (R73) -/

/-- What the lock step decides; a note may be cleared by the way (R73). -/
inductive LockStep where
  | refuse (clearNote : Bool)
  | retry (clearNote : Bool)
  | pass (clearNote : Bool)
  deriving DecidableEq, Repr

/-- The read is a return to the locked slot of the master's own lock (R73, row 3). -/
def returnsToLocked (s : State) (t : Txn) : Bool :=
  lockStands s && s.lock.owner = some t.master &&
    match s.lock.slot with
    | some i => s.slots[i].key = txnKey t
    | none => false

/-- The lock step's table (R73). -/
def lockStep (s : State) (w : WindowId) (t : Txn) : LockStep :=
  match t.lock with
  | .holdLock | .closeLock =>
    if s.masters[t.master].note = some w then .refuse true
    else if !lockOwnedBy s t.master w || s.lock.closing then .refuse false
    else .pass false
  | .openLock =>
    if returnsToLocked s t then .pass false
    else if lockStands s then .retry true
    else .pass true
  | .noLock =>
    if lockedWindow s w && s.lock.owner != some t.master then .retry false else .pass false

/-- The master's note becomes absent, where the lock step says so (R73, rows 1 and 4). -/
def clearNoteIf (clear : Bool) (m : MasterId) (s : State) : State := if clear then setNote m none s else s

/-! ### The write step (R29, R30, R96, R97) -/

/-- The indices of the beats whose codes disagree (R96). -/
def disagreeing (beats : List Beat) : List Nat :=
  (List.range beats.length).filter fun i =>
    match beats[i]? with
    | some b => !beatAgrees b
    | none => false

/-- The DATA CHECK report: the first disagreeing beat and how many disagree (R97, R186). -/
def dataCheckBody (m : MasterId) (w : Option WindowId) (a : TrunkAddr) (beats : List Beat) : ReportBody :=
  reportBody .dataCheck (some m) w (some a) ((disagreeing beats).headD 0 + 256 * (disagreeing beats).length)

/-- The lanes of a beat: its bytes in their lanes (R89). -/
def beatLanes (t : Txn) (i : Nat) : Lanes := laneMask ((t.addr.toNat + i * unitBytes t.unit) % 4) (unitBytes t.unit)

/-- The beats as they are stored: the enables of lanes outside a beat are clear (R89). -/
def storedBeats (t : Txn) (beats : List Beat) : List Beat :=
  beats.mapIdx fun i b => { b with enables := b.enables &&& beatLanes t i }

/-- The sequence flag of an accepted write (R30). -/
def seqFlagOf : LockAttr → SeqFlag
  | .holdLock => .inSequence
  | .closeLock => .close
  | _ => .none

/-- The data entry of an accepted write (R10, R27, R30). -/
def entryOf (s : State) (w : WindowId) (t : Txn) (beats : List Beat) : DataEntry where
  master := t.master
  window := w
  names := true
  cardAddr := translate s.windows[w] t.addr
  unit := t.unit
  beats := storedBeats t beats
  portWidth := s.windows[w].portWidth
  seq := seqFlagOf t.lock
  void := false

/-- Credit and room for a write (R29). -/
def hasCreditAndRoom (s : State) (m : MasterId) : Bool :=
  s.masters[m].outWrites < s.masters[m].creditLimit && dataCount s < Config.dataPlaces &&
    queueLength s < Config.queuePlaces

/-- The acceptance of a CLOSE write sets the lock's closing flag (R75). -/
def noteClosing (t : Txn) (s : State) : State :=
  if t.lock = .closeLock then { s with lock.closing := true } else s

/-- The write step: the data check, then credit and room, then acceptance (R29, R30, R92 step 12, R97). -/
def writeStep (w : WindowId) (t : Txn) (beats : List Beat) (s : State) : State :=
  if !(disagreeing beats).isEmpty then
    answer .refuse (offerReport (dataCheckBody t.master (some w) t.addr beats) s)
  else if hasCreditAndRoom s t.master then
    answer (.done []) (settle (noteClosing t (appendData (entryOf s w t beats) s)))
  else answer .retry s

/-! ### The read step (R49 to R56) -/

/-- The slot's data words (present in READY and STALE, R47). -/
def slotWords (e : Slot) : List CheckedWord := e.data.getD []

/-- The collection of a READY slot: it is freed, and a standing lock names it no longer (R50, R79). -/
def collectSlot (i : SlotId) (s : State) : State :=
  let s := if lockStands s && s.lock.slot = some i then { s with lock.slot := none } else s
  freeSlot i s

/-- A return to a READY slot: its data is tested before any beat is delivered (R50, R51, R121). -/
def returnReady (i : SlotId) (s : State) : State :=
  let words := slotWords s.slots[i]
  if words.all wordAgrees then answer (.done words) (settle (collectSlot i s))
  else answer .refuse (settle (endStoppedAccess (faultGate .slotCheck s)))

/-- A STALE slot is restarted behind the entries now queued, at the end of the age order (R53). -/
def restartSlot (i : SlotId) (s : State) : State :=
  modSlot i (fun e => { e with state := .waiting, data := none, hold := none, ahead := queueLength s })
    { s with ageOrder := s.ageOrder.filter (· != i) ++ [i] }

/-- A return to a STALE slot is answered RETRY: restarted in ENABLED, freed in QUIESCING (R53). -/
def returnStale (i : SlotId) (s : State) : State :=
  match s.gsc.state with
  | .enabled => answer .retry (settle (restartSlot i s))
  | .quiescing => answer .retry (settle (freeSlot i s))
  | _ => answer .retry s

/-- A return to a slot (R50 to R53). -/
def returnTo (i : SlotId) (s : State) : State :=
  match s.slots[i].state with
  | .ready => returnReady i s
  | .failed => answer .refuse (settle (freeSlot i s))
  | .stale => returnStale i s
  | _ => answer .retry s

/-- The FREE slot of lowest id (R48). -/
def freeSlotId (s : State) : Option SlotId := (List.finRange 8).find? fun i => s.slots[i].state = .free

/-- A slot as an allocation sets it up (R55). -/
def allocatedSlot (s : State) (w : WindowId) (t : Txn) : Slot where
  state := .waiting
  key := txnKey t
  window := w
  cardAddr := translate s.windows[w] t.addr
  portWidth := s.windows[w].portWidth
  locked := t.lock = .openLock
  ahead := queueLength s
  data := none
  hold := none
  releaseMark := false

/-- An OPEN read that is allocated a locked slot makes the lock PENDING (R74). -/
def openLockOn (i : SlotId) (w : WindowId) (t : Txn) (s : State) : State :=
  if t.lock = .openLock then { s with lock := ⟨.pending, some t.master, some w, some i, none, false⟩ } else s

/-- The allocation of a slot, with its claims (R55). -/
def allocateSlot (i : SlotId) (w : WindowId) (t : Txn) (s : State) : State :=
  openLockOn i w t (raiseRef w (raiseReads t.master
    { s with slots := modAt s.slots i (fun _ => allocatedSlot s w t), ageOrder := s.ageOrder ++ [i] }))

/-- A new read: recorded in a slot when the gate is ENABLED, the read limit allows it, a slot is FREE, and for
an OPEN read the lock is FREE; answered RETRY either way (R54, R74). -/
def newRead (w : WindowId) (t : Txn) (s : State) : State :=
  if s.gsc.state = .enabled && s.masters[t.master].outReads < s.masters[t.master].readLimit &&
      (t.lock != .openLock || !lockStands s) then
    match freeSlotId s with
    | some i => answer .retry (settle (allocateSlot i w t s))
    | none => answer .retry s
  else answer .retry s

/-- The read step (R49, R92 step 12). -/
def readStep (w : WindowId) (t : Txn) (s : State) : State :=
  match matchingSlot s t with
  | some i => returnTo i s
  | none => newRead w t s

/-! ### The answer selection from the match step on (R92) -/

/-- Step 12 (R92). -/
def lastStep (w : WindowId) (t : Txn) (s : State) : State :=
  match t.payload with
  | .read _ => readStep w t s
  | .write beats => writeStep w t beats s

/-- Steps 11 and 12 (R92). -/
def lockAndLastStep (w : WindowId) (t : Txn) (s : State) : State :=
  match lockStep s w t with
  | .refuse clear => answer .refuse (clearNoteIf clear t.master s)
  | .retry clear => answer .retry (clearNoteIf clear t.master s)
  | .pass clear => lastStep w t (clearNoteIf clear t.master s)

/-- Steps 4 to 12 for a transaction that window `w` claims (R92). -/
def claimedTxn (w : WindowId) (t : Txn) (s : State) : State :=
  if s.gsc.state = .faulted then answer .refuse s
  else if misaligned t then answer .refuse s
  else if crossesEnd s.windows[w] t then answer .refuse (chargeViolation .boundary w t s)
  else if s.windows[w].frozen then answer .refuse s
  else if s.masters[t.master].admission = .barred then answer .refuse (chargeViolation .barred w t s)
  else if rightsFail s w t then answer .refuse (chargeViolation .rights w t s)
  else if !gatePasses s w t then answer .retry s
  else lockAndLastStep w t s

/-- Steps 3 to 12, for a transaction outside the control region (R92). -/
def windowTxn (t : Txn) (s : State) : State :=
  match claimingWindow s t.addr with
  | none => answer .unclaimed s
  | some w => claimedTxn w t s

end Sys2Proof.Machine
end

