-- ==== Sys2Proof/Machine/ControlRegion.lean ====
section
/-! DEFINITION. The control region (chapter 8): who may use an operation, what each immediate operation does,
the intake of ordered records, and the whole answer selection of a trunk transaction (R92). -/

namespace Sys2Proof.Machine

/-! ### Who may use an operation (R139, R140) -/

/-- The operations that FAULTED refuses (R140, row 3). -/
def refusedInFault : ControlOp → Bool
  | .identity => false
  | .status => false
  | .counts => false
  | .claim _ => true
  | .relinquish _ => true
  | .release _ => false
  | .attention _ => true
  | .resetGate _ => false
  | .reportHead => false
  | .intake _ => true
  | .windowReadback _ => false
  | .masterReadback _ => false

/-- The operations for the manager alone (R140, row 4). -/
def managerOnly : ControlOp → Bool
  | .identity => false
  | .status => false
  | .counts => true
  | .claim _ => false
  | .relinquish _ => true
  | .release _ => true
  | .attention _ => true
  | .resetGate _ => false
  | .reportHead => true
  | .intake _ => true
  | .windowReadback _ => true
  | .masterReadback _ => true

/-- RESET GATE from a master that is not the manager while a manager is set (R140, row 5). -/
def resetGateBarred (s : State) (m : MasterId) : ControlOp → Bool
  | .resetGate _ => s.cu.manager.isSome && s.cu.manager != some m
  | _ => false

/-- Rows 3 to 5 of R140 refuse the operation. -/
def refusedOp (s : State) (m : MasterId) (op : ControlOp) : Bool :=
  (s.gsc.state = .faulted && refusedInFault op) || (managerOnly op && s.cu.manager != some m) ||
    resetGateBarred s m op

/-! ### The immediate operations -/

/-- A read answered DONE with words and their check codes (R143). -/
def answerWords (words : List Word) (s : State) : State := answer (.done (words.map withCode)) s

/-- CLAIM (R141). -/
def claimRole (m : MasterId) (data : Word) (s : State) : State :=
  if data != BitVec.ofNat 32 m.val then answer .refuse s
  else
    match s.cu.manager with
    | none => answer (.done []) { s with cu.manager := some m }
    | some m' => if m' = m then answer (.done []) s else answer .refuse s

/-- The removal of the head report: the count falls, a WAITING request becomes HELD, and the service line
follows (R168). -/
def removeReport (s : State) : State :=
  driveLine { s with
    rq.reports := s.rq.reports.drop 1
    rq.space := if s.rq.space = .waiting then .held else s.rq.space }

/-- RELEASE (R144). -/
def releaseReport (data : Word) (s : State) : State :=
  match s.rq.reports with
  | [] => answer .refuse s
  | r :: _ =>
    if field data 16 16 = 0 && r.seq.toNat = field data 0 16 then answer (.done []) (removeReport s)
    else answer .refuse s

/-- ATTENTION (R145). -/
def setAttention (data : Word) (s : State) : State :=
  if data = 0 then answer (.done []) (driveLine { s with cu.attention := false })
  else if data = 1 then answer (.done []) (driveLine { s with cu.attention := true })
  else answer .refuse s

/-- RESET GATE (R146). -/
def resetGateWord (data : Word) (s : State) : State :=
  if data = 0 then answer (.done []) (gateReset false s)
  else if data = 1 then answer (.done []) (gateReset true s)
  else answer .refuse s

/-- The intake of an ordered record (R149, R150). -/
def takeRecord (m : MasterId) (words : List Word) (s : State) : State :=
  match recordEntry m words with
  | none => answer .refuse s
  | some c =>
    if queueLength s < Config.queuePlaces then answer (.done []) (settle (appendControl c s))
    else answer .retry s

/-- An operation's own rule (R140, row 6). -/
def operate (m : MasterId) (op : ControlOp) (s : State) : State :=
  match op with
  | .identity => answerWords [identityWord] s
  | .status => answerWords [statusWord s] s
  | .counts => answerWords (countsWords s) s
  | .reportHead => answerWords (reportHeadWords s) s
  | .windowReadback w => answerWords (windowWords s.windows[w]) s
  | .masterReadback k => answerWords (masterWords s.masters[k]) s
  | .claim data => claimRole m data s
  | .relinquish _ => answer (.done []) { s with cu.manager := none }
  | .release data => releaseReport data s
  | .attention data => setAttention data s
  | .resetGate data => resetGateWord data s
  | .intake words => takeRecord m words s

/-- Rows 3 to 6 of R140. -/
def serveOp (m : MasterId) (op : ControlOp) (s : State) : State :=
  if refusedOp s m op then answer .refuse s else operate m op s

/-! ### A transaction addressed to the control region (R140) -/

/-- A write whose data check fails is refused with a DATA CHECK report that names no window (R97). -/
def refuseDamaged (m : MasterId) (a : TrunkAddr) (beats : List Beat) (s : State) : State :=
  answer .refuse (offerReport (dataCheckBody m none a beats) s)

/-- The beats of a payload that is a write. -/
def writtenBeats (t : Txn) : List Beat :=
  match t.payload with
  | .read _ => []
  | .write beats => beats

/-- The table of R140. -/
def controlTxn (t : Txn) (s : State) : State :=
  if !(disagreeing (writtenBeats t)).isEmpty then refuseDamaged t.master t.addr (writtenBeats t) s
  else
    match shapeOf (regionOffset s.ti.slotNumber t.addr) t with
    | none => answer .refuse s
    | some op => serveOp t.master op s

/-- The answer selection (R92): RESET, the control region, then the steps of a window transaction. -/
def trunkTxn (t : Txn) (s : State) : State :=
  if s.gsc.state = .reset then answer .unclaimed s
  else if inRegion s.ti.slotNumber t.addr then controlTxn t s
  else windowTxn t s

/-! ### The transactions of the listed operations (R139) -/

/-- The read of a listed operation: unit 4, lock attribute NONE, at an offset of the gate's region. -/
def regionRead (s : State) (m : MasterId) (offset beats : Nat) : Txn :=
  ⟨m, regionBase s.ti.slotNumber + BitVec.ofNat 32 offset, .four, .noLock, .read beats⟩

/-- The write of a listed operation: every byte enable set, with the check codes that arrived. -/
def regionWrite (s : State) (m : MasterId) (offset : Nat) (words : List CheckedWord) : Txn :=
  ⟨m, regionBase s.ti.slotNumber + BitVec.ofNat 32 offset, .four, .noLock,
    .write (words.map fun c => ⟨c.word, 0xF, c.code⟩)⟩

end Sys2Proof.Machine
end

