-- ==== Sys2Proof/Machine/Ordered.lean ====
section
/-! DEFINITION. The execution of ordered commands at the head of the posted write queue (section 8.7). -/

namespace Sys2Proof.Machine

/-- What an execution comes to: the RESULT's status and detail, and the state it leaves before the RESULT is
stored (R151). -/
structure Execution where
  status : Status
  detail : Nat
  state : State

/-- A command that changes nothing: its detail is 0 (R151). -/
def noChange (status : Status) (s : State) : Execution := ⟨status, 0, s⟩

/-- A control entry is executed in STANDBY, ENABLED and QUIESCING (R151). -/
def executesRecords (s : State) : Bool :=
  s.gsc.state = .standby || s.gsc.state = .enabled || s.gsc.state = .quiescing

/-- The control entry of a command that is at the head with a place held for its RESULT (R33, R151, R167). -/
def entryToExecute (cmd : Command) (s : State) : Option ControlEntry :=
  match s.pwq.entries with
  | .control c :: _ => if c.command = cmd && s.rq.space = .held && executesRecords s then some c else none
  | _ => none

/-- The commands whose RESULT carries the operand window id (R151). -/
def isWindowCommand : Command → Bool
  | .loadWindow => true
  | .retireWindow => true
  | .modifyWindow => true
  | .thawWindow => true
  | _ => false

/-- The RESULT report (R151, R186). -/
def resultBody (c : ControlEntry) (status : Status) (detail : Nat) : ReportBody :=
  ⟨.result, some c.tag, some status, some c.writer, if isWindowCommand c.command then operandWindow c else none, none,
    BitVec.ofNat 32 detail⟩

/-- The execution of the head entry: the command acts, its RESULT is stored in the held place, and the entry is
removed (R151, R33, R37). Where the command has broken the lock of a tenure held idle, the tenure ends then, so that the
decision counts the gate for what stands behind the entry (R126, R131, log 32). Without such an entry at the head the
event cannot occur (log 8). -/
def executeHead (cmd : Command) (act : ControlEntry → State → Execution) (s : State) : State :=
  match entryToExecute cmd s with
  | none => s
  | some c =>
    let x := act c s
    settle (endIdleTenure s.arb.lockHold
      (leaveDeadHeads (removeHead (storeResult (resultBody c x.status x.detail) x.state))))

/-! ### Window commands -/

/-- The LIVE entry that LOAD WINDOW writes (R16): the reference count is left, 0 in a FREE window. -/
def loadedWindow (o : LoadOperands) (e : Window) : Window where
  state := .live
  frozen := false
  trunkBase := o.trunkBase
  sizeCode := o.sizeCode
  cardBase := o.cardBase
  portWidth := o.portWidth
  lockable := o.lockable
  policy := o.policy
  readMask := o.readMask
  writeMask := o.writeMask
  refCount := e.refCount
  discards := 0
  retireTag := none

/-- LOAD WINDOW (R16, R152). -/
def doLoadWindow (c : ControlEntry) (s : State) : Execution :=
  match loadOperands c with
  | none => noChange .badOperand s
  | some o =>
    if s.windows[o.window].state = .free then
      ⟨.ok, 0, { s with windows := modAt s.windows o.window (loadedWindow o) }⟩
    else noChange .busy s

/-- The slots naming a window that are not FREE. -/
def slotNames (w : WindowId) (e : Slot) : Bool := e.state != .free && e.window = w

/-- The slots a withdrawal frees at once: those selected that are not FETCHING (R67). -/
def freedCount (p : Slot → Bool) (s : State) : Nat := countTable s.slots fun e => p e && e.state != .fetching

/-- The slots a withdrawal gives the release mark: those selected that are FETCHING (R67, log 20). -/
def markedCount (p : Slot → Bool) (s : State) : Nat := countTable s.slots fun e => p e && e.state = .fetching

/-- The window becomes DRAINING with its retire tag (R17, step 1). -/
def drainWindow (w : WindowId) (tag : Tag) (s : State) : State :=
  { s with windows := modAt s.windows w fun e => { e with state := .draining, retireTag := some tag } }

/-- A lock that stands on the window is broken with cause RETIRED (R17, step 2). -/
def breakIfOnWindow (w : WindowId) (s : State) : State :=
  if lockedWindow s w then breakLock .retired s else s

/-- The window becomes FREE at once when its count is 0 (R17, step 4). -/
def freeAtOnce (w : WindowId) (s : State) : State :=
  if s.windows[w].refCount = 0 then { s with windows := modAt s.windows w freedWindow } else s

/-- RETIRE WINDOW on a LIVE window, in the order of R17. -/
def retireLive (w : WindowId) (tag : Tag) (s : State) : State :=
  freeAtOnce w (withdrawSlots (slotNames w) (breakIfOnWindow w (drainWindow w tag s)))

/-- RETIRE WINDOW (R17, R153). -/
def doRetireWindow (c : ControlEntry) (s : State) : Execution :=
  match operandWindow c with
  | none => noChange .badOperand s
  | some w =>
    if s.windows[w].state = .live then
      let t := retireLive w c.tag s
      ⟨.ok, freedCount (slotNames w) s + 2 ^ 4 * markedCount (slotNames w) s + 2 ^ 8 * bit (t.windows[w].state = .free),
        testQuiesce (freeDrainedWindows t)⟩
    else noChange .already s

/-- MODIFY WINDOW (R18, R154). -/
def doModifyWindow (c : ControlEntry) (s : State) : Execution :=
  match operandWindow c, policyOfCode (field (operand c 1) 19 2) with
  | some w, some ep =>
    if s.windows[w].state = .live then
      ⟨.ok, 0, { s with windows := modAt s.windows w fun e => { e with
        lockable := flagBit (operand c 1) 18, policy := ep,
        readMask := readMaskOf (operand c 2), writeMask := writeMaskOf (operand c 2) } }⟩
    else noChange .wrongState s
  | _, _ => noChange .badOperand s

/-- THAW WINDOW (R21, R155). -/
def doThawWindow (c : ControlEntry) (s : State) : Execution :=
  match operandWindow c with
  | none => noChange .badOperand s
  | some w =>
    if s.windows[w].state = .free then noChange .wrongState s
    else if s.windows[w].frozen then
      ⟨.ok, s.windows[w].discards,
        { s with windows := modAt s.windows w fun e => { e with frozen := false, discards := 0 } }⟩
    else noChange .already s

/-! ### Master, timer and arbitration commands -/

/-- The operands of SET MASTER after the master id (R104, R185). -/
structure MasterOperands where
  master : MasterId
  admission : Admission
  clear : Bool
  creditLimit : Nat
  readLimit : Nat
  barThreshold : Nat
  deriving DecidableEq, Repr

/-- The operands of SET MASTER, if every one of them is legal (R156, R185). -/
def masterOperands (c : ControlEntry) : Option MasterOperands :=
  match operandMaster c, admissionOfCode (field (operand c 1) 8 2) with
  | some m, some a =>
    if field (operand c 2) 0 8 ≤ 30 && field (operand c 2) 8 8 ≤ 8 then
      some ⟨m, a, flagBit (operand c 1) 10, field (operand c 2) 0 8, field (operand c 2) 8 8, field (operand c 2) 16 8⟩
    else none
  | _, _ => none

/-- The record that SET MASTER writes; the outstanding counts and the note stay (R104, R105). -/
def writtenMaster (o : MasterOperands) (e : Master) : Master where
  admission := o.admission
  creditLimit := o.creditLimit
  readLimit := o.readLimit
  outWrites := e.outWrites
  outReads := e.outReads
  violations := if o.clear then 0 else e.violations
  barThreshold := o.barThreshold
  note := e.note

/-- The non-FREE slots of a master. -/
def slotOf (m : MasterId) (e : Slot) : Bool := e.state != .free && e.key.master = m

/-- A lock that stands with this owner is broken with cause MASTER (R83, R105). -/
def breakIfOwner (m : MasterId) (s : State) : State :=
  if lockStands s && s.lock.owner = some m then breakLock .master s else s

/-- The withdrawal of a barred master's work (R105). -/
def withdrawMaster (m : MasterId) (s : State) : State := withdrawSlots (slotOf m) (breakIfOwner m s)

/-- SET MASTER (R104, R105, R156). -/
def doSetMaster (c : ControlEntry) (s : State) : Execution :=
  match masterOperands c with
  | none => noChange .badOperand s
  | some o =>
    let former := admissionCode s.masters[o.master].admission
    let t := { s with masters := modAt s.masters o.master (writtenMaster o) }
    match o.admission with
    | .opened => ⟨.ok, o.master.val + 2 ^ 8 * former, t⟩
    | .barred =>
      ⟨.ok, o.master.val + 2 ^ 8 * former + 2 ^ 16 * freedCount (slotOf o.master) s
          + 2 ^ 20 * markedCount (slotOf o.master) s,
        testQuiesce (freeDrainedWindows (withdrawMaster o.master t))⟩

/-- SET TIMERS (R157). -/
def doSetTimers (c : ControlEntry) (s : State) : Execution :=
  let readHold := field (operand c 1) 0 16
  let lockHold := field (operand c 1) 16 16
  let cardResponse := field (operand c 2) 0 16
  let residentTenure := field (operand c 2) 16 16
  if 8 ≤ readHold && readHold ≤ 4096 && 4 ≤ lockHold && lockHold ≤ 1024 && 1 ≤ cardResponse && cardResponse ≤ 255 &&
      residentTenure ≤ 1023 then
    ⟨.ok, 0, { s with
      cu.readHold := readHold, cu.lockHold := lockHold, cu.cardResponse := cardResponse,
      cu.residentTenure := residentTenure }⟩
  else noChange .badOperand s

/-- SET ARBITRATION (R132, R158). -/
def doSetArbitration (c : ControlEntry) (s : State) : Execution :=
  let highWater := field (operand c 1) 8 8
  match parkPolicyOfCode (field (operand c 1) 0 3) with
  | none => noChange .badOperand s
  | some policy =>
    if 8 ≤ highWater && highWater ≤ 30 then
      ⟨.ok, 0, writeSettings policy highWater (operandPorts (operand c 1)) s⟩
    else noChange .badOperand s

/-! ### Gate state commands -/

/-- ENABLE (R159, R176). -/
def doEnable (_c : ControlEntry) (s : State) : Execution :=
  match s.gsc.state with
  | .standby => ⟨.ok, 0, { s with gsc := ⟨.enabled, .none, none⟩ }⟩
  | .quiescing => ⟨.ok, 1, { s with gsc := ⟨.enabled, .none, none⟩ }⟩
  | _ => noChange .already s

/-- The detail of a QUIESCE that starts: data count, non-FREE slots, lock state (R160, R186). -/
def quiesceDetail (s : State) : Nat := dataCount s + 2 ^ 8 * slotsInUse s + 2 ^ 12 * lockCode s.lock.state

/-- QUIESCE (R160, R176). -/
def doQuiesce (c : ControlEntry) (s : State) : Execution :=
  match s.gsc.state with
  | .enabled =>
    if quiesceConditions s then ⟨.ok, 0, { s with gsc := ⟨.standby, .none, none⟩ }⟩
    else ⟨.started, quiesceDetail s, { s with gsc := ⟨.quiescing, .none, some c.tag⟩ }⟩
  | _ => noChange .already s

/-- FENCE: the detail is the queue's length after its own entry's removal (R161). -/
def doFence (_c : ControlEntry) (s : State) : Execution := ⟨.ok, queueLength s - 1, s⟩

end Sys2Proof.Machine
end

