-- ==== Sys2Proof/Machine/Commands.lean ====
section
/-! DEFINITION. The meanings of the ten ordered commands, one definition for each row: the execution of the
control entry at the head (R151). -/

namespace Sys2Proof.Machine

/-- LOAD_WINDOW (R16, R152). -/
def execLoadWindow (s : State) : Host.Outcome State Fault Refusal := .next (executeHead .loadWindow doLoadWindow s)

/-- RETIRE_WINDOW (R17, R153). -/
def execRetireWindow (s : State) : Host.Outcome State Fault Refusal := .next (executeHead .retireWindow doRetireWindow s)

/-- MODIFY_WINDOW (R18, R154). -/
def execModifyWindow (s : State) : Host.Outcome State Fault Refusal := .next (executeHead .modifyWindow doModifyWindow s)

/-- THAW_WINDOW (R21, R155). -/
def execThawWindow (s : State) : Host.Outcome State Fault Refusal := .next (executeHead .thawWindow doThawWindow s)

/-- SET_MASTER (R104, R105, R156). -/
def execSetMaster (s : State) : Host.Outcome State Fault Refusal := .next (executeHead .setMaster doSetMaster s)

/-- SET_TIMERS (R157). -/
def execSetTimers (s : State) : Host.Outcome State Fault Refusal := .next (executeHead .setTimers doSetTimers s)

/-- SET_ARBITRATION (R132, R158). -/
def execSetArbitration (s : State) : Host.Outcome State Fault Refusal :=
  .next (executeHead .setArbitration doSetArbitration s)

/-- ENABLE (R159, R176). -/
def execEnable (s : State) : Host.Outcome State Fault Refusal := .next (executeHead .enable doEnable s)

/-- QUIESCE (R160, R176). -/
def execQuiesce (s : State) : Host.Outcome State Fault Refusal := .next (executeHead .quiesce doQuiesce s)

/-- FENCE (R161). -/
def execFence (s : State) : Host.Outcome State Fault Refusal := .next (executeHead .fence doFence s)

end Sys2Proof.Machine
end

