-- ==== Sys2Proof/Machine/Events.lean ====
section
/-! DEFINITION. The meanings of the other events, one definition for each row: the tick, the resets, the end of
a piece, the timers' expiries, the residents' lines and writes. -/

namespace Sys2Proof.Machine

/-! ### Resets -/

/-- POWER_ON_RESET_ASSERT (R175); no change while it is asserted already. -/
def execPowerOnResetAssert (slotLines : BitVec 4) (s : State) : Host.Outcome State Fault Refusal :=
  .next (if s.porAsserted then s else assertPowerOn slotLines s)

/-- POWER_ON_RESET_RELEASE (R175); no change while it is not asserted. -/
def execPowerOnResetRelease (slotLines : BitVec 4) (s : State) : Host.Outcome State Fault Refusal :=
  .next (if s.porAsserted then releasePowerOn slotLines s else s)

/-- CARD_RESET_ASSERT (R175); no change while it is asserted already. -/
def execCardResetAssert (slotLines : BitVec 4) (s : State) : Host.Outcome State Fault Refusal :=
  .next (if s.cardAsserted then s else assertCard slotLines s)

/-- CARD_RESET_RELEASE (R175); no change while it is not asserted. -/
def execCardResetRelease (slotLines : BitVec 4) (s : State) : Host.Outcome State Fault Refusal :=
  .next (if s.cardAsserted then releaseCard slotLines s else s)

/-- TRUNK_RESET (R180); nothing changes while the gate is RESET (R175, log 16). -/
def execTrunkReset (s : State) : Host.Outcome State Fault Refusal :=
  .next (if s.gsc.state = .reset then s else trunkReset s)

/-! ### The end of a piece -/

/-- The access in flight with its outstanding operation, if there is one (R109). -/
def outstanding (s : State) : Option (Access × PieceOp) :=
  match s.cbc.access with
  | some a =>
    match a.op with
    | some p => some (a, p)
    | none => none
  | none => none

/-- After a piece that ended ACK: an access that goes on with its next piece leaves nothing to settle (R114). -/
def afterPiece (s : State) : State := if s.cbc.access.isSome then s else settle s

/-- PIECE_END (R113, R114): an answer with no operation outstanding is ignored. -/
def execPieceEnd (answer : TargetAnswer) (s : State) : Host.Outcome State Fault Refusal :=
  match outstanding s, answer with
  | some (a, p), .ack data => .next (afterPiece (pieceAcked a p data s))
  | some (a, p), .targetError => .next (settle (pieceFailed a p .targetError s))
  | none, _ => .next s

/-- The response timer expires, if it runs and is due: the piece ends NO RESPONSE (R113). -/
def responseExpires (s : State) : State :=
  match outstanding s with
  | some (a, p) => if expired s.timebase p.timer then settle (pieceFailed a p .noResponse s) else s
  | none => s

/-- NO_RESPONSE (R113): nothing happens unless the response timer runs and is due (log 9). -/
def execNoResponse (s : State) : Host.Outcome State Fault Refusal := .next (responseExpires s)

/-! ### Timers -/

/-- The READ ABANDONED report of a READY or STALE slot (R62, R186). -/
def readAbandonedBody (i : SlotId) (e : Slot) : ReportBody :=
  reportBody .readAbandoned (some e.key.master) (some e.window) (some e.key.addr)
    (65536 * i.val + 2 ^ 20 * (if e.state = .stale then 1 else 0))

/-- A slot's hold timer expires: the slot is freed, with READ ABANDONED in READY and STALE (R62). -/
def holdExpires (i : SlotId) (s : State) : State :=
  match s.slots[i].state with
  | .ready => settle (freeSlot i (offerReport (readAbandonedBody i s.slots[i]) s))
  | .stale => settle (freeSlot i (offerReport (readAbandonedBody i s.slots[i]) s))
  | .failed => settle (freeSlot i s)
  | _ => s

/-- A slot's hold timer expires, if it runs and is due (R62). -/
def slotExpires (i : SlotId) (s : State) : State :=
  if s.slots[i].hold.any (expired s.timebase) then holdExpires i s else s

/-- HOLD_TIMER_EXPIRY (R62): nothing happens unless the slot's timer runs and is due (log 9). -/
def execHoldTimerExpiry (i : SlotId) (s : State) : Host.Outcome State Fault Refusal := .next (slotExpires i s)

/-- The lock's hold timer expires, if it runs and is due: the lock is broken with cause TIMEOUT, and a tenure held idle
under it ends (R81, R131). -/
def lockExpires (s : State) : State :=
  if lockTimerDue s then settle (endIdleTenure s.arb.lockHold (leaveDeadHeads (breakLock .timeout s))) else s

/-- LOCK_HOLD_TIMER_EXPIRY (R81): nothing happens unless the lock's timer runs and is due (log 9). -/
def execLockHoldTimerExpiry (s : State) : Host.Outcome State Fault Refusal := .next (lockExpires s)

/-- The code of a port (R186). -/
def portCode : Port → Nat
  | .a => 1
  | .b => 2
  | .c => 3

/-- The owner of the card bus, if it is a resident (R125). -/
def residentOwner (s : State) : Option Port :=
  match s.arb.state with
  | .tenure (.port p) => some p
  | .locked (.port p) _ => some p
  | _ => none

/-- The RESIDENT OVERSTAY report: the port and the overstay limit (R134, R186). -/
def overstayBody (p : Port) (t : Timer) : ReportBody :=
  reportBody .residentOverstay none none none (portCode p + 65536 * t.limit)

/-- The overstay timer expires, if it runs and is due: one report, and the resident keeps the grant (R134). -/
def overstayExpires (s : State) : State :=
  match s.arb.overstay, residentOwner s with
  | some t, some p =>
    if expired s.timebase t then offerReport (overstayBody p t) { s with arb.overstay := none } else s
  | _, _ => s

/-- OVERSTAY_TIMER_EXPIRY (R134): nothing happens unless the overstay timer runs and is due (log 9). -/
def execOverstayTimerExpiry (s : State) : Host.Outcome State Fault Refusal := .next (overstayExpires s)

/-! ### The timebase -/

/-- Every timer that is due and whose expiry has not been taken expires (R1): the response timer, the lock's, the slots'
in ascending id, the overstay timer (log 9). -/
def expireDue (s : State) : State :=
  overstayExpires ((List.finRange 8).foldl (fun s i => slotExpires i s) (lockExpires (responseExpires s)))

/-- TIMEBASE_TICK (R1): the count rises by one and wraps. A timer expires at the first tick at or after its deadline: the
rows of the expiries take it between that tick and the next, in any order with the other events of that microsecond, and
the next tick takes the expiries that are left before it counts (log 9). While power-on reset is asserted the count is 0
and no timer runs. -/
def execTimebaseTick (s : State) : Host.Outcome State Fault Refusal :=
  .next (if s.porAsserted then { s with timebase := 0 }
    else { expireDue s with timebase := (expireDue s).timebase + 1 })

/-! ### Residents -/

/-- RESIDENT_REQUEST_RAISE (R126, R129): a disabled port's request changes its line alone. -/
def execResidentRequestRaise (p : Port) (s : State) : Host.Outcome State Fault Refusal :=
  if portOf s.lines.request p then .next s
  else
    let t := setRequestLine p true s
    .next (if portOf t.arb.enabled p then settle (requestArrives (.port p) t) else t)

/-- The end of a resident's tenure (R126, R130): a decision, or LOCKED between tenures. -/
def residentTenureEnds (p : Port) (s : State) : State :=
  match s.arb.state with
  | .tenure (.port q) => if q = p then settle (decision s) else s
  | .locked (.port q) true => if q = p then { s with arb.state := .locked (.port p) false } else s
  | _ => s

/-- RESIDENT_REQUEST_DROP (R126, R128, R130). -/
def execResidentRequestDrop (p : Port) (s : State) : Host.Outcome State Fault Refusal :=
  .next (if portOf s.lines.request p then residentTenureEnds p (setRequestLine p false s) else s)

/-- A hold raised by the port in tenure, if it is enabled, makes LOCKED (R130). -/
def holdTaken (p : Port) (s : State) : State :=
  if s.arb.state = .tenure (.port p) && portOf s.arb.enabled p then { s with arb.state := .locked (.port p) true } else s

/-- RESIDENT_HOLD_RAISE (R126, R130). -/
def execResidentHoldRaise (p : Port) (s : State) : Host.Outcome State Fault Refusal :=
  .next (if portOf s.lines.hold p then s else holdTaken p (setHoldLine p true s))

/-- A hold's release by the port in LOCKED (R130): TENURE, or a decision between tenures. -/
def holdReleased (p : Port) (s : State) : State :=
  match s.arb.state with
  | .locked (.port q) inTenure =>
    if q = p then (if inTenure then { s with arb.state := .tenure (.port p) } else settle (decision s)) else s
  | _ => s

/-- RESIDENT_HOLD_DROP (R130). -/
def execResidentHoldDrop (p : Port) (s : State) : Host.Outcome State Fault Refusal :=
  .next (if portOf s.lines.hold p then holdReleased p (setHoldLine p false s) else s)

/-- The port is in a tenure on the card bus (R126). -/
def residentInTenure (p : Port) (s : State) : Bool :=
  s.arb.state = .tenure (.port p) || s.arb.state = .locked (.port p) true

/-- RESIDENT_WRITE_OBSERVED (R65, R119): the staleness test of a write by the resident that holds the bus; a
port that is not in a tenure makes no write (log 22). -/
def execResidentWriteObserved (p : Port) (addr : CardAddr) (size : BeatUnit) (s : State) :
    Host.Outcome State Fault Refusal :=
  .next (if residentInTenure p s then markStale addr (unitBytes size) s else s)

end Sys2Proof.Machine
end

