-- ==== Sys2Proof/WellFormed.lean ====
section
/-! DEFINITION. Which commands the outside can send: a trunk transaction has 1 to 16 beats (R88). -/

namespace Sys2Proof

/-- The number of beats of a payload. -/
def Payload.beatCount : Payload → Nat
  | .read n => n
  | .write beats => beats.length

/-- A transaction has 1 to 16 beats (R88). -/
def beatCountLegal (n : Nat) : Bool := 1 ≤ n && n ≤ 16

/-- The commands that exist: every trunk transaction among them has 1 to 16 beats (R88). Every other
field is of a type that holds legal values only. -/
def Instr.wellFormed : Instr → Bool
  | .timebaseTick => true
  | .powerOnResetAssert _ => true
  | .powerOnResetRelease _ => true
  | .cardResetAssert _ => true
  | .cardResetRelease _ => true
  | .trunkReset => true
  | .windowWrite _ _ _ _ beats => beatCountLegal beats.length
  | .windowRead _ _ _ _ beats => beatCountLegal beats
  | .identity _ => true
  | .status _ => true
  | .counts _ => true
  | .reportHead _ => true
  | .windowReadback _ _ => true
  | .masterReadback _ _ => true
  | .claim _ _ => true
  | .relinquish _ _ => true
  | .release _ _ => true
  | .attention _ _ => true
  | .resetGate _ _ => true
  | .controlIntake _ words => beatCountLegal words.length
  | .controlRegionRefused txn => beatCountLegal txn.payload.beatCount
  | .loadWindow => true
  | .retireWindow => true
  | .modifyWindow => true
  | .thawWindow => true
  | .setMaster => true
  | .setTimers => true
  | .setArbitration => true
  | .enable => true
  | .quiesce => true
  | .fence => true
  | .pieceEnd _ => true
  | .noResponse => true
  | .holdTimerExpiry _ => true
  | .lockHoldTimerExpiry => true
  | .overstayTimerExpiry => true
  | .residentRequestRaise _ => true
  | .residentRequestDrop _ => true
  | .residentHoldRaise _ => true
  | .residentHoldDrop _ => true
  | .residentWriteObserved _ _ _ => true

end Sys2Proof
end

