-- ==== Sys2Proof/Machine/Transactions.lean ====
section
/-! DEFINITION. The meanings of the trunk transactions, one definition for each row: each takes its whole
transaction through the answer selection (R92). -/

namespace Sys2Proof.Machine

/-- A transaction of 1 to 16 beats is decided; another cannot be on the trunk (R88, log 21). -/
def takeTxn (t : Txn) (s : State) : Host.Outcome State Fault Refusal :=
  if beatCountLegal (txnBeats t) then .next (trunkTxn t s) else .fault .illFormed

/-- WINDOW_WRITE (R29). -/
def execWindowWrite (m : MasterId) (a : TrunkAddr) (u : BeatUnit) (l : LockAttr) (beats : List Beat) (s : State) :
    Host.Outcome State Fault Refusal :=
  takeTxn ⟨m, a, u, l, .write beats⟩ s

/-- WINDOW_READ (R49). -/
def execWindowRead (m : MasterId) (a : TrunkAddr) (u : BeatUnit) (l : LockAttr) (beats : Nat) (s : State) :
    Host.Outcome State Fault Refusal :=
  takeTxn ⟨m, a, u, l, .read beats⟩ s

/-- CONTROL_REGION_REFUSED (R139): a transaction given whole, decided as any other. -/
def execControlRegionRefused (t : Txn) (s : State) : Host.Outcome State Fault Refusal := takeTxn t s

/-- IDENTITY (R183): the 1-beat read at offset 0000h. -/
def execIdentity (m : MasterId) (s : State) : Host.Outcome State Fault Refusal :=
  .next (trunkTxn (regionRead s m 0x0000 1) s)

/-- STATUS (R170): the 1-beat read at offset 0004h. -/
def execStatus (m : MasterId) (s : State) : Host.Outcome State Fault Refusal :=
  .next (trunkTxn (regionRead s m 0x0004 1) s)

/-- COUNTS (R41): the 3-beat read at offset 0010h. -/
def execCounts (m : MasterId) (s : State) : Host.Outcome State Fault Refusal :=
  .next (trunkTxn (regionRead s m 0x0010 3) s)

/-- REPORT_HEAD (R144): the 4-beat read at offset 0200h. -/
def execReportHead (m : MasterId) (s : State) : Host.Outcome State Fault Refusal :=
  .next (trunkTxn (regionRead s m 0x0200 4) s)

/-- WINDOW_READBACK (R22): the 8-beat read at offset 1000h + w × 20h. -/
def execWindowReadback (m : MasterId) (w : WindowId) (s : State) : Host.Outcome State Fault Refusal :=
  .next (trunkTxn (regionRead s m (0x1000 + w.val * 0x20) 8) s)

/-- MASTER_READBACK (R106): the 4-beat read at offset 2000h + m × 10h. -/
def execMasterReadback (m : MasterId) (k : MasterId) (s : State) : Host.Outcome State Fault Refusal :=
  .next (trunkTxn (regionRead s m (0x2000 + k.val * 0x10) 4) s)

/-- CLAIM (R141): the 1-beat write at offset 0100h. -/
def execClaim (m : MasterId) (d : CheckedWord) (s : State) : Host.Outcome State Fault Refusal :=
  .next (trunkTxn (regionWrite s m 0x0100 [d]) s)

/-- RELINQUISH (R142): the 1-beat write at offset 0104h. -/
def execRelinquish (m : MasterId) (d : CheckedWord) (s : State) : Host.Outcome State Fault Refusal :=
  .next (trunkTxn (regionWrite s m 0x0104 [d]) s)

/-- RELEASE (R144): the 1-beat write at offset 0108h. -/
def execRelease (m : MasterId) (d : CheckedWord) (s : State) : Host.Outcome State Fault Refusal :=
  .next (trunkTxn (regionWrite s m 0x0108 [d]) s)

/-- ATTENTION (R145): the 1-beat write at offset 010Ch. -/
def execAttention (m : MasterId) (d : CheckedWord) (s : State) : Host.Outcome State Fault Refusal :=
  .next (trunkTxn (regionWrite s m 0x010C [d]) s)

/-- RESET_GATE (R146): the 1-beat write at offset 0110h. -/
def execResetGate (m : MasterId) (d : CheckedWord) (s : State) : Host.Outcome State Fault Refusal :=
  .next (trunkTxn (regionWrite s m 0x0110 [d]) s)

/-- CONTROL_INTAKE (R149): the write burst of 1 to 16 beats at offset 0400h. -/
def execControlIntake (m : MasterId) (words : List CheckedWord) (s : State) : Host.Outcome State Fault Refusal :=
  takeTxn (regionWrite s m 0x0400 words) s

end Sys2Proof.Machine
end

