-- ==== Sys2Proof/Machine/Dispatch.lean ====
section
/-! DEFINITION. The dispatch: one arm for each row of spec/opcode_table.json. -/

namespace Sys2Proof.Machine

def exec (i : Instr) (s : State) : Host.Outcome State Fault Refusal :=
  match i with
  | .timebaseTick => Sys2Proof.Machine.execTimebaseTick s
  | .powerOnResetAssert l => Sys2Proof.Machine.execPowerOnResetAssert l s
  | .powerOnResetRelease l => Sys2Proof.Machine.execPowerOnResetRelease l s
  | .cardResetAssert l => Sys2Proof.Machine.execCardResetAssert l s
  | .cardResetRelease l => Sys2Proof.Machine.execCardResetRelease l s
  | .trunkReset => Sys2Proof.Machine.execTrunkReset s
  | .windowWrite m a u k b => Sys2Proof.Machine.execWindowWrite m a u k b s
  | .windowRead m a u k b => Sys2Proof.Machine.execWindowRead m a u k b s
  | .identity m => Sys2Proof.Machine.execIdentity m s
  | .status m => Sys2Proof.Machine.execStatus m s
  | .counts m => Sys2Proof.Machine.execCounts m s
  | .reportHead m => Sys2Proof.Machine.execReportHead m s
  | .windowReadback m w => Sys2Proof.Machine.execWindowReadback m w s
  | .masterReadback m k => Sys2Proof.Machine.execMasterReadback m k s
  | .claim m d => Sys2Proof.Machine.execClaim m d s
  | .relinquish m d => Sys2Proof.Machine.execRelinquish m d s
  | .release m d => Sys2Proof.Machine.execRelease m d s
  | .attention m d => Sys2Proof.Machine.execAttention m d s
  | .resetGate m d => Sys2Proof.Machine.execResetGate m d s
  | .controlIntake m ws => Sys2Proof.Machine.execControlIntake m ws s
  | .controlRegionRefused t => Sys2Proof.Machine.execControlRegionRefused t s
  | .loadWindow => Sys2Proof.Machine.execLoadWindow s
  | .retireWindow => Sys2Proof.Machine.execRetireWindow s
  | .modifyWindow => Sys2Proof.Machine.execModifyWindow s
  | .thawWindow => Sys2Proof.Machine.execThawWindow s
  | .setMaster => Sys2Proof.Machine.execSetMaster s
  | .setTimers => Sys2Proof.Machine.execSetTimers s
  | .setArbitration => Sys2Proof.Machine.execSetArbitration s
  | .enable => Sys2Proof.Machine.execEnable s
  | .quiesce => Sys2Proof.Machine.execQuiesce s
  | .fence => Sys2Proof.Machine.execFence s
  | .pieceEnd r => Sys2Proof.Machine.execPieceEnd r s
  | .noResponse => Sys2Proof.Machine.execNoResponse s
  | .holdTimerExpiry n => Sys2Proof.Machine.execHoldTimerExpiry n s
  | .lockHoldTimerExpiry => Sys2Proof.Machine.execLockHoldTimerExpiry s
  | .overstayTimerExpiry => Sys2Proof.Machine.execOverstayTimerExpiry s
  | .residentRequestRaise p => Sys2Proof.Machine.execResidentRequestRaise p s
  | .residentRequestDrop p => Sys2Proof.Machine.execResidentRequestDrop p s
  | .residentHoldRaise p => Sys2Proof.Machine.execResidentHoldRaise p s
  | .residentHoldDrop p => Sys2Proof.Machine.execResidentHoldDrop p s
  | .residentWriteObserved p a z => Sys2Proof.Machine.execResidentWriteObserved p a z s

end Sys2Proof.Machine
end

