-- ==== Sys2Proof/Safety.lean ====
section
/-! DEFINITION. What the manual says holds "at all times": the laws of the gate's record, in the terms in which
claims are stated, and what an event leaves as it was. -/

namespace Sys2Proof.Safety

open Sys2Proof.Machine

/-! ### The posted write queue -/

/-- The law of the counters: accepted equals performed plus dropped plus the data count, wrapping (R41). -/
def CountersAgree (s : State) : Prop :=
  s.pwq.accepted = s.pwq.performed + s.pwq.dropped + BitVec.ofNat 32 (dataCount s)

/-- The queue holds at most 32 entries, at most 30 of them data entries (R26). -/
def QueueFits (s : State) : Prop :=
  queueLength s ≤ Config.queuePlaces ∧ dataCount s ≤ Config.dataPlaces

/-! ### Claims on the tables -/

/-- A data entry of a master. -/
def entryOfMaster (m : MasterId) : Entry → Bool
  | .data d => d.master = m
  | .control _ => false

/-- A data entry that names a window (R14, R23). -/
def entryNames (w : WindowId) : Entry → Bool
  | .data d => d.names && d.window = w
  | .control _ => false

/-- Each master's outstanding-writes count is the number of its data entries in the queue (R99). -/
def WritesAgree (s : State) : Prop :=
  ∀ m : MasterId, s.masters[m].outWrites = s.pwq.entries.countP (entryOfMaster m)

/-- Each master's outstanding-reads count is the number of its non-FREE slots (R99). -/
def ReadsAgree (s : State) : Prop := ∀ m : MasterId, s.masters[m].outReads = countTable s.slots (slotOf m)

/-- Each window's reference count is the number of data entries and non-FREE slots that name it (R14). -/
def RefsAgree (s : State) : Prop :=
  ∀ w : WindowId, s.windows[w].refCount = s.pwq.entries.countP (entryNames w) + countTable s.slots (slotNames w)

/-! ### Reports and the service line -/

/-- The place a HELD request takes. -/
def heldPlaces (s : State) : Nat := if s.rq.space = .held then 1 else 0

/-- Stored reports and the held place never exceed the sixteen places, and the suppressed count stays at or below 255
(R163, R165, R166). -/
def ReportsFit (s : State) : Prop :=
  s.rq.reports.length + heldPlaces s ≤ Config.reportPlaces ∧ s.rq.suppressed ≤ 255 ∧
  ∀ r ∈ s.rq.reports, r.suppressed ≤ 255

/-- From head to tail the sequence numbers are consecutive mod 65536 and end one below the next one (R165). -/
def ReportsConsecutive (s : State) : Prop :=
  s.rq.reports.map Report.seq =
    (List.range s.rq.reports.length).map fun i => s.rq.nextSeq - BitVec.ofNat 16 (s.rq.reports.length - i)

/-- A WAITING space request finds no free place: sixteen reports are stored (R167, R184). -/
def WaitingMeansFull (s : State) : Prop := s.rq.space = .waiting → s.rq.reports.length = Config.reportPlaces

/-- The service line is asserted exactly while attention is on and a report is stored (R169). -/
def LineFollows (s : State) : Prop := s.ti.serviceLine = (s.cu.attention && !s.rq.reports.isEmpty)

/-! ### Gate states -/

/-- The gate is RESET exactly while power-on reset or card reset is asserted (R175). -/
def ResetWhileAsserted (s : State) : Prop := s.gsc.state = .reset ↔ (s.porAsserted = true ∨ s.cardAsserted = true)

/-- In RESET, STANDBY and FAULTED every slot is FREE and the lock is FREE (R174). -/
def IdleWhenClosed (s : State) : Prop :=
  s.gsc.state = .reset ∨ s.gsc.state = .standby ∨ s.gsc.state = .faulted →
    (∀ i : SlotId, s.slots[i].state = .free) ∧ s.lock.state = .free

/-- The fault cause is NONE in every state but FAULTED, and the quiesce tag is present in QUIESCING only (R173). -/
def GateRecordLegal (s : State) : Prop :=
  (s.gsc.cause = .none ↔ s.gsc.state ≠ .faulted) ∧ (s.gsc.quiesceTag.isSome = true ↔ s.gsc.state = .quiescing)

/-- While the gate is RESET every block is held: the queue is empty with no space request, the controller idle, the
arbiter STOPPED with no hold, no manager is set and attention is off (R44, R122, R135, R162, R172). -/
def HeldInReset (s : State) : Prop :=
  s.gsc.state = .reset →
    s.pwq.entries = [] ∧ s.rq.space = .none ∧ s.cbc = Controller.powerOn ∧ s.arb = Arbiter.held ∧
    s.cu = ControlUnit.powerOn

/-! ### Slots -/

/-- Which fields a slot's state makes present (R47): data in READY and STALE; a hold timer in READY when not
locked, STALE and FAILED; an ahead count in WAITING only; a release mark in FETCHING only; a FREE slot holds the
values of R47; and the key is that of a read of 1 to 16 beats, which no CLOSE read is (R47, R88, R94). -/
def SlotLegal (e : Slot) : Prop :=
  (e.data.isSome = true ↔ e.state = .ready ∨ e.state = .stale) ∧
  (e.hold.isSome = true ↔ (e.state = .ready ∧ e.locked = false) ∨ e.state = .stale ∨ e.state = .failed) ∧
  (e.state ≠ .waiting → e.ahead = 0) ∧
  (e.releaseMark = true → e.state = .fetching) ∧
  (e.state = .free → e = Slot.powerOn) ∧
  (1 ≤ e.key.beats ∧ e.key.beats ≤ 16) ∧ e.key.lock ≠ .closeLock

/-- Every slot's fields are those its state makes present (R47). -/
def SlotsLegal (s : State) : Prop := ∀ i : SlotId, SlotLegal s.slots[i]

/-- The age order holds each non-FREE slot once and no other (R48). -/
def AgeOrderLegal (s : State) : Prop :=
  s.ageOrder.Nodup ∧ ∀ i : SlotId, i ∈ s.ageOrder ↔ s.slots[i].state ≠ .free

/-- No two slots that are not FREE carry one key (R48). -/
def KeysDistinct (s : State) : Prop :=
  ∀ i j : SlotId, s.slots[i].state ≠ .free → s.slots[j].state ≠ .free → s.slots[i].key = s.slots[j].key → i = j

/-! ### The lock and the card bus -/

/-- The lock record's fields are present as its state says (R71). -/
def LockRecordLegal (s : State) : Prop :=
  (s.lock.state = .free → s.lock = Lock.powerOn) ∧
  (s.lock.state ≠ .free → s.lock.owner.isSome = true ∧ s.lock.window.isSome = true) ∧
  (s.lock.state = .pending → s.lock.slot.isSome = true ∧ s.lock.hold = none)

/-- The gate's lock hold stands exactly while the lock is OWNED, and then the arbiter is LOCKED with the gate as
owner, in tenure (R72, R80, R131). -/
def LockHoldsBus (s : State) : Prop :=
  (s.arb.lockHold = true ↔ s.lock.state = .owned) ∧
  (s.arb.lockHold = true ↔ s.arb.state = .locked .gate true) ∧
  s.arb.state ≠ .locked .gate false

/-- The gate is in a tenure exactly while the arbiter says so, an access is in flight in a tenure only, and between
events an access in flight has an operation outstanding (R109, R114, R127). -/
def TenureLegal (s : State) : Prop :=
  (s.cbc.tenure = true ↔ s.arb.state = .tenure .gate ∨ s.arb.state = .locked .gate true) ∧
  (s.cbc.access.isSome = true → s.cbc.tenure = true) ∧
  (∀ a, s.cbc.access = some a → a.op.isSome = true)

/-- Between events the gate holds the card bus with no access in flight under the lock hold alone, and then it has no
candidate (R117, R118, R131). -/
def IdleTenureHeld (s : State) : Prop :=
  s.cbc.access = none → s.cbc.tenure = true → s.arb.lockHold = true ∧ hasCandidate s = false

/-- The window of a standing lock is LIVE and not frozen (R72). -/
def LockedWindowLive (s : State) : Prop :=
  ∀ w : WindowId, lockedWindow s w = true → s.windows[w].state = .live ∧ s.windows[w].frozen = false

/-- The locked slot that a standing lock names is a locked slot of the lock's owner and window: on its way to its
fetch's end while the lock is PENDING, READY and not collected while it is OWNED (R71, R72). -/
def LockNamesSlot (s : State) : Prop :=
  ∀ i : SlotId, s.lock.slot = some i →
    s.slots[i].locked = true ∧ s.lock.owner = some s.slots[i].key.master ∧ s.lock.window = some s.slots[i].window ∧
    s.slots[i].releaseMark = false ∧
    (s.lock.state = .pending → s.slots[i].state = .waiting ∨ s.slots[i].state = .fetching) ∧
    (s.lock.state = .owned → s.slots[i].state = .ready)

/-- While the gate holds no tenure, its request is raised exactly while it has a candidate (R116). -/
def RequestFollows (s : State) : Prop := s.cbc.tenure = false → s.cbc.request = hasCandidate s

/-- A FREE window is not frozen and nothing names it; a retire tag is present in DRAINING only; the size code and the
discard count stay in their ranges (R2, R4, R20). -/
def WindowLegal (e : Window) : Prop :=
  (e.state = .free → e.frozen = false ∧ e.refCount = 0) ∧ (e.retireTag.isSome = true ↔ e.state = .draining) ∧
  e.sizeCode ≤ 26 ∧ e.discards ≤ 65535

/-- The conditions of R3 on a loaded window's geometry. -/
def LoadedLegal (e : Window) : Prop :=
  e.state ≠ .free → geometryLegal e.sizeCode e.trunkBase e.cardBase = true

/-- Every window entry is legal (R2, R3). -/
def WindowsLegal (s : State) : Prop := ∀ w : WindowId, WindowLegal s.windows[w] ∧ LoadedLegal s.windows[w]

/-- Every DRAINING window is still named by queued work (R4, R15). -/
def DrainingNamed (s : State) : Prop :=
  ∀ w : WindowId, s.windows[w].state = .draining → s.windows[w].refCount ≠ 0

/-- The settings stay in their ranges (R98, R125, R138). -/
def SettingsLegal (s : State) : Prop :=
  (∀ m : MasterId, s.masters[m].creditLimit ≤ 30 ∧ s.masters[m].readLimit ≤ 8 ∧ s.masters[m].violations ≤ 255 ∧
    s.masters[m].barThreshold ≤ 255) ∧
  (8 ≤ s.arb.highWater ∧ s.arb.highWater ≤ 30) ∧
  (8 ≤ s.cu.readHold ∧ s.cu.readHold ≤ 4096) ∧ (4 ≤ s.cu.lockHold ∧ s.cu.lockHold ≤ 1024) ∧
  (1 ≤ s.cu.cardResponse ∧ s.cu.cardResponse ≤ 255) ∧ s.cu.residentTenure ≤ 1023

/-! ### Timers -/

/-- A timer has not run past its limit. -/
def OnTime (now : Time) (timer : Timer) : Prop := (now - timer.start).toNat ≤ timer.limit

/-- A timer has reached its limit (R1). -/
def Due (now : Time) (timer : Timer) : Prop := timer.limit ≤ (now - timer.start).toNat

/-- No timer of the gate has run past its limit: each expires between the tick that reaches its deadline and the next
one (R1); and an overstay timer runs for a resident that owns the grant only (R133). -/
def TimersOnTime (s : State) : Prop :=
  (∀ a p, s.cbc.access = some a → a.op = some p → OnTime s.timebase p.timer) ∧
  (∀ timer, s.lock.hold = some timer → OnTime s.timebase timer) ∧
  (∀ (i : SlotId) (timer : Timer), s.slots[i].hold = some timer → OnTime s.timebase timer) ∧
  (∀ timer, s.arb.overstay = some timer → OnTime s.timebase timer ∧
    ∃ p, s.arb.state = .tenure (.port p) ∨ ∃ inTenure, s.arb.state = .locked (.port p) inTenure)

/-- No timer of the gate is due. -/
def NoneDue (s : State) : Prop :=
  (∀ a p, s.cbc.access = some a → a.op = some p → ¬Due s.timebase p.timer) ∧
  (∀ timer, s.lock.hold = some timer → ¬Due s.timebase timer) ∧
  (∀ (i : SlotId) (timer : Timer), s.slots[i].hold = some timer → ¬Due s.timebase timer) ∧
  (∀ timer, s.arb.overstay = some timer → ¬Due s.timebase timer)

/-! ### What an event leaves as it was -/

/-- The configuration of a window: what LOAD WINDOW and MODIFY WINDOW write (R16, R18). -/
def windowConfig (e : Window) : TrunkAddr × Nat × CardAddr × PortWidth × Bool × ErrorPolicy × MasterMask × MasterMask :=
  (e.trunkBase, e.sizeCode, e.cardBase, e.portWidth, e.lockable, e.policy, e.readMask, e.writeMask)

/-- The part of a master record that no claim and no break writes: configuration and conduct (R98). -/
def masterConfig (e : Master) : Admission × Nat × Nat × Nat × Nat :=
  (e.admission, e.creditLimit, e.readLimit, e.violations, e.barThreshold)

/-- What the manager or the outside sets and no internal work of the gate touches: clock, resets, slot number,
answer, window configurations, master configurations, the accepted counter, arbitration settings, residents' lines,
the control unit's record, the numbers handed over by a card reset, and the model's own queue; of the model's free
choices none is taken back. -/
structure Kept (s t : State) : Prop where
  timebase : t.timebase = s.timebase
  porAsserted : t.porAsserted = s.porAsserted
  cardAsserted : t.cardAsserted = s.cardAsserted
  slotNumber : t.ti.slotNumber = s.ti.slotNumber
  answer : t.ti.answer = s.ti.answer
  windows : ∀ w : WindowId, windowConfig t.windows[w] = windowConfig s.windows[w]
  masters : ∀ m : MasterId, masterConfig t.masters[m] = masterConfig s.masters[m]
  accepted : t.pwq.accepted = s.pwq.accepted
  policy : t.arb.policy = s.arb.policy
  highWater : t.arb.highWater = s.arb.highWater
  enabled : t.arb.enabled = s.arb.enabled
  lines : t.lines = s.lines
  cu : t.cu = s.cu
  cardData : t.rq.cardData = s.rq.cardData
  cardControl : t.rq.cardControl = s.rq.cardControl
  freeCount : s.freeCount ≤ t.freeCount
  pending : t.pending = s.pending

/-! ### The end of an event -/

/-- Nothing is left for the posted write queue to do at its head (R32): the head is in drain, or offered, or a control
entry that has asked for a place; with no control entry there the space request is NONE (R167). -/
def HeadSettled (s : State) : Prop :=
  match s.pwq.entries with
  | [] => s.rq.space = .none
  | .data d :: _ => (inDrain s = true ∨ (d.void = false ∧ entryFrozen s d = false)) ∧ s.rq.space = .none
  | .control _ :: _ => s.rq.space ≠ .none

/-- Nothing is left to do within an event: at the head of the queue, for a DRAINING window (R15), or for a quiesce
(R177). -/
def Settled (s : State) : Prop :=
  HeadSettled s ∧ DrainingNamed s ∧ ¬(s.gsc.state = .quiescing ∧ quiesceConditions s = true)

/-- The card bus controller has nothing to start and nothing to end: an access is in flight, or there is no candidate,
and no request and no tenure, or a tenure that the lock hold keeps (R116, R117, R118). -/
def BusQuiet (s : State) : Prop :=
  s.cbc.access.isSome = true ∨
    (hasCandidate s = false ∧
      ((s.cbc.request = false ∧ s.cbc.tenure = false) ∨ (s.cbc.tenure = true ∧ s.arb.lockHold = true)))

/-- All the laws of the gate's record that hold between events, together. -/
structure Lawful (s : State) : Prop where
  counters : CountersAgree s
  queueFits : QueueFits s
  writes : WritesAgree s
  reads : ReadsAgree s
  refs : RefsAgree s
  reportsFit : ReportsFit s
  consecutive : ReportsConsecutive s
  waiting : WaitingMeansFull s
  line : LineFollows s
  reset : ResetWhileAsserted s
  held : HeldInReset s
  idle : IdleWhenClosed s
  gate : GateRecordLegal s
  slots : SlotsLegal s
  age : AgeOrderLegal s
  keys : KeysDistinct s
  lockRecord : LockRecordLegal s
  lockSlot : LockNamesSlot s
  lockBus : LockHoldsBus s
  lockWindow : LockedWindowLive s
  tenure : TenureLegal s
  idleTenure : IdleTenureHeld s
  timers : TimersOnTime s
  request : RequestFollows s
  windows : WindowsLegal s
  settings : SettingsLegal s
  settled : Settled s

/-- How the rest of an event moves the gate on: reports are added at the tail alone, the queue grows no longer, LIVE
windows stay LIVE and as frozen as they were, and the gate state stays, or a quiesce completes, or a buffer check
fails. -/
structure MovesOn (s t : State) : Prop where
  reports : ∃ more, t.rq.reports = s.rq.reports ++ more
  queue : queueLength t ≤ queueLength s
  live : ∀ w : WindowId, s.windows[w].state = .live →
    t.windows[w].state = .live ∧ t.windows[w].frozen = s.windows[w].frozen
  gate : t.gsc = s.gsc ∨ (s.gsc.state = .quiescing ∧ t.gsc = ⟨.standby, s.gsc.cause, none⟩) ∨ t.gsc.state = .faulted

/-! ### Reports -/

/-- A report offered: where a place is free it is stored at the tail with the next sequence number and the suppressed
count, and the service line follows; else the suppressed count rises by one and stays at 255 (R165, R166, R169). -/
def offered (b : ReportBody) (s : State) : State :=
  if s.rq.reports.length + heldPlaces s < 16 then
    { s with
      rq.reports := s.rq.reports ++ [⟨s.rq.nextSeq, s.rq.suppressed, b⟩]
      rq.nextSeq := s.rq.nextSeq + 1
      rq.suppressed := 0
      ti.serviceLine := s.cu.attention }
  else { s with rq.suppressed := min 255 (s.rq.suppressed + 1) }

/-- Several reports offered in order (R166). -/
def offerAll (bs : List ReportBody) (s : State) : State := bs.foldl (fun s b => offered b s) s

/-! ### Decisions -/

/-- A requester's place in the rotation G, A, B, C (R128). -/
def rotationPlace : Requester → Fin 4
  | .gate => 0
  | .port .a => 1
  | .port .b => 2
  | .port .c => 3

/-- How far after the pointer a requester stands in the rotation; the pointer itself stands last (R128). -/
def rotationDistance (pointer r : Requester) : Nat := (rotationPlace r - rotationPlace pointer - 1).val

/-- A requester that a decision counts: the gate with its request raised, or an enabled port whose line is raised
(R128). -/
def Requests (s : State) : Requester → Prop
  | .gate => s.cbc.request = true
  | .port p => portOf s.arb.enabled p = true ∧ portOf s.lines.request p = true

/-- The requester that a decision grants: the gate when it is urgent, and else the first in the rotation after the
pointer (R42, R128). -/
def Wins (s : State) (r : Requester) : Prop :=
  Requests s r ∧
  if s.cbc.request = true ∧ s.arb.highWater ≤ dataCount s then r = .gate
  else ∀ q, Requests s q → rotationDistance s.arb.pointer r ≤ rotationDistance s.arb.pointer q

/-- The state in which a requester has received the grant and is in its tenure: a resident whose hold line is raised is
in LOCKED, and its overstay timer runs where the tenure limit is not 0 (R128, R130, R133). -/
def granted (r : Requester) (s : State) : State :=
  match r with
  | .gate =>
    { s with arb.state := .tenure .gate, arb.pointer := .gate, arb.overstay := none, cbc.tenure := true }
  | .port p =>
    { s with
      arb.state := if portOf s.lines.hold p = true then .locked (.port p) true else .tenure (.port p)
      arb.pointer := .port p
      arb.overstay := if s.cu.residentTenure = 0 then none else some ⟨s.timebase, s.cu.residentTenure⟩ }

/-- The state in which nobody holds the bus: the grant is parked at the requester the policy names, or at the gate where
that is a port not enabled (R129). -/
def parkedAtTarget (s : State) : State :=
  let named : Requester := match s.arb.policy with
    | .last => s.arb.pointer
    | .gate => .gate
    | .portA => .port .a
    | .portB => .port .b
    | .portC => .port .c
  let target := match named with
    | .gate => .gate
    | .port p => if portOf s.arb.enabled p = true then .port p else .gate
  { s with arb.state := .parked target, arb.overstay := none }

/-- The state in which the gate's tenure has ended and the decision is made with the gate's request as given (R118,
R126, R128). -/
def tenureEnded (request : Bool) (s : State) : State :=
  decision { s with cbc.tenure := false, cbc.request := request }

/-! ### Candidates and the start of an access -/

/-- A slot may be fetched: it is WAITING with nothing ahead of it (R57). -/
def Eligible (s : State) (i : SlotId) : Prop := s.slots[i].state = .waiting ∧ s.slots[i].ahead = 0

/-- The slot that is fetched next: of the slots that may be fetched the first in the age order (R58, R117). -/
def NextSlot (s : State) (i : SlotId) : Prop :=
  Eligible s i ∧ ∃ older younger, s.ageOrder = older ++ i :: younger ∧ ∀ j ∈ older, ¬Eligible s j

/-- No slot may be fetched. -/
def NoSlot (s : State) : Prop := ∀ i ∈ s.ageOrder, ¬Eligible s i

/-- The queue offers its head: a data entry not in drain, not void, of a window that is not frozen (R32, R35). -/
def Offers (s : State) (d : DataEntry) : Prop :=
  ∃ rest, s.pwq.entries = .data d :: rest ∧ inDrain s = false ∧ d.void = false ∧
    ¬(d.names = true ∧ s.windows[d.window].frozen = true)

/-- The controller has a candidate (R116). -/
def Candidate (s : State) : Prop := (∃ i, NextSlot s i) ∨ ∃ d, Offers s d

/-- The state in which the fetch of a slot has begun: the slot is FETCHING, and the operation of its first piece is on
the card bus with its response timer running (R58, R109, R110, R112, R113, R117). -/
def fetchBegun (i : SlotId) (s : State) : State :=
  let e := s.slots[i]
  let size := min (unitBytes e.key.unit) (portBytes e.portWidth)
  { s with
    slots := modAt s.slots i fun e => { e with state := .fetching }
    cbc.access := some
      { kind := .fetch
        slot := some i
        cardAddr := e.cardAddr
        unit := e.key.unit
        beats := e.key.beats
        portWidth := e.portWidth
        beat := 0
        piece := 0
        bytes := 0
        gathered := List.replicate e.key.beats 0
        op := some
          { op :=
              { addr := e.cardAddr
                size := unitOfBytes size
                write := false
                enables := laneMask (e.cardAddr.toNat % 4) size
                data := 0 }
            timer := ⟨s.timebase, s.cu.cardResponse⟩ }
        stop := false } }

/-- The lanes of piece `j` of a drain, counted from piece 0 of beat 0, that the entry enables (R110, R111). -/
def drainLanes (a : Access) (d : DataEntry) (j : Nat) : Lanes :=
  let per := piecesPerBeat a.unit a.portWidth
  ((d.beats[j / per]?.map Beat.enables).getD 0) &&&
    pieceLanes (pieceAddr a.cardAddr a.unit a.portWidth (j / per) (j % per)) a.unit a.portWidth

/-- The access record of the drain of an entry, with no piece taken up (R109). -/
def drainAccess (d : DataEntry) : Access where
  kind := .drain
  slot := none
  cardAddr := d.cardAddr
  unit := d.unit
  beats := d.beats.length
  portWidth := d.portWidth
  beat := 0
  piece := 0
  bytes := 0
  gathered := []
  op := none
  stop := false

/-- The drain of an entry finds its first piece with an enabled lane at piece `next`, in beat `b`, every beat on the way
having passed its check (R111, R120). -/
structure DrainStarts (d : DataEntry) (next : Nat) (b : Beat) : Prop where
  within : next < d.beats.length * piecesPerBeat d.unit d.portWidth
  skipped : ∀ j < next, drainLanes (drainAccess d) d j = 0
  enabled : drainLanes (drainAccess d) d next ≠ 0
  beat : d.beats[next / piecesPerBeat d.unit d.portWidth]? = some b
  checked : ∀ (i : Nat) (x : Beat), i * piecesPerBeat d.unit d.portWidth ≤ next → d.beats[i]? = some x →
    beatAgrees x = true

/-- The lock's timer is due at the start of a CLOSE entry's drain, which would stop it (R81). -/
def ClosesLate (d : DataEntry) (s : State) : Prop :=
  d.seq = .close ∧ s.lock.state = .owned ∧ ∃ timer, s.lock.hold = some timer ∧ Due s.timebase timer

/-- The state in which a drain has begun with piece `next` of beat `b`: the operation is on the card bus with its response
timer running (R35, R109, R110, R111, R113, R117). -/
def drainBegun (d : DataEntry) (next : Nat) (b : Beat) (s : State) : State :=
  let per := piecesPerBeat d.unit d.portWidth
  let size := min (unitBytes d.unit) (portBytes d.portWidth)
  { s with
    cbc.access := some { drainAccess d with
      beat := next / per
      piece := next % per
      op := some
        { op :=
            { addr := d.cardAddr + BitVec.ofNat 28 (next / per * unitBytes d.unit + next % per * size)
              size := unitOfBytes size
              write := true
              enables := drainLanes (drainAccess d) d next
              data := mergeLanes 0 b.data (drainLanes (drainAccess d) d next) }
          timer := ⟨s.timebase, s.cu.cardResponse⟩ } } }

/-- The beginning of a CLOSE entry's drain stops the timer of the lock that is OWNED (R35, R81). -/
def closeBegun (d : DataEntry) (s : State) : State :=
  { s with lock.hold := if d.seq = .close ∧ s.lock.state = .owned then none else s.lock.hold }

/-- The end of the head entry's drain under the lock: the CLOSE entry that stopped the lock's timer ends the lock without
a break. The lock is FREE, the gate's hold is gone with the access going on in TENURE, and an uncollected READY locked
slot outlives it as an ordinary one whose hold timer starts now (R56, R82, R131). -/
def closeTaken (d : DataEntry) (s : State) : State :=
  if d.seq = .close ∧ s.lock.state = .owned ∧ s.lock.hold = none then
    { s with
      lock := Lock.powerOn
      arb.lockHold := false
      arb.state := .tenure .gate
      slots := Vector.ofFn fun i =>
        if s.lock.slot = some i ∧ s.slots[i].state = .ready ∧ s.slots[i].locked = true then
          { s.slots[i] with locked := false, hold := some ⟨s.timebase, s.cu.readHold⟩ }
        else s.slots[i] }
  else s

/-- The unlocked READY slots whose byte range the entry's range overlaps are STALE (R38, R64). -/
def madeStale (d : DataEntry) (s : State) : State :=
  { s with slots := Vector.ofFn fun i =>
      let e := s.slots[i]
      let bytes := e.key.beats * unitBytes e.key.unit
      if e.state = .ready ∧ e.locked = false ∧ e.cardAddr.toNat < d.cardAddr.toNat + d.beats.length * unitBytes d.unit ∧
          d.cardAddr.toNat < e.cardAddr.toNat + bytes then { e with state := .stale }
      else e }

/-- The entry in drain is gone from the head with its claims, the ahead counts behind it have fallen by one, and the
access is absent (R37, R114). -/
def entryGone (d : DataEntry) (s : State) : State :=
  { s with
    cbc.access := none
    pwq.entries := s.pwq.entries.tail
    slots := Vector.ofFn fun i =>
      if s.slots[i].state = .waiting then { s.slots[i] with ahead := s.slots[i].ahead - 1 } else s.slots[i]
    masters := modAt s.masters d.master fun e => { e with outWrites := e.outWrites - 1 }
    windows := modAt s.windows d.window fun e => { e with refCount := if d.names then e.refCount - 1 else e.refCount } }

/-- The entry enables no lane and every beat of it passes its check, so its drain begins and ends performed in one event,
with no card-bus operation (R111, R120). -/
structure DrainSkips (d : DataEntry) : Prop where
  skipped : ∀ j < d.beats.length * piecesPerBeat d.unit d.portWidth, drainLanes (drainAccess d) d j = 0
  checked : ∀ b ∈ d.beats, beatAgrees b = true

/-- The state in which the drain of entry `d`, begun already, has ended performed: the performed counter is one higher, the
READY slots it overlaps are STALE, the lock that it closes is ended, and the entry is gone (R36, R37, R38, R82, R114). -/
def drainPerformed (d : DataEntry) (s : State) : State :=
  entryGone d (closeTaken d (madeStale d { s with pwq.performed := s.pwq.performed + 1 }))

/-! ### The queue's head -/

/-- An entry that leaves from the head without a card-bus access: a void one, or one that names a frozen window (R20,
R34). -/
def leavesAtOnce (s : State) : Entry → Bool
  | .data d => d.void || (d.names && s.windows[d.window].frozen)
  | .control _ => false

/-- An entry whose removal window `w` counts as a discard: not void, and naming the window (R20). -/
def discardOf (w : WindowId) : Entry → Bool
  | .data d => !d.void && d.names && d.window = w
  | .control _ => false

/-- The entries that leave from the head at once, none while the head is in drain (R20, R32, R34). -/
def leavingHeads (s : State) : List Entry :=
  if inDrain s then [] else s.pwq.entries.takeWhile (leavesAtOnce s)

/-- The state in which the void and frozen entries at the head are gone: each counts as dropped, gives its claims back
and lowers the ahead counts behind it, and each that its frozen window discards raises that window's discard count,
which stays at 65535 (R20, R34, R37, R41). -/
def headsGone (s : State) : State :=
  let gone := leavingHeads s
  { s with
    pwq.entries := s.pwq.entries.drop gone.length
    pwq.dropped := s.pwq.dropped + BitVec.ofNat 32 gone.length
    slots := Vector.ofFn fun i =>
      if s.slots[i].state = .waiting then { s.slots[i] with ahead := s.slots[i].ahead - gone.length } else s.slots[i]
    masters := Vector.ofFn fun m =>
      { s.masters[m] with outWrites := s.masters[m].outWrites - gone.countP (entryOfMaster m) }
    windows := Vector.ofFn fun w =>
      { s.windows[w] with
        refCount := s.windows[w].refCount - gone.countP (entryNames w)
        discards := if gone.countP (discardOf w) = 0 then s.windows[w].discards
          else min 65535 (s.windows[w].discards + gone.countP (discardOf w)) } }

/-! ### The card bus within an event -/

/-- What the card bus controller and the arbiter make of a state within an event, as far as the first operation (R58,
R116, R117, R118, R127, R128, R129): with an access in flight nothing; in a tenure the fetch of the next slot, else the
drain of the head that is offered, else the tenure goes on under the lock hold and ends without it; a drain that skips
every piece ends in the same event, after which the tenure goes on or ends in the same way; and with no tenure the gate's
request is reviewed, which in PARKED brings the gate's tenure at once or a decision. -/
inductive BusMoves : State → State → Prop where
  | busy (s : State) : s.cbc.access.isSome = true → BusMoves s s
  | fetches (s : State) (i : SlotId) : s.cbc.access = none → s.cbc.tenure = true → NextSlot s i →
      BusMoves s (fetchBegun i s)
  | drains (s : State) (d : DataEntry) (next : Nat) (b : Beat) : s.cbc.access = none → s.cbc.tenure = true → NoSlot s →
      Offers s d → DrainStarts d next b → ¬ClosesLate d s → BusMoves s (drainBegun d next b (closeBegun d s))
  | skips (s t : State) (d : DataEntry) (wanted : Bool) : s.cbc.access = none → s.cbc.tenure = true → NoSlot s →
      Offers s d → DrainSkips d → ¬ClosesLate d s → (s.arb.lockHold = true ↔ s.lock.state = .owned) →
      (s.arb.state = .tenure .gate ∨ ∃ inTenure, s.arb.state = .locked .gate inTenure) →
      (wanted = true ↔ Candidate (headsGone (drainPerformed d (closeBegun d s)))) →
      BusMoves
        (if (drainPerformed d (closeBegun d s)).arb.lockHold = true then headsGone (drainPerformed d (closeBegun d s))
          else tenureEnded wanted (headsGone (drainPerformed d (closeBegun d s)))) t →
      BusMoves s t
  | held (s : State) : s.cbc.access = none → s.cbc.tenure = true → ¬Candidate s → s.arb.lockHold = true → BusMoves s s
  | ends (s : State) : s.cbc.access = none → s.cbc.tenure = true → ¬Candidate s → s.arb.lockHold = false →
      (s.arb.state = .tenure .gate ∨ ∃ inTenure, s.arb.state = .locked .gate inTenure) →
      BusMoves s (tenureEnded false s)
  | idle (s : State) : s.cbc.access = none → s.cbc.tenure = false → ¬Candidate s →
      BusMoves s { s with cbc.request := false }
  | waits (s : State) : s.cbc.access = none → s.cbc.tenure = false → Candidate s → s.cbc.request = true → BusMoves s s
  | requests (s : State) : s.cbc.access = none → s.cbc.tenure = false → Candidate s → s.cbc.request = false →
      ((∃ owner, s.arb.state = .tenure owner) ∨ (∃ p inTenure, s.arb.state = .locked (.port p) inTenure) ∨
        s.arb.state = .stopped) →
      BusMoves s { s with cbc.request := true }
  | wins (s t : State) (owner : Requester) : s.cbc.access = none → s.cbc.tenure = false → Candidate s →
      s.cbc.request = false → s.arb.state = .parked owner → (owner = .gate ∨ Wins { s with cbc.request := true } .gate) →
      BusMoves (granted .gate { s with cbc.request := true }) t → BusMoves s t
  | loses (s : State) (owner : Requester) (p : Port) : s.cbc.access = none → s.cbc.tenure = false → Candidate s →
      s.cbc.request = false → s.arb.state = .parked owner → owner ≠ .gate →
      Wins { s with cbc.request := true } (.port p) → BusMoves s (granted (.port p) { s with cbc.request := true })

/-! ### What an event ends with -/

/-- A DRAINING window that nothing names any more (R15). -/
def drained (e : Window) : Bool := e.state = .draining && e.refCount = 0

/-- The state in which every DRAINING window that nothing names any more is FREE, not frozen and without a retire tag,
with one WINDOW FREED report each, its retire tag in the detail, in ascending window id (R15, R186). -/
def windowsFreed (s : State) : State :=
  offerAll
    (((List.finRange 32).filter fun w => drained s.windows[w]).map fun w =>
      ⟨.windowFreed, none, none, none, some w, none, (s.windows[w].retireTag.getD 0).setWidth 32⟩)
    { s with windows := Vector.ofFn fun w =>
        if drained s.windows[w] then { s.windows[w] with state := .free, frozen := false, retireTag := none }
        else s.windows[w] }

/-- The state in which a quiesce whose conditions hold has completed: in QUIESCING with no data entry, every slot FREE
and the lock FREE, the gate is STANDBY with a QUIESCED report of the quiesce's tag (R177, R186). -/
def quiesceEnded (s : State) : State :=
  if s.gsc.state = .quiescing ∧ s.pwq.entries.countP isData = 0 ∧ (∀ i : SlotId, s.slots[i].state = .free) ∧
      s.lock.state = .free then
    offered ⟨.quiesced, none, none, none, none, none, (s.gsc.quiesceTag.getD 0).setWidth 32⟩
      { s with gsc.state := .standby, gsc.quiesceTag := none }
  else s

/-- The state in which a control entry at the head has asked for its RESULT's place: the place is HELD where one of the
sixteen is free, and the request WAITING else (R33, R163, R167). -/
def placeAsked (s : State) : State :=
  match s.pwq.entries with
  | .control _ :: _ =>
    if s.rq.space = .none then { s with rq.space := if s.rq.reports.length < 16 then .held else .waiting } else s
  | _ => s

/-- What an event ends with: drained windows are freed, a quiesce completes, a control entry at the head asks for its
place (R15, R167, R177; the order is log 13). -/
def eventOver (s : State) : State := placeAsked (quiesceEnded (windowsFreed s))

/-- `t` is `s` after what else belongs to the event. What the manager and the outside have set is kept and the gate moves
on; where nothing is left to do `t` is `s`; and `t` is what the void and frozen heads, the card bus as far as
`BusMoves` follows it, and the end of the event make of `s`. -/
structure SettlesTo (s t : State) : Prop where
  kept : Kept s t
  moves : MovesOn s t
  exact : Settled s → BusQuiet s → t = s
  whole : ∀ u, BusMoves (headsGone s) u → t = eventOver u

/-- `t` is `s` after what else belongs to an event that has ended the gate's access, or released the hold of a tenure
held idle: under the lock hold the tenure goes on, and else it ends by a decision that counts the gate's request where
the gate still has a candidate (R118, R126). -/
structure AccessEndsTo (s t : State) : Prop where
  kept : Kept s t
  moves : MovesOn s t
  held : s.arb.lockHold = true → SettlesTo s t
  wanted : s.arb.lockHold = false → Candidate (headsGone s) → SettlesTo (tenureEnded true (headsGone s)) t
  unwanted : s.arb.lockHold = false → ¬Candidate (headsGone s) → SettlesTo (tenureEnded false (headsGone s)) t

/-! ### Withdrawals, breaks and faults -/

/-- A queued entry after a lock is broken or its fetch fails: a sequence entry is void (R40). -/
def voided : Entry → Entry
  | .data d => .data { d with void := d.void || d.seq ≠ .none }
  | .control c => .control c

/-- A slot that a withdrawal of the slots in `p` frees: not FREE and not FETCHING (R67). -/
def freedBy (p : SlotId → Bool) (s : State) (i : SlotId) : Bool :=
  p i && s.slots[i].state ≠ .free && s.slots[i].state ≠ .fetching

/-- The state in which the slots in `p` are withdrawn: those in FETCHING carry the release mark, and the others hold the
values of R47, have left the age order, and their masters and windows count them no more (R66, R67). -/
def slotsWithdrawn (p : SlotId → Bool) (s : State) : State :=
  { s with
    slots := Vector.ofFn fun i =>
      if freedBy p s i then Slot.powerOn
      else if p i = true ∧ s.slots[i].state = .fetching then { s.slots[i] with releaseMark := true }
      else s.slots[i]
    ageOrder := s.ageOrder.filter fun i => !freedBy p s i
    masters := Vector.ofFn fun m =>
      { s.masters[m] with
        outReads := s.masters[m].outReads -
          (List.finRange 8).countP fun i => freedBy p s i && s.slots[i].key.master = m }
    windows := Vector.ofFn fun w =>
      { s.windows[w] with
        refCount := s.windows[w].refCount - (List.finRange 8).countP fun i => freedBy p s i && s.slots[i].window = w } }

/-- The state in which every slot is FREE, a FETCHING one too (R70). -/
def slotsCleared (s : State) : State :=
  let inUse (i : SlotId) : Bool := s.slots[i].state ≠ .free
  { s with
    slots := Vector.ofFn fun i => if inUse i then Slot.powerOn else s.slots[i]
    ageOrder := s.ageOrder.filter fun i => !inUse i
    masters := Vector.ofFn fun m =>
      { s.masters[m] with
        outReads := s.masters[m].outReads - (List.finRange 8).countP fun i => inUse i && s.slots[i].key.master = m }
    windows := Vector.ofFn fun w =>
      { s.windows[w] with
        refCount := s.windows[w].refCount - (List.finRange 8).countP fun i => inUse i && s.slots[i].window = w } }

/-- The gate's lock hold is gone, and the gate goes on in TENURE (R131, R136). -/
def holdDropped (s : State) : State :=
  if s.arb.lockHold = true then { s with arb.lockHold := false, arb.state := .tenure .gate } else s

/-- The gate's lock hold is gone: an access in flight goes on in TENURE, and a tenure with no access ends by a decision,
where the event leaves the gate no candidate (R118, R131, R136). -/
def holdGone (s : State) : State :=
  if s.arb.lockHold = true ∧ s.cbc.access.isSome = false then tenureEnded false (holdDropped s) else holdDropped s

/-- What a break with a cause of the given code makes of a lock that stands in `s`, once its hold on the card bus has been
released to give `x`: the lock is FREE, the slot it named is withdrawn, the sequence entries whose drain has not begun are
void, the owner's note names the window unless the cause is RESET, and LOCK BROKEN holds the cause and the number of
entries made void (R40, R76, R84, R85, R186). -/
def breakDone (code : Nat) (s x : State) : State :=
  let begun := if inDrain s then 1 else 0
  let waiting := s.pwq.entries.drop begun
  let named := slotsWithdrawn (fun i => s.lock.slot = some i) x
  offered
    ⟨.lockBroken, none, none, s.lock.owner, s.lock.window, none,
      BitVec.ofNat 32 (code + 256 * waiting.countP fun e => voided e ≠ e)⟩
    { named with
      lock := Lock.powerOn
      pwq.entries := s.pwq.entries.take begun ++ waiting.map voided
      masters := match s.lock.owner with
        | some m => if code = 4 then named.masters else modAt named.masters m fun e => { e with note := s.lock.window }
        | none => named.masters }

/-- The state in which a standing lock is broken, in an event that leaves the gate no candidate where it held its tenure
idle: that tenure has ended too (R84, R131). -/
def lockBroken (code : Nat) (s : State) : State :=
  if s.lock.state = .free then s else breakDone code s (holdGone s)

/-- The state in which a standing lock is broken, before the end of a tenure that the gate held idle (R84, R131). -/
def lockBrokenInTenure (code : Nat) (s : State) : State :=
  if s.lock.state = .free then s else breakDone code s (holdDropped s)

/-- The state in which the queue is emptied but for an entry in drain: the data entries removed count as dropped, every
entry removed gives its claims back, and the space request is withdrawn (R46, R167). -/
def queueEmptied (s : State) : State :=
  let begun := if inDrain s then 1 else 0
  let removed := s.pwq.entries.drop begun
  { s with
    pwq.entries := s.pwq.entries.take begun
    pwq.dropped := s.pwq.dropped + BitVec.ofNat 32 (removed.countP isData)
    rq.space := .none
    masters := Vector.ofFn fun m =>
      { s.masters[m] with outWrites := s.masters[m].outWrites - removed.countP (entryOfMaster m) }
    windows := Vector.ofFn fun w =>
      { s.windows[w] with refCount := s.windows[w].refCount - removed.countP (entryNames w) } }

/-- The state after a failed buffer check: FAULTED with its cause, the access in flight stopped and a fetch detached, the
queue emptied but for an entry in drain, every slot FREE, a standing lock broken with cause FAULT, and the FAULT report
with the cause and the numbers of data and control entries removed (R46, R70, R87, R124, R178, R186). -/
def gateFaulted (cause : FaultCause) (code : Nat) (s : State) : State :=
  let removed := s.pwq.entries.drop (if inDrain s then 1 else 0)
  offered
    ⟨.fault, none, none, none, none, none,
      BitVec.ofNat 32 (code + 256 * removed.countP isData + 65536 * removed.countP fun e => !isData e)⟩
    (lockBroken 5 (slotsCleared (queueEmptied
      { s with
        gsc := ⟨.faulted, cause, none⟩
        cbc.access := s.cbc.access.map fun a => { a with stop := true, slot := none } })))

/-- The state in which a gate reset has emptied the gate: STANDBY with no fault cause and no quiesce tag, the access in
flight stopped and a fetch detached, the queue emptied but for an entry in drain, every slot FREE, a standing lock broken
with cause RESET, and every note absent (R46, R70, R76, R87, R124, R147, R181). -/
def gateEmptied (s : State) : State :=
  let emptied := lockBroken 4 (slotsCleared (queueEmptied
    { s with
      gsc := ⟨.standby, .none, none⟩
      cbc.access := s.cbc.access.map fun a => { a with stop := true, slot := none } }))
  { emptied with masters := mapTable emptied.masters fun e => { e with note := none } }

/-- The RESET NOTICE of a gate reset, with its kind and the numbers of data and control entries removed (R46, R171,
R186). -/
def gateNotice (kind : Nat) (s : State) : ReportBody :=
  let removed := s.pwq.entries.drop (if inDrain s then 1 else 0)
  ⟨.resetNotice, none, none, none, none, none,
    BitVec.ofNat 32 (kind + 256 * removed.countP isData + 65536 * removed.countP fun e => !isData e)⟩

/-- What CLEAR writes beyond KEEP but for the control unit's record: the window table cleared, the entry in drain naming no
window, the master records at their defaults with the claims kept, and the arbiter's three settings (R23, R107, R137). -/
def configurationCleared (s : State) : State :=
  { s with
    windows := Vector.replicate 32 Window.powerOn
    pwq.entries := s.pwq.entries.map fun
      | .data d => .data { d with names := false }
      | .control c => .control c
    masters := mapTable s.masters fun e => ⟨.opened, 4, 2, e.outWrites, e.outReads, 0, 0, e.note⟩
    arb.policy := .last
    arb.highWater := 24
    arb.enabled := ⟨true, true, true⟩ }

/-- What new arbitration settings, written already, do to the arbiter's present state, given the ports enabled before: in
PARKED the grant moves by a decision or to the park target; an owner in LOCKED that is disabled goes on in TENURE, or
loses the grant by a decision between tenures; else nothing changes at once (R132). That PARKED takes one decision is
log 12; whether the hold line of an owner enabled again in its tenure is heeded is a free choice (log 11). -/
inductive SettingsTaken (before : PortSet) : State → State → Prop where
  | moves (s : State) (owner r : Requester) : s.arb.state = .parked owner → Wins s r → SettingsTaken before s (granted r s)
  | reparks (s : State) (owner : Requester) : s.arb.state = .parked owner → (∀ r, ¬Requests s r) →
      SettingsTaken before s (parkedAtTarget s)
  | gate (s : State) : s.arb.state = .tenure .gate ∨ (∃ inTenure, s.arb.state = .locked .gate inTenure) ∨
      s.arb.state = .stopped → SettingsTaken before s s
  | keeps (s : State) (p : Port) : s.arb.state = .tenure (.port p) →
      ¬(portOf s.arb.enabled p = true ∧ portOf before p = false ∧ portOf s.lines.hold p = true) → SettingsTaken before s s
  | unheeded (s : State) (p : Port) : s.arb.state = .tenure (.port p) → portOf s.arb.enabled p = true →
      portOf before p = false → portOf s.lines.hold p = true →
      SettingsTaken before s { s with freeCount := s.freeCount + 1 }
  | heeded (s : State) (p : Port) : s.arb.state = .tenure (.port p) → portOf s.arb.enabled p = true →
      portOf before p = false → portOf s.lines.hold p = true →
      SettingsTaken before s { s with freeCount := s.freeCount + 1, arb.state := .locked (.port p) true }
  | holds (s : State) (p : Port) (inTenure : Bool) : s.arb.state = .locked (.port p) inTenure →
      portOf s.arb.enabled p = true → SettingsTaken before s s
  | unlocks (s : State) (p : Port) : s.arb.state = .locked (.port p) true → portOf s.arb.enabled p = false →
      SettingsTaken before s { s with arb.state := .tenure (.port p) }
  | loses (s : State) (p : Port) (r : Requester) : s.arb.state = .locked (.port p) false →
      portOf s.arb.enabled p = false → Wins s r → SettingsTaken before s (granted r s)
  | losesToNone (s : State) (p : Port) : s.arb.state = .locked (.port p) false → portOf s.arb.enabled p = false →
      (∀ r, ¬Requests s r) → SettingsTaken before s (parkedAtTarget s)

/-- The entries, reports and marks of an executed record: its RESULT is the next report, its place is given back, and
it leaves the head of the queue, lowering the ahead counts behind it (R151, R37, R165). -/
def afterResult (c : ControlEntry) (rest : List Entry) (status : Status) (detail : Nat) (s : State) : State :=
  { s with
    pwq.entries := rest
    slots := mapTable s.slots lowerAhead
    rq.reports := s.rq.reports ++ [⟨s.rq.nextSeq, s.rq.suppressed, resultBody c status detail⟩]
    rq.nextSeq := s.rq.nextSeq + 1
    rq.suppressed := 0
    rq.space := .none
    ti.serviceLine := s.cu.attention }

/-- A record of a command at the head, with its place held, in a gate state that executes records (R33, R151). -/
structure AtHead (cmd : Command) (c : ControlEntry) (rest : List Entry) (s : State) : Prop where
  entries : s.pwq.entries = .control c :: rest
  command : c.command = cmd
  place : s.rq.space = .held
  gate : s.gsc.state = .standby ∨ s.gsc.state = .enabled ∨ s.gsc.state = .quiescing

/-- The command by which a transaction outside the control region arrives: WINDOW_READ or WINDOW_WRITE. -/
def windowCommand (t : Txn) : Instr :=
  match t.payload with
  | .read n => .windowRead t.master t.addr t.unit t.lock n
  | .write beats => .windowWrite t.master t.addr t.unit t.lock beats

/-- The trunk address lies in the gate's own control region, 64 KiB at FFF0_0000h + slot number × 1_0000h (R6, R91). -/
def InRegion (s : State) (a : TrunkAddr) : Prop :=
  0xFFF00000 + s.ti.slotNumber.toNat * 0x10000 ≤ a.toNat ∧
    a.toNat < 0xFFF00000 + s.ti.slotNumber.toNat * 0x10000 + 0x10000

/-- The address is no multiple of the unit's bytes, a write carries OPEN, or a read carries CLOSE (R94). -/
def Misaligned (t : Txn) : Prop :=
  ¬unitBytes t.unit ∣ t.addr.toNat ∨
    match t.payload with
    | .read _ => t.lock = .closeLock
    | .write _ => t.lock = .openLock

/-- A byte of the transaction lies at or beyond the end of the window, its address computed without wrapping (R7). -/
def CrossesEnd (e : Window) (t : Txn) : Prop :=
  ∃ byte < txnBeats t * unitBytes t.unit, e.trunkBase.toNat + 2 ^ e.sizeCode ≤ t.addr.toNat + byte

/-- A lock stands on window `w` with owner `m` (R71). -/
def OwnsLock (s : State) (m : MasterId) (w : WindowId) : Prop :=
  s.lock.state ≠ .free ∧ s.lock.owner = some m ∧ s.lock.window = some w

/-- The master's bit of the mask for the direction is clear, or the transaction carries a lock attribute other than NONE
to a window that is not lockable and is not locked by the master (R9). -/
def RightsFail (s : State) (w : WindowId) (t : Txn) : Prop :=
  (match t.payload with
    | .read _ => s.windows[w].readMask.getLsbD t.master.val = false
    | .write _ => s.windows[w].writeMask.getLsbD t.master.val = false) ∨
  (t.lock ≠ .noLock ∧ s.windows[w].lockable = false ∧ ¬OwnsLock s t.master w)

/-- A transaction outside the control region, in a gate that is not RESET, that window `w` claims (R92, steps 1 to 3). -/
structure ClaimedBy (s : State) (w : WindowId) (t : Txn) : Prop where
  beats : 1 ≤ txnBeats t ∧ txnBeats t ≤ 16
  notReset : s.gsc.state ≠ .reset
  outside : ¬InRegion s t.addr
  claimed : claimingWindow s t.addr = some w

/-- A window transaction that passes every step before the gate-state step (R92, steps 1 to 9). -/
structure PassesToGate (s : State) (w : WindowId) (t : Txn) : Prop extends ClaimedBy s w t where
  notFaulted : s.gsc.state ≠ .faulted
  aligned : ¬Misaligned t
  within : ¬CrossesEnd s.windows[w] t
  thawed : s.windows[w].frozen = false
  admitted : s.masters[t.master].admission = .opened
  rights : ¬RightsFail s w t

/-- The read is a return to the locked slot of the lock that its master owns (R73, row 3). -/
def ReturnsToLocked (s : State) (t : Txn) : Prop :=
  s.lock.state ≠ .free ∧ s.lock.owner = some t.master ∧ ∃ i, s.lock.slot = some i ∧ s.slots[i].key = txnKey t

/-- The rows of the lock step's table that pass a transaction on: HOLD and CLOSE through the window of the master's own
lock, which is not closing and which no note names; OPEN as a return to the locked slot or with the lock FREE; NONE with
no other master's lock on the window (R73). -/
def LockStepPasses (s : State) (w : WindowId) (t : Txn) : Prop :=
  match t.lock with
  | .holdLock => s.masters[t.master].note ≠ some w ∧ OwnsLock s t.master w ∧ s.lock.closing = false
  | .closeLock => s.masters[t.master].note ≠ some w ∧ OwnsLock s t.master w ∧ s.lock.closing = false
  | .openLock => ReturnsToLocked s t ∨ s.lock.state = .free
  | .noLock => s.lock.state ≠ .free → s.lock.window = some w → s.lock.owner = some t.master

/-- What the lock step does to the state by the way: an OPEN read that finds the lock FREE clears its master's note
(R73, row 4; R76). -/
def noteTaken (t : Txn) (s : State) : State :=
  if t.lock = .openLock ∧ s.lock.state = .free then
    { s with masters := modAt s.masters t.master fun e => { e with note := none } }
  else s

/-- A read that matches a slot in READY, FAILED or STALE (R49, R95). -/
def ReturnsToAnswer (s : State) (t : Txn) : Prop :=
  (∃ n, t.payload = .read n) ∧
    ∃ i, matchingSlot s t = some i ∧
      (s.slots[i].state = .ready ∨ s.slots[i].state = .failed ∨ s.slots[i].state = .stale)

/-- The gate-state step passes the transaction: in ENABLED, and in QUIESCING for a return to an answer and for the owner
of the lock on the window (R95). -/
def GatePasses (s : State) (w : WindowId) (t : Txn) : Prop :=
  s.gsc.state = .enabled ∨ (s.gsc.state = .quiescing ∧ (ReturnsToAnswer s t ∨ OwnsLock s t.master w))

/-- The check bit of each of the four lanes makes the number of ones among the lane's eight data bits and the check bit
odd (R96). -/
def CodeAgrees (data : Word) (code : Lanes) : Prop :=
  ∀ lane < 4, ((List.range 8).countP (fun k => data.getLsbD (8 * lane + k)) +
    if code.getLsbD lane = true then 1 else 0) % 2 = 1

/-- The first beat whose check code disagrees with its data, and how many beats disagree, as the DATA CHECK report holds
them (R96, R97, R186). -/
def dataCheckDetail (beats : List Beat) : Word :=
  BitVec.ofNat 32 (beats.findIdx (fun b => !beatAgrees b) + 256 * beats.countP fun b => !beatAgrees b)

/-- The row of the table in which the records of a command are executed. -/
def commandRow : Command → Instr
  | .loadWindow => .loadWindow
  | .retireWindow => .retireWindow
  | .modifyWindow => .modifyWindow
  | .thawWindow => .thawWindow
  | .setMaster => .setMaster
  | .setTimers => .setTimers
  | .setArbitration => .setArbitration
  | .enable => .enable
  | .quiesce => .quiesce
  | .fence => .fence

/-- The shapes that the control region serves, at an offset from its base (R139). -/
def ListedShape (offset : Nat) (t : Txn) : Prop :=
  t.unit = .four ∧ t.lock = .noLock ∧
  match t.payload with
  | .read n =>
    (offset, n) ∈ [(0x0000, 1), (0x0004, 1), (0x0010, 3), (0x0200, 4)] ∨
    (∃ w : WindowId, offset = 0x1000 + w.val * 0x20 ∧ n = 8) ∨ (∃ m : MasterId, offset = 0x2000 + m.val * 0x10 ∧ n = 4)
  | .write beats =>
    (∀ b ∈ beats, b.enables = 0xF) ∧
    ((offset ∈ [0x0100, 0x0104, 0x0108, 0x010C, 0x0110] ∧ beats.length = 1) ∨
      (offset = 0x0400 ∧ 1 ≤ beats.length ∧ beats.length ≤ 16))

/-- The code, and the bits that are not reserved of each operand word, of every ordered command (R185). -/
def recordTable : List (Command × BitVec 8 × List Word) :=
  [(.loadWindow, 0x01, [0x001F1FFF, 0xFFFFFFFF, 0x0FFFFFFF, 0xFFFFFFFF]), (.retireWindow, 0x02, [0x000000FF]),
    (.modifyWindow, 0x03, [0x001C00FF, 0xFFFFFFFF]), (.thawWindow, 0x04, [0x000000FF]),
    (.setMaster, 0x10, [0x000007FF, 0x00FFFFFF]), (.setTimers, 0x11, [0xFFFFFFFF, 0xFFFFFFFF]),
    (.setArbitration, 0x12, [0x0007FF07]), (.enable, 0x20, []), (.quiesce, 0x21, []), (.fence, 0x22, [])]

/-- The state a release leaves before it takes the request lines: STANDBY, the arbiter PARKED(A) with its defaults, the slot
number as sampled, and the RESET NOTICE of a reset kind offered (R91, R135, R171, R175, R186). -/
def released (lines : BitVec 4) (kind data control : Nat) (s : State) : State :=
  offered ⟨.resetNotice, none, none, none, none, none, BitVec.ofNat 32 (kind + 256 * data + 65536 * control)⟩
    { s with
      ti.slotNumber := lines, arb := Arbiter.powerOn, gsc := ⟨.standby, .none, none⟩,
      rq.cardData := 0, rq.cardControl := 0 }

/-- The state in which a slot has been freed: it holds the values of R47, has left the age order, and its master's and
its window's counts are one lower (R66). -/
def slotFreed (i : SlotId) (s : State) : State :=
  { s with
    slots := modAt s.slots i fun _ => Slot.powerOn
    ageOrder := s.ageOrder.filter (· != i)
    masters := modAt s.masters s.slots[i].key.master fun e => { e with outReads := e.outReads - 1 }
    windows := modAt s.windows s.slots[i].window fun e => { e with refCount := e.refCount - 1 } }

/-- A piece of the drain of entry `d` is outstanding: the gate's access `a` with its operation `p`, at piece `n` (R109,
R110, R114). -/
structure Draining (s : State) (a : Access) (p : PieceOp) (d : DataEntry) (rest : List Entry) (n : Nat) : Prop where
  access : s.cbc.access = some a
  op : a.op = some p
  kind : a.kind = .drain
  head : s.pwq.entries = .data d :: rest
  beats : a.beats = d.beats.length
  place : n = a.beat * piecesPerBeat a.unit a.portWidth + a.piece

/-- A piece of a fetch is outstanding: the gate's access `a` with its operation `p` (R109, R112, R114). -/
structure Fetching (s : State) (a : Access) (p : PieceOp) : Prop where
  access : s.cbc.access = some a
  op : a.op = some p
  kind : a.kind = .fetch

/-- The last piece of an access is outstanding (R110). -/
def LastPiece (a : Access) : Prop := a.beats * piecesPerBeat a.unit a.portWidth ≤
  a.beat * piecesPerBeat a.unit a.portWidth + a.piece + 1

/-- The words of a fetch once a piece has returned `data` (R112). -/
def gatheredWith (a : Access) (p : PieceOp) (data : Word) : List Word :=
  a.gathered.set a.beat (mergeLanes (a.gathered.getD a.beat 0) data p.op.enables)

end Sys2Proof.Safety
end

