-- ==== Sys2Proof/Certificates/Slice0/Obligations.lean ====
section
/-! DEFINITION. The statements for the provers. A statement of an event that goes on to settle the queue and the card
bus says what the event itself does to the state, and that the rest of the event is `SettlesTo` (Safety.lean). -/

section

open Sys2Proof Sys2Proof.Machine Sys2Proof.Safety

/-! ### The machine -/

/-- A step executes the command at the front of the queue with the queue's rest; with no command waiting the gate
idles (the queue of commands is the model's own, log 6). A trunk transaction of 0 or of more than 16 beats does not
exist, and the model stops on it by name (R88, log 21). -/
def Obligations.StepExecutesTheFrontCommand : Prop :=
  (∀ (s : State) (c : Instr) (rest : List Instr), s.pending = c :: rest → step s = exec c { s with pending := rest }) ∧
  (∀ s : State, s.pending = [] → step s = .next s) ∧
  (∀ (s : State) (t : Txn) (m : MasterId) (words : List CheckedWord),
    (txnBeats t = 0 ∨ 16 < txnBeats t →
      exec (windowCommand t) s = .fault .illFormed ∧ exec (.controlRegionRefused t) s = .fault .illFormed) ∧
    (words.length = 0 ∨ 16 < words.length → exec (.controlIntake m words) s = .fault .illFormed))

/-! ### Resets and the timebase -/

/-- The state right after power-on reset: every block at its column "After power-on", and the RESET NOTICE (POWER)
stored with sequence 0 (R2, R44, R47, R71, R98, R109, R125, R138, R171, R173). The slot number and the residents'
lines are the model's choices (logs 1 and 3). -/
def Obligations.ResetHoldsPowerOnValues : Prop :=
  State.reset.timebase = 0 ∧ State.reset.gsc = ⟨.standby, .none, none⟩ ∧
  (∀ w : WindowId, State.reset.windows[w] =
    ⟨.free, false, 0, 0, 0, .bits8, false, .continues, 0, 0, 0, 0, none⟩) ∧
  (∀ m : MasterId, State.reset.masters[m] = ⟨.opened, 4, 2, 0, 0, 0, 0, none⟩) ∧
  State.reset.pwq = ⟨[], 0, 0, 0⟩ ∧
  (∀ i : SlotId, State.reset.slots[i] =
    ⟨.free, ⟨0, 0, .one, 1, .noLock⟩, 0, 0, .bits8, false, 0, none, none, false⟩) ∧
  State.reset.ageOrder = [] ∧
  State.reset.lock = ⟨.free, none, none, none, none, false⟩ ∧
  State.reset.cbc = ⟨false, false, none⟩ ∧
  State.reset.arb = ⟨.parked (.port .a), .port .a, false, none, .last, 24, ⟨true, true, true⟩⟩ ∧
  State.reset.cu = ⟨none, false, 256, 64, 8, 0⟩ ∧
  State.reset.rq.reports = [⟨0, 0, ⟨.resetNotice, none, none, none, none, none, 0⟩⟩] ∧
  State.reset.rq.nextSeq = 1 ∧ State.reset.rq.suppressed = 0 ∧ State.reset.rq.space = .none ∧
  State.reset.ti.serviceLine = false

/-- The laws that every event keeps hold right after power-on reset (`Safety.Lawful`). -/
def Obligations.LawsHoldAtReset : Prop := Lawful State.reset

/-- A tick raises the count by one, wrapping; while power-on reset is asserted the count is 0. A timer expires at the
first tick that finds it due: the rows of the expiries take it from that tick on, and a tick that still finds a timer
due takes its expiry, exactly as its row does, before it counts the next microsecond, so that no timer runs past its
limit (R1). That the expiries are rows of their own, and the order in which a tick takes those that are left, are the
model's choice (log 9). -/
def Obligations.TickCountsMicroseconds : Prop :=
  ∀ s : State,
    (s.porAsserted = true → exec .timebaseTick s = .next { s with timebase := 0 }) ∧
    (s.porAsserted = false → NoneDue s → exec .timebaseTick s = .next { s with timebase := s.timebase + 1 }) ∧
    (s.porAsserted = false → SettingsLegal s → SlotsLegal s →
      let takes (expiry : Instr) : Prop :=
        ∃ t, exec expiry s = .next t ∧ exec .timebaseTick s = exec .timebaseTick t
      let responseDue : Prop := ∃ a p, s.cbc.access = some a ∧ a.op = some p ∧ Due s.timebase p.timer
      let lockDue : Prop := s.lock.state = .owned ∧ ∃ timer, s.lock.hold = some timer ∧ Due s.timebase timer
      let slotDue (i : SlotId) : Prop := ∃ timer, s.slots[i].hold = some timer ∧ Due s.timebase timer
      (responseDue → takes .noResponse) ∧
      (¬responseDue → lockDue → takes .lockHoldTimerExpiry) ∧
      (∀ i, ¬responseDue → ¬lockDue → slotDue i → (∀ j < i, ¬slotDue j) → takes (.holdTimerExpiry i)) ∧
      (∀ timer, ¬responseDue → ¬lockDue → (∀ i, ¬slotDue i) → s.arb.overstay = some timer → Due s.timebase timer →
        takes .overstayTimerExpiry))

/-- The assertion of power-on reset and of card reset: every block takes its reset values at once, the gate is RESET
and the arbiter STOPPED. Power-on reset empties the report queue and zeroes the timebase; card reset keeps both,
withdraws the space request, and keeps the numbers of entries it removes for its notice (R1, R23, R44, R69, R86, R107,
R122, R135, R162, R172, R175). That the slot lines are sampled here as well, that power-on zeroes those numbers, and the
record of the last answer are the model's choices (logs 28, 17, 4). -/
def Obligations.ResetAssertionHoldsEveryBlock : Prop :=
  ∀ (s : State) (lines : BitVec 4),
    (s.porAsserted = false → exec (.powerOnResetAssert lines) s = .next
      { State.reset with
        timebase := 0, porAsserted := true, cardAsserted := s.cardAsserted, ti := ⟨lines, false, none⟩,
        arb := ⟨.stopped, .port .a, false, none, .last, 24, ⟨true, true, true⟩⟩, lines := s.lines,
        rq := ⟨[], 0, 0, .none, 0, 0⟩, gsc := ⟨.reset, .none, none⟩, freeCount := s.freeCount, pending := s.pending }) ∧
    (s.cardAsserted = false → exec (.cardResetAssert lines) s = .next
      { State.reset with
        timebase := s.timebase, porAsserted := s.porAsserted, cardAsserted := true, ti := ⟨lines, false, none⟩,
        arb := ⟨.stopped, .port .a, false, none, .last, 24, ⟨true, true, true⟩⟩, lines := s.lines,
        rq := { s.rq with
          space := .none
          cardData := s.pwq.entries.countP isData
          cardControl := s.pwq.entries.countP fun e => !isData e },
        gsc := ⟨.reset, .none, none⟩, freeCount := s.freeCount, pending := s.pending })

/-- The release of the last asserted reset makes the gate STANDBY, with a RESET NOTICE of the reset released last; the
release of one of two leaves the gate in RESET. The request lines raised at that moment are then taken, the gate
requesting nothing: with none the grant stays PARKED at A; the port that alone is raised begins its tenure, A at once
and another by a decision, in LOCKED where its hold line is raised and with an overstay timer where the tenure limit is
not 0; and with several one of the raised ports begins its tenure and the others wait (R91, R128, R129, R130, R133,
R135, R166, R171, R175, R186). When the slot lines are sampled is log 28; which of several lines is taken first is a
free choice (log 10). -/
def Obligations.ReleaseOfTheLastReset : Prop :=
  ∀ (s : State) (lines : BitVec 4),
    (s.porAsserted = true → s.cardAsserted = true →
      exec (.powerOnResetRelease lines) s = .next { s with porAsserted := false, ti.slotNumber := lines } ∧
      exec (.cardResetRelease lines) s = .next { s with cardAsserted := false, ti.slotNumber := lines }) ∧
    let raised (p : Port) : Prop := portOf s.lines.request p = true
    let releases (c : Instr) (x : State) : Prop :=
      ((∀ p, ¬raised p) → exec c s = .next x) ∧
      (s.cbc.request = false →
        (∀ p, (∀ q, raised q ↔ q = p) → exec c s = .next (granted (.port p) x)) ∧
        ((∃ p q, p ≠ q ∧ raised p ∧ raised q) →
          ∃ first, raised first ∧ exec c s = .next { granted (.port first) x with freeCount := s.freeCount + 1 }))
    (s.porAsserted = true → s.cardAsserted = false →
      releases (.powerOnResetRelease lines) (released lines 0 0 0 { s with porAsserted := false })) ∧
    (s.porAsserted = false → s.cardAsserted = true →
      releases (.cardResetRelease lines)
        (released lines 1 s.rq.cardData s.rq.cardControl { s with cardAsserted := false }))

/-- While the gate is RESET every trunk transaction is unclaimed and changes no state of the gate; the answer driven is
the model's record of an output (R92, R93, R175, log 4). -/
def Obligations.ResetIsOffTheTrunk : Prop :=
  ∀ (s : State) (t : Txn) (m k : MasterId) (w : WindowId) (d : CheckedWord) (words : List CheckedWord) (c : Instr),
    s.gsc.state = .reset → 1 ≤ txnBeats t → txnBeats t ≤ 16 → 1 ≤ words.length → words.length ≤ 16 →
    c ∈ [windowCommand t, .controlRegionRefused t, .identity m, .status m, .counts m, .reportHead m,
      .windowReadback m w, .masterReadback m k, .claim m d, .relinquish m d, .release m d, .attention m d,
      .resetGate m d, .controlIntake m words] →
    exec c s = .next { s with ti.answer := some .unclaimed }

/-- A trunk reset outside RESET: no manager, attention off, timer settings kept; every slot FREE with a fetch detached
and stopped, the lock broken with cause RESET, the gate's hold on the card bus gone, every note absent; ENABLED and
QUIESCING become STANDBY and FAULTED stays with its cause; and the RESET NOTICE (TRUNK). The queue keeps its entries and
counters but for the entries the break voids, and a resident that owns the grant keeps it, with the settings, the
rotation pointer and the overstay timer. A queued drain that starts within the event may fail its check (R24, R45, R70,
R76, R87, R108, R123, R136, R162, R171, R172, R180). The order of what the event ends with is the model's choice (log
13). -/
def Obligations.TrunkResetKeepsTheQueueAndDropsTheRest : Prop :=
  ∀ s : State, s.gsc.state ≠ .reset →
    let gate : GateController :=
      match s.gsc.state with
      | .faulted => { s.gsc with quiesceTag := none }
      | _ => ⟨.standby, .none, none⟩
    let detached (a : Access) : Access := if a.kind = .fetch then { a with stop := true, slot := none } else a
    let broken := lockBroken 4 (slotsCleared { s with gsc := gate, cbc.access := s.cbc.access.map detached })
    ∃ t, exec .trunkReset s = .next t ∧
      (LockHoldsBus s → TenureLegal s → IdleTenureHeld s →
        SettlesTo
          (offered ⟨.resetNotice, none, none, none, none, none, 2⟩
            { broken with
              masters := mapTable broken.masters fun e => { e with note := none }
              cu := { s.cu with manager := none, attention := false }
              ti.serviceLine := false }) t) ∧
      t.cu = { s.cu with manager := none, attention := false } ∧ t.ti.serviceLine = false ∧
      (∀ i : SlotId, t.slots[i].state = .free) ∧ t.lock.state = .free ∧ (LockRecordLegal s → t.lock = Lock.powerOn) ∧
      t.arb.lockHold = false ∧
      (∀ m : MasterId, t.masters[m].note = none ∧ masterConfig t.masters[m] = masterConfig s.masters[m]) ∧
      (∀ w : WindowId, windowConfig t.windows[w] = windowConfig s.windows[w]) ∧
      t.pwq.accepted = s.pwq.accepted ∧ (∃ more, t.rq.reports = s.rq.reports ++ more) ∧
      (∀ a, s.cbc.access = some a → a.op.isSome = true → s.lock.state = .free → HeadSettled s → t.pwq = s.pwq) ∧
      (∀ p, s.arb.state = .tenure (.port p) ∨ (∃ inTenure, s.arb.state = .locked (.port p) inTenure) →
        LockHoldsBus s → TenureLegal s → t.arb = s.arb) ∧
      t.arb.policy = s.arb.policy ∧ t.arb.highWater = s.arb.highWater ∧ t.arb.enabled = s.arb.enabled ∧
      t.timebase = s.timebase ∧ t.ti.slotNumber = s.ti.slotNumber ∧ t.lines = s.lines ∧ t.pending = s.pending ∧
      (s.gsc.state = .faulted → t.gsc.state = .faulted ∧ t.gsc.quiesceTag = none ∧
        (s.pwq.entries = [] ∨ (∃ a, s.cbc.access = some a ∧ a.op.isSome = true) → t.gsc.cause = s.gsc.cause)) ∧
      (s.gsc.state ≠ .faulted → t.gsc = ⟨.standby, .none, none⟩ ∨ t.gsc = ⟨.faulted, .queueCheck, none⟩)

/-! ### Window transactions -/

/-- The claiming window is the LIVE window of lowest id whose trunk range contains the start address, and there is
none where no LIVE window contains it (R5). -/
def Obligations.LowestLiveWindowClaims : Prop :=
  ∀ (s : State) (a : TrunkAddr),
    let contains (w : WindowId) : Prop := s.windows[w].state = .live ∧
      s.windows[w].trunkBase.toNat ≤ a.toNat ∧ a.toNat < s.windows[w].trunkBase.toNat + 2 ^ s.windows[w].sizeCode
    (∀ w : WindowId, claimingWindow s a = some w ↔ contains w ∧ ∀ v : WindowId, v < w → ¬contains v) ∧
      (claimingWindow s a = none ↔ ∀ w : WindowId, ¬contains w)

/-- Outcomes that change nothing but the answer: no claiming window; a claimed transaction in FAULTED; a misaligned
one; one that meets a frozen window (R5, R8, R90, R92, R94). -/
def Obligations.UnchargedOutcomesChangeNothing : Prop :=
  ∀ (s : State) (t : Txn), 1 ≤ txnBeats t → txnBeats t ≤ 16 → s.gsc.state ≠ .reset → ¬InRegion s t.addr →
    (claimingWindow s t.addr = none →
      exec (windowCommand t) s = .next { s with ti.answer := some .unclaimed }) ∧
    (∀ w : WindowId, claimingWindow s t.addr = some w →
      (s.gsc.state = .faulted ∨ Misaligned t ∨ (¬CrossesEnd s.windows[w] t ∧ s.windows[w].frozen = true) →
        exec (windowCommand t) s = .next { s with ti.answer := some .refuse }))

/-- The boundary, admission and rights steps refuse and charge a violation: the count rises by one up to 255, a count
gone from 0 to 1 makes a VIOLATION report, and a threshold reached bars an OPEN master with a MASTER BARRED report;
nothing else changes (R7, R9, R92, R101, R102, R103, R186). -/
def Obligations.ViolationsAreCharged : Prop :=
  ∀ (s : State) (w : WindowId) (t : Txn) (cause : ViolationCause),
    ClaimedBy s w t → s.gsc.state ≠ .faulted → ¬Misaligned t →
    (match cause with
      | .boundary => CrossesEnd s.windows[w] t
      | .barred => ¬CrossesEnd s.windows[w] t ∧ s.windows[w].frozen = false ∧
          s.masters[t.master].admission = .barred
      | .rights => ¬CrossesEnd s.windows[w] t ∧ s.windows[w].frozen = false ∧
          s.masters[t.master].admission = .opened ∧ RightsFail s w t) →
    let code := match cause with
      | .boundary => 0
      | .barred => 1
      | .rights => 2
    let direction := match t.payload with
      | .read _ => 0
      | .write _ => 1
    let old := s.masters[t.master]
    let count := min 255 (old.violations + 1)
    let bars : Bool := old.barThreshold ≠ 0 ∧ old.barThreshold ≤ count ∧ old.admission = .opened
    let violation : ReportBody :=
      ⟨.violation, none, none, some t.master, some w, some t.addr, BitVec.ofNat 32 (code + 16 * direction)⟩
    let barring : ReportBody :=
      ⟨.masterBarred, none, none, some t.master, some w, some t.addr, BitVec.ofNat 32 (code + 256 * count)⟩
    exec (windowCommand t) s = .next
      { offerAll ((if old.violations = 0 then [violation] else []) ++ (if bars then [barring] else []))
          { s with masters := modAt s.masters t.master fun e =>
              { e with violations := count, admission := if bars then .barred else e.admission } } with
        ti.answer := some .refuse }

/-- Outcomes RETRY that change nothing but the answer: STANDBY; QUIESCING outside the exceptions; another master's
NONE transaction through the locked window; a write without credit or room; a return to a WAITING or FETCHING slot; a
new read that cannot be recorded, of the lock's owner in QUIESCING too (R29, R50, R54, R73, R75, R95, R100). -/
def Obligations.TurnedAwayWithRetryChangesNothing : Prop :=
  ∀ (s : State) (w : WindowId) (t : Txn), PassesToGate s w t →
    (s.gsc.state = .standby ∨
      (s.gsc.state = .quiescing ∧ ¬ReturnsToAnswer s t ∧ ¬OwnsLock s t.master w) ∨
      (GatePasses s w t ∧ t.lock = .noLock ∧ s.lock.state ≠ .free ∧ s.lock.window = some w ∧
        s.lock.owner ≠ some t.master) ∨
      (GatePasses s w t ∧ LockStepPasses s w t ∧ ¬(t.lock = .openLock ∧ s.lock.state = .free) ∧
        match t.payload with
        | .write beats => (∀ b ∈ beats, CodeAgrees b.data b.code) ∧
            (s.masters[t.master].creditLimit ≤ s.masters[t.master].outWrites ∨ 30 ≤ dataCount s ∨ 32 ≤ queueLength s)
        | .read _ =>
            (∃ i, matchingSlot s t = some i ∧ (s.slots[i].state = .waiting ∨ s.slots[i].state = .fetching)) ∨
            (matchingSlot s t = none ∧
              (s.gsc.state = .quiescing ∨ s.masters[t.master].readLimit ≤ s.masters[t.master].outReads ∨
                ∀ i : SlotId, s.slots[i].state ≠ .free)))) →
    exec (windowCommand t) s = .next { s with ti.answer := some .retry }

/-- Rows 1, 2 and 4 of the lock step: a HOLD or CLOSE through the noted window is refused and clears the note; a HOLD
or CLOSE with no lock of the master on the window, or with the lock closing, is refused and changes nothing; an OPEN
that finds a lock standing and is no return to it is answered RETRY and clears the note; and an OPEN with the lock FREE
that returns to a WAITING or FETCHING slot left by an earlier lock, or that cannot be recorded, is answered RETRY, clears
the note and leaves the lock FREE (R73, R74, R75, R76). -/
def Obligations.LockStepRefusals : Prop :=
  ∀ (s : State) (w : WindowId) (t : Txn), PassesToGate s w t → GatePasses s w t →
    let cleared := { s with masters := modAt s.masters t.master fun e => { e with note := none } }
    (t.lock = .holdLock ∨ t.lock = .closeLock →
      (s.masters[t.master].note = some w →
        exec (windowCommand t) s = .next { cleared with ti.answer := some .refuse }) ∧
      (s.masters[t.master].note ≠ some w → ¬OwnsLock s t.master w ∨ s.lock.closing = true →
        exec (windowCommand t) s = .next { s with ti.answer := some .refuse })) ∧
    (t.lock = .openLock → s.lock.state ≠ .free → ¬ReturnsToLocked s t →
      exec (windowCommand t) s = .next { cleared with ti.answer := some .retry }) ∧
    (t.lock = .openLock → s.lock.state = .free →
      (∃ i, matchingSlot s t = some i ∧ (s.slots[i].state = .waiting ∨ s.slots[i].state = .fetching)) ∨
        (matchingSlot s t = none ∧
          (s.masters[t.master].readLimit ≤ s.masters[t.master].outReads ∨ ∀ i : SlotId, s.slots[i].state ≠ .free)) →
      exec (windowCommand t) s = .next { cleared with ti.answer := some .retry })

/-- The check code of a word agrees where each lane's check bit makes the number of ones odd, and the codes the gate
forms agree. A write whose data check fails is refused with a DATA CHECK report of the first damaged beat and their
number, and has no other effect: at a window's write step; and in the control region, where the report names no window,
in each immediate operation, in a control record of 1 to 16 words, and in a write of any shape, listed or not (R89, R96,
R97, R140 row 1, R186). -/
def Obligations.DamagedWritesAreRefused : Prop :=
  (∀ (b : Beat) (c : CheckedWord) (x : Word), (beatAgrees b = true ↔ CodeAgrees b.data b.code) ∧
    (wordAgrees c = true ↔ CodeAgrees c.word c.code) ∧ (withCode x).word = x ∧ CodeAgrees x (withCode x).code) ∧
  (∀ (s : State) (w : WindowId) (t : Txn) (beats : List Beat), t.payload = .write beats → PassesToGate s w t →
    GatePasses s w t → LockStepPasses s w t → (∃ b ∈ beats, ¬CodeAgrees b.data b.code) →
    exec (windowCommand t) s = .next
      { offered ⟨.dataCheck, none, none, some t.master, some w, some t.addr, dataCheckDetail beats⟩ s with
        ti.answer := some .refuse }) ∧
  (∀ (s : State) (m : MasterId), s.gsc.state ≠ .reset →
    let refused (offset : Nat) (detail : Word) : State :=
      { offered ⟨.dataCheck, none, none, some m, none,
          some (BitVec.ofNat 32 (0xFFF00000 + s.ti.slotNumber.toNat * 0x10000 + offset)), detail⟩ s with
        ti.answer := some .refuse }
    (∀ d : CheckedWord, ¬CodeAgrees d.word d.code →
      ∀ p ∈ [((0x0100 : Nat), Instr.claim m d), (0x0104, .relinquish m d), (0x0108, .release m d),
          (0x010C, .attention m d), (0x0110, .resetGate m d)],
        exec p.2 s = .next (refused p.1 (BitVec.ofNat 32 256))) ∧
    (∀ words : List CheckedWord, words.length ≤ 16 → (∃ c ∈ words, ¬CodeAgrees c.word c.code) →
      exec (.controlIntake m words) s =
        .next (refused 0x0400 (dataCheckDetail (words.map fun c => ⟨c.word, 0xF, c.code⟩))))) ∧
  (∀ (s : State) (t : Txn) (beats : List Beat), s.gsc.state ≠ .reset → InRegion s t.addr → t.payload = .write beats →
    beats.length ≤ 16 → (∃ b ∈ beats, ¬CodeAgrees b.data b.code) →
    ∀ c ∈ [Instr.controlRegionRefused t, windowCommand t],
      exec c s = .next
        { offered ⟨.dataCheck, none, none, some t.master, none, some t.addr, dataCheckDetail beats⟩ s with
          ti.answer := some .refuse })

/-- An accepted write: it is answered DONE, a data entry with the translated address, the stored enables and the
sequence flag joins the tail, and the accepted counter, the master's outstanding writes and the window's reference count
rise by one; a CLOSE sets the closing flag (R10, R13, R27, R29, R30, R75, R89, R99). The order of what the event ends
with is the model's choice (log 13). -/
def Obligations.AcceptedWriteJoinsTheQueue : Prop :=
  ∀ (s : State) (w : WindowId) (m : MasterId) (a : TrunkAddr) (u : BeatUnit) (k : LockAttr) (beats : List Beat),
    let t : Txn := ⟨m, a, u, k, .write beats⟩
    PassesToGate s w t → GatePasses s w t → LockStepPasses s w t → (∀ b ∈ beats, CodeAgrees b.data b.code) →
    s.masters[m].outWrites < s.masters[m].creditLimit → dataCount s < 30 → queueLength s < 32 →
    ∃ v, exec (.windowWrite m a u k beats) s = .next { v with ti.answer := some (.done []) } ∧
      SettlesTo
        { s with
          pwq.entries := s.pwq.entries ++ [.data
            { master := m, window := w, names := true,
              cardAddr := s.windows[w].cardBase + (a - s.windows[w].trunkBase).setWidth 28,
              unit := u,
              beats := beats.mapIdx fun i b =>
                { b with enables := b.enables &&& laneMask ((a.toNat + i * unitBytes u) % 4) (unitBytes u) },
              portWidth := s.windows[w].portWidth,
              seq := match k with
                | .holdLock => .inSequence
                | .closeLock => .close
                | _ => .none,
              void := false }]
          pwq.accepted := s.pwq.accepted + 1
          masters := modAt s.masters m fun e => { e with outWrites := e.outWrites + 1 }
          windows := modAt s.windows w fun e => { e with refCount := e.refCount + 1 }
          lock.closing := if k = .closeLock then true else s.lock.closing } v

/-- A recorded read: the FREE slot of lowest id is WAITING with the read's key, the translated address, and the queue's
length as its ahead count, last in the age order; the two counts rise by one; an OPEN makes the lock PENDING on it and
clears the master's note. The read is answered RETRY (R10, R13, R48, R54, R55, R73, R74, R99). The order of what the
event ends with is the model's choice (log 13). -/
def Obligations.RecordedReadWaitsBehindTheQueue : Prop :=
  ∀ (s : State) (w : WindowId) (m : MasterId) (a : TrunkAddr) (u : BeatUnit) (k : LockAttr) (n : Nat) (i : SlotId),
    let t : Txn := ⟨m, a, u, k, .read n⟩
    PassesToGate s w t → s.gsc.state = .enabled → LockStepPasses s w t → (k = .openLock → s.lock.state = .free) →
    matchingSlot s t = none → s.masters[m].outReads < s.masters[m].readLimit →
    s.slots[i].state = .free → (∀ j : SlotId, j < i → s.slots[j].state ≠ .free) →
    ∃ v, exec (.windowRead m a u k n) s = .next { v with ti.answer := some .retry } ∧
      SettlesTo
        { s with
          slots := modAt s.slots i fun _ =>
            { state := .waiting, key := ⟨m, a, u, n, k⟩, window := w,
              cardAddr := s.windows[w].cardBase + (a - s.windows[w].trunkBase).setWidth 28,
              portWidth := s.windows[w].portWidth, locked := k = .openLock, ahead := queueLength s,
              data := none, hold := none, releaseMark := false }
          ageOrder := s.ageOrder ++ [i]
          masters := modAt s.masters m fun e =>
            { e with outReads := e.outReads + 1, note := if k = .openLock then none else e.note }
          windows := modAt s.windows w fun e => { e with refCount := e.refCount + 1 }
          lock := if k = .openLock then ⟨.pending, some m, some w, some i, none, false⟩ else s.lock } v

/-- A return to a READY slot whose stored codes agree is answered DONE with the stored words and codes, and the slot is
freed; a standing lock that named it names no slot from then on. A return to a FAILED slot is answered REFUSE and frees
it. An OPEN that so returns to a slot left by an earlier lock, with the lock FREE, opens none and clears its master's
note (R49, R50, R52, R66, R73, R74, R76, R79). The order of what the event ends with is the model's choice (log 13). -/
def Obligations.ReturnsCollectOrRefuse : Prop :=
  ∀ (s : State) (w : WindowId) (m : MasterId) (a : TrunkAddr) (u : BeatUnit) (k : LockAttr) (n : Nat) (i : SlotId),
    let t : Txn := ⟨m, a, u, k, .read n⟩
    PassesToGate s w t → GatePasses s w t → LockStepPasses s w t → matchingSlot s t = some i →
    (∀ words, s.slots[i].state = .ready → s.slots[i].data = some words → (∀ c ∈ words, CodeAgrees c.word c.code) →
      ∃ v, exec (.windowRead m a u k n) s = .next { v with ti.answer := some (.done words) } ∧
        SettlesTo
          (slotFreed i { noteTaken t s with
            lock.slot := if lockStands s && s.lock.slot = some i then none else s.lock.slot }) v) ∧
    (s.slots[i].state = .failed →
      ∃ v, exec (.windowRead m a u k n) s = .next { v with ti.answer := some .refuse } ∧
        SettlesTo (slotFreed i (noteTaken t s)) v)

/-- A return to a STALE slot is answered RETRY. In ENABLED the slot restarts: WAITING behind the entries now queued, its
data and timer gone, last in the age order, its counts unchanged; in QUIESCING it is freed. An OPEN that so returns with
the lock FREE opens none and clears its master's note (R48, R53, R57, R73, R74, R76). The order of what the event ends
with is the model's choice (log 13). -/
def Obligations.StaleSlotsRestartOrAreFreed : Prop :=
  ∀ (s : State) (w : WindowId) (m : MasterId) (a : TrunkAddr) (u : BeatUnit) (k : LockAttr) (n : Nat) (i : SlotId),
    let t : Txn := ⟨m, a, u, k, .read n⟩
    PassesToGate s w t → LockStepPasses s w t → matchingSlot s t = some i → s.slots[i].state = .stale →
    (s.gsc.state = .enabled →
      ∃ v, exec (.windowRead m a u k n) s = .next { v with ti.answer := some .retry } ∧
        SettlesTo
          { noteTaken t s with
            slots := modAt s.slots i fun e =>
              { e with state := .waiting, data := none, hold := none, ahead := queueLength s }
            ageOrder := s.ageOrder.filter (· != i) ++ [i] } v) ∧
    (s.gsc.state = .quiescing →
      ∃ v, exec (.windowRead m a u k n) s = .next { v with ti.answer := some .retry } ∧
        SettlesTo (slotFreed i (noteTaken t s)) v)

/-- A READY slot with a damaged word delivers nothing: the read is answered REFUSE, and the gate is FAULTED with cause
SLOT CHECK and no quiesce tag, the access in flight stopped, the queue emptied but for the entry in drain, every slot
FREE, a standing lock broken with cause FAULT and the hold on the card bus gone, with the FAULT report; the manager,
attention, settings and configurations are kept (R25, R46, R51, R70, R87, R108, R121, R124, R137, R162, R178, R186). The
order of what the event ends with is the model's choice (log 13). -/
def Obligations.DamagedSlotFaultsTheGate : Prop :=
  ∀ (s : State) (w : WindowId) (m : MasterId) (a : TrunkAddr) (u : BeatUnit) (k : LockAttr) (n : Nat) (i : SlotId)
    (words : List CheckedWord),
    let t : Txn := ⟨m, a, u, k, .read n⟩
    PassesToGate s w t → GatePasses s w t → LockStepPasses s w t →
    matchingSlot s t = some i → s.slots[i].state = .ready → s.slots[i].data = some words →
    (∃ c ∈ words, ¬CodeAgrees c.word c.code) →
    ∃ v, exec (.windowRead m a u k n) s = .next { v with ti.answer := some .refuse } ∧
      (LockHoldsBus s → TenureLegal s → SettlesTo (gateFaulted .slotCheck 2 (noteTaken t s)) v) ∧
      v.gsc = ⟨.faulted, .slotCheck, none⟩ ∧ (∀ j : SlotId, v.slots[j].state = .free) ∧
      v.lock.state = .free ∧ (LockRecordLegal s → v.lock = Lock.powerOn) ∧
      v.arb.lockHold = false ∧ v.pwq.entries.length ≤ (if inDrain s then 1 else 0) ∧
      v.cu = s.cu ∧ v.pwq.accepted = s.pwq.accepted ∧ (∃ more, v.rq.reports = s.rq.reports ++ more) ∧
      (∀ x : WindowId, windowConfig v.windows[x] = windowConfig s.windows[x]) ∧
      (∀ x : MasterId, masterConfig v.masters[x] = masterConfig s.masters[x])

/-- A beat whose stored code does not agree ends its drain check failed, when the drain takes up its first piece, or at
the drain's start for beat 0: the entry is dropped without the staleness test and without a WRITE LOST report, the gate
is FAULTED with cause QUEUE CHECK, the rest of the queue and every slot go, a standing lock is broken with cause FAULT
(but a CLOSE drain has ended its lock first), and FAULT reports the numbers removed. The tenure ends with no request,
and windows brought to 0 are freed (R15, R25, R36, R43, R46, R82, R87, R111, R118, R120, R178, R186). That the WINDOW
FREED report of the failing entry's window follows LOCK BROKEN and FAULT is the model's choice (log 19). -/
def Obligations.QueueCheckFaultsTheGate : Prop :=
  let settled (x : State) : State :=
    windowsFreed (if x.cbc.tenure = true then tenureEnded false x else x)
  (∀ (s : State) (a : Access) (p : PieceOp) (d : DataEntry) (rest : List Entry) (n i : Nat) (b : Beat) (data : Word),
    Draining s a p d rest n → a.stop = false → TenureLegal s → LockHoldsBus s →
    let per := piecesPerBeat a.unit a.portWidth
    n < i * per → d.beats[i]? = some b → ¬CodeAgrees b.data b.code →
    (∀ j, n < j → j < i * per → drainLanes a d j = 0) →
    (∀ (j : Nat) (x : Beat), n < j * per → j < i → d.beats[j]? = some x → CodeAgrees x.data x.code) →
    exec (.pieceEnd (.ack data)) s = .next
      (settled (gateFaulted .queueCheck 1 (entryGone d (closeTaken d { s with pwq.dropped := s.pwq.dropped + 1 }))))) ∧
  (∀ (s : State) (p : Port) (d : DataEntry) (b : Beat), s.arb.state = .tenure (.port p) →
    portOf s.lines.request p = true → LockHoldsBus s → TenureLegal s → NoSlot s → Offers s d → d.beats[0]? = some b →
    ¬CodeAgrees b.data b.code →
    let decided := { s with lines.request := setPort s.lines.request p false }
    Wins decided .gate →
    exec (.residentRequestDrop p) s = .next
      (settled (gateFaulted .queueCheck 1
        (entryGone d { granted .gate decided with pwq.dropped := s.pwq.dropped + 1 }))))

/-! ### The control region -/

/-- IDENTITY reads 1320_6A3Dh; COUNTS reads the accepted, performed and dropped counters to the manager and is refused to
every other master; neither changes any state of the gate (R140 row 4, R143, R183). -/
def Obligations.IdentityAndCountsReturnTheirWords : Prop :=
  ∀ (s : State) (m : MasterId), s.gsc.state ≠ .reset →
    exec (.identity m) s = .next { s with ti.answer := some (.done [withCode 0x13206A3D]) } ∧
    (s.cu.manager = some m → exec (.counts m) s = .next
      { s with ti.answer := some (.done
          [withCode s.pwq.accepted, withCode s.pwq.performed, withCode s.pwq.dropped]) }) ∧
    (s.cu.manager ≠ some m → exec (.counts m) s = .next { s with ti.answer := some .refuse })

/-- STATUS packs the gate state, the lock state or fault cause, the manager, attention, the data count, the slots in
use, the report field and the suppressed count into 32 bits, and changes no state of the gate (R184). -/
def Obligations.StatusPacksItsFields : Prop :=
  ∀ (s : State) (m : MasterId), s.gsc.state ≠ .reset →
    QueueFits s → ReportsFit s → WaitingMeansFull s → IdleWhenClosed s → GateRecordLegal s →
    let gate : BitVec 2 := match s.gsc.state with
      | .enabled => 1
      | .quiescing => 2
      | .faulted => 3
      | _ => 0
    let lockBits : BitVec 2 := match s.lock.state with
      | .free => 0
      | .pending => 1
      | .owned => 2
    let causeBits : BitVec 2 := match s.gsc.cause with
      | .none => 0
      | .queueCheck => 1
      | .slotCheck => 2
    let slotsUsed := (List.finRange 8).countP fun i => s.slots[i].state ≠ .free
    let manager : BitVec 4 := match s.cu.manager with
      | some k => BitVec.ofNat 4 k.val
      | none => 0
    let reports : BitVec 5 := if s.rq.space = .waiting then 17 else BitVec.ofNat 5 s.rq.reports.length
    exec (.status m) s = .next
      { s with ti.answer := some (.done [withCode
          (BitVec.ofNat 8 s.rq.suppressed ++ reports ++ BitVec.ofNat 4 slotsUsed ++ BitVec.ofNat 5 (dataCount s) ++
            BitVec.ofBool s.cu.attention ++ manager ++ BitVec.ofBool s.cu.manager.isSome ++
            (if s.gsc.state = .faulted then causeBits else lockBits) ++ gate)]) } ∧
    (s.gsc.state = .faulted → s.lock.state = .free) ∧ (s.gsc.state ≠ .faulted → s.gsc.cause = .none) ∧
    (reports = 17 ↔ s.rq.space = .waiting) ∧ (s.rq.space = .waiting → s.rq.reports.length = 16)

/-- REPORT HEAD returns the oldest report's four words, or the EMPTY marker with the next sequence number and the
suppressed count, and changes no state of the gate (R144, R168, R186). -/
def Obligations.ReportHeadReturnsTheOldest : Prop :=
  ∀ (s : State) (m : MasterId), s.gsc.state ≠ .reset → s.cu.manager = some m → ReportsFit s →
    (s.rq.reports = [] → exec (.reportHead m) s = .next
      { s with ti.answer := some (.done
          [withCode (BitVec.ofNat 8 s.rq.suppressed ++ (0 : BitVec 8) ++ s.rq.nextSeq),
            withCode 0, withCode 0, withCode 0]) }) ∧
    (∀ (r : Report) (rest : List Report), s.rq.reports = r :: rest →
      let kind := ([.result, .resetNotice, .writeLost, .readFailed, .readAbandoned, .lockBroken, .violation,
        .masterBarred, .dataCheck, .windowFrozen, .windowFreed, .quiesced, .residentOverstay, .fault] :
          List ReportKind).idxOf r.body.kind + 1
      let status := match r.body.status with
        | some x => ([.ok, .already, .busy, .badOperand, .wrongState, .started] : List Status).idxOf x
        | none => 0
      exec (.reportHead m) s = .next
        { s with ti.answer := some (.done
            [withCode (BitVec.ofNat 8 r.suppressed ++ BitVec.ofBool r.body.addr.isSome ++
                BitVec.ofBool r.body.window.isSome ++ BitVec.ofBool r.body.master.isSome ++ BitVec.ofNat 5 kind ++ r.seq),
              withCode ((0 : BitVec 3) ++ BitVec.ofNat 5 ((r.body.window.map Fin.val).getD 0) ++
                BitVec.ofNat 4 ((r.body.master.map Fin.val).getD 0) ++ (0 : BitVec 1) ++ BitVec.ofNat 3 status ++
                r.body.tag.getD 0),
              withCode (r.body.addr.getD 0), withCode r.body.detail]) })

/-- WINDOW READBACK and MASTER READBACK return every field of the entry at its place and 0 elsewhere, and change no
state; after power-on reset word 0 of every window reads 0 and word 0 of every master 0002_0400h (R22, R106, R187). -/
def Obligations.ReadbacksReturnEveryField : Prop :=
  (∀ (s : State) (m : MasterId), s.gsc.state ≠ .reset → s.cu.manager = some m →
    QueueFits s → WritesAgree s → ReadsAgree s → RefsAgree s → WindowsLegal s → SettingsLegal s →
    (∀ w : WindowId,
      let e := s.windows[w]
      let state : BitVec 2 := match e.state with
        | .free => 0
        | .live => 1
        | .draining => 2
      let port : BitVec 2 := match e.portWidth with
        | .bits8 => 0
        | .bits16 => 1
        | .bits32 => 2
      exec (.windowReadback m w) s = .next
        { s with ti.answer := some (.done
            [withCode ((0 : BitVec 18) ++ BitVec.ofBool (e.policy = .freezes) ++ BitVec.ofBool e.lockable ++ port ++
                (0 : BitVec 1) ++ BitVec.ofNat 5 e.sizeCode ++ BitVec.ofBool e.retireTag.isSome ++
                BitVec.ofBool e.frozen ++ state),
              withCode e.trunkBase, withCode ((0 : BitVec 4) ++ e.cardBase), withCode (e.writeMask ++ e.readMask),
              withCode ((0 : BitVec 26) ++ BitVec.ofNat 6 e.refCount),
              withCode ((0 : BitVec 16) ++ BitVec.ofNat 16 e.discards),
              withCode ((0 : BitVec 16) ++ e.retireTag.getD 0), withCode 0]) }) ∧
    (∀ k : MasterId,
      let e := s.masters[k]
      exec (.masterReadback m k) s = .next
        { s with ti.answer := some (.done
            [withCode (BitVec.ofNat 8 e.barThreshold ++ (0 : BitVec 4) ++ BitVec.ofNat 4 e.readLimit ++ (0 : BitVec 3) ++
                BitVec.ofNat 5 e.creditLimit ++ (0 : BitVec 7) ++ BitVec.ofBool (e.admission = .barred)),
              withCode ((0 : BitVec 20) ++ BitVec.ofNat 4 e.outReads ++ (0 : BitVec 3) ++ BitVec.ofNat 5 e.outWrites),
              withCode ((0 : BitVec 24) ++ BitVec.ofNat 8 e.violations),
              withCode ((0 : BitVec 23) ++ BitVec.ofBool e.note.isSome ++ (0 : BitVec 3) ++
                BitVec.ofNat 5 ((e.note.map Fin.val).getD 0))]) })) ∧
  (∀ m k : MasterId, ∀ w : WindowId,
    (∃ rest, exec (.windowReadback m w) { State.reset with cu.manager := some m } = .next
      { State.reset with cu.manager := some m, ti.answer := some (.done (withCode 0 :: rest)) }) ∧
    (∃ rest, exec (.masterReadback m k) { State.reset with cu.manager := some m } = .next
      { State.reset with cu.manager := some m, ti.answer := some (.done (withCode 0x00020400 :: rest)) }))

/-- CLAIM: a data word that is not the writer's id is refused; otherwise the writer becomes the manager where none is
set, is answered DONE where it is the manager, and is refused where another is; nothing else changes (R141). -/
def Obligations.ClaimTakesAnUnsetRole : Prop :=
  ∀ (s : State) (m : MasterId) (d : CheckedWord), s.gsc.state ≠ .reset → s.gsc.state ≠ .faulted → wordAgrees d = true →
    (d.word.toNat ≠ m.val → exec (.claim m d) s = .next { s with ti.answer := some .refuse }) ∧
    (d.word.toNat = m.val →
      (s.cu.manager = none →
        exec (.claim m d) s = .next { s with cu.manager := some m, ti.answer := some (.done []) }) ∧
      (s.cu.manager = some m → exec (.claim m d) s = .next { s with ti.answer := some (.done []) }) ∧
      (∀ k : MasterId, k ≠ m → s.cu.manager = some k →
        exec (.claim m d) s = .next { s with ti.answer := some .refuse }))

/-- RELINQUISH from the manager makes the manager absent, whatever its data word; attention, the timer settings and the
queued control entries stay. RELEASE removes the oldest report where the lower half of its data word names its sequence
number and the upper half is zero: the count falls, a WAITING space request becomes HELD, and the service line follows;
any other RELEASE is refused and changes nothing (R142, R144, R168, R169). -/
def Obligations.RelinquishAndReleaseGiveUpWhatTheyName : Prop :=
  ∀ (s : State) (m : MasterId) (d : CheckedWord), s.gsc.state ≠ .reset → wordAgrees d = true → s.cu.manager = some m →
    (s.gsc.state ≠ .faulted →
      exec (.relinquish m d) s = .next { s with cu.manager := none, ti.answer := some (.done []) }) ∧
    (s.rq.reports = [] → exec (.release m d) s = .next { s with ti.answer := some .refuse }) ∧
    (∀ (r : Report) (rest : List Report), s.rq.reports = r :: rest →
      (d.word ≠ r.seq.setWidth 32 → exec (.release m d) s = .next { s with ti.answer := some .refuse }) ∧
      (d.word = r.seq.setWidth 32 → exec (.release m d) s = .next
        { s with
          rq.reports := rest
          rq.space := if s.rq.space = .waiting then .held else s.rq.space
          ti.serviceLine := s.cu.attention && !rest.isEmpty
          ti.answer := some (.done []) }))

/-- ATTENTION from the manager: 0 sets attention off and 1 on, and the service line follows in the same event; setting
the value it holds changes nothing; any other word is refused (R145). -/
def Obligations.AttentionMovesTheServiceLine : Prop :=
  ∀ (s : State) (m : MasterId) (d : CheckedWord), s.gsc.state ≠ .reset → s.gsc.state ≠ .faulted → wordAgrees d = true →
    s.cu.manager = some m →
    (d.word = 0 → exec (.attention m d) s = .next
      { s with cu.attention := false, ti.serviceLine := false, ti.answer := some (.done []) }) ∧
    (d.word = 1 → exec (.attention m d) s = .next
      { s with cu.attention := true, ti.serviceLine := !s.rq.reports.isEmpty, ti.answer := some (.done []) }) ∧
    (LineFollows s → d.word = (if s.cu.attention then 1 else 0) →
      exec (.attention m d) s = .next { s with ti.answer := some (.done []) }) ∧
    (d.word ≠ 0 → d.word ≠ 1 → exec (.attention m d) s = .next { s with ti.answer := some .refuse })

/-- RESET GATE with 0 (KEEP) or 1 (CLEAR) is answered DONE and empties the gate: STANDBY without a fault cause, the
access in flight stopped and a fetch detached, the queue emptied but for an entry in drain with its data entries counted
as dropped, every slot FREE, a standing lock broken with cause RESET, every note absent. LOCK BROKEN comes first, then
the RESET NOTICE with the kind and the numbers of entries removed, then the WINDOW FREED reports. KEEP leaves every
window's state, frozen flag, discard count and retire tag, the configurations, settings, attention and timers, and a
resident that owns the grant with its pointer and overstay timer; CLEAR sets the defaults, keeps such an owner's pointer
and timer, and the settings act on the arbiter's present state. The manager is kept. Another data word is refused (R23,
R25, R46, R70, R87, R107, R124, R137, R146, R147, R162, R171). The model's choices: the order of the defaults under
CLEAR (logs 15 and 31), one decision in PARKED (log 12), the hold of an owner enabled again in its tenure (log 11). The
order of what the event ends with is the model's choice (log 13). -/
def Obligations.ResetGateKeepsOrClears : Prop :=
  ∀ (s : State) (m : MasterId) (d : CheckedWord), s.gsc.state ≠ .reset → wordAgrees d = true →
    (s.cu.manager = none ∨ s.cu.manager = some m) →
    (d.word ≠ 0 → d.word ≠ 1 → exec (.resetGate m d) s = .next { s with ti.answer := some .refuse }) ∧
    (d.word = 0 ∨ d.word = 1 →
      let removed := if inDrain s then s.pwq.entries.drop 1 else s.pwq.entries
      ∃ t, exec (.resetGate m d) s = .next t ∧ t.ti.answer = some (.done []) ∧ t.gsc = ⟨.standby, .none, none⟩ ∧
        (∀ i : SlotId, t.slots[i].state = .free) ∧ t.lock.state = .free ∧ (LockRecordLegal s → t.lock = Lock.powerOn) ∧
        t.arb.lockHold = false ∧
        t.pwq.entries.length ≤ (if inDrain s then 1 else 0) ∧ (∀ k : MasterId, t.masters[k].note = none) ∧
        t.pwq.accepted = s.pwq.accepted ∧ t.cu.manager = s.cu.manager ∧ t.lines = s.lines ∧ t.timebase = s.timebase ∧
        (s.rq.reports.length + 2 ≤ 16 → ∃ before after n x, t.rq.reports = s.rq.reports ++ before ++
          [⟨n, x, ⟨.resetNotice, none, none, none, none, none, BitVec.ofNat 32
            ((if d.word = 0 then 3 else 4) + 256 * removed.countP isData +
              65536 * removed.countP fun e => !isData e)⟩⟩] ++ after) ∧
        (d.word = 0 → t.cu = s.cu ∧ t.arb.policy = s.arb.policy ∧ t.arb.highWater = s.arb.highWater ∧
          t.arb.enabled = s.arb.enabled ∧ (∀ w : WindowId, windowConfig t.windows[w] = windowConfig s.windows[w]) ∧
          (∀ k : MasterId, masterConfig t.masters[k] = masterConfig s.masters[k])) ∧
        (d.word = 1 → t.cu = { ControlUnit.powerOn with manager := s.cu.manager } ∧ t.ti.serviceLine = false ∧
          t.arb.policy = .last ∧ t.arb.highWater = 24 ∧ t.arb.enabled = ⟨true, true, true⟩ ∧
          (∀ w : WindowId, t.windows[w] = Window.powerOn) ∧
          (∀ k : MasterId, masterConfig t.masters[k] = (.opened, 4, 2, 0, 0))) ∧
        (LockHoldsBus s → TenureLegal s →
          ∃ v, t = { v with ti.answer := some (.done []) } ∧
            (d.word = 0 → SettlesTo (offered (gateNotice 3 s) (gateEmptied s)) v) ∧
            (d.word = 1 → ∃ x, SettingsTaken s.arb.enabled (configurationCleared (gateEmptied s)) x ∧
              SettlesTo
                (offered (gateNotice 4 s)
                  { x with cu := { ControlUnit.powerOn with manager := s.cu.manager }, ti.serviceLine := false }) v) ∧
            (∀ p, s.arb.state = .tenure (.port p) ∨ (∃ inTenure, s.arb.state = .locked (.port p) inTenure) →
              (d.word = 0 → t.arb = s.arb) ∧ t.arb.pointer = s.arb.pointer ∧ t.arb.overstay = s.arb.overstay ∧
              (t.arb.state = .tenure (.port p) ∨ ∃ inTenure, t.arb.state = .locked (.port p) inTenure))))

/-- The form test of a record: its command code is listed, its length field and its number of operand words are the
command's, and no reserved bit is set; the entry takes the command, the tag, the operands and the writer (R148, R149,
R150, R185). -/
def Obligations.RecordsAreTestedForTheirForm : Prop :=
  ∀ (m : MasterId) (word0 : Word) (operands : List Word) (c : ControlEntry),
    recordEntry m (word0 :: operands) = some c ↔
      c.tag = word0.extractLsb' 8 16 ∧ c.operands = operands ∧ c.writer = m ∧
      (word0.extractLsb' 24 4).toNat = operands.length ∧ word0.extractLsb' 28 4 = 0 ∧
      ∃ used, (c.command, word0.extractLsb' 0 8, used) ∈ recordTable ∧ operands.length = used.length ∧
        ∀ p ∈ operands.zip used, p.1 &&& ~~~p.2 = 0

/-- CONTROL INTAKE from the manager: a record of good form joins the tail as a control entry and is answered DONE, or
RETRY where the queue holds 32 entries; a record of bad form is refused; the data count is not tested (R31, R149, R150).
That a record which finds the queue empty and a place free is executed by the row of its command, in an event of its own
after the intake's, is the model's choice (log 7), and so is the order of what the event ends with (log 13). -/
def Obligations.IntakeAppendsRecords : Prop :=
  ∀ (s : State) (m : MasterId) (words : List CheckedWord), 1 ≤ words.length → words.length ≤ 16 →
    s.gsc.state ≠ .reset → s.gsc.state ≠ .faulted → s.cu.manager = some m → (∀ c ∈ words, wordAgrees c = true) →
    match recordEntry m (words.map CheckedWord.word) with
    | none => exec (.controlIntake m words) s = .next { s with ti.answer := some .refuse }
    | some c =>
      (32 ≤ queueLength s → exec (.controlIntake m words) s = .next { s with ti.answer := some .retry }) ∧
      (queueLength s < 32 → ∃ v, exec (.controlIntake m words) s = .next { v with ti.answer := some (.done []) } ∧
        SettlesTo { s with pwq.entries := s.pwq.entries ++ [.control c] } v)

/-- What the control region refuses with no other effect: a transaction whose shape is not listed; in FAULTED, CLAIM,
RELINQUISH, ATTENTION and CONTROL INTAKE; from a master that is not the manager, the manager's operations; and RESET
GATE from another master while a manager is set (R139, R140 rows 2 to 5). -/
def Obligations.TheControlRegionRefuses : Prop :=
  (∀ (s : State) (t : Txn), 1 ≤ txnBeats t → txnBeats t ≤ 16 → s.gsc.state ≠ .reset →
    InRegion s t.addr → (∀ beats, t.payload = .write beats → ∀ b ∈ beats, CodeAgrees b.data b.code) →
    ¬ListedShape (t.addr.toNat - (0xFFF00000 + s.ti.slotNumber.toNat * 0x10000)) t →
    exec (.controlRegionRefused t) s = .next { s with ti.answer := some .refuse }) ∧
  (∀ (s : State) (m : MasterId) (d : CheckedWord) (words : List CheckedWord) (w : WindowId) (k : MasterId),
    s.gsc.state ≠ .reset → wordAgrees d = true → (∀ c ∈ words, wordAgrees c = true) → 1 ≤ words.length →
    words.length ≤ 16 →
    let refused (c : Instr) : Prop := exec c s = .next { s with ti.answer := some .refuse }
    (s.gsc.state = .faulted →
      ∀ c ∈ [Instr.claim m d, .relinquish m d, .attention m d, .controlIntake m words], refused c) ∧
    (s.cu.manager ≠ some m →
      ∀ c ∈ [Instr.counts m, .relinquish m d, .release m d, .attention m d, .reportHead m, .controlIntake m words,
        .windowReadback m w, .masterReadback m k], refused c) ∧
    (s.cu.manager.isSome = true → s.cu.manager ≠ some m → refused (.resetGate m d)))

/-! ### Ordered commands -/

/-- A row of an ordered command changes nothing unless a record of its command stands at the head of the queue, with a
place held for its RESULT, in STANDBY, ENABLED or QUIESCING (R33, R151; that the rows take no operands is log 8). -/
def Obligations.RowsActOnTheirRecordAlone : Prop :=
  ∀ (s : State) (cmd : Command), (∀ c rest, ¬AtHead cmd c rest s) → exec (commandRow cmd) s = .next s

/-- A record whose operands are out of range or name no value receives BAD OPERAND with detail 0, whatever the state of
its object, and changes nothing but the removal of its entry (R3, R151, R152 to R158, R182). The order of what the event
ends with is the model's choice (log 13). -/
def Obligations.BadOperandsChangeNothing : Prop :=
  ∀ (s : State) (c : ControlEntry) (rest : List Entry), AtHead c.command c rest s →
    let word (k : Nat) : Word := c.operands.getD (k - 1) 0
    let bits (k low width : Nat) : Nat := ((word k).extractLsb' low width).toNat
    (match c.command with
      | .loadWindow =>
        32 ≤ bits 1 0 8 ∨ bits 1 8 5 < 12 ∨ 26 < bits 1 8 5 ∨ (word 2).toNat % 2 ^ bits 1 8 5 ≠ 0 ∨
          bits 3 0 28 % 2 ^ bits 1 8 5 ≠ 0 ∨ 2 ^ 28 < bits 3 0 28 + 2 ^ bits 1 8 5 ∨ bits 1 16 2 = 3 ∨ 2 ≤ bits 1 19 2
      | .retireWindow => 32 ≤ bits 1 0 8
      | .modifyWindow => 32 ≤ bits 1 0 8 ∨ 2 ≤ bits 1 19 2
      | .thawWindow => 32 ≤ bits 1 0 8
      | .setMaster => 16 ≤ bits 1 0 8 ∨ 2 ≤ bits 1 8 2 ∨ 30 < bits 2 0 8 ∨ 8 < bits 2 8 8
      | .setTimers =>
        bits 1 0 16 < 8 ∨ 4096 < bits 1 0 16 ∨ bits 1 16 16 < 4 ∨ 1024 < bits 1 16 16 ∨ bits 2 0 16 < 1 ∨
          255 < bits 2 0 16 ∨ 1023 < bits 2 16 16
      | .setArbitration => 4 < bits 1 0 3 ∨ bits 1 8 8 < 8 ∨ 30 < bits 1 8 8
      | .enable => False
      | .quiesce => False
      | .fence => False) →
    ∃ t, exec (commandRow c.command) s = .next t ∧ SettlesTo (afterResult c rest .badOperand 0 s) t

/-- LOAD WINDOW with legal operands loads a FREE window: LIVE, not frozen, with the record's fields, discard count 0 and
no retire tag, and receives OK; on a LIVE or DRAINING window it receives BUSY and changes nothing (R3, R16, R152, R185).
The order of what the event ends with is the model's choice (log 13). -/
def Obligations.LoadWindowFillsAFreeWindow : Prop :=
  ∀ (s : State) (c : ControlEntry) (rest : List Entry) (a b d e : Word) (w : WindowId) (port : PortWidth)
    (policy : ErrorPolicy), AtHead .loadWindow c rest s → c.operands = [a, b, d, e] →
    let size := (a.extractLsb' 8 5).toNat
    let cardBase := d.extractLsb' 0 28
    (a.extractLsb' 0 8).toNat = w.val → 12 ≤ size → size ≤ 26 → b.toNat % 2 ^ size = 0 → cardBase.toNat % 2 ^ size = 0 →
    cardBase.toNat + 2 ^ size ≤ 2 ^ 28 →
    ((a.extractLsb' 16 2).toNat, port) ∈ [(0, PortWidth.bits8), (1, .bits16), (2, .bits32)] →
    ((a.extractLsb' 19 2).toNat, policy) ∈ [(0, ErrorPolicy.continues), (1, .freezes)] →
    (s.windows[w].state = .free → ∃ t, exec .loadWindow s = .next t ∧
      SettlesTo
        (afterResult c rest .ok 0 { s with windows := modAt s.windows w fun old =>
          ⟨.live, false, b, size, cardBase, port, a.getLsbD 18, policy, e.extractLsb' 0 16, e.extractLsb' 16 16,
            old.refCount, 0, none⟩ }) t) ∧
    (s.windows[w].state ≠ .free → ∃ t, exec .loadWindow s = .next t ∧ SettlesTo (afterResult c rest .busy 0 s) t)

/-- RETIRE WINDOW on a LIVE window makes it DRAINING with the record's tag, breaks a lock that stands on it with its
queued sequence entries marked void, withdraws the slots that name it (freed, or marked while FETCHING), and leaves it
FREE, with no report, where nothing names it any more; a quiesce that this completes is reported before the RESULT. The
detail holds the numbers of slots freed and marked and whether the window became FREE. A tenure that the gate held idle
under the lock ends in the same event, by a decision that counts the gate where it has a candidate once the record has
left the head. On another window it receives ALREADY (R4, R15, R17, R40, R67, R83, R84, R126, R131, R151, R153, R177).
The model's choices: a slot marked before counts as marked (log 20), a FETCHING locked slot given the release mark keeps
its locked flag (log 30), the void and frozen heads behind the record leave before that decision (log 32), and the order
of what the event ends with (log 13). -/
def Obligations.RetireWindowDrainsOrFrees : Prop :=
  ∀ (s : State) (c : ControlEntry) (rest : List Entry) (a : Word) (w : WindowId), AtHead .retireWindow c rest s →
    c.operands = [a] → (a.extractLsb' 0 8).toNat = w.val →
    (s.windows[w].state = .live → LockNamesSlot s → LockHoldsBus s → TenureLegal s →
      let onWindow : Bool := s.lock.state ≠ .free ∧ s.lock.window = some w
      let freed := (List.finRange 8).countP fun i =>
        s.slots[i].state ≠ .free ∧ s.slots[i].state ≠ .fetching ∧ s.slots[i].window = w
      let marked := (List.finRange 8).countP fun i => s.slots[i].state = .fetching ∧ s.slots[i].window = w
      let left := s.windows[w].refCount - freed
      let retiring := { s with windows := modAt s.windows w fun e =>
        { e with state := .draining, retireTag := some c.tag } }
      let broken := if onWindow then lockBrokenInTenure 1 retiring else retiring
      let withdrawn := slotsWithdrawn (fun i => broken.slots[i].state ≠ .free ∧ broken.slots[i].window = w) broken
      let x := if left = 0 then
          { withdrawn with windows := modAt withdrawn.windows w fun e =>
            { e with state := .free, frozen := false, retireTag := none } }
        else withdrawn
      let y := afterResult c (if onWindow then rest.map voided else rest) .ok
        (freed + 16 * marked + (if left = 0 then 256 else 0)) (quiesceEnded (windowsFreed x))
      let releasesIdle : Prop := onWindow = true ∧ s.lock.state = .owned ∧ s.cbc.access = none
      ∃ t, exec .retireWindow s = .next t ∧ (releasesIdle → AccessEndsTo y t) ∧ (¬releasesIdle → SettlesTo y t) ∧
        x.windows[w].refCount = left) ∧
    (s.windows[w].state ≠ .live → ∃ t, exec .retireWindow s = .next t ∧ SettlesTo (afterResult c rest .already 0 s) t)

/-- MODIFY WINDOW replaces the lockable flag, error policy and masks of a LIVE window, frozen or not, and receives OK;
on a FREE or DRAINING window it receives WRONG STATE. THAW WINDOW clears the frozen flag and the discard count of a
frozen LIVE or DRAINING window and receives OK with the former discard count as its detail; on one not frozen it
receives ALREADY, and on a FREE one WRONG STATE (R18, R21, R154, R155, R185). The order of what the event ends with is
the model's choice (log 13). -/
def Obligations.ModifyAndThawChangeAWindow : Prop :=
  ∀ (s : State) (c : ControlEntry) (rest : List Entry) (a : Word) (w : WindowId), (a.extractLsb' 0 8).toNat = w.val →
    let becomes (row : Instr) (status : Status) (detail : Nat) (x : State) : Prop :=
      ∃ t, exec row s = .next t ∧ SettlesTo (afterResult c rest status detail x) t
    (∀ (b : Word) (policy : ErrorPolicy), AtHead .modifyWindow c rest s → c.operands = [a, b] →
      ((a.extractLsb' 19 2).toNat, policy) ∈ [(0, ErrorPolicy.continues), (1, .freezes)] →
      (s.windows[w].state = .live → becomes .modifyWindow .ok 0 { s with windows := modAt s.windows w fun old =>
        { old with lockable := a.getLsbD 18, policy := policy, readMask := b.extractLsb' 0 16,
                   writeMask := b.extractLsb' 16 16 } }) ∧
      (s.windows[w].state ≠ .live → becomes .modifyWindow .wrongState 0 s)) ∧
    (AtHead .thawWindow c rest s → c.operands = [a] →
      (s.windows[w].state ≠ .free → s.windows[w].frozen = true →
        becomes .thawWindow .ok s.windows[w].discards { s with windows := modAt s.windows w fun old =>
          { old with frozen := false, discards := 0 } }) ∧
      (s.windows[w].state ≠ .free → s.windows[w].frozen = false → becomes .thawWindow .already 0 s) ∧
      (s.windows[w].state = .free → becomes .thawWindow .wrongState 0 s))

/-- SET MASTER writes the admission, the three limits and, with the clear flag, violation count 0, and receives OK with
the master id and its former admission in the detail. With admission OPEN nothing else changes. With admission BARRED a
lock it owns is broken with its queued sequence entries marked void, and the master's slots are withdrawn, their numbers
standing in the detail; its other entries stay; windows that this frees and a quiesce that this completes are reported
before the RESULT. A tenure that the gate held idle under the lock ends in the same event, by a decision that counts the
gate where it has a candidate once the record has left the head (R15, R40, R67, R83, R84, R104, R105, R126, R131, R151,
R156, R177). The model's choices: a slot marked before counts as marked (log 20), a FETCHING locked slot given the
release mark keeps its locked flag (log 30), the void and frozen heads behind the record leave before that decision (log
32), and the order of what the event ends with (log 13). -/
def Obligations.SetMasterWritesTheRecord : Prop :=
  ∀ (s : State) (c : ControlEntry) (rest : List Entry) (a b : Word) (m : MasterId), AtHead .setMaster c rest s →
    c.operands = [a, b] → (a.extractLsb' 0 8).toNat = m.val → (b.extractLsb' 0 8).toNat ≤ 30 →
    (b.extractLsb' 8 8).toNat ≤ 8 →
    let former := if s.masters[m].admission = .barred then 1 else 0
    let written (admission : Admission) : State :=
      { s with masters := modAt s.masters m fun old =>
        { old with
          admission := admission
          creditLimit := (b.extractLsb' 0 8).toNat
          readLimit := (b.extractLsb' 8 8).toNat
          barThreshold := (b.extractLsb' 16 8).toNat
          violations := if a.getLsbD 10 then 0 else old.violations } }
    ((a.extractLsb' 8 2).toNat = 0 → ∃ t, exec .setMaster s = .next t ∧
      SettlesTo (afterResult c rest .ok (m.val + 256 * former) (written .opened)) t) ∧
    ((a.extractLsb' 8 2).toNat = 1 → LockNamesSlot s → LockHoldsBus s → TenureLegal s →
      let owns : Bool := s.lock.state ≠ .free ∧ s.lock.owner = some m
      let freed := (List.finRange 8).countP fun i =>
        s.slots[i].state ≠ .free ∧ s.slots[i].state ≠ .fetching ∧ s.slots[i].key.master = m
      let marked := (List.finRange 8).countP fun i => s.slots[i].state = .fetching ∧ s.slots[i].key.master = m
      let broken := if owns then lockBrokenInTenure 3 (written .barred) else written .barred
      let withdrawn := slotsWithdrawn (fun i => broken.slots[i].state ≠ .free ∧ broken.slots[i].key.master = m) broken
      let y := afterResult c (if owns then rest.map voided else rest) .ok
        (m.val + 256 * former + 65536 * freed + 1048576 * marked) (quiesceEnded (windowsFreed withdrawn))
      let releasesIdle : Prop := owns = true ∧ s.lock.state = .owned ∧ s.cbc.access = none
      ∃ t, exec .setMaster s = .next t ∧ (releasesIdle → AccessEndsTo y t) ∧ (¬releasesIdle → SettlesTo y t) ∧
        withdrawn.masters[m].outReads = s.masters[m].outReads - freed ∧
        withdrawn.masters[m].outWrites = s.masters[m].outWrites)

/-- SET TIMERS in range writes all four limits and receives OK with detail 0; running timers keep the deadline they were
given, since nothing else is written (R138, R157, R185). The order of what the event ends with is the model's choice
(log 13). -/
def Obligations.SetTimersWritesFourLimits : Prop :=
  ∀ (s : State) (c : ControlEntry) (rest : List Entry) (a b : Word), AtHead .setTimers c rest s → c.operands = [a, b] →
    let readHold := (a.extractLsb' 0 16).toNat
    let lockHold := (a.extractLsb' 16 16).toNat
    let cardResponse := (b.extractLsb' 0 16).toNat
    let tenure := (b.extractLsb' 16 16).toNat
    8 ≤ readHold → readHold ≤ 4096 → 4 ≤ lockHold → lockHold ≤ 1024 → 1 ≤ cardResponse → cardResponse ≤ 255 →
    tenure ≤ 1023 → ∃ t, exec .setTimers s = .next t ∧
      SettlesTo
        (afterResult c rest .ok 0 { s with cu := ⟨s.cu.manager, s.cu.attention, readHold, lockHold, cardResponse, tenure⟩ })
        t

/-- SET ARBITRATION in range writes the park policy, the high-water mark and the enabled ports and receives OK with
detail 0. Under the gate's tenure or hold, and for an owner that stays enabled as it was, nothing else changes. In
PARKED a requester, such as a newly enabled port whose line is raised, is granted by a decision, and with none the grant
moves to the new park target. An owner in LOCKED that is disabled goes on in TENURE, and between tenures loses the grant
by a decision within the execution. An owner in TENURE that is newly enabled keeps its tenure (R128, R129, R130, R132,
R158, R185). That PARKED takes one decision over all requesters is log 12; that the owner's hold line, where it is
raised then, is heeded or not is a free choice (log 11). The order of what the event ends with is the model's choice
(log 13). -/
def Obligations.SetArbitrationWritesTheSettings : Prop :=
  ∀ (s : State) (c : ControlEntry) (rest : List Entry) (a : Word) (policy : ParkPolicy),
    AtHead .setArbitration c rest s → c.operands = [a] →
    ((a.extractLsb' 0 3).toNat, policy) ∈
      [(0, ParkPolicy.last), (1, .gate), (2, .portA), (3, .portB), (4, .portC)] →
    let mark := (a.extractLsb' 8 8).toNat
    let ports : PortSet := ⟨a.getLsbD 16, a.getLsbD 17, a.getLsbD 18⟩
    8 ≤ mark → mark ≤ 30 →
    let written := { s with arb.policy := policy, arb.highWater := mark, arb.enabled := ports }
    let target := match policy with
      | .last => s.arb.pointer
      | .gate => .gate
      | .portA => .port .a
      | .portB => .port .b
      | .portC => .port .c
    let becomes (x : State) : Prop :=
      ∃ t, exec .setArbitration s = .next t ∧ SettlesTo (afterResult c rest .ok 0 x) t
    (s.arb.state = .tenure .gate ∨ s.arb.state = .locked .gate true → becomes written) ∧
    (∀ p, s.arb.state = .tenure (.port p) → (portOf ports p = true → portOf s.arb.enabled p = true) → becomes written) ∧
    (∀ p inTenure, s.arb.state = .locked (.port p) inTenure →
      (portOf ports p = true → becomes written) ∧
      (portOf ports p = false → inTenure = true → becomes { written with arb.state := .tenure (.port p) })) ∧
    (∀ owner, s.arb.state = .parked owner → s.cbc.request = false →
      (∀ p, portOf ports p = true → portOf s.lines.request p = false) →
      becomes { written with
        arb.state := .parked (match target with
          | .gate => .gate
          | .port p => if portOf ports p then .port p else .gate)
        arb.overstay := none }) ∧
    (∀ owner, s.arb.state = .parked owner →
      (∀ r, Wins written r → becomes (granted r written)) ∧
      ((∀ r, ¬Requests written r) → becomes (parkedAtTarget written))) ∧
    (∀ p, s.arb.state = .locked (.port p) false → portOf ports p = false →
      (∀ r, Wins written r → becomes (granted r written)) ∧
      ((∀ r, ¬Requests written r) → becomes (parkedAtTarget written))) ∧
    (∀ p, s.arb.state = .tenure (.port p) → portOf ports p = true → portOf s.arb.enabled p = false →
      (portOf s.lines.hold p = false → becomes written) ∧
      (portOf s.lines.hold p = true →
        becomes { written with freeCount := s.freeCount + 1 } ∨
        becomes { written with freeCount := s.freeCount + 1, arb.state := .locked (.port p) true }))

/-- ENABLE makes a STANDBY gate ENABLED with detail 0, cancels a quiesce with detail 1, and receives ALREADY in ENABLED;
QUIESCE in ENABLED makes the gate STANDBY at once where no data entry, slot or lock is left, and QUIESCING with the
record's tag and status STARTED otherwise; in STANDBY and QUIESCING it receives ALREADY (R159, R160, R176, R177). The
order of what the event ends with is the model's choice (log 13). -/
def Obligations.EnableAndQuiesceMoveTheGate : Prop :=
  ∀ (s : State) (c : ControlEntry) (rest : List Entry),
    let becomes (row : Instr) (status : Status) (detail : Nat) (gate : GateController) : Prop :=
      ∃ t, exec row s = .next t ∧ SettlesTo (afterResult c rest status detail { s with gsc := gate }) t
    (AtHead .enable c rest s →
      (s.gsc.state = .standby → becomes .enable .ok 0 ⟨.enabled, .none, none⟩) ∧
      (s.gsc.state = .enabled → becomes .enable .already 0 s.gsc) ∧
      (s.gsc.state = .quiescing → becomes .enable .ok 1 ⟨.enabled, .none, none⟩)) ∧
    (AtHead .quiesce c rest s →
      let slotsUsed := (List.finRange 8).countP fun i => s.slots[i].state ≠ .free
      let lockCode := match s.lock.state with
        | .free => 0
        | .pending => 1
        | .owned => 2
      (s.gsc.state = .enabled →
        (rest.countP isData = 0 ∧ slotsUsed = 0 ∧ s.lock.state = .free → becomes .quiesce .ok 0 ⟨.standby, .none, none⟩) ∧
        (¬(rest.countP isData = 0 ∧ slotsUsed = 0 ∧ s.lock.state = .free) →
          becomes .quiesce .started (rest.countP isData + 256 * slotsUsed + 4096 * lockCode)
            ⟨.quiescing, .none, some c.tag⟩)) ∧
      (s.gsc.state ≠ .enabled → becomes .quiesce .already 0 s.gsc))

/-- FENCE changes no state of the gate and receives OK with the length of the queue after its own entry's removal as its
detail. With an access in flight the card bus does nothing more in the event: the void and frozen heads behind the
record leave, windows brought to 0 are freed with their reports, a quiesce completes with its report, and a further
record at the head asks for its place (R15, R20, R34, R161, R167, R177). The order of these effects at the end of the
event, and with it which report takes the last free place, is the model's choice (log 13). -/
def Obligations.FenceReportsTheQueueLength : Prop :=
  ∀ (s : State) (c : ControlEntry) (rest : List Entry), AtHead .fence c rest s →
    (∃ t, exec .fence s = .next t ∧ SettlesTo (afterResult c rest .ok rest.length s) t) ∧
    (s.cbc.access.isSome = true →
      exec .fence s = .next (eventOver (headsGone (afterResult c rest .ok rest.length s))))

/-! ### Accesses on the card bus -/

/-- A piece of an access ends ACK and pieces remain. A drain goes on in the same event with the next piece that has an
enabled lane, the beats begun on the way having been tested; a fetch places the lanes returned in its beat's word and
goes on with the next piece. The operation's address, size, lanes, data and response timer are as the rules give, and
nothing else changes (R110, R111, R112, R113, R114). That an operation shows 00h as the data of lanes it does not drive,
and of a read, is the model's choice (log 26). -/
def Obligations.AnAccessGoesOnWithItsNextPiece : Prop :=
  (∀ (s : State) (a : Access) (p : PieceOp) (d : DataEntry) (rest : List Entry) (n next : Nat) (b : Beat) (data : Word),
    Draining s a p d rest n → a.stop = false →
    let per := piecesPerBeat a.unit a.portWidth
    n < next → next < d.beats.length * per → (∀ j, n < j → j < next → drainLanes a d j = 0) →
    drainLanes a d next ≠ 0 → d.beats[next / per]? = some b →
    (∀ i x, n < i * per → i * per ≤ next → d.beats[i]? = some x → beatAgrees x = true) →
    exec (.pieceEnd (.ack data)) s = .next
      { s with cbc.access := some { a with
          bytes := a.bytes + laneCount p.op.enables
          beat := next / per
          piece := next % per
          op := some
            { op :=
                { addr := a.cardAddr +
                    BitVec.ofNat 28 (next / per * unitBytes a.unit + next % per * min (unitBytes a.unit) (portBytes a.portWidth))
                  size := unitOfBytes (min (unitBytes a.unit) (portBytes a.portWidth))
                  write := true
                  enables := drainLanes a d next
                  data := mergeLanes 0 b.data (drainLanes a d next) }
              timer := ⟨s.timebase, s.cu.cardResponse⟩ } } }) ∧
  (∀ (s : State) (a : Access) (p : PieceOp) (i : SlotId) (data : Word), Fetching s a p → a.slot = some i →
    ¬LastPiece a →
    let per := piecesPerBeat a.unit a.portWidth
    let beat := if a.piece + 1 < per then a.beat else a.beat + 1
    let piece := if a.piece + 1 < per then a.piece + 1 else 0
    let addr := a.cardAddr +
      BitVec.ofNat 28 (beat * unitBytes a.unit + piece * min (unitBytes a.unit) (portBytes a.portWidth))
    exec (.pieceEnd (.ack data)) s = .next
      { s with cbc.access := some { a with
          gathered := gatheredWith a p data
          beat := beat
          piece := piece
          op := some
            { op :=
                { addr := addr
                  size := unitOfBytes (min (unitBytes a.unit) (portBytes a.portWidth))
                  write := false
                  enables := laneMask (addr.toNat % 4) (min (unitBytes a.unit) (portBytes a.portWidth))
                  data := 0 }
              timer := ⟨s.timebase, s.cu.cardResponse⟩ } } })

/-- A drain whose last piece with an enabled lane ends ACK is performed: the performed counter rises by one, the
unlocked READY slots its range overlaps are STALE, and the entry leaves with its claims. The drain of the CLOSE entry
that stopped the lock's timer also ends the lock without a break: the lock is FREE, the gate's hold is gone, and an
uncollected locked slot outlives it as an ordinary READY slot with a hold timer. Then the gate's tenure goes on under
the lock hold or ends (R36, R37, R38, R41, R56, R64, R82, R111, R114, R118, R131). The order of what the event ends with
is the model's choice (log 13). -/
def Obligations.APerformedDrainLeavesTheQueue : Prop :=
  ∀ (s : State) (a : Access) (p : PieceOp) (d : DataEntry) (rest : List Entry) (n : Nat) (data : Word),
    Draining s a p d rest n → (a.stop = false ∨ LastPiece a) → TenureLegal s → LockHoldsBus s →
    let per := piecesPerBeat a.unit a.portWidth
    (∀ j, n < j → j < d.beats.length * per → drainLanes a d j = 0) →
    (∀ i x, n < i * per → d.beats[i]? = some x → beatAgrees x = true) →
    ∃ t, exec (.pieceEnd (.ack data)) s = .next t ∧
      AccessEndsTo (drainPerformed d s) t

/-- A piece of a drain that ends TARGET ERROR, or NO RESPONSE at its timer's expiry, cuts the drain off: the entry
counts as dropped and leaves with its claims and its staleness test, a CLOSE drain ends its lock first, WRITE LOST
reports the bytes performed and the failing piece's address, a window of policy FREEZE is frozen with its report, and a
lock that then still stands on it is broken with cause FROZEN. A drain with the stop mark ends after its current piece:
with pieces left it is dropped, without a WRITE LOST report, and a CLOSE drain ends its lock (R19, R36, R37, R38, R39,
R82, R83, R85, R113, R114, R115, R124). The order of what the event ends with is the model's choice (log 13). -/
def Obligations.ACutOffDrainIsReported : Prop :=
  ∀ (s : State) (a : Access) (p : PieceOp) (d : DataEntry) (rest : List Entry) (n : Nat), Draining s a p d rest n →
    TenureLegal s → LockHoldsBus s →
    let closed := closeTaken d (madeStale d { s with pwq.dropped := s.pwq.dropped + 1 })
    (∀ (command : Instr) (code : Nat),
      (command = .pieceEnd .targetError ∧ code = 0) ∨
        (command = .noResponse ∧ code = 1 ∧ p.timer.limit ≤ (s.timebase - p.timer.start).toNat) →
      let address : Option Word := some (p.op.addr.setWidth 32)
      let lost := offered ⟨.writeLost, none, none, some d.master, some d.window, address,
        BitVec.ofNat 32 (a.bytes + 256 * code)⟩ closed
      let frozen :=
        offered ⟨.windowFrozen, none, none, some d.master, some d.window, address, BitVec.ofNat 32 (256 * code)⟩
          { lost with windows := modAt lost.windows d.window fun e => { e with frozen := true } }
      let ended :=
        if d.names = true ∧ s.windows[d.window].policy = .freezes ∧ s.windows[d.window].frozen = false then
          (if closed.lock.window = some d.window then lockBroken 2 frozen else frozen)
        else lost
      ∃ t, exec command s = .next t ∧ AccessEndsTo (entryGone d ended) t) ∧
    (a.stop = true → ¬LastPiece a →
      ∀ data, ∃ t, exec (.pieceEnd (.ack data)) s = .next t ∧ AccessEndsTo (entryGone d closed) t)

/-- A fetch ends. With its last piece ACK: a slot with the release mark is freed; an ordinary slot is READY with its
words, new check codes and a hold timer; the locked slot that the PENDING lock awaits is READY without a timer, and the
lock is OWNED with its hold timer and holds the card bus. With a piece TARGET ERROR, or NO RESPONSE at its timer's
expiry: a slot with the release mark is freed without a report; any other is FAILED with a hold timer and no data, READ
FAILED reports the failing piece's address, and where the PENDING lock awaited it the lock is FREE without a break and
its queued sequence entries are void. A detached fetch gives its outcome to no slot (R59, R60, R61, R70, R77, R78, R112,
R113, R114, R118, R124, R131). The order of what the event ends with is the model's choice (log 13). -/
def Obligations.AFetchEndsInItsSlot : Prop :=
  ∀ (s : State) (a : Access) (p : PieceOp), Fetching s a p → TenureLegal s →
    let becomes (command : Instr) (x : State) : Prop :=
      ∃ t, exec command s = .next t ∧ AccessEndsTo { x with cbc.access := none } t
    (∀ answer, a.slot = none → becomes (.pieceEnd answer) s) ∧
    (a.slot = none → Due s.timebase p.timer → becomes .noResponse s) ∧
    (∀ (i : SlotId) (data : Word), a.slot = some i → LastPiece a → s.slots[i].state = .fetching →
      let words := (gatheredWith a p data).map withCode
      (s.slots[i].releaseMark = true → becomes (.pieceEnd (.ack data)) (slotFreed i s)) ∧
      (s.slots[i].releaseMark = false → s.slots[i].locked = false →
        becomes (.pieceEnd (.ack data)) { s with slots := modAt s.slots i fun e =>
          { e with state := .ready, data := some words, hold := some ⟨s.timebase, s.cu.readHold⟩ } }) ∧
      (s.slots[i].releaseMark = false → s.slots[i].locked = true → s.lock.state = .pending → s.lock.slot = some i →
        becomes (.pieceEnd (.ack data)) { s with
          slots := modAt s.slots i fun e => { e with state := .ready, data := some words }
          lock := { s.lock with state := .owned, hold := some ⟨s.timebase, s.cu.lockHold⟩ }
          arb.lockHold := true
          arb.state := .locked .gate true })) ∧
    (∀ (i : SlotId) (command : Instr) (code : Nat), a.slot = some i → s.slots[i].state = .fetching →
      (command = .pieceEnd .targetError ∧ code = 0) ∨ (command = .noResponse ∧ code = 1 ∧ Due s.timebase p.timer) →
      let failed := offered
        ⟨.readFailed, none, none, some s.slots[i].key.master, some s.slots[i].window, some (p.op.addr.setWidth 32),
          BitVec.ofNat 32 (256 * code + 65536 * i.val)⟩
        { s with slots := modAt s.slots i fun e =>
          { e with state := .failed, data := none, locked := false, hold := some ⟨s.timebase, s.cu.readHold⟩ } }
      (s.slots[i].releaseMark = true → becomes command (slotFreed i s)) ∧
      (s.slots[i].releaseMark = false → ¬(s.lock.state = .pending ∧ s.lock.slot = some i) → becomes command failed) ∧
      (s.slots[i].releaseMark = false → s.lock.state = .pending → s.lock.slot = some i →
        becomes command { failed with lock := Lock.powerOn, pwq.entries := s.pwq.entries.map voided }))

/-- The choice and start of the next access. Where the gate wins the decision at the end of a resident's tenure, the
slot that comes first in the age order of those that may be fetched is FETCHING with its first piece on the card bus;
with no such slot the drain of the head begins with its first piece. In a tenure held idle, the drain of a CLOSE entry
that comes to the head stops the lock's timer; where the timer is due at that moment, either that happens, or the lock
is broken with cause TIMEOUT while the drain goes on: the choice is free (log 33). In both places the drain of an entry
with no enabled lane, whose beats pass their checks, ends performed in the event of its start with no card-bus
operation, and the tenure is settled then (R35, R36, R38, R40, R58, R81, R82, R111, R112, R117, R118, R128). That an
operation shows 00h as the data of lanes it does not drive, and of a read, is the model's choice (log 26), and so is the
order of what the event ends with (log 13). -/
def Obligations.TheNextAccessIsChosen : Prop :=
  (∀ (s : State) (p : Port), s.arb.state = .tenure (.port p) → portOf s.lines.request p = true → Settled s →
    LockHoldsBus s → TenureLegal s →
    let decided := { s with lines.request := setPort s.lines.request p false }
    Wins decided .gate →
    (∀ i, NextSlot s i → exec (.residentRequestDrop p) s = .next (fetchBegun i (granted .gate decided))) ∧
    (∀ d next b, NoSlot s → Offers s d → DrainStarts d next b →
      exec (.residentRequestDrop p) s = .next (drainBegun d next b (granted .gate decided))) ∧
    (∀ d, NoSlot s → Offers s d → DrainSkips d → ∃ t, exec (.residentRequestDrop p) s = .next t ∧
      AccessEndsTo (drainPerformed d (granted .gate decided)) t)) ∧
  (∀ (s : State) (c : ControlEntry) (d : DataEntry) (rest : List Entry) (next : Nat) (b : Beat),
    AtHead .fence c (.data d :: rest) s → LockHoldsBus s → TenureLegal s → s.cbc.access = none →
    s.lock.state = .owned → d.seq = .close → d.void = false →
    ¬(d.names = true ∧ s.windows[d.window].frozen = true) → DrainStarts d next b →
    let x := afterResult c (.data d :: rest) .ok (rest.length + 1) s
    NoSlot x →
    (¬ClosesLate d s → exec .fence s = .next (eventOver (drainBegun d next b { x with lock.hold := none }))) ∧
    (ClosesLate d s →
      let chosen := { x with freeCount := s.freeCount + 1 }
      exec .fence s = .next (eventOver (drainBegun d next b { chosen with lock.hold := none })) ∨
      exec .fence s = .next (eventOver (drainBegun d next b
        (lockBroken 0 { chosen with cbc.access := some (drainAccess d) }))))) ∧
  (∀ (s : State) (c : ControlEntry) (d : DataEntry) (rest : List Entry),
    AtHead .fence c (.data d :: rest) s → LockHoldsBus s → TenureLegal s → s.cbc.access = none →
    s.lock.state = .owned → d.void = false → ¬(d.names = true ∧ s.windows[d.window].frozen = true) → DrainSkips d →
    let x := afterResult c (.data d :: rest) .ok (rest.length + 1) s
    NoSlot x →
    let chosen := { x with freeCount := s.freeCount + 1 }
    ∃ t, exec .fence s = .next t ∧
      (¬ClosesLate d s → AccessEndsTo (drainPerformed d (closeBegun d x)) t) ∧
      (ClosesLate d s → AccessEndsTo (drainPerformed d (closeBegun d chosen)) t ∨
        AccessEndsTo (drainPerformed d (lockBroken 0 { chosen with cbc.access := some (drainAccess d) })) t))

/-! ### Timers -/

/-- A timer's row changes nothing when its timer does not run or is not due, and an answer of the card bus with no
operation outstanding is ignored (R1, R113; that an expiry is a row of its own is log 9). -/
def Obligations.NothingDueChangesNothing : Prop :=
  ∀ (s : State) (i : SlotId) (answer : TargetAnswer),
    let due (timer : Timer) : Prop := timer.limit ≤ (s.timebase - timer.start).toNat
    ((∀ timer, s.slots[i].hold = some timer → ¬due timer) → exec (.holdTimerExpiry i) s = .next s) ∧
    ((∀ timer, s.lock.hold = some timer → ¬due timer) → exec .lockHoldTimerExpiry s = .next s) ∧
    ((∀ timer, s.arb.overstay = some timer → ¬due timer) → exec .overstayTimerExpiry s = .next s) ∧
    ((∀ a p, s.cbc.access = some a → a.op = some p → ¬due p.timer) → exec .noResponse s = .next s) ∧
    ((∀ a, s.cbc.access = some a → a.op = none) → exec (.pieceEnd answer) s = .next s)

/-- A slot's hold timer expires: a READY or STALE slot is freed with READ ABANDONED, a FAILED one without a report; with
an access in flight the event ends there but for windows that this frees, with WINDOW FREED and the retire tag, and a
quiesce that this completes, with QUIESCED and its tag. A resident's overstay timer expires: it ends with one RESIDENT
OVERSTAY report of its port and limit, and the resident keeps the grant (R15, R62, R63, R66, R134, R177, R186). The
order of what the event ends with is the model's choice (log 13). -/
def Obligations.HoldAndOverstayTimersExpire : Prop :=
  (∀ (s : State) (i : SlotId) (timer : Timer), s.slots[i].hold = some timer →
    timer.limit ≤ (s.timebase - timer.start).toNat →
    let abandoned (stale : Nat) : ReportBody :=
      ⟨.readAbandoned, none, none, some s.slots[i].key.master, some s.slots[i].window, some s.slots[i].key.addr,
        BitVec.ofNat 32 (65536 * i.val + 1048576 * stale)⟩
    let becomes (x : State) : Prop :=
      (∃ t, exec (.holdTimerExpiry i) s = .next t ∧ SettlesTo x t) ∧
      (s.cbc.access.isSome = true → HeadSettled s →
        exec (.holdTimerExpiry i) s = .next (quiesceEnded (windowsFreed x)))
    (s.slots[i].state = .ready → becomes (slotFreed i (offered (abandoned 0) s))) ∧
    (s.slots[i].state = .stale → becomes (slotFreed i (offered (abandoned 1) s))) ∧
    (s.slots[i].state = .failed → becomes (slotFreed i s))) ∧
  (∀ (s : State) (timer : Timer) (p : Port) (inTenure : Bool), s.arb.overstay = some timer →
    timer.limit ≤ (s.timebase - timer.start).toNat →
    (s.arb.state = .tenure (.port p) ∨ s.arb.state = .locked (.port p) inTenure) →
    let code := match p with
      | .a => 1
      | .b => 2
      | .c => 3
    exec .overstayTimerExpiry s = .next
      (offered
        ⟨.residentOverstay, none, none, none, none, none, BitVec.ofNat 32 (code + 65536 * timer.limit)⟩
        { s with arb.overstay := none }))

/-- The lock's hold timer expires: the lock is broken with cause TIMEOUT. It becomes FREE, the hold on the card bus is
gone, its uncollected slot is freed, the sequence entries whose drain has not begun are void, the owner's note names the
window, and LOCK BROKEN is offered with their number. An access in flight goes on in TENURE, and a tenure held idle ends
in the same event by a decision (R40, R67, R76, R80, R81, R84, R85, R118, R126, R131). The order of what the event ends
with is the model's choice (log 13). -/
def Obligations.LockTimeoutBreaksTheLock : Prop :=
  ∀ (s : State) (timer : Timer), s.lock.hold = some timer → Due s.timebase timer → s.lock.state = .owned →
    LockHoldsBus s → TenureLegal s →
    ∃ t, exec .lockHoldTimerExpiry s = .next t ∧
      (s.cbc.access.isSome = true → SettlesTo (lockBrokenInTenure 0 s) t) ∧
      (s.cbc.access = none → AccessEndsTo (lockBrokenInTenure 0 s) t)

/-! ### Residents and the arbiter -/

/-- A decision grants the gate when its request is urgent, and else the first requester in the rotation after the
pointer, whose tenure then begins; with no requester the grant is parked at the park target (R42, R128, R129, R133). -/
def Obligations.DecisionsFollowTheRotation : Prop :=
  ∀ s : State,
    (∀ r, winner s = some r ↔ Wins s r) ∧ (winner s = none ↔ ∀ r, ¬Requests s r) ∧
    (∀ r, Wins s r → decision s = granted r s) ∧ ((∀ r, ¬Requests s r) → decision s = parkedAtTarget s)

/-- The residents' request and hold lines. A line already at its level changes nothing. A raised request of a disabled
port changes its line alone; of the parked owner, or in PARKED with nobody else requesting, it begins the port's tenure;
in PARKED with another owner it is a decision; of the owner of LOCKED between tenures, a new tenure; in a tenure, in
LOCKED else and in STOPPED it waits. A dropped request of the port in tenure is a decision, or leaves LOCKED between
tenures; a raised hold of the enabled port in tenure makes LOCKED; a dropped hold in LOCKED gives TENURE, or a decision
between tenures (R126, R127, R128, R129, R130). That a line already at its level changes nothing is the model's choice
(log 29). The order of what the event ends with is the model's choice (log 13). -/
def Obligations.ResidentLinesMoveTheGrant : Prop :=
  ∀ (s : State) (p : Port),
    let request (on : Bool) : State := { s with lines.request := setPort s.lines.request p on }
    let hold (on : Bool) : State := { s with lines.hold := setPort s.lines.hold p on }
    let becomes (c : Instr) (x : State) : Prop := ∃ t, exec c s = .next t ∧ SettlesTo x t
    (portOf s.lines.request p = true → exec (.residentRequestRaise p) s = .next s) ∧
    (portOf s.lines.request p = false →
      (portOf s.arb.enabled p = false → exec (.residentRequestRaise p) s = .next (request true)) ∧
      (portOf s.arb.enabled p = true →
        (s.arb.state = .parked (.port p) → becomes (.residentRequestRaise p) (granted (.port p) (request true))) ∧
        (∀ owner, s.arb.state = .parked owner → (∀ r, ¬Requests s r) →
          becomes (.residentRequestRaise p) (granted (.port p) (request true))) ∧
        (∀ owner r, s.arb.state = .parked owner → owner ≠ .port p → Wins (request true) r →
          becomes (.residentRequestRaise p) (granted r (request true))) ∧
        (s.arb.state = .stopped → becomes (.residentRequestRaise p) (request true)) ∧
        (∀ owner, s.arb.state = .tenure owner → becomes (.residentRequestRaise p) (request true)) ∧
        (∀ owner inTenure, s.arb.state = .locked owner inTenure → owner ≠ .port p ∨ inTenure = true →
          becomes (.residentRequestRaise p) (request true)) ∧
        (s.arb.state = .locked (.port p) false →
          becomes (.residentRequestRaise p) { request true with arb.state := .locked (.port p) true }))) ∧
    (portOf s.lines.request p = false → exec (.residentRequestDrop p) s = .next s) ∧
    (portOf s.lines.request p = true →
      (s.arb.state = .tenure (.port p) →
        (∀ r, Wins (request false) r → becomes (.residentRequestDrop p) (granted r (request false))) ∧
        ((∀ r, ¬Requests (request false) r) → becomes (.residentRequestDrop p) (parkedAtTarget (request false)))) ∧
      (s.arb.state = .locked (.port p) true →
        exec (.residentRequestDrop p) s = .next { request false with arb.state := .locked (.port p) false }) ∧
      (s.arb.state ≠ .tenure (.port p) → s.arb.state ≠ .locked (.port p) true →
        exec (.residentRequestDrop p) s = .next (request false))) ∧
    (portOf s.lines.hold p = true → exec (.residentHoldRaise p) s = .next s) ∧
    (portOf s.lines.hold p = false →
      (s.arb.state = .tenure (.port p) → portOf s.arb.enabled p = true →
        exec (.residentHoldRaise p) s = .next { hold true with arb.state := .locked (.port p) true }) ∧
      (s.arb.state ≠ .tenure (.port p) ∨ portOf s.arb.enabled p = false →
        exec (.residentHoldRaise p) s = .next (hold true))) ∧
    (portOf s.lines.hold p = false → exec (.residentHoldDrop p) s = .next s) ∧
    (portOf s.lines.hold p = true →
      (s.arb.state = .locked (.port p) true →
        exec (.residentHoldDrop p) s = .next { hold false with arb.state := .tenure (.port p) }) ∧
      (s.arb.state = .locked (.port p) false →
        (∀ r, Wins (hold false) r → becomes (.residentHoldDrop p) (granted r (hold false))) ∧
        ((∀ r, ¬Requests (hold false) r) → becomes (.residentHoldDrop p) (parkedAtTarget (hold false)))) ∧
      ((∀ inTenure, s.arb.state ≠ .locked (.port p) inTenure) →
        exec (.residentHoldDrop p) s = .next (hold false)))

/-- A resident's write that ends on the card bus makes STALE each READY slot that is not locked and whose byte range
overlaps it, and changes nothing else; a port that is not in a tenure makes no write (R38, R64, R65, R119; log 22). -/
def Obligations.ResidentWritesMakeSlotsStale : Prop :=
  ∀ (s : State) (p : Port) (addr : CardAddr) (size : BeatUnit), SlotsLegal s →
    (s.arb.state = .tenure (.port p) ∨ s.arb.state = .locked (.port p) true →
      ∃ slots : Vector Slot 8, exec (.residentWriteObserved p addr size) s = .next { s with slots := slots } ∧
        ∀ i : SlotId,
          let e := s.slots[i]
          let overlaps := ∃ byte : Nat,
            (e.cardAddr.toNat ≤ byte ∧ byte < e.cardAddr.toNat + e.key.beats * unitBytes e.key.unit) ∧
            (addr.toNat ≤ byte ∧ byte < addr.toNat + unitBytes size)
          (e.state = .ready ∧ e.locked = false ∧ overlaps → slots[i] = { e with state := .stale }) ∧
          (¬(e.state = .ready ∧ e.locked = false ∧ overlaps) → slots[i] = e)) ∧
    (s.arb.state ≠ .tenure (.port p) → s.arb.state ≠ .locked (.port p) true →
      exec (.residentWriteObserved p addr size) s = .next s)

/-! ### Laws that every event keeps -/

/-- At all times the accepted counter equals the performed counter plus the dropped counter plus the data count, on
wrapping counters: every step keeps the law, whatever command it executes (R41). -/
def Obligations.CountersAgreeAfterEveryEvent : Prop :=
  ∀ s t : State, CountersAgree s → step s = .next t → CountersAgree t

/-- Every event keeps the queue within its places and the claims equal to what is queued: each master's outstanding
writes and reads, and each window's reference count (R14, R26, R99). -/
def Obligations.ClaimsAgreeAfterEveryEvent : Prop :=
  ∀ s t : State, QueueFits s → WritesAgree s → ReadsAgree s → RefsAgree s → step s = .next t →
    QueueFits t ∧ WritesAgree t ∧ ReadsAgree t ∧ RefsAgree t

/-- Every event keeps the laws of the report queue and the service line: the places, the consecutive sequence numbers,
WAITING only with sixteen reports, and the line asserted exactly while attention is on and a report is stored (R163,
R165, R166, R167, R169). -/
def Obligations.ReportLawsHoldAfterEveryEvent : Prop :=
  ∀ s t : State, ReportsFit s → ReportsConsecutive s → WaitingMeansFull s → LineFollows s →
    step s = .next t → ReportsFit t ∧ ReportsConsecutive t ∧ WaitingMeansFull t ∧ LineFollows t

/-- Every event keeps the gate state's laws: RESET exactly while a reset is asserted, with every block held; every slot
and the lock FREE in RESET, STANDBY and FAULTED; a fault cause in FAULTED only and a quiesce tag in QUIESCING only
(R173, R174, R175). -/
def Obligations.GateStateLawsHoldAfterEveryEvent : Prop :=
  ∀ s t : State, ResetWhileAsserted s → HeldInReset s → IdleWhenClosed s → GateRecordLegal s →
    step s = .next t → ResetWhileAsserted t ∧ HeldInReset t ∧ IdleWhenClosed t ∧ GateRecordLegal t

/-- Every event keeps the slots' laws: the fields that each state makes present, keys of 1 to 16 beats, no two slots that
are not FREE with one key, and an age order that holds each non-FREE slot once (R47, R48, R88, R94). -/
def Obligations.SlotLawsHoldAfterEveryEvent : Prop :=
  ∀ s t : State, SlotsLegal s → AgeOrderLegal s → KeysDistinct s → step s = .next t →
    SlotsLegal t ∧ AgeOrderLegal t ∧ KeysDistinct t

/-- Every event keeps the lock's, the card bus's and the timers' laws: the lock record's fields, the slot it names, its
window LIVE and not frozen, the gate's hold and LOCKED exactly while it is OWNED, an access in flight in a tenure of the
gate only, and no timer past its limit: it expires by the tick after the one that reaches its deadline, and an overstay
timer runs for the resident that owns the grant only (R1, R71, R72, R80, R109, R114, R127, R131, R133). -/
def Obligations.LockAndBusLawsHoldAfterEveryEvent : Prop :=
  ∀ s t : State, Lawful s → step s = .next t →
    LockRecordLegal t ∧ LockNamesSlot t ∧ LockedWindowLive t ∧ LockHoldsBus t ∧ TenureLegal t ∧ TimersOnTime t

/-- Every event keeps the windows' and the settings' laws: a FREE window not frozen and not named, a loaded window's
geometry, a retire tag in DRAINING only, and every setting in its range (R2, R3, R4, R98, R125, R138). -/
def Obligations.WindowAndSettingLawsHoldAfterEveryEvent : Prop :=
  ∀ s t : State, Lawful s → step s = .next t → WindowsLegal t ∧ SettingsLegal t

/-- Every event leaves nothing undone: the head of the queue is in drain, offered, or a control entry that has asked for
its place; no DRAINING window is unnamed; no quiesce is ready to complete; without a tenure the gate requests the bus
exactly while it has a candidate; and a tenure with no access in flight is held under the lock hold, with no candidate
(R15, R32, R116, R117, R118, R167, R177). -/
def Obligations.EveryEventLeavesNothingUndone : Prop :=
  ∀ s t : State, Lawful s → step s = .next t → Settled t ∧ RequestFollows t ∧ IdleTenureHeld t

end
end

