-- ==== Sys2Proof/Laws/State.lean ====
section
/-! SUPPORT. One lemma per operation and per field that the operation leaves as it was, so that no proof unfolds a
record update. -/

namespace Sys2Proof.Machine

/-! `driveLine` -/

@[simp] theorem driveLine_timebase (s : State) : (driveLine s).timebase = s.timebase := rfl
@[simp] theorem driveLine_porAsserted (s : State) : (driveLine s).porAsserted = s.porAsserted := rfl
@[simp] theorem driveLine_cardAsserted (s : State) : (driveLine s).cardAsserted = s.cardAsserted := rfl
@[simp] theorem driveLine_ti_slotNumber (s : State) : (driveLine s).ti.slotNumber = s.ti.slotNumber := rfl
@[simp] theorem driveLine_ti_answer (s : State) : (driveLine s).ti.answer = s.ti.answer := rfl
@[simp] theorem driveLine_windows (s : State) : (driveLine s).windows = s.windows := rfl
@[simp] theorem driveLine_masters (s : State) : (driveLine s).masters = s.masters := rfl
@[simp] theorem driveLine_pwq (s : State) : (driveLine s).pwq = s.pwq := rfl
@[simp] theorem driveLine_slots (s : State) : (driveLine s).slots = s.slots := rfl
@[simp] theorem driveLine_ageOrder (s : State) : (driveLine s).ageOrder = s.ageOrder := rfl
@[simp] theorem driveLine_lock (s : State) : (driveLine s).lock = s.lock := rfl
@[simp] theorem driveLine_cbc (s : State) : (driveLine s).cbc = s.cbc := rfl
@[simp] theorem driveLine_arb (s : State) : (driveLine s).arb = s.arb := rfl
@[simp] theorem driveLine_lines (s : State) : (driveLine s).lines = s.lines := rfl
@[simp] theorem driveLine_cu (s : State) : (driveLine s).cu = s.cu := rfl
@[simp] theorem driveLine_rq (s : State) : (driveLine s).rq = s.rq := rfl
@[simp] theorem driveLine_gsc (s : State) : (driveLine s).gsc = s.gsc := rfl
@[simp] theorem driveLine_freeCount (s : State) : (driveLine s).freeCount = s.freeCount := rfl
@[simp] theorem driveLine_pending (s : State) : (driveLine s).pending = s.pending := rfl

/-! `storeReport` -/

@[simp] theorem storeReport_timebase (b : ReportBody) (s : State) : (storeReport b s).timebase = s.timebase := rfl
@[simp] theorem storeReport_porAsserted (b : ReportBody) (s : State) : (storeReport b s).porAsserted = s.porAsserted := rfl
@[simp] theorem storeReport_cardAsserted (b : ReportBody) (s : State) : (storeReport b s).cardAsserted = s.cardAsserted := rfl
@[simp] theorem storeReport_ti_slotNumber (b : ReportBody) (s : State) : (storeReport b s).ti.slotNumber = s.ti.slotNumber := rfl
@[simp] theorem storeReport_ti_answer (b : ReportBody) (s : State) : (storeReport b s).ti.answer = s.ti.answer := rfl
@[simp] theorem storeReport_windows (b : ReportBody) (s : State) : (storeReport b s).windows = s.windows := rfl
@[simp] theorem storeReport_masters (b : ReportBody) (s : State) : (storeReport b s).masters = s.masters := rfl
@[simp] theorem storeReport_pwq (b : ReportBody) (s : State) : (storeReport b s).pwq = s.pwq := rfl
@[simp] theorem storeReport_slots (b : ReportBody) (s : State) : (storeReport b s).slots = s.slots := rfl
@[simp] theorem storeReport_ageOrder (b : ReportBody) (s : State) : (storeReport b s).ageOrder = s.ageOrder := rfl
@[simp] theorem storeReport_lock (b : ReportBody) (s : State) : (storeReport b s).lock = s.lock := rfl
@[simp] theorem storeReport_cbc (b : ReportBody) (s : State) : (storeReport b s).cbc = s.cbc := rfl
@[simp] theorem storeReport_arb (b : ReportBody) (s : State) : (storeReport b s).arb = s.arb := rfl
@[simp] theorem storeReport_lines (b : ReportBody) (s : State) : (storeReport b s).lines = s.lines := rfl
@[simp] theorem storeReport_cu (b : ReportBody) (s : State) : (storeReport b s).cu = s.cu := rfl
@[simp] theorem storeReport_rq_space (b : ReportBody) (s : State) : (storeReport b s).rq.space = s.rq.space := rfl
@[simp] theorem storeReport_rq_cardData (b : ReportBody) (s : State) : (storeReport b s).rq.cardData = s.rq.cardData := rfl
@[simp] theorem storeReport_rq_cardControl (b : ReportBody) (s : State) : (storeReport b s).rq.cardControl = s.rq.cardControl := rfl
@[simp] theorem storeReport_gsc (b : ReportBody) (s : State) : (storeReport b s).gsc = s.gsc := rfl
@[simp] theorem storeReport_freeCount (b : ReportBody) (s : State) : (storeReport b s).freeCount = s.freeCount := rfl
@[simp] theorem storeReport_pending (b : ReportBody) (s : State) : (storeReport b s).pending = s.pending := rfl

/-! `storeResult` -/

@[simp] theorem storeResult_timebase (b : ReportBody) (s : State) : (storeResult b s).timebase = s.timebase := rfl
@[simp] theorem storeResult_porAsserted (b : ReportBody) (s : State) : (storeResult b s).porAsserted = s.porAsserted := rfl
@[simp] theorem storeResult_cardAsserted (b : ReportBody) (s : State) : (storeResult b s).cardAsserted = s.cardAsserted := rfl
@[simp] theorem storeResult_ti_slotNumber (b : ReportBody) (s : State) : (storeResult b s).ti.slotNumber = s.ti.slotNumber := rfl
@[simp] theorem storeResult_ti_answer (b : ReportBody) (s : State) : (storeResult b s).ti.answer = s.ti.answer := rfl
@[simp] theorem storeResult_windows (b : ReportBody) (s : State) : (storeResult b s).windows = s.windows := rfl
@[simp] theorem storeResult_masters (b : ReportBody) (s : State) : (storeResult b s).masters = s.masters := rfl
@[simp] theorem storeResult_pwq (b : ReportBody) (s : State) : (storeResult b s).pwq = s.pwq := rfl
@[simp] theorem storeResult_slots (b : ReportBody) (s : State) : (storeResult b s).slots = s.slots := rfl
@[simp] theorem storeResult_ageOrder (b : ReportBody) (s : State) : (storeResult b s).ageOrder = s.ageOrder := rfl
@[simp] theorem storeResult_lock (b : ReportBody) (s : State) : (storeResult b s).lock = s.lock := rfl
@[simp] theorem storeResult_cbc (b : ReportBody) (s : State) : (storeResult b s).cbc = s.cbc := rfl
@[simp] theorem storeResult_arb (b : ReportBody) (s : State) : (storeResult b s).arb = s.arb := rfl
@[simp] theorem storeResult_lines (b : ReportBody) (s : State) : (storeResult b s).lines = s.lines := rfl
@[simp] theorem storeResult_cu (b : ReportBody) (s : State) : (storeResult b s).cu = s.cu := rfl
@[simp] theorem storeResult_rq_cardData (b : ReportBody) (s : State) : (storeResult b s).rq.cardData = s.rq.cardData := rfl
@[simp] theorem storeResult_rq_cardControl (b : ReportBody) (s : State) : (storeResult b s).rq.cardControl = s.rq.cardControl := rfl
@[simp] theorem storeResult_gsc (b : ReportBody) (s : State) : (storeResult b s).gsc = s.gsc := rfl
@[simp] theorem storeResult_freeCount (b : ReportBody) (s : State) : (storeResult b s).freeCount = s.freeCount := rfl
@[simp] theorem storeResult_pending (b : ReportBody) (s : State) : (storeResult b s).pending = s.pending := rfl

/-- All that `offerReport` can change. -/
theorem offerReport_shape (b : ReportBody) (s : State) : ∃ (x0 : Bool) (x1 : List Report) (x2 : Tag) (x3 : Nat), offerReport b s = { s with ti.serviceLine := x0, rq.reports := x1, rq.nextSeq := x2, rq.suppressed := x3 } := by
  unfold offerReport; split
  · exact ⟨_, _, _, _, rfl⟩
  · exact ⟨s.ti.serviceLine, s.rq.reports, s.rq.nextSeq, _, rfl⟩

@[simp] theorem offerReport_timebase (b : ReportBody) (s : State) : (offerReport b s).timebase = s.timebase := by obtain ⟨_, _, _, _, h⟩ := offerReport_shape b s; rw [h]
@[simp] theorem offerReport_porAsserted (b : ReportBody) (s : State) : (offerReport b s).porAsserted = s.porAsserted := by obtain ⟨_, _, _, _, h⟩ := offerReport_shape b s; rw [h]
@[simp] theorem offerReport_cardAsserted (b : ReportBody) (s : State) : (offerReport b s).cardAsserted = s.cardAsserted := by obtain ⟨_, _, _, _, h⟩ := offerReport_shape b s; rw [h]
@[simp] theorem offerReport_ti_slotNumber (b : ReportBody) (s : State) : (offerReport b s).ti.slotNumber = s.ti.slotNumber := by obtain ⟨_, _, _, _, h⟩ := offerReport_shape b s; rw [h]
@[simp] theorem offerReport_ti_answer (b : ReportBody) (s : State) : (offerReport b s).ti.answer = s.ti.answer := by obtain ⟨_, _, _, _, h⟩ := offerReport_shape b s; rw [h]
@[simp] theorem offerReport_windows (b : ReportBody) (s : State) : (offerReport b s).windows = s.windows := by obtain ⟨_, _, _, _, h⟩ := offerReport_shape b s; rw [h]
@[simp] theorem offerReport_masters (b : ReportBody) (s : State) : (offerReport b s).masters = s.masters := by obtain ⟨_, _, _, _, h⟩ := offerReport_shape b s; rw [h]
@[simp] theorem offerReport_pwq (b : ReportBody) (s : State) : (offerReport b s).pwq = s.pwq := by obtain ⟨_, _, _, _, h⟩ := offerReport_shape b s; rw [h]
@[simp] theorem offerReport_slots (b : ReportBody) (s : State) : (offerReport b s).slots = s.slots := by obtain ⟨_, _, _, _, h⟩ := offerReport_shape b s; rw [h]
@[simp] theorem offerReport_ageOrder (b : ReportBody) (s : State) : (offerReport b s).ageOrder = s.ageOrder := by obtain ⟨_, _, _, _, h⟩ := offerReport_shape b s; rw [h]
@[simp] theorem offerReport_lock (b : ReportBody) (s : State) : (offerReport b s).lock = s.lock := by obtain ⟨_, _, _, _, h⟩ := offerReport_shape b s; rw [h]
@[simp] theorem offerReport_cbc (b : ReportBody) (s : State) : (offerReport b s).cbc = s.cbc := by obtain ⟨_, _, _, _, h⟩ := offerReport_shape b s; rw [h]
@[simp] theorem offerReport_arb (b : ReportBody) (s : State) : (offerReport b s).arb = s.arb := by obtain ⟨_, _, _, _, h⟩ := offerReport_shape b s; rw [h]
@[simp] theorem offerReport_lines (b : ReportBody) (s : State) : (offerReport b s).lines = s.lines := by obtain ⟨_, _, _, _, h⟩ := offerReport_shape b s; rw [h]
@[simp] theorem offerReport_cu (b : ReportBody) (s : State) : (offerReport b s).cu = s.cu := by obtain ⟨_, _, _, _, h⟩ := offerReport_shape b s; rw [h]
@[simp] theorem offerReport_rq_space (b : ReportBody) (s : State) : (offerReport b s).rq.space = s.rq.space := by obtain ⟨_, _, _, _, h⟩ := offerReport_shape b s; rw [h]
@[simp] theorem offerReport_rq_cardData (b : ReportBody) (s : State) : (offerReport b s).rq.cardData = s.rq.cardData := by obtain ⟨_, _, _, _, h⟩ := offerReport_shape b s; rw [h]
@[simp] theorem offerReport_rq_cardControl (b : ReportBody) (s : State) : (offerReport b s).rq.cardControl = s.rq.cardControl := by obtain ⟨_, _, _, _, h⟩ := offerReport_shape b s; rw [h]
@[simp] theorem offerReport_gsc (b : ReportBody) (s : State) : (offerReport b s).gsc = s.gsc := by obtain ⟨_, _, _, _, h⟩ := offerReport_shape b s; rw [h]
@[simp] theorem offerReport_freeCount (b : ReportBody) (s : State) : (offerReport b s).freeCount = s.freeCount := by obtain ⟨_, _, _, _, h⟩ := offerReport_shape b s; rw [h]
@[simp] theorem offerReport_pending (b : ReportBody) (s : State) : (offerReport b s).pending = s.pending := by obtain ⟨_, _, _, _, h⟩ := offerReport_shape b s; rw [h]

/-! `raiseRef` -/

@[simp] theorem raiseRef_timebase (w : WindowId) (s : State) : (raiseRef w s).timebase = s.timebase := rfl
@[simp] theorem raiseRef_porAsserted (w : WindowId) (s : State) : (raiseRef w s).porAsserted = s.porAsserted := rfl
@[simp] theorem raiseRef_cardAsserted (w : WindowId) (s : State) : (raiseRef w s).cardAsserted = s.cardAsserted := rfl
@[simp] theorem raiseRef_ti (w : WindowId) (s : State) : (raiseRef w s).ti = s.ti := rfl
@[simp] theorem raiseRef_masters (w : WindowId) (s : State) : (raiseRef w s).masters = s.masters := rfl
@[simp] theorem raiseRef_pwq (w : WindowId) (s : State) : (raiseRef w s).pwq = s.pwq := rfl
@[simp] theorem raiseRef_slots (w : WindowId) (s : State) : (raiseRef w s).slots = s.slots := rfl
@[simp] theorem raiseRef_ageOrder (w : WindowId) (s : State) : (raiseRef w s).ageOrder = s.ageOrder := rfl
@[simp] theorem raiseRef_lock (w : WindowId) (s : State) : (raiseRef w s).lock = s.lock := rfl
@[simp] theorem raiseRef_cbc (w : WindowId) (s : State) : (raiseRef w s).cbc = s.cbc := rfl
@[simp] theorem raiseRef_arb (w : WindowId) (s : State) : (raiseRef w s).arb = s.arb := rfl
@[simp] theorem raiseRef_lines (w : WindowId) (s : State) : (raiseRef w s).lines = s.lines := rfl
@[simp] theorem raiseRef_cu (w : WindowId) (s : State) : (raiseRef w s).cu = s.cu := rfl
@[simp] theorem raiseRef_rq (w : WindowId) (s : State) : (raiseRef w s).rq = s.rq := rfl
@[simp] theorem raiseRef_gsc (w : WindowId) (s : State) : (raiseRef w s).gsc = s.gsc := rfl
@[simp] theorem raiseRef_freeCount (w : WindowId) (s : State) : (raiseRef w s).freeCount = s.freeCount := rfl
@[simp] theorem raiseRef_pending (w : WindowId) (s : State) : (raiseRef w s).pending = s.pending := rfl

/-! `lowerRef` -/

@[simp] theorem lowerRef_timebase (w : WindowId) (s : State) : (lowerRef w s).timebase = s.timebase := rfl
@[simp] theorem lowerRef_porAsserted (w : WindowId) (s : State) : (lowerRef w s).porAsserted = s.porAsserted := rfl
@[simp] theorem lowerRef_cardAsserted (w : WindowId) (s : State) : (lowerRef w s).cardAsserted = s.cardAsserted := rfl
@[simp] theorem lowerRef_ti (w : WindowId) (s : State) : (lowerRef w s).ti = s.ti := rfl
@[simp] theorem lowerRef_masters (w : WindowId) (s : State) : (lowerRef w s).masters = s.masters := rfl
@[simp] theorem lowerRef_pwq (w : WindowId) (s : State) : (lowerRef w s).pwq = s.pwq := rfl
@[simp] theorem lowerRef_slots (w : WindowId) (s : State) : (lowerRef w s).slots = s.slots := rfl
@[simp] theorem lowerRef_ageOrder (w : WindowId) (s : State) : (lowerRef w s).ageOrder = s.ageOrder := rfl
@[simp] theorem lowerRef_lock (w : WindowId) (s : State) : (lowerRef w s).lock = s.lock := rfl
@[simp] theorem lowerRef_cbc (w : WindowId) (s : State) : (lowerRef w s).cbc = s.cbc := rfl
@[simp] theorem lowerRef_arb (w : WindowId) (s : State) : (lowerRef w s).arb = s.arb := rfl
@[simp] theorem lowerRef_lines (w : WindowId) (s : State) : (lowerRef w s).lines = s.lines := rfl
@[simp] theorem lowerRef_cu (w : WindowId) (s : State) : (lowerRef w s).cu = s.cu := rfl
@[simp] theorem lowerRef_rq (w : WindowId) (s : State) : (lowerRef w s).rq = s.rq := rfl
@[simp] theorem lowerRef_gsc (w : WindowId) (s : State) : (lowerRef w s).gsc = s.gsc := rfl
@[simp] theorem lowerRef_freeCount (w : WindowId) (s : State) : (lowerRef w s).freeCount = s.freeCount := rfl
@[simp] theorem lowerRef_pending (w : WindowId) (s : State) : (lowerRef w s).pending = s.pending := rfl

/-! `raiseWrites` -/

@[simp] theorem raiseWrites_timebase (m : MasterId) (s : State) : (raiseWrites m s).timebase = s.timebase := rfl
@[simp] theorem raiseWrites_porAsserted (m : MasterId) (s : State) : (raiseWrites m s).porAsserted = s.porAsserted := rfl
@[simp] theorem raiseWrites_cardAsserted (m : MasterId) (s : State) : (raiseWrites m s).cardAsserted = s.cardAsserted := rfl
@[simp] theorem raiseWrites_ti (m : MasterId) (s : State) : (raiseWrites m s).ti = s.ti := rfl
@[simp] theorem raiseWrites_windows (m : MasterId) (s : State) : (raiseWrites m s).windows = s.windows := rfl
@[simp] theorem raiseWrites_pwq (m : MasterId) (s : State) : (raiseWrites m s).pwq = s.pwq := rfl
@[simp] theorem raiseWrites_slots (m : MasterId) (s : State) : (raiseWrites m s).slots = s.slots := rfl
@[simp] theorem raiseWrites_ageOrder (m : MasterId) (s : State) : (raiseWrites m s).ageOrder = s.ageOrder := rfl
@[simp] theorem raiseWrites_lock (m : MasterId) (s : State) : (raiseWrites m s).lock = s.lock := rfl
@[simp] theorem raiseWrites_cbc (m : MasterId) (s : State) : (raiseWrites m s).cbc = s.cbc := rfl
@[simp] theorem raiseWrites_arb (m : MasterId) (s : State) : (raiseWrites m s).arb = s.arb := rfl
@[simp] theorem raiseWrites_lines (m : MasterId) (s : State) : (raiseWrites m s).lines = s.lines := rfl
@[simp] theorem raiseWrites_cu (m : MasterId) (s : State) : (raiseWrites m s).cu = s.cu := rfl
@[simp] theorem raiseWrites_rq (m : MasterId) (s : State) : (raiseWrites m s).rq = s.rq := rfl
@[simp] theorem raiseWrites_gsc (m : MasterId) (s : State) : (raiseWrites m s).gsc = s.gsc := rfl
@[simp] theorem raiseWrites_freeCount (m : MasterId) (s : State) : (raiseWrites m s).freeCount = s.freeCount := rfl
@[simp] theorem raiseWrites_pending (m : MasterId) (s : State) : (raiseWrites m s).pending = s.pending := rfl

/-! `lowerWrites` -/

@[simp] theorem lowerWrites_timebase (m : MasterId) (s : State) : (lowerWrites m s).timebase = s.timebase := rfl
@[simp] theorem lowerWrites_porAsserted (m : MasterId) (s : State) : (lowerWrites m s).porAsserted = s.porAsserted := rfl
@[simp] theorem lowerWrites_cardAsserted (m : MasterId) (s : State) : (lowerWrites m s).cardAsserted = s.cardAsserted := rfl
@[simp] theorem lowerWrites_ti (m : MasterId) (s : State) : (lowerWrites m s).ti = s.ti := rfl
@[simp] theorem lowerWrites_windows (m : MasterId) (s : State) : (lowerWrites m s).windows = s.windows := rfl
@[simp] theorem lowerWrites_pwq (m : MasterId) (s : State) : (lowerWrites m s).pwq = s.pwq := rfl
@[simp] theorem lowerWrites_slots (m : MasterId) (s : State) : (lowerWrites m s).slots = s.slots := rfl
@[simp] theorem lowerWrites_ageOrder (m : MasterId) (s : State) : (lowerWrites m s).ageOrder = s.ageOrder := rfl
@[simp] theorem lowerWrites_lock (m : MasterId) (s : State) : (lowerWrites m s).lock = s.lock := rfl
@[simp] theorem lowerWrites_cbc (m : MasterId) (s : State) : (lowerWrites m s).cbc = s.cbc := rfl
@[simp] theorem lowerWrites_arb (m : MasterId) (s : State) : (lowerWrites m s).arb = s.arb := rfl
@[simp] theorem lowerWrites_lines (m : MasterId) (s : State) : (lowerWrites m s).lines = s.lines := rfl
@[simp] theorem lowerWrites_cu (m : MasterId) (s : State) : (lowerWrites m s).cu = s.cu := rfl
@[simp] theorem lowerWrites_rq (m : MasterId) (s : State) : (lowerWrites m s).rq = s.rq := rfl
@[simp] theorem lowerWrites_gsc (m : MasterId) (s : State) : (lowerWrites m s).gsc = s.gsc := rfl
@[simp] theorem lowerWrites_freeCount (m : MasterId) (s : State) : (lowerWrites m s).freeCount = s.freeCount := rfl
@[simp] theorem lowerWrites_pending (m : MasterId) (s : State) : (lowerWrites m s).pending = s.pending := rfl

/-! `raiseReads` -/

@[simp] theorem raiseReads_timebase (m : MasterId) (s : State) : (raiseReads m s).timebase = s.timebase := rfl
@[simp] theorem raiseReads_porAsserted (m : MasterId) (s : State) : (raiseReads m s).porAsserted = s.porAsserted := rfl
@[simp] theorem raiseReads_cardAsserted (m : MasterId) (s : State) : (raiseReads m s).cardAsserted = s.cardAsserted := rfl
@[simp] theorem raiseReads_ti (m : MasterId) (s : State) : (raiseReads m s).ti = s.ti := rfl
@[simp] theorem raiseReads_windows (m : MasterId) (s : State) : (raiseReads m s).windows = s.windows := rfl
@[simp] theorem raiseReads_pwq (m : MasterId) (s : State) : (raiseReads m s).pwq = s.pwq := rfl
@[simp] theorem raiseReads_slots (m : MasterId) (s : State) : (raiseReads m s).slots = s.slots := rfl
@[simp] theorem raiseReads_ageOrder (m : MasterId) (s : State) : (raiseReads m s).ageOrder = s.ageOrder := rfl
@[simp] theorem raiseReads_lock (m : MasterId) (s : State) : (raiseReads m s).lock = s.lock := rfl
@[simp] theorem raiseReads_cbc (m : MasterId) (s : State) : (raiseReads m s).cbc = s.cbc := rfl
@[simp] theorem raiseReads_arb (m : MasterId) (s : State) : (raiseReads m s).arb = s.arb := rfl
@[simp] theorem raiseReads_lines (m : MasterId) (s : State) : (raiseReads m s).lines = s.lines := rfl
@[simp] theorem raiseReads_cu (m : MasterId) (s : State) : (raiseReads m s).cu = s.cu := rfl
@[simp] theorem raiseReads_rq (m : MasterId) (s : State) : (raiseReads m s).rq = s.rq := rfl
@[simp] theorem raiseReads_gsc (m : MasterId) (s : State) : (raiseReads m s).gsc = s.gsc := rfl
@[simp] theorem raiseReads_freeCount (m : MasterId) (s : State) : (raiseReads m s).freeCount = s.freeCount := rfl
@[simp] theorem raiseReads_pending (m : MasterId) (s : State) : (raiseReads m s).pending = s.pending := rfl

/-! `lowerReads` -/

@[simp] theorem lowerReads_timebase (m : MasterId) (s : State) : (lowerReads m s).timebase = s.timebase := rfl
@[simp] theorem lowerReads_porAsserted (m : MasterId) (s : State) : (lowerReads m s).porAsserted = s.porAsserted := rfl
@[simp] theorem lowerReads_cardAsserted (m : MasterId) (s : State) : (lowerReads m s).cardAsserted = s.cardAsserted := rfl
@[simp] theorem lowerReads_ti (m : MasterId) (s : State) : (lowerReads m s).ti = s.ti := rfl
@[simp] theorem lowerReads_windows (m : MasterId) (s : State) : (lowerReads m s).windows = s.windows := rfl
@[simp] theorem lowerReads_pwq (m : MasterId) (s : State) : (lowerReads m s).pwq = s.pwq := rfl
@[simp] theorem lowerReads_slots (m : MasterId) (s : State) : (lowerReads m s).slots = s.slots := rfl
@[simp] theorem lowerReads_ageOrder (m : MasterId) (s : State) : (lowerReads m s).ageOrder = s.ageOrder := rfl
@[simp] theorem lowerReads_lock (m : MasterId) (s : State) : (lowerReads m s).lock = s.lock := rfl
@[simp] theorem lowerReads_cbc (m : MasterId) (s : State) : (lowerReads m s).cbc = s.cbc := rfl
@[simp] theorem lowerReads_arb (m : MasterId) (s : State) : (lowerReads m s).arb = s.arb := rfl
@[simp] theorem lowerReads_lines (m : MasterId) (s : State) : (lowerReads m s).lines = s.lines := rfl
@[simp] theorem lowerReads_cu (m : MasterId) (s : State) : (lowerReads m s).cu = s.cu := rfl
@[simp] theorem lowerReads_rq (m : MasterId) (s : State) : (lowerReads m s).rq = s.rq := rfl
@[simp] theorem lowerReads_gsc (m : MasterId) (s : State) : (lowerReads m s).gsc = s.gsc := rfl
@[simp] theorem lowerReads_freeCount (m : MasterId) (s : State) : (lowerReads m s).freeCount = s.freeCount := rfl
@[simp] theorem lowerReads_pending (m : MasterId) (s : State) : (lowerReads m s).pending = s.pending := rfl

/-! `setNote` -/

@[simp] theorem setNote_timebase (m : MasterId) (n : Option WindowId) (s : State) : (setNote m n s).timebase = s.timebase := rfl
@[simp] theorem setNote_porAsserted (m : MasterId) (n : Option WindowId) (s : State) : (setNote m n s).porAsserted = s.porAsserted := rfl
@[simp] theorem setNote_cardAsserted (m : MasterId) (n : Option WindowId) (s : State) : (setNote m n s).cardAsserted = s.cardAsserted := rfl
@[simp] theorem setNote_ti (m : MasterId) (n : Option WindowId) (s : State) : (setNote m n s).ti = s.ti := rfl
@[simp] theorem setNote_windows (m : MasterId) (n : Option WindowId) (s : State) : (setNote m n s).windows = s.windows := rfl
@[simp] theorem setNote_pwq (m : MasterId) (n : Option WindowId) (s : State) : (setNote m n s).pwq = s.pwq := rfl
@[simp] theorem setNote_slots (m : MasterId) (n : Option WindowId) (s : State) : (setNote m n s).slots = s.slots := rfl
@[simp] theorem setNote_ageOrder (m : MasterId) (n : Option WindowId) (s : State) : (setNote m n s).ageOrder = s.ageOrder := rfl
@[simp] theorem setNote_lock (m : MasterId) (n : Option WindowId) (s : State) : (setNote m n s).lock = s.lock := rfl
@[simp] theorem setNote_cbc (m : MasterId) (n : Option WindowId) (s : State) : (setNote m n s).cbc = s.cbc := rfl
@[simp] theorem setNote_arb (m : MasterId) (n : Option WindowId) (s : State) : (setNote m n s).arb = s.arb := rfl
@[simp] theorem setNote_lines (m : MasterId) (n : Option WindowId) (s : State) : (setNote m n s).lines = s.lines := rfl
@[simp] theorem setNote_cu (m : MasterId) (n : Option WindowId) (s : State) : (setNote m n s).cu = s.cu := rfl
@[simp] theorem setNote_rq (m : MasterId) (n : Option WindowId) (s : State) : (setNote m n s).rq = s.rq := rfl
@[simp] theorem setNote_gsc (m : MasterId) (n : Option WindowId) (s : State) : (setNote m n s).gsc = s.gsc := rfl
@[simp] theorem setNote_freeCount (m : MasterId) (n : Option WindowId) (s : State) : (setNote m n s).freeCount = s.freeCount := rfl
@[simp] theorem setNote_pending (m : MasterId) (n : Option WindowId) (s : State) : (setNote m n s).pending = s.pending := rfl

/-! `modSlot` -/

@[simp] theorem modSlot_timebase (i : SlotId) (f : Slot → Slot) (s : State) : (modSlot i f s).timebase = s.timebase := rfl
@[simp] theorem modSlot_porAsserted (i : SlotId) (f : Slot → Slot) (s : State) : (modSlot i f s).porAsserted = s.porAsserted := rfl
@[simp] theorem modSlot_cardAsserted (i : SlotId) (f : Slot → Slot) (s : State) : (modSlot i f s).cardAsserted = s.cardAsserted := rfl
@[simp] theorem modSlot_ti (i : SlotId) (f : Slot → Slot) (s : State) : (modSlot i f s).ti = s.ti := rfl
@[simp] theorem modSlot_windows (i : SlotId) (f : Slot → Slot) (s : State) : (modSlot i f s).windows = s.windows := rfl
@[simp] theorem modSlot_masters (i : SlotId) (f : Slot → Slot) (s : State) : (modSlot i f s).masters = s.masters := rfl
@[simp] theorem modSlot_pwq (i : SlotId) (f : Slot → Slot) (s : State) : (modSlot i f s).pwq = s.pwq := rfl
@[simp] theorem modSlot_ageOrder (i : SlotId) (f : Slot → Slot) (s : State) : (modSlot i f s).ageOrder = s.ageOrder := rfl
@[simp] theorem modSlot_lock (i : SlotId) (f : Slot → Slot) (s : State) : (modSlot i f s).lock = s.lock := rfl
@[simp] theorem modSlot_cbc (i : SlotId) (f : Slot → Slot) (s : State) : (modSlot i f s).cbc = s.cbc := rfl
@[simp] theorem modSlot_arb (i : SlotId) (f : Slot → Slot) (s : State) : (modSlot i f s).arb = s.arb := rfl
@[simp] theorem modSlot_lines (i : SlotId) (f : Slot → Slot) (s : State) : (modSlot i f s).lines = s.lines := rfl
@[simp] theorem modSlot_cu (i : SlotId) (f : Slot → Slot) (s : State) : (modSlot i f s).cu = s.cu := rfl
@[simp] theorem modSlot_rq (i : SlotId) (f : Slot → Slot) (s : State) : (modSlot i f s).rq = s.rq := rfl
@[simp] theorem modSlot_gsc (i : SlotId) (f : Slot → Slot) (s : State) : (modSlot i f s).gsc = s.gsc := rfl
@[simp] theorem modSlot_freeCount (i : SlotId) (f : Slot → Slot) (s : State) : (modSlot i f s).freeCount = s.freeCount := rfl
@[simp] theorem modSlot_pending (i : SlotId) (f : Slot → Slot) (s : State) : (modSlot i f s).pending = s.pending := rfl

/-! `markStale` -/

@[simp] theorem markStale_timebase (a : CardAddr) (n : Nat) (s : State) : (markStale a n s).timebase = s.timebase := rfl
@[simp] theorem markStale_porAsserted (a : CardAddr) (n : Nat) (s : State) : (markStale a n s).porAsserted = s.porAsserted := rfl
@[simp] theorem markStale_cardAsserted (a : CardAddr) (n : Nat) (s : State) : (markStale a n s).cardAsserted = s.cardAsserted := rfl
@[simp] theorem markStale_ti (a : CardAddr) (n : Nat) (s : State) : (markStale a n s).ti = s.ti := rfl
@[simp] theorem markStale_windows (a : CardAddr) (n : Nat) (s : State) : (markStale a n s).windows = s.windows := rfl
@[simp] theorem markStale_masters (a : CardAddr) (n : Nat) (s : State) : (markStale a n s).masters = s.masters := rfl
@[simp] theorem markStale_pwq (a : CardAddr) (n : Nat) (s : State) : (markStale a n s).pwq = s.pwq := rfl
@[simp] theorem markStale_ageOrder (a : CardAddr) (n : Nat) (s : State) : (markStale a n s).ageOrder = s.ageOrder := rfl
@[simp] theorem markStale_lock (a : CardAddr) (n : Nat) (s : State) : (markStale a n s).lock = s.lock := rfl
@[simp] theorem markStale_cbc (a : CardAddr) (n : Nat) (s : State) : (markStale a n s).cbc = s.cbc := rfl
@[simp] theorem markStale_arb (a : CardAddr) (n : Nat) (s : State) : (markStale a n s).arb = s.arb := rfl
@[simp] theorem markStale_lines (a : CardAddr) (n : Nat) (s : State) : (markStale a n s).lines = s.lines := rfl
@[simp] theorem markStale_cu (a : CardAddr) (n : Nat) (s : State) : (markStale a n s).cu = s.cu := rfl
@[simp] theorem markStale_rq (a : CardAddr) (n : Nat) (s : State) : (markStale a n s).rq = s.rq := rfl
@[simp] theorem markStale_gsc (a : CardAddr) (n : Nat) (s : State) : (markStale a n s).gsc = s.gsc := rfl
@[simp] theorem markStale_freeCount (a : CardAddr) (n : Nat) (s : State) : (markStale a n s).freeCount = s.freeCount := rfl
@[simp] theorem markStale_pending (a : CardAddr) (n : Nat) (s : State) : (markStale a n s).pending = s.pending := rfl

/-- All that `dropClaims` can change. -/
theorem dropClaims_shape (d : DataEntry) (s : State) : ∃ (x0 : Vector Master 16) (x1 : Vector Window 32), dropClaims d s = { s with masters := x0, windows := x1 } := by
  unfold dropClaims; dsimp only; split
  · exact ⟨_, _, rfl⟩
  · exact ⟨_, s.windows, rfl⟩

@[simp] theorem dropClaims_timebase (d : DataEntry) (s : State) : (dropClaims d s).timebase = s.timebase := by obtain ⟨_, _, h⟩ := dropClaims_shape d s; rw [h]
@[simp] theorem dropClaims_porAsserted (d : DataEntry) (s : State) : (dropClaims d s).porAsserted = s.porAsserted := by obtain ⟨_, _, h⟩ := dropClaims_shape d s; rw [h]
@[simp] theorem dropClaims_cardAsserted (d : DataEntry) (s : State) : (dropClaims d s).cardAsserted = s.cardAsserted := by obtain ⟨_, _, h⟩ := dropClaims_shape d s; rw [h]
@[simp] theorem dropClaims_ti (d : DataEntry) (s : State) : (dropClaims d s).ti = s.ti := by obtain ⟨_, _, h⟩ := dropClaims_shape d s; rw [h]
@[simp] theorem dropClaims_pwq (d : DataEntry) (s : State) : (dropClaims d s).pwq = s.pwq := by obtain ⟨_, _, h⟩ := dropClaims_shape d s; rw [h]
@[simp] theorem dropClaims_slots (d : DataEntry) (s : State) : (dropClaims d s).slots = s.slots := by obtain ⟨_, _, h⟩ := dropClaims_shape d s; rw [h]
@[simp] theorem dropClaims_ageOrder (d : DataEntry) (s : State) : (dropClaims d s).ageOrder = s.ageOrder := by obtain ⟨_, _, h⟩ := dropClaims_shape d s; rw [h]
@[simp] theorem dropClaims_lock (d : DataEntry) (s : State) : (dropClaims d s).lock = s.lock := by obtain ⟨_, _, h⟩ := dropClaims_shape d s; rw [h]
@[simp] theorem dropClaims_cbc (d : DataEntry) (s : State) : (dropClaims d s).cbc = s.cbc := by obtain ⟨_, _, h⟩ := dropClaims_shape d s; rw [h]
@[simp] theorem dropClaims_arb (d : DataEntry) (s : State) : (dropClaims d s).arb = s.arb := by obtain ⟨_, _, h⟩ := dropClaims_shape d s; rw [h]
@[simp] theorem dropClaims_lines (d : DataEntry) (s : State) : (dropClaims d s).lines = s.lines := by obtain ⟨_, _, h⟩ := dropClaims_shape d s; rw [h]
@[simp] theorem dropClaims_cu (d : DataEntry) (s : State) : (dropClaims d s).cu = s.cu := by obtain ⟨_, _, h⟩ := dropClaims_shape d s; rw [h]
@[simp] theorem dropClaims_rq (d : DataEntry) (s : State) : (dropClaims d s).rq = s.rq := by obtain ⟨_, _, h⟩ := dropClaims_shape d s; rw [h]
@[simp] theorem dropClaims_gsc (d : DataEntry) (s : State) : (dropClaims d s).gsc = s.gsc := by obtain ⟨_, _, h⟩ := dropClaims_shape d s; rw [h]
@[simp] theorem dropClaims_freeCount (d : DataEntry) (s : State) : (dropClaims d s).freeCount = s.freeCount := by obtain ⟨_, _, h⟩ := dropClaims_shape d s; rw [h]
@[simp] theorem dropClaims_pending (d : DataEntry) (s : State) : (dropClaims d s).pending = s.pending := by obtain ⟨_, _, h⟩ := dropClaims_shape d s; rw [h]

/-- All that `entryClaims` can change. -/
theorem entryClaims_shape (e : Entry) (s : State) : ∃ (x0 : Vector Master 16) (x1 : Vector Window 32), entryClaims e s = { s with masters := x0, windows := x1 } := by
  cases e with
  | data d => exact dropClaims_shape d s
  | control c => exact ⟨s.masters, s.windows, rfl⟩

@[simp] theorem entryClaims_timebase (e : Entry) (s : State) : (entryClaims e s).timebase = s.timebase := by obtain ⟨_, _, h⟩ := entryClaims_shape e s; rw [h]
@[simp] theorem entryClaims_porAsserted (e : Entry) (s : State) : (entryClaims e s).porAsserted = s.porAsserted := by obtain ⟨_, _, h⟩ := entryClaims_shape e s; rw [h]
@[simp] theorem entryClaims_cardAsserted (e : Entry) (s : State) : (entryClaims e s).cardAsserted = s.cardAsserted := by obtain ⟨_, _, h⟩ := entryClaims_shape e s; rw [h]
@[simp] theorem entryClaims_ti (e : Entry) (s : State) : (entryClaims e s).ti = s.ti := by obtain ⟨_, _, h⟩ := entryClaims_shape e s; rw [h]
@[simp] theorem entryClaims_pwq (e : Entry) (s : State) : (entryClaims e s).pwq = s.pwq := by obtain ⟨_, _, h⟩ := entryClaims_shape e s; rw [h]
@[simp] theorem entryClaims_slots (e : Entry) (s : State) : (entryClaims e s).slots = s.slots := by obtain ⟨_, _, h⟩ := entryClaims_shape e s; rw [h]
@[simp] theorem entryClaims_ageOrder (e : Entry) (s : State) : (entryClaims e s).ageOrder = s.ageOrder := by obtain ⟨_, _, h⟩ := entryClaims_shape e s; rw [h]
@[simp] theorem entryClaims_lock (e : Entry) (s : State) : (entryClaims e s).lock = s.lock := by obtain ⟨_, _, h⟩ := entryClaims_shape e s; rw [h]
@[simp] theorem entryClaims_cbc (e : Entry) (s : State) : (entryClaims e s).cbc = s.cbc := by obtain ⟨_, _, h⟩ := entryClaims_shape e s; rw [h]
@[simp] theorem entryClaims_arb (e : Entry) (s : State) : (entryClaims e s).arb = s.arb := by obtain ⟨_, _, h⟩ := entryClaims_shape e s; rw [h]
@[simp] theorem entryClaims_lines (e : Entry) (s : State) : (entryClaims e s).lines = s.lines := by obtain ⟨_, _, h⟩ := entryClaims_shape e s; rw [h]
@[simp] theorem entryClaims_cu (e : Entry) (s : State) : (entryClaims e s).cu = s.cu := by obtain ⟨_, _, h⟩ := entryClaims_shape e s; rw [h]
@[simp] theorem entryClaims_rq (e : Entry) (s : State) : (entryClaims e s).rq = s.rq := by obtain ⟨_, _, h⟩ := entryClaims_shape e s; rw [h]
@[simp] theorem entryClaims_gsc (e : Entry) (s : State) : (entryClaims e s).gsc = s.gsc := by obtain ⟨_, _, h⟩ := entryClaims_shape e s; rw [h]
@[simp] theorem entryClaims_freeCount (e : Entry) (s : State) : (entryClaims e s).freeCount = s.freeCount := by obtain ⟨_, _, h⟩ := entryClaims_shape e s; rw [h]
@[simp] theorem entryClaims_pending (e : Entry) (s : State) : (entryClaims e s).pending = s.pending := by obtain ⟨_, _, h⟩ := entryClaims_shape e s; rw [h]

/-- All that `freeSlot` can change. -/
theorem freeSlot_shape (i : SlotId) (s : State) : ∃ (x0 : Vector Master 16) (x1 : Vector Window 32) (x2 : Vector Slot 8) (x3 : List SlotId), freeSlot i s = { s with masters := x0, windows := x1, slots := x2, ageOrder := x3 } := by
  unfold freeSlot; split
  · exact ⟨s.masters, s.windows, s.slots, s.ageOrder, rfl⟩
  · exact ⟨_, _, _, _, rfl⟩

@[simp] theorem freeSlot_timebase (i : SlotId) (s : State) : (freeSlot i s).timebase = s.timebase := by obtain ⟨_, _, _, _, h⟩ := freeSlot_shape i s; rw [h]
@[simp] theorem freeSlot_porAsserted (i : SlotId) (s : State) : (freeSlot i s).porAsserted = s.porAsserted := by obtain ⟨_, _, _, _, h⟩ := freeSlot_shape i s; rw [h]
@[simp] theorem freeSlot_cardAsserted (i : SlotId) (s : State) : (freeSlot i s).cardAsserted = s.cardAsserted := by obtain ⟨_, _, _, _, h⟩ := freeSlot_shape i s; rw [h]
@[simp] theorem freeSlot_ti (i : SlotId) (s : State) : (freeSlot i s).ti = s.ti := by obtain ⟨_, _, _, _, h⟩ := freeSlot_shape i s; rw [h]
@[simp] theorem freeSlot_pwq (i : SlotId) (s : State) : (freeSlot i s).pwq = s.pwq := by obtain ⟨_, _, _, _, h⟩ := freeSlot_shape i s; rw [h]
@[simp] theorem freeSlot_lock (i : SlotId) (s : State) : (freeSlot i s).lock = s.lock := by obtain ⟨_, _, _, _, h⟩ := freeSlot_shape i s; rw [h]
@[simp] theorem freeSlot_cbc (i : SlotId) (s : State) : (freeSlot i s).cbc = s.cbc := by obtain ⟨_, _, _, _, h⟩ := freeSlot_shape i s; rw [h]
@[simp] theorem freeSlot_arb (i : SlotId) (s : State) : (freeSlot i s).arb = s.arb := by obtain ⟨_, _, _, _, h⟩ := freeSlot_shape i s; rw [h]
@[simp] theorem freeSlot_lines (i : SlotId) (s : State) : (freeSlot i s).lines = s.lines := by obtain ⟨_, _, _, _, h⟩ := freeSlot_shape i s; rw [h]
@[simp] theorem freeSlot_cu (i : SlotId) (s : State) : (freeSlot i s).cu = s.cu := by obtain ⟨_, _, _, _, h⟩ := freeSlot_shape i s; rw [h]
@[simp] theorem freeSlot_rq (i : SlotId) (s : State) : (freeSlot i s).rq = s.rq := by obtain ⟨_, _, _, _, h⟩ := freeSlot_shape i s; rw [h]
@[simp] theorem freeSlot_gsc (i : SlotId) (s : State) : (freeSlot i s).gsc = s.gsc := by obtain ⟨_, _, _, _, h⟩ := freeSlot_shape i s; rw [h]
@[simp] theorem freeSlot_freeCount (i : SlotId) (s : State) : (freeSlot i s).freeCount = s.freeCount := by obtain ⟨_, _, _, _, h⟩ := freeSlot_shape i s; rw [h]
@[simp] theorem freeSlot_pending (i : SlotId) (s : State) : (freeSlot i s).pending = s.pending := by obtain ⟨_, _, _, _, h⟩ := freeSlot_shape i s; rw [h]

/-- All that `withdrawSlot` can change. -/
theorem withdrawSlot_shape (i : SlotId) (s : State) : ∃ (x0 : Vector Master 16) (x1 : Vector Window 32) (x2 : Vector Slot 8) (x3 : List SlotId), withdrawSlot i s = { s with masters := x0, windows := x1, slots := x2, ageOrder := x3 } := by
  unfold withdrawSlot; split
  · exact ⟨s.masters, s.windows, _, s.ageOrder, rfl⟩
  · exact freeSlot_shape i s

@[simp] theorem withdrawSlot_timebase (i : SlotId) (s : State) : (withdrawSlot i s).timebase = s.timebase := by obtain ⟨_, _, _, _, h⟩ := withdrawSlot_shape i s; rw [h]
@[simp] theorem withdrawSlot_porAsserted (i : SlotId) (s : State) : (withdrawSlot i s).porAsserted = s.porAsserted := by obtain ⟨_, _, _, _, h⟩ := withdrawSlot_shape i s; rw [h]
@[simp] theorem withdrawSlot_cardAsserted (i : SlotId) (s : State) : (withdrawSlot i s).cardAsserted = s.cardAsserted := by obtain ⟨_, _, _, _, h⟩ := withdrawSlot_shape i s; rw [h]
@[simp] theorem withdrawSlot_ti (i : SlotId) (s : State) : (withdrawSlot i s).ti = s.ti := by obtain ⟨_, _, _, _, h⟩ := withdrawSlot_shape i s; rw [h]
@[simp] theorem withdrawSlot_pwq (i : SlotId) (s : State) : (withdrawSlot i s).pwq = s.pwq := by obtain ⟨_, _, _, _, h⟩ := withdrawSlot_shape i s; rw [h]
@[simp] theorem withdrawSlot_lock (i : SlotId) (s : State) : (withdrawSlot i s).lock = s.lock := by obtain ⟨_, _, _, _, h⟩ := withdrawSlot_shape i s; rw [h]
@[simp] theorem withdrawSlot_cbc (i : SlotId) (s : State) : (withdrawSlot i s).cbc = s.cbc := by obtain ⟨_, _, _, _, h⟩ := withdrawSlot_shape i s; rw [h]
@[simp] theorem withdrawSlot_arb (i : SlotId) (s : State) : (withdrawSlot i s).arb = s.arb := by obtain ⟨_, _, _, _, h⟩ := withdrawSlot_shape i s; rw [h]
@[simp] theorem withdrawSlot_lines (i : SlotId) (s : State) : (withdrawSlot i s).lines = s.lines := by obtain ⟨_, _, _, _, h⟩ := withdrawSlot_shape i s; rw [h]
@[simp] theorem withdrawSlot_cu (i : SlotId) (s : State) : (withdrawSlot i s).cu = s.cu := by obtain ⟨_, _, _, _, h⟩ := withdrawSlot_shape i s; rw [h]
@[simp] theorem withdrawSlot_rq (i : SlotId) (s : State) : (withdrawSlot i s).rq = s.rq := by obtain ⟨_, _, _, _, h⟩ := withdrawSlot_shape i s; rw [h]
@[simp] theorem withdrawSlot_gsc (i : SlotId) (s : State) : (withdrawSlot i s).gsc = s.gsc := by obtain ⟨_, _, _, _, h⟩ := withdrawSlot_shape i s; rw [h]
@[simp] theorem withdrawSlot_freeCount (i : SlotId) (s : State) : (withdrawSlot i s).freeCount = s.freeCount := by obtain ⟨_, _, _, _, h⟩ := withdrawSlot_shape i s; rw [h]
@[simp] theorem withdrawSlot_pending (i : SlotId) (s : State) : (withdrawSlot i s).pending = s.pending := by obtain ⟨_, _, _, _, h⟩ := withdrawSlot_shape i s; rw [h]

/-! `countDropped` -/

@[simp] theorem countDropped_timebase (s : State) : (countDropped s).timebase = s.timebase := rfl
@[simp] theorem countDropped_porAsserted (s : State) : (countDropped s).porAsserted = s.porAsserted := rfl
@[simp] theorem countDropped_cardAsserted (s : State) : (countDropped s).cardAsserted = s.cardAsserted := rfl
@[simp] theorem countDropped_ti (s : State) : (countDropped s).ti = s.ti := rfl
@[simp] theorem countDropped_windows (s : State) : (countDropped s).windows = s.windows := rfl
@[simp] theorem countDropped_masters (s : State) : (countDropped s).masters = s.masters := rfl
@[simp] theorem countDropped_pwq_entries (s : State) : (countDropped s).pwq.entries = s.pwq.entries := rfl
@[simp] theorem countDropped_pwq_accepted (s : State) : (countDropped s).pwq.accepted = s.pwq.accepted := rfl
@[simp] theorem countDropped_pwq_performed (s : State) : (countDropped s).pwq.performed = s.pwq.performed := rfl
@[simp] theorem countDropped_slots (s : State) : (countDropped s).slots = s.slots := rfl
@[simp] theorem countDropped_ageOrder (s : State) : (countDropped s).ageOrder = s.ageOrder := rfl
@[simp] theorem countDropped_lock (s : State) : (countDropped s).lock = s.lock := rfl
@[simp] theorem countDropped_cbc (s : State) : (countDropped s).cbc = s.cbc := rfl
@[simp] theorem countDropped_arb (s : State) : (countDropped s).arb = s.arb := rfl
@[simp] theorem countDropped_lines (s : State) : (countDropped s).lines = s.lines := rfl
@[simp] theorem countDropped_cu (s : State) : (countDropped s).cu = s.cu := rfl
@[simp] theorem countDropped_rq (s : State) : (countDropped s).rq = s.rq := rfl
@[simp] theorem countDropped_gsc (s : State) : (countDropped s).gsc = s.gsc := rfl
@[simp] theorem countDropped_freeCount (s : State) : (countDropped s).freeCount = s.freeCount := rfl
@[simp] theorem countDropped_pending (s : State) : (countDropped s).pending = s.pending := rfl

/-! `countPerformed` -/

@[simp] theorem countPerformed_timebase (s : State) : (countPerformed s).timebase = s.timebase := rfl
@[simp] theorem countPerformed_porAsserted (s : State) : (countPerformed s).porAsserted = s.porAsserted := rfl
@[simp] theorem countPerformed_cardAsserted (s : State) : (countPerformed s).cardAsserted = s.cardAsserted := rfl
@[simp] theorem countPerformed_ti (s : State) : (countPerformed s).ti = s.ti := rfl
@[simp] theorem countPerformed_windows (s : State) : (countPerformed s).windows = s.windows := rfl
@[simp] theorem countPerformed_masters (s : State) : (countPerformed s).masters = s.masters := rfl
@[simp] theorem countPerformed_pwq_entries (s : State) : (countPerformed s).pwq.entries = s.pwq.entries := rfl
@[simp] theorem countPerformed_pwq_accepted (s : State) : (countPerformed s).pwq.accepted = s.pwq.accepted := rfl
@[simp] theorem countPerformed_pwq_dropped (s : State) : (countPerformed s).pwq.dropped = s.pwq.dropped := rfl
@[simp] theorem countPerformed_slots (s : State) : (countPerformed s).slots = s.slots := rfl
@[simp] theorem countPerformed_ageOrder (s : State) : (countPerformed s).ageOrder = s.ageOrder := rfl
@[simp] theorem countPerformed_lock (s : State) : (countPerformed s).lock = s.lock := rfl
@[simp] theorem countPerformed_cbc (s : State) : (countPerformed s).cbc = s.cbc := rfl
@[simp] theorem countPerformed_arb (s : State) : (countPerformed s).arb = s.arb := rfl
@[simp] theorem countPerformed_lines (s : State) : (countPerformed s).lines = s.lines := rfl
@[simp] theorem countPerformed_cu (s : State) : (countPerformed s).cu = s.cu := rfl
@[simp] theorem countPerformed_rq (s : State) : (countPerformed s).rq = s.rq := rfl
@[simp] theorem countPerformed_gsc (s : State) : (countPerformed s).gsc = s.gsc := rfl
@[simp] theorem countPerformed_freeCount (s : State) : (countPerformed s).freeCount = s.freeCount := rfl
@[simp] theorem countPerformed_pending (s : State) : (countPerformed s).pending = s.pending := rfl

/-! `countDiscard` -/

@[simp] theorem countDiscard_timebase (w : WindowId) (s : State) : (countDiscard w s).timebase = s.timebase := rfl
@[simp] theorem countDiscard_porAsserted (w : WindowId) (s : State) : (countDiscard w s).porAsserted = s.porAsserted := rfl
@[simp] theorem countDiscard_cardAsserted (w : WindowId) (s : State) : (countDiscard w s).cardAsserted = s.cardAsserted := rfl
@[simp] theorem countDiscard_ti (w : WindowId) (s : State) : (countDiscard w s).ti = s.ti := rfl
@[simp] theorem countDiscard_masters (w : WindowId) (s : State) : (countDiscard w s).masters = s.masters := rfl
@[simp] theorem countDiscard_pwq (w : WindowId) (s : State) : (countDiscard w s).pwq = s.pwq := rfl
@[simp] theorem countDiscard_slots (w : WindowId) (s : State) : (countDiscard w s).slots = s.slots := rfl
@[simp] theorem countDiscard_ageOrder (w : WindowId) (s : State) : (countDiscard w s).ageOrder = s.ageOrder := rfl
@[simp] theorem countDiscard_lock (w : WindowId) (s : State) : (countDiscard w s).lock = s.lock := rfl
@[simp] theorem countDiscard_cbc (w : WindowId) (s : State) : (countDiscard w s).cbc = s.cbc := rfl
@[simp] theorem countDiscard_arb (w : WindowId) (s : State) : (countDiscard w s).arb = s.arb := rfl
@[simp] theorem countDiscard_lines (w : WindowId) (s : State) : (countDiscard w s).lines = s.lines := rfl
@[simp] theorem countDiscard_cu (w : WindowId) (s : State) : (countDiscard w s).cu = s.cu := rfl
@[simp] theorem countDiscard_rq (w : WindowId) (s : State) : (countDiscard w s).rq = s.rq := rfl
@[simp] theorem countDiscard_gsc (w : WindowId) (s : State) : (countDiscard w s).gsc = s.gsc := rfl
@[simp] theorem countDiscard_freeCount (w : WindowId) (s : State) : (countDiscard w s).freeCount = s.freeCount := rfl
@[simp] theorem countDiscard_pending (w : WindowId) (s : State) : (countDiscard w s).pending = s.pending := rfl

/-- All that `askForPlace` can change. -/
theorem askForPlace_shape (s : State) : ∃ (x0 : SpaceRequest), askForPlace s = { s with rq.space := x0 } := by
  unfold askForPlace; split
  · split
    · exact ⟨_, rfl⟩
    · exact ⟨s.rq.space, rfl⟩
  · exact ⟨s.rq.space, rfl⟩

@[simp] theorem askForPlace_timebase (s : State) : (askForPlace s).timebase = s.timebase := by obtain ⟨_, h⟩ := askForPlace_shape s; rw [h]
@[simp] theorem askForPlace_porAsserted (s : State) : (askForPlace s).porAsserted = s.porAsserted := by obtain ⟨_, h⟩ := askForPlace_shape s; rw [h]
@[simp] theorem askForPlace_cardAsserted (s : State) : (askForPlace s).cardAsserted = s.cardAsserted := by obtain ⟨_, h⟩ := askForPlace_shape s; rw [h]
@[simp] theorem askForPlace_ti (s : State) : (askForPlace s).ti = s.ti := by obtain ⟨_, h⟩ := askForPlace_shape s; rw [h]
@[simp] theorem askForPlace_windows (s : State) : (askForPlace s).windows = s.windows := by obtain ⟨_, h⟩ := askForPlace_shape s; rw [h]
@[simp] theorem askForPlace_masters (s : State) : (askForPlace s).masters = s.masters := by obtain ⟨_, h⟩ := askForPlace_shape s; rw [h]
@[simp] theorem askForPlace_pwq (s : State) : (askForPlace s).pwq = s.pwq := by obtain ⟨_, h⟩ := askForPlace_shape s; rw [h]
@[simp] theorem askForPlace_slots (s : State) : (askForPlace s).slots = s.slots := by obtain ⟨_, h⟩ := askForPlace_shape s; rw [h]
@[simp] theorem askForPlace_ageOrder (s : State) : (askForPlace s).ageOrder = s.ageOrder := by obtain ⟨_, h⟩ := askForPlace_shape s; rw [h]
@[simp] theorem askForPlace_lock (s : State) : (askForPlace s).lock = s.lock := by obtain ⟨_, h⟩ := askForPlace_shape s; rw [h]
@[simp] theorem askForPlace_cbc (s : State) : (askForPlace s).cbc = s.cbc := by obtain ⟨_, h⟩ := askForPlace_shape s; rw [h]
@[simp] theorem askForPlace_arb (s : State) : (askForPlace s).arb = s.arb := by obtain ⟨_, h⟩ := askForPlace_shape s; rw [h]
@[simp] theorem askForPlace_lines (s : State) : (askForPlace s).lines = s.lines := by obtain ⟨_, h⟩ := askForPlace_shape s; rw [h]
@[simp] theorem askForPlace_cu (s : State) : (askForPlace s).cu = s.cu := by obtain ⟨_, h⟩ := askForPlace_shape s; rw [h]
@[simp] theorem askForPlace_rq_reports (s : State) : (askForPlace s).rq.reports = s.rq.reports := by obtain ⟨_, h⟩ := askForPlace_shape s; rw [h]
@[simp] theorem askForPlace_rq_nextSeq (s : State) : (askForPlace s).rq.nextSeq = s.rq.nextSeq := by obtain ⟨_, h⟩ := askForPlace_shape s; rw [h]
@[simp] theorem askForPlace_rq_suppressed (s : State) : (askForPlace s).rq.suppressed = s.rq.suppressed := by obtain ⟨_, h⟩ := askForPlace_shape s; rw [h]
@[simp] theorem askForPlace_rq_cardData (s : State) : (askForPlace s).rq.cardData = s.rq.cardData := by obtain ⟨_, h⟩ := askForPlace_shape s; rw [h]
@[simp] theorem askForPlace_rq_cardControl (s : State) : (askForPlace s).rq.cardControl = s.rq.cardControl := by obtain ⟨_, h⟩ := askForPlace_shape s; rw [h]
@[simp] theorem askForPlace_gsc (s : State) : (askForPlace s).gsc = s.gsc := by obtain ⟨_, h⟩ := askForPlace_shape s; rw [h]
@[simp] theorem askForPlace_freeCount (s : State) : (askForPlace s).freeCount = s.freeCount := by obtain ⟨_, h⟩ := askForPlace_shape s; rw [h]
@[simp] theorem askForPlace_pending (s : State) : (askForPlace s).pending = s.pending := by obtain ⟨_, h⟩ := askForPlace_shape s; rw [h]

/-- All that `testQuiesce` can change. -/
theorem testQuiesce_shape (s : State) : ∃ (x0 : Bool) (x1 : List Report) (x2 : Tag) (x3 : Nat) (x4 : GateController), testQuiesce s = { s with ti.serviceLine := x0, rq.reports := x1, rq.nextSeq := x2, rq.suppressed := x3, gsc := x4 } := by
  unfold testQuiesce; split
  · obtain ⟨a, b, c, d, h⟩ := offerReport_shape (reportBody .quiesced none none none
      ((s.gsc.quiesceTag.map BitVec.toNat).getD 0)) { s with gsc.state := .standby, gsc.quiesceTag := none }
    exact ⟨a, b, c, d, _, h⟩
  · exact ⟨s.ti.serviceLine, s.rq.reports, s.rq.nextSeq, s.rq.suppressed, s.gsc, rfl⟩

@[simp] theorem testQuiesce_timebase (s : State) : (testQuiesce s).timebase = s.timebase := by obtain ⟨_, _, _, _, _, h⟩ := testQuiesce_shape s; rw [h]
@[simp] theorem testQuiesce_porAsserted (s : State) : (testQuiesce s).porAsserted = s.porAsserted := by obtain ⟨_, _, _, _, _, h⟩ := testQuiesce_shape s; rw [h]
@[simp] theorem testQuiesce_cardAsserted (s : State) : (testQuiesce s).cardAsserted = s.cardAsserted := by obtain ⟨_, _, _, _, _, h⟩ := testQuiesce_shape s; rw [h]
@[simp] theorem testQuiesce_ti_slotNumber (s : State) : (testQuiesce s).ti.slotNumber = s.ti.slotNumber := by obtain ⟨_, _, _, _, _, h⟩ := testQuiesce_shape s; rw [h]
@[simp] theorem testQuiesce_ti_answer (s : State) : (testQuiesce s).ti.answer = s.ti.answer := by obtain ⟨_, _, _, _, _, h⟩ := testQuiesce_shape s; rw [h]
@[simp] theorem testQuiesce_windows (s : State) : (testQuiesce s).windows = s.windows := by obtain ⟨_, _, _, _, _, h⟩ := testQuiesce_shape s; rw [h]
@[simp] theorem testQuiesce_masters (s : State) : (testQuiesce s).masters = s.masters := by obtain ⟨_, _, _, _, _, h⟩ := testQuiesce_shape s; rw [h]
@[simp] theorem testQuiesce_pwq (s : State) : (testQuiesce s).pwq = s.pwq := by obtain ⟨_, _, _, _, _, h⟩ := testQuiesce_shape s; rw [h]
@[simp] theorem testQuiesce_slots (s : State) : (testQuiesce s).slots = s.slots := by obtain ⟨_, _, _, _, _, h⟩ := testQuiesce_shape s; rw [h]
@[simp] theorem testQuiesce_ageOrder (s : State) : (testQuiesce s).ageOrder = s.ageOrder := by obtain ⟨_, _, _, _, _, h⟩ := testQuiesce_shape s; rw [h]
@[simp] theorem testQuiesce_lock (s : State) : (testQuiesce s).lock = s.lock := by obtain ⟨_, _, _, _, _, h⟩ := testQuiesce_shape s; rw [h]
@[simp] theorem testQuiesce_cbc (s : State) : (testQuiesce s).cbc = s.cbc := by obtain ⟨_, _, _, _, _, h⟩ := testQuiesce_shape s; rw [h]
@[simp] theorem testQuiesce_arb (s : State) : (testQuiesce s).arb = s.arb := by obtain ⟨_, _, _, _, _, h⟩ := testQuiesce_shape s; rw [h]
@[simp] theorem testQuiesce_lines (s : State) : (testQuiesce s).lines = s.lines := by obtain ⟨_, _, _, _, _, h⟩ := testQuiesce_shape s; rw [h]
@[simp] theorem testQuiesce_cu (s : State) : (testQuiesce s).cu = s.cu := by obtain ⟨_, _, _, _, _, h⟩ := testQuiesce_shape s; rw [h]
@[simp] theorem testQuiesce_rq_space (s : State) : (testQuiesce s).rq.space = s.rq.space := by obtain ⟨_, _, _, _, _, h⟩ := testQuiesce_shape s; rw [h]
@[simp] theorem testQuiesce_rq_cardData (s : State) : (testQuiesce s).rq.cardData = s.rq.cardData := by obtain ⟨_, _, _, _, _, h⟩ := testQuiesce_shape s; rw [h]
@[simp] theorem testQuiesce_rq_cardControl (s : State) : (testQuiesce s).rq.cardControl = s.rq.cardControl := by obtain ⟨_, _, _, _, _, h⟩ := testQuiesce_shape s; rw [h]
@[simp] theorem testQuiesce_freeCount (s : State) : (testQuiesce s).freeCount = s.freeCount := by obtain ⟨_, _, _, _, _, h⟩ := testQuiesce_shape s; rw [h]
@[simp] theorem testQuiesce_pending (s : State) : (testQuiesce s).pending = s.pending := by obtain ⟨_, _, _, _, _, h⟩ := testQuiesce_shape s; rw [h]

/-! `appendData` -/

@[simp] theorem appendData_timebase (d : DataEntry) (s : State) : (appendData d s).timebase = s.timebase := rfl
@[simp] theorem appendData_porAsserted (d : DataEntry) (s : State) : (appendData d s).porAsserted = s.porAsserted := rfl
@[simp] theorem appendData_cardAsserted (d : DataEntry) (s : State) : (appendData d s).cardAsserted = s.cardAsserted := rfl
@[simp] theorem appendData_ti (d : DataEntry) (s : State) : (appendData d s).ti = s.ti := rfl
@[simp] theorem appendData_pwq_performed (d : DataEntry) (s : State) : (appendData d s).pwq.performed = s.pwq.performed := rfl
@[simp] theorem appendData_pwq_dropped (d : DataEntry) (s : State) : (appendData d s).pwq.dropped = s.pwq.dropped := rfl
@[simp] theorem appendData_slots (d : DataEntry) (s : State) : (appendData d s).slots = s.slots := rfl
@[simp] theorem appendData_ageOrder (d : DataEntry) (s : State) : (appendData d s).ageOrder = s.ageOrder := rfl
@[simp] theorem appendData_lock (d : DataEntry) (s : State) : (appendData d s).lock = s.lock := rfl
@[simp] theorem appendData_cbc (d : DataEntry) (s : State) : (appendData d s).cbc = s.cbc := rfl
@[simp] theorem appendData_arb (d : DataEntry) (s : State) : (appendData d s).arb = s.arb := rfl
@[simp] theorem appendData_lines (d : DataEntry) (s : State) : (appendData d s).lines = s.lines := rfl
@[simp] theorem appendData_cu (d : DataEntry) (s : State) : (appendData d s).cu = s.cu := rfl
@[simp] theorem appendData_rq (d : DataEntry) (s : State) : (appendData d s).rq = s.rq := rfl
@[simp] theorem appendData_gsc (d : DataEntry) (s : State) : (appendData d s).gsc = s.gsc := rfl
@[simp] theorem appendData_freeCount (d : DataEntry) (s : State) : (appendData d s).freeCount = s.freeCount := rfl
@[simp] theorem appendData_pending (d : DataEntry) (s : State) : (appendData d s).pending = s.pending := rfl

/-! `appendControl` -/

@[simp] theorem appendControl_timebase (c : ControlEntry) (s : State) : (appendControl c s).timebase = s.timebase := rfl
@[simp] theorem appendControl_porAsserted (c : ControlEntry) (s : State) : (appendControl c s).porAsserted = s.porAsserted := rfl
@[simp] theorem appendControl_cardAsserted (c : ControlEntry) (s : State) : (appendControl c s).cardAsserted = s.cardAsserted := rfl
@[simp] theorem appendControl_ti (c : ControlEntry) (s : State) : (appendControl c s).ti = s.ti := rfl
@[simp] theorem appendControl_windows (c : ControlEntry) (s : State) : (appendControl c s).windows = s.windows := rfl
@[simp] theorem appendControl_masters (c : ControlEntry) (s : State) : (appendControl c s).masters = s.masters := rfl
@[simp] theorem appendControl_pwq_accepted (c : ControlEntry) (s : State) : (appendControl c s).pwq.accepted = s.pwq.accepted := rfl
@[simp] theorem appendControl_pwq_performed (c : ControlEntry) (s : State) : (appendControl c s).pwq.performed = s.pwq.performed := rfl
@[simp] theorem appendControl_pwq_dropped (c : ControlEntry) (s : State) : (appendControl c s).pwq.dropped = s.pwq.dropped := rfl
@[simp] theorem appendControl_slots (c : ControlEntry) (s : State) : (appendControl c s).slots = s.slots := rfl
@[simp] theorem appendControl_ageOrder (c : ControlEntry) (s : State) : (appendControl c s).ageOrder = s.ageOrder := rfl
@[simp] theorem appendControl_lock (c : ControlEntry) (s : State) : (appendControl c s).lock = s.lock := rfl
@[simp] theorem appendControl_cbc (c : ControlEntry) (s : State) : (appendControl c s).cbc = s.cbc := rfl
@[simp] theorem appendControl_arb (c : ControlEntry) (s : State) : (appendControl c s).arb = s.arb := rfl
@[simp] theorem appendControl_lines (c : ControlEntry) (s : State) : (appendControl c s).lines = s.lines := rfl
@[simp] theorem appendControl_cu (c : ControlEntry) (s : State) : (appendControl c s).cu = s.cu := rfl
@[simp] theorem appendControl_rq (c : ControlEntry) (s : State) : (appendControl c s).rq = s.rq := rfl
@[simp] theorem appendControl_gsc (c : ControlEntry) (s : State) : (appendControl c s).gsc = s.gsc := rfl
@[simp] theorem appendControl_freeCount (c : ControlEntry) (s : State) : (appendControl c s).freeCount = s.freeCount := rfl
@[simp] theorem appendControl_pending (c : ControlEntry) (s : State) : (appendControl c s).pending = s.pending := rfl

/-! `setRequestLine` -/

@[simp] theorem setRequestLine_timebase (p : Port) (on : Bool) (s : State) : (setRequestLine p on s).timebase = s.timebase := rfl
@[simp] theorem setRequestLine_porAsserted (p : Port) (on : Bool) (s : State) : (setRequestLine p on s).porAsserted = s.porAsserted := rfl
@[simp] theorem setRequestLine_cardAsserted (p : Port) (on : Bool) (s : State) : (setRequestLine p on s).cardAsserted = s.cardAsserted := rfl
@[simp] theorem setRequestLine_ti (p : Port) (on : Bool) (s : State) : (setRequestLine p on s).ti = s.ti := rfl
@[simp] theorem setRequestLine_windows (p : Port) (on : Bool) (s : State) : (setRequestLine p on s).windows = s.windows := rfl
@[simp] theorem setRequestLine_masters (p : Port) (on : Bool) (s : State) : (setRequestLine p on s).masters = s.masters := rfl
@[simp] theorem setRequestLine_pwq (p : Port) (on : Bool) (s : State) : (setRequestLine p on s).pwq = s.pwq := rfl
@[simp] theorem setRequestLine_slots (p : Port) (on : Bool) (s : State) : (setRequestLine p on s).slots = s.slots := rfl
@[simp] theorem setRequestLine_ageOrder (p : Port) (on : Bool) (s : State) : (setRequestLine p on s).ageOrder = s.ageOrder := rfl
@[simp] theorem setRequestLine_lock (p : Port) (on : Bool) (s : State) : (setRequestLine p on s).lock = s.lock := rfl
@[simp] theorem setRequestLine_cbc (p : Port) (on : Bool) (s : State) : (setRequestLine p on s).cbc = s.cbc := rfl
@[simp] theorem setRequestLine_arb (p : Port) (on : Bool) (s : State) : (setRequestLine p on s).arb = s.arb := rfl
@[simp] theorem setRequestLine_lines_hold (p : Port) (on : Bool) (s : State) : (setRequestLine p on s).lines.hold = s.lines.hold := rfl
@[simp] theorem setRequestLine_cu (p : Port) (on : Bool) (s : State) : (setRequestLine p on s).cu = s.cu := rfl
@[simp] theorem setRequestLine_rq (p : Port) (on : Bool) (s : State) : (setRequestLine p on s).rq = s.rq := rfl
@[simp] theorem setRequestLine_gsc (p : Port) (on : Bool) (s : State) : (setRequestLine p on s).gsc = s.gsc := rfl
@[simp] theorem setRequestLine_freeCount (p : Port) (on : Bool) (s : State) : (setRequestLine p on s).freeCount = s.freeCount := rfl
@[simp] theorem setRequestLine_pending (p : Port) (on : Bool) (s : State) : (setRequestLine p on s).pending = s.pending := rfl

/-! `setHoldLine` -/

@[simp] theorem setHoldLine_timebase (p : Port) (on : Bool) (s : State) : (setHoldLine p on s).timebase = s.timebase := rfl
@[simp] theorem setHoldLine_porAsserted (p : Port) (on : Bool) (s : State) : (setHoldLine p on s).porAsserted = s.porAsserted := rfl
@[simp] theorem setHoldLine_cardAsserted (p : Port) (on : Bool) (s : State) : (setHoldLine p on s).cardAsserted = s.cardAsserted := rfl
@[simp] theorem setHoldLine_ti (p : Port) (on : Bool) (s : State) : (setHoldLine p on s).ti = s.ti := rfl
@[simp] theorem setHoldLine_windows (p : Port) (on : Bool) (s : State) : (setHoldLine p on s).windows = s.windows := rfl
@[simp] theorem setHoldLine_masters (p : Port) (on : Bool) (s : State) : (setHoldLine p on s).masters = s.masters := rfl
@[simp] theorem setHoldLine_pwq (p : Port) (on : Bool) (s : State) : (setHoldLine p on s).pwq = s.pwq := rfl
@[simp] theorem setHoldLine_slots (p : Port) (on : Bool) (s : State) : (setHoldLine p on s).slots = s.slots := rfl
@[simp] theorem setHoldLine_ageOrder (p : Port) (on : Bool) (s : State) : (setHoldLine p on s).ageOrder = s.ageOrder := rfl
@[simp] theorem setHoldLine_lock (p : Port) (on : Bool) (s : State) : (setHoldLine p on s).lock = s.lock := rfl
@[simp] theorem setHoldLine_cbc (p : Port) (on : Bool) (s : State) : (setHoldLine p on s).cbc = s.cbc := rfl
@[simp] theorem setHoldLine_arb (p : Port) (on : Bool) (s : State) : (setHoldLine p on s).arb = s.arb := rfl
@[simp] theorem setHoldLine_lines_request (p : Port) (on : Bool) (s : State) : (setHoldLine p on s).lines.request = s.lines.request := rfl
@[simp] theorem setHoldLine_cu (p : Port) (on : Bool) (s : State) : (setHoldLine p on s).cu = s.cu := rfl
@[simp] theorem setHoldLine_rq (p : Port) (on : Bool) (s : State) : (setHoldLine p on s).rq = s.rq := rfl
@[simp] theorem setHoldLine_gsc (p : Port) (on : Bool) (s : State) : (setHoldLine p on s).gsc = s.gsc := rfl
@[simp] theorem setHoldLine_freeCount (p : Port) (on : Bool) (s : State) : (setHoldLine p on s).freeCount = s.freeCount := rfl
@[simp] theorem setHoldLine_pending (p : Port) (on : Bool) (s : State) : (setHoldLine p on s).pending = s.pending := rfl

/-! `park` -/

@[simp] theorem park_timebase (s : State) : (park s).timebase = s.timebase := rfl
@[simp] theorem park_porAsserted (s : State) : (park s).porAsserted = s.porAsserted := rfl
@[simp] theorem park_cardAsserted (s : State) : (park s).cardAsserted = s.cardAsserted := rfl
@[simp] theorem park_ti (s : State) : (park s).ti = s.ti := rfl
@[simp] theorem park_windows (s : State) : (park s).windows = s.windows := rfl
@[simp] theorem park_masters (s : State) : (park s).masters = s.masters := rfl
@[simp] theorem park_pwq (s : State) : (park s).pwq = s.pwq := rfl
@[simp] theorem park_slots (s : State) : (park s).slots = s.slots := rfl
@[simp] theorem park_ageOrder (s : State) : (park s).ageOrder = s.ageOrder := rfl
@[simp] theorem park_lock (s : State) : (park s).lock = s.lock := rfl
@[simp] theorem park_cbc (s : State) : (park s).cbc = s.cbc := rfl
@[simp] theorem park_arb_pointer (s : State) : (park s).arb.pointer = s.arb.pointer := rfl
@[simp] theorem park_arb_lockHold (s : State) : (park s).arb.lockHold = s.arb.lockHold := rfl
@[simp] theorem park_arb_policy (s : State) : (park s).arb.policy = s.arb.policy := rfl
@[simp] theorem park_arb_highWater (s : State) : (park s).arb.highWater = s.arb.highWater := rfl
@[simp] theorem park_arb_enabled (s : State) : (park s).arb.enabled = s.arb.enabled := rfl
@[simp] theorem park_lines (s : State) : (park s).lines = s.lines := rfl
@[simp] theorem park_cu (s : State) : (park s).cu = s.cu := rfl
@[simp] theorem park_rq (s : State) : (park s).rq = s.rq := rfl
@[simp] theorem park_gsc (s : State) : (park s).gsc = s.gsc := rfl
@[simp] theorem park_freeCount (s : State) : (park s).freeCount = s.freeCount := rfl
@[simp] theorem park_pending (s : State) : (park s).pending = s.pending := rfl

/-- All that `grantTo` can change. -/
theorem grantTo_shape (r : Requester) (s : State) : ∃ (x0 : ArbState) (x1 : Requester) (x2 : Option Timer) (x3 : Bool), grantTo r s = { s with arb.state := x0, arb.pointer := x1, arb.overstay := x2, cbc.tenure := x3 } := by
  cases r with
  | gate => exact ⟨_, _, _, _, rfl⟩
  | port p => exact ⟨_, _, _, s.cbc.tenure, rfl⟩

@[simp] theorem grantTo_timebase (r : Requester) (s : State) : (grantTo r s).timebase = s.timebase := by obtain ⟨_, _, _, _, h⟩ := grantTo_shape r s; rw [h]
@[simp] theorem grantTo_porAsserted (r : Requester) (s : State) : (grantTo r s).porAsserted = s.porAsserted := by obtain ⟨_, _, _, _, h⟩ := grantTo_shape r s; rw [h]
@[simp] theorem grantTo_cardAsserted (r : Requester) (s : State) : (grantTo r s).cardAsserted = s.cardAsserted := by obtain ⟨_, _, _, _, h⟩ := grantTo_shape r s; rw [h]
@[simp] theorem grantTo_ti (r : Requester) (s : State) : (grantTo r s).ti = s.ti := by obtain ⟨_, _, _, _, h⟩ := grantTo_shape r s; rw [h]
@[simp] theorem grantTo_windows (r : Requester) (s : State) : (grantTo r s).windows = s.windows := by obtain ⟨_, _, _, _, h⟩ := grantTo_shape r s; rw [h]
@[simp] theorem grantTo_masters (r : Requester) (s : State) : (grantTo r s).masters = s.masters := by obtain ⟨_, _, _, _, h⟩ := grantTo_shape r s; rw [h]
@[simp] theorem grantTo_pwq (r : Requester) (s : State) : (grantTo r s).pwq = s.pwq := by obtain ⟨_, _, _, _, h⟩ := grantTo_shape r s; rw [h]
@[simp] theorem grantTo_slots (r : Requester) (s : State) : (grantTo r s).slots = s.slots := by obtain ⟨_, _, _, _, h⟩ := grantTo_shape r s; rw [h]
@[simp] theorem grantTo_ageOrder (r : Requester) (s : State) : (grantTo r s).ageOrder = s.ageOrder := by obtain ⟨_, _, _, _, h⟩ := grantTo_shape r s; rw [h]
@[simp] theorem grantTo_lock (r : Requester) (s : State) : (grantTo r s).lock = s.lock := by obtain ⟨_, _, _, _, h⟩ := grantTo_shape r s; rw [h]
@[simp] theorem grantTo_cbc_request (r : Requester) (s : State) : (grantTo r s).cbc.request = s.cbc.request := by obtain ⟨_, _, _, _, h⟩ := grantTo_shape r s; rw [h]
@[simp] theorem grantTo_cbc_access (r : Requester) (s : State) : (grantTo r s).cbc.access = s.cbc.access := by obtain ⟨_, _, _, _, h⟩ := grantTo_shape r s; rw [h]
@[simp] theorem grantTo_arb_lockHold (r : Requester) (s : State) : (grantTo r s).arb.lockHold = s.arb.lockHold := by obtain ⟨_, _, _, _, h⟩ := grantTo_shape r s; rw [h]
@[simp] theorem grantTo_arb_policy (r : Requester) (s : State) : (grantTo r s).arb.policy = s.arb.policy := by obtain ⟨_, _, _, _, h⟩ := grantTo_shape r s; rw [h]
@[simp] theorem grantTo_arb_highWater (r : Requester) (s : State) : (grantTo r s).arb.highWater = s.arb.highWater := by obtain ⟨_, _, _, _, h⟩ := grantTo_shape r s; rw [h]
@[simp] theorem grantTo_arb_enabled (r : Requester) (s : State) : (grantTo r s).arb.enabled = s.arb.enabled := by obtain ⟨_, _, _, _, h⟩ := grantTo_shape r s; rw [h]
@[simp] theorem grantTo_lines (r : Requester) (s : State) : (grantTo r s).lines = s.lines := by obtain ⟨_, _, _, _, h⟩ := grantTo_shape r s; rw [h]
@[simp] theorem grantTo_cu (r : Requester) (s : State) : (grantTo r s).cu = s.cu := by obtain ⟨_, _, _, _, h⟩ := grantTo_shape r s; rw [h]
@[simp] theorem grantTo_rq (r : Requester) (s : State) : (grantTo r s).rq = s.rq := by obtain ⟨_, _, _, _, h⟩ := grantTo_shape r s; rw [h]
@[simp] theorem grantTo_gsc (r : Requester) (s : State) : (grantTo r s).gsc = s.gsc := by obtain ⟨_, _, _, _, h⟩ := grantTo_shape r s; rw [h]
@[simp] theorem grantTo_freeCount (r : Requester) (s : State) : (grantTo r s).freeCount = s.freeCount := by obtain ⟨_, _, _, _, h⟩ := grantTo_shape r s; rw [h]
@[simp] theorem grantTo_pending (r : Requester) (s : State) : (grantTo r s).pending = s.pending := by obtain ⟨_, _, _, _, h⟩ := grantTo_shape r s; rw [h]

/-- All that `decision` can change. -/
theorem decision_shape (s : State) : ∃ (x0 : ArbState) (x1 : Requester) (x2 : Option Timer) (x3 : Bool), decision s = { s with arb.state := x0, arb.pointer := x1, arb.overstay := x2, cbc.tenure := x3 } := by
  unfold decision; split
  · exact grantTo_shape _ s
  · exact ⟨_, s.arb.pointer, _, s.cbc.tenure, rfl⟩

@[simp] theorem decision_timebase (s : State) : (decision s).timebase = s.timebase := by obtain ⟨_, _, _, _, h⟩ := decision_shape s; rw [h]
@[simp] theorem decision_porAsserted (s : State) : (decision s).porAsserted = s.porAsserted := by obtain ⟨_, _, _, _, h⟩ := decision_shape s; rw [h]
@[simp] theorem decision_cardAsserted (s : State) : (decision s).cardAsserted = s.cardAsserted := by obtain ⟨_, _, _, _, h⟩ := decision_shape s; rw [h]
@[simp] theorem decision_ti (s : State) : (decision s).ti = s.ti := by obtain ⟨_, _, _, _, h⟩ := decision_shape s; rw [h]
@[simp] theorem decision_windows (s : State) : (decision s).windows = s.windows := by obtain ⟨_, _, _, _, h⟩ := decision_shape s; rw [h]
@[simp] theorem decision_masters (s : State) : (decision s).masters = s.masters := by obtain ⟨_, _, _, _, h⟩ := decision_shape s; rw [h]
@[simp] theorem decision_pwq (s : State) : (decision s).pwq = s.pwq := by obtain ⟨_, _, _, _, h⟩ := decision_shape s; rw [h]
@[simp] theorem decision_slots (s : State) : (decision s).slots = s.slots := by obtain ⟨_, _, _, _, h⟩ := decision_shape s; rw [h]
@[simp] theorem decision_ageOrder (s : State) : (decision s).ageOrder = s.ageOrder := by obtain ⟨_, _, _, _, h⟩ := decision_shape s; rw [h]
@[simp] theorem decision_lock (s : State) : (decision s).lock = s.lock := by obtain ⟨_, _, _, _, h⟩ := decision_shape s; rw [h]
@[simp] theorem decision_cbc_request (s : State) : (decision s).cbc.request = s.cbc.request := by obtain ⟨_, _, _, _, h⟩ := decision_shape s; rw [h]
@[simp] theorem decision_cbc_access (s : State) : (decision s).cbc.access = s.cbc.access := by obtain ⟨_, _, _, _, h⟩ := decision_shape s; rw [h]
@[simp] theorem decision_arb_lockHold (s : State) : (decision s).arb.lockHold = s.arb.lockHold := by obtain ⟨_, _, _, _, h⟩ := decision_shape s; rw [h]
@[simp] theorem decision_arb_policy (s : State) : (decision s).arb.policy = s.arb.policy := by obtain ⟨_, _, _, _, h⟩ := decision_shape s; rw [h]
@[simp] theorem decision_arb_highWater (s : State) : (decision s).arb.highWater = s.arb.highWater := by obtain ⟨_, _, _, _, h⟩ := decision_shape s; rw [h]
@[simp] theorem decision_arb_enabled (s : State) : (decision s).arb.enabled = s.arb.enabled := by obtain ⟨_, _, _, _, h⟩ := decision_shape s; rw [h]
@[simp] theorem decision_lines (s : State) : (decision s).lines = s.lines := by obtain ⟨_, _, _, _, h⟩ := decision_shape s; rw [h]
@[simp] theorem decision_cu (s : State) : (decision s).cu = s.cu := by obtain ⟨_, _, _, _, h⟩ := decision_shape s; rw [h]
@[simp] theorem decision_rq (s : State) : (decision s).rq = s.rq := by obtain ⟨_, _, _, _, h⟩ := decision_shape s; rw [h]
@[simp] theorem decision_gsc (s : State) : (decision s).gsc = s.gsc := by obtain ⟨_, _, _, _, h⟩ := decision_shape s; rw [h]
@[simp] theorem decision_freeCount (s : State) : (decision s).freeCount = s.freeCount := by obtain ⟨_, _, _, _, h⟩ := decision_shape s; rw [h]
@[simp] theorem decision_pending (s : State) : (decision s).pending = s.pending := by obtain ⟨_, _, _, _, h⟩ := decision_shape s; rw [h]

/-- All that `requestArrives` can change. -/
theorem requestArrives_shape (r : Requester) (s : State) : ∃ (x0 : ArbState) (x1 : Requester) (x2 : Option Timer) (x3 : Bool), requestArrives r s = { s with arb.state := x0, arb.pointer := x1, arb.overstay := x2, cbc.tenure := x3 } := by
  unfold requestArrives; split
  · exact ⟨s.arb.state, s.arb.pointer, s.arb.overstay, s.cbc.tenure, rfl⟩
  · split
    · exact grantTo_shape r s
    · exact decision_shape s
  · exact ⟨s.arb.state, s.arb.pointer, s.arb.overstay, s.cbc.tenure, rfl⟩
  · split
    · exact ⟨_, s.arb.pointer, s.arb.overstay, s.cbc.tenure, rfl⟩
    · exact ⟨s.arb.state, s.arb.pointer, s.arb.overstay, s.cbc.tenure, rfl⟩

@[simp] theorem requestArrives_timebase (r : Requester) (s : State) : (requestArrives r s).timebase = s.timebase := by obtain ⟨_, _, _, _, h⟩ := requestArrives_shape r s; rw [h]
@[simp] theorem requestArrives_porAsserted (r : Requester) (s : State) : (requestArrives r s).porAsserted = s.porAsserted := by obtain ⟨_, _, _, _, h⟩ := requestArrives_shape r s; rw [h]
@[simp] theorem requestArrives_cardAsserted (r : Requester) (s : State) : (requestArrives r s).cardAsserted = s.cardAsserted := by obtain ⟨_, _, _, _, h⟩ := requestArrives_shape r s; rw [h]
@[simp] theorem requestArrives_ti (r : Requester) (s : State) : (requestArrives r s).ti = s.ti := by obtain ⟨_, _, _, _, h⟩ := requestArrives_shape r s; rw [h]
@[simp] theorem requestArrives_windows (r : Requester) (s : State) : (requestArrives r s).windows = s.windows := by obtain ⟨_, _, _, _, h⟩ := requestArrives_shape r s; rw [h]
@[simp] theorem requestArrives_masters (r : Requester) (s : State) : (requestArrives r s).masters = s.masters := by obtain ⟨_, _, _, _, h⟩ := requestArrives_shape r s; rw [h]
@[simp] theorem requestArrives_pwq (r : Requester) (s : State) : (requestArrives r s).pwq = s.pwq := by obtain ⟨_, _, _, _, h⟩ := requestArrives_shape r s; rw [h]
@[simp] theorem requestArrives_slots (r : Requester) (s : State) : (requestArrives r s).slots = s.slots := by obtain ⟨_, _, _, _, h⟩ := requestArrives_shape r s; rw [h]
@[simp] theorem requestArrives_ageOrder (r : Requester) (s : State) : (requestArrives r s).ageOrder = s.ageOrder := by obtain ⟨_, _, _, _, h⟩ := requestArrives_shape r s; rw [h]
@[simp] theorem requestArrives_lock (r : Requester) (s : State) : (requestArrives r s).lock = s.lock := by obtain ⟨_, _, _, _, h⟩ := requestArrives_shape r s; rw [h]
@[simp] theorem requestArrives_cbc_request (r : Requester) (s : State) : (requestArrives r s).cbc.request = s.cbc.request := by obtain ⟨_, _, _, _, h⟩ := requestArrives_shape r s; rw [h]
@[simp] theorem requestArrives_cbc_access (r : Requester) (s : State) : (requestArrives r s).cbc.access = s.cbc.access := by obtain ⟨_, _, _, _, h⟩ := requestArrives_shape r s; rw [h]
@[simp] theorem requestArrives_arb_lockHold (r : Requester) (s : State) : (requestArrives r s).arb.lockHold = s.arb.lockHold := by obtain ⟨_, _, _, _, h⟩ := requestArrives_shape r s; rw [h]
@[simp] theorem requestArrives_arb_policy (r : Requester) (s : State) : (requestArrives r s).arb.policy = s.arb.policy := by obtain ⟨_, _, _, _, h⟩ := requestArrives_shape r s; rw [h]
@[simp] theorem requestArrives_arb_highWater (r : Requester) (s : State) : (requestArrives r s).arb.highWater = s.arb.highWater := by obtain ⟨_, _, _, _, h⟩ := requestArrives_shape r s; rw [h]
@[simp] theorem requestArrives_arb_enabled (r : Requester) (s : State) : (requestArrives r s).arb.enabled = s.arb.enabled := by obtain ⟨_, _, _, _, h⟩ := requestArrives_shape r s; rw [h]
@[simp] theorem requestArrives_lines (r : Requester) (s : State) : (requestArrives r s).lines = s.lines := by obtain ⟨_, _, _, _, h⟩ := requestArrives_shape r s; rw [h]
@[simp] theorem requestArrives_cu (r : Requester) (s : State) : (requestArrives r s).cu = s.cu := by obtain ⟨_, _, _, _, h⟩ := requestArrives_shape r s; rw [h]
@[simp] theorem requestArrives_rq (r : Requester) (s : State) : (requestArrives r s).rq = s.rq := by obtain ⟨_, _, _, _, h⟩ := requestArrives_shape r s; rw [h]
@[simp] theorem requestArrives_gsc (r : Requester) (s : State) : (requestArrives r s).gsc = s.gsc := by obtain ⟨_, _, _, _, h⟩ := requestArrives_shape r s; rw [h]
@[simp] theorem requestArrives_freeCount (r : Requester) (s : State) : (requestArrives r s).freeCount = s.freeCount := by obtain ⟨_, _, _, _, h⟩ := requestArrives_shape r s; rw [h]
@[simp] theorem requestArrives_pending (r : Requester) (s : State) : (requestArrives r s).pending = s.pending := by obtain ⟨_, _, _, _, h⟩ := requestArrives_shape r s; rw [h]

/-- All that `reviewRequest` can change. -/
theorem reviewRequest_shape (s : State) : ∃ (x0 : ArbState) (x1 : Requester) (x2 : Option Timer) (x3 : Bool) (x4 : Bool), reviewRequest s = { s with arb.state := x0, arb.pointer := x1, arb.overstay := x2, cbc.request := x3, cbc.tenure := x4 } := by
  unfold reviewRequest; split
  · exact ⟨s.arb.state, s.arb.pointer, s.arb.overstay, s.cbc.request, s.cbc.tenure, rfl⟩
  · split
    · split
      · exact ⟨s.arb.state, s.arb.pointer, s.arb.overstay, s.cbc.request, s.cbc.tenure, rfl⟩
      · obtain ⟨a, b, c, d, h⟩ := requestArrives_shape .gate { s with cbc.request := true }
        exact ⟨a, b, c, true, d, h⟩
    · exact ⟨s.arb.state, s.arb.pointer, s.arb.overstay, _, s.cbc.tenure, rfl⟩

@[simp] theorem reviewRequest_timebase (s : State) : (reviewRequest s).timebase = s.timebase := by obtain ⟨_, _, _, _, _, h⟩ := reviewRequest_shape s; rw [h]
@[simp] theorem reviewRequest_porAsserted (s : State) : (reviewRequest s).porAsserted = s.porAsserted := by obtain ⟨_, _, _, _, _, h⟩ := reviewRequest_shape s; rw [h]
@[simp] theorem reviewRequest_cardAsserted (s : State) : (reviewRequest s).cardAsserted = s.cardAsserted := by obtain ⟨_, _, _, _, _, h⟩ := reviewRequest_shape s; rw [h]
@[simp] theorem reviewRequest_ti (s : State) : (reviewRequest s).ti = s.ti := by obtain ⟨_, _, _, _, _, h⟩ := reviewRequest_shape s; rw [h]
@[simp] theorem reviewRequest_windows (s : State) : (reviewRequest s).windows = s.windows := by obtain ⟨_, _, _, _, _, h⟩ := reviewRequest_shape s; rw [h]
@[simp] theorem reviewRequest_masters (s : State) : (reviewRequest s).masters = s.masters := by obtain ⟨_, _, _, _, _, h⟩ := reviewRequest_shape s; rw [h]
@[simp] theorem reviewRequest_pwq (s : State) : (reviewRequest s).pwq = s.pwq := by obtain ⟨_, _, _, _, _, h⟩ := reviewRequest_shape s; rw [h]
@[simp] theorem reviewRequest_slots (s : State) : (reviewRequest s).slots = s.slots := by obtain ⟨_, _, _, _, _, h⟩ := reviewRequest_shape s; rw [h]
@[simp] theorem reviewRequest_ageOrder (s : State) : (reviewRequest s).ageOrder = s.ageOrder := by obtain ⟨_, _, _, _, _, h⟩ := reviewRequest_shape s; rw [h]
@[simp] theorem reviewRequest_lock (s : State) : (reviewRequest s).lock = s.lock := by obtain ⟨_, _, _, _, _, h⟩ := reviewRequest_shape s; rw [h]
@[simp] theorem reviewRequest_cbc_access (s : State) : (reviewRequest s).cbc.access = s.cbc.access := by obtain ⟨_, _, _, _, _, h⟩ := reviewRequest_shape s; rw [h]
@[simp] theorem reviewRequest_arb_lockHold (s : State) : (reviewRequest s).arb.lockHold = s.arb.lockHold := by obtain ⟨_, _, _, _, _, h⟩ := reviewRequest_shape s; rw [h]
@[simp] theorem reviewRequest_arb_policy (s : State) : (reviewRequest s).arb.policy = s.arb.policy := by obtain ⟨_, _, _, _, _, h⟩ := reviewRequest_shape s; rw [h]
@[simp] theorem reviewRequest_arb_highWater (s : State) : (reviewRequest s).arb.highWater = s.arb.highWater := by obtain ⟨_, _, _, _, _, h⟩ := reviewRequest_shape s; rw [h]
@[simp] theorem reviewRequest_arb_enabled (s : State) : (reviewRequest s).arb.enabled = s.arb.enabled := by obtain ⟨_, _, _, _, _, h⟩ := reviewRequest_shape s; rw [h]
@[simp] theorem reviewRequest_lines (s : State) : (reviewRequest s).lines = s.lines := by obtain ⟨_, _, _, _, _, h⟩ := reviewRequest_shape s; rw [h]
@[simp] theorem reviewRequest_cu (s : State) : (reviewRequest s).cu = s.cu := by obtain ⟨_, _, _, _, _, h⟩ := reviewRequest_shape s; rw [h]
@[simp] theorem reviewRequest_rq (s : State) : (reviewRequest s).rq = s.rq := by obtain ⟨_, _, _, _, _, h⟩ := reviewRequest_shape s; rw [h]
@[simp] theorem reviewRequest_gsc (s : State) : (reviewRequest s).gsc = s.gsc := by obtain ⟨_, _, _, _, _, h⟩ := reviewRequest_shape s; rw [h]
@[simp] theorem reviewRequest_freeCount (s : State) : (reviewRequest s).freeCount = s.freeCount := by obtain ⟨_, _, _, _, _, h⟩ := reviewRequest_shape s; rw [h]
@[simp] theorem reviewRequest_pending (s : State) : (reviewRequest s).pending = s.pending := by obtain ⟨_, _, _, _, _, h⟩ := reviewRequest_shape s; rw [h]

/-- All that `gateTenureEnds` can change. -/
theorem gateTenureEnds_shape (s : State) : ∃ (x0 : ArbState) (x1 : Requester) (x2 : Option Timer) (x3 : Bool), gateTenureEnds s = { s with arb.state := x0, arb.pointer := x1, arb.overstay := x2, cbc.tenure := x3 } := by
  unfold gateTenureEnds; split
  · exact decision_shape s
  · exact decision_shape s
  · exact ⟨s.arb.state, s.arb.pointer, s.arb.overstay, s.cbc.tenure, rfl⟩

@[simp] theorem gateTenureEnds_timebase (s : State) : (gateTenureEnds s).timebase = s.timebase := by obtain ⟨_, _, _, _, h⟩ := gateTenureEnds_shape s; rw [h]
@[simp] theorem gateTenureEnds_porAsserted (s : State) : (gateTenureEnds s).porAsserted = s.porAsserted := by obtain ⟨_, _, _, _, h⟩ := gateTenureEnds_shape s; rw [h]
@[simp] theorem gateTenureEnds_cardAsserted (s : State) : (gateTenureEnds s).cardAsserted = s.cardAsserted := by obtain ⟨_, _, _, _, h⟩ := gateTenureEnds_shape s; rw [h]
@[simp] theorem gateTenureEnds_ti (s : State) : (gateTenureEnds s).ti = s.ti := by obtain ⟨_, _, _, _, h⟩ := gateTenureEnds_shape s; rw [h]
@[simp] theorem gateTenureEnds_windows (s : State) : (gateTenureEnds s).windows = s.windows := by obtain ⟨_, _, _, _, h⟩ := gateTenureEnds_shape s; rw [h]
@[simp] theorem gateTenureEnds_masters (s : State) : (gateTenureEnds s).masters = s.masters := by obtain ⟨_, _, _, _, h⟩ := gateTenureEnds_shape s; rw [h]
@[simp] theorem gateTenureEnds_pwq (s : State) : (gateTenureEnds s).pwq = s.pwq := by obtain ⟨_, _, _, _, h⟩ := gateTenureEnds_shape s; rw [h]
@[simp] theorem gateTenureEnds_slots (s : State) : (gateTenureEnds s).slots = s.slots := by obtain ⟨_, _, _, _, h⟩ := gateTenureEnds_shape s; rw [h]
@[simp] theorem gateTenureEnds_ageOrder (s : State) : (gateTenureEnds s).ageOrder = s.ageOrder := by obtain ⟨_, _, _, _, h⟩ := gateTenureEnds_shape s; rw [h]
@[simp] theorem gateTenureEnds_lock (s : State) : (gateTenureEnds s).lock = s.lock := by obtain ⟨_, _, _, _, h⟩ := gateTenureEnds_shape s; rw [h]
@[simp] theorem gateTenureEnds_cbc_request (s : State) : (gateTenureEnds s).cbc.request = s.cbc.request := by obtain ⟨_, _, _, _, h⟩ := gateTenureEnds_shape s; rw [h]
@[simp] theorem gateTenureEnds_cbc_access (s : State) : (gateTenureEnds s).cbc.access = s.cbc.access := by obtain ⟨_, _, _, _, h⟩ := gateTenureEnds_shape s; rw [h]
@[simp] theorem gateTenureEnds_arb_lockHold (s : State) : (gateTenureEnds s).arb.lockHold = s.arb.lockHold := by obtain ⟨_, _, _, _, h⟩ := gateTenureEnds_shape s; rw [h]
@[simp] theorem gateTenureEnds_arb_policy (s : State) : (gateTenureEnds s).arb.policy = s.arb.policy := by obtain ⟨_, _, _, _, h⟩ := gateTenureEnds_shape s; rw [h]
@[simp] theorem gateTenureEnds_arb_highWater (s : State) : (gateTenureEnds s).arb.highWater = s.arb.highWater := by obtain ⟨_, _, _, _, h⟩ := gateTenureEnds_shape s; rw [h]
@[simp] theorem gateTenureEnds_arb_enabled (s : State) : (gateTenureEnds s).arb.enabled = s.arb.enabled := by obtain ⟨_, _, _, _, h⟩ := gateTenureEnds_shape s; rw [h]
@[simp] theorem gateTenureEnds_lines (s : State) : (gateTenureEnds s).lines = s.lines := by obtain ⟨_, _, _, _, h⟩ := gateTenureEnds_shape s; rw [h]
@[simp] theorem gateTenureEnds_cu (s : State) : (gateTenureEnds s).cu = s.cu := by obtain ⟨_, _, _, _, h⟩ := gateTenureEnds_shape s; rw [h]
@[simp] theorem gateTenureEnds_rq (s : State) : (gateTenureEnds s).rq = s.rq := by obtain ⟨_, _, _, _, h⟩ := gateTenureEnds_shape s; rw [h]
@[simp] theorem gateTenureEnds_gsc (s : State) : (gateTenureEnds s).gsc = s.gsc := by obtain ⟨_, _, _, _, h⟩ := gateTenureEnds_shape s; rw [h]
@[simp] theorem gateTenureEnds_freeCount (s : State) : (gateTenureEnds s).freeCount = s.freeCount := by obtain ⟨_, _, _, _, h⟩ := gateTenureEnds_shape s; rw [h]
@[simp] theorem gateTenureEnds_pending (s : State) : (gateTenureEnds s).pending = s.pending := by obtain ⟨_, _, _, _, h⟩ := gateTenureEnds_shape s; rw [h]

/-- All that `endTenure` can change. -/
theorem endTenure_shape (s : State) : ∃ (x0 : ArbState) (x1 : Requester) (x2 : Option Timer) (x3 : Bool) (x4 : Bool), endTenure s = { s with arb.state := x0, arb.pointer := x1, arb.overstay := x2, cbc.request := x3, cbc.tenure := x4 } := by
  obtain ⟨a, b, c, d, h⟩ := gateTenureEnds_shape { s with cbc.tenure := false, cbc.request := hasCandidate s }
  exact ⟨a, b, c, hasCandidate s, d, h⟩

@[simp] theorem endTenure_timebase (s : State) : (endTenure s).timebase = s.timebase := by obtain ⟨_, _, _, _, _, h⟩ := endTenure_shape s; rw [h]
@[simp] theorem endTenure_porAsserted (s : State) : (endTenure s).porAsserted = s.porAsserted := by obtain ⟨_, _, _, _, _, h⟩ := endTenure_shape s; rw [h]
@[simp] theorem endTenure_cardAsserted (s : State) : (endTenure s).cardAsserted = s.cardAsserted := by obtain ⟨_, _, _, _, _, h⟩ := endTenure_shape s; rw [h]
@[simp] theorem endTenure_ti (s : State) : (endTenure s).ti = s.ti := by obtain ⟨_, _, _, _, _, h⟩ := endTenure_shape s; rw [h]
@[simp] theorem endTenure_windows (s : State) : (endTenure s).windows = s.windows := by obtain ⟨_, _, _, _, _, h⟩ := endTenure_shape s; rw [h]
@[simp] theorem endTenure_masters (s : State) : (endTenure s).masters = s.masters := by obtain ⟨_, _, _, _, _, h⟩ := endTenure_shape s; rw [h]
@[simp] theorem endTenure_pwq (s : State) : (endTenure s).pwq = s.pwq := by obtain ⟨_, _, _, _, _, h⟩ := endTenure_shape s; rw [h]
@[simp] theorem endTenure_slots (s : State) : (endTenure s).slots = s.slots := by obtain ⟨_, _, _, _, _, h⟩ := endTenure_shape s; rw [h]
@[simp] theorem endTenure_ageOrder (s : State) : (endTenure s).ageOrder = s.ageOrder := by obtain ⟨_, _, _, _, _, h⟩ := endTenure_shape s; rw [h]
@[simp] theorem endTenure_lock (s : State) : (endTenure s).lock = s.lock := by obtain ⟨_, _, _, _, _, h⟩ := endTenure_shape s; rw [h]
@[simp] theorem endTenure_cbc_access (s : State) : (endTenure s).cbc.access = s.cbc.access := by obtain ⟨_, _, _, _, _, h⟩ := endTenure_shape s; rw [h]
@[simp] theorem endTenure_arb_lockHold (s : State) : (endTenure s).arb.lockHold = s.arb.lockHold := by obtain ⟨_, _, _, _, _, h⟩ := endTenure_shape s; rw [h]
@[simp] theorem endTenure_arb_policy (s : State) : (endTenure s).arb.policy = s.arb.policy := by obtain ⟨_, _, _, _, _, h⟩ := endTenure_shape s; rw [h]
@[simp] theorem endTenure_arb_highWater (s : State) : (endTenure s).arb.highWater = s.arb.highWater := by obtain ⟨_, _, _, _, _, h⟩ := endTenure_shape s; rw [h]
@[simp] theorem endTenure_arb_enabled (s : State) : (endTenure s).arb.enabled = s.arb.enabled := by obtain ⟨_, _, _, _, _, h⟩ := endTenure_shape s; rw [h]
@[simp] theorem endTenure_lines (s : State) : (endTenure s).lines = s.lines := by obtain ⟨_, _, _, _, _, h⟩ := endTenure_shape s; rw [h]
@[simp] theorem endTenure_cu (s : State) : (endTenure s).cu = s.cu := by obtain ⟨_, _, _, _, _, h⟩ := endTenure_shape s; rw [h]
@[simp] theorem endTenure_rq (s : State) : (endTenure s).rq = s.rq := by obtain ⟨_, _, _, _, _, h⟩ := endTenure_shape s; rw [h]
@[simp] theorem endTenure_gsc (s : State) : (endTenure s).gsc = s.gsc := by obtain ⟨_, _, _, _, _, h⟩ := endTenure_shape s; rw [h]
@[simp] theorem endTenure_freeCount (s : State) : (endTenure s).freeCount = s.freeCount := by obtain ⟨_, _, _, _, _, h⟩ := endTenure_shape s; rw [h]
@[simp] theorem endTenure_pending (s : State) : (endTenure s).pending = s.pending := by obtain ⟨_, _, _, _, _, h⟩ := endTenure_shape s; rw [h]

/-- All that `settleTenure` can change. -/
theorem settleTenure_shape (s : State) : ∃ (x0 : ArbState) (x1 : Requester) (x2 : Option Timer) (x3 : Bool) (x4 : Bool), settleTenure s = { s with arb.state := x0, arb.pointer := x1, arb.overstay := x2, cbc.request := x3, cbc.tenure := x4 } := by
  unfold settleTenure; split
  · exact ⟨s.arb.state, s.arb.pointer, s.arb.overstay, s.cbc.request, s.cbc.tenure, rfl⟩
  · exact endTenure_shape s

@[simp] theorem settleTenure_timebase (s : State) : (settleTenure s).timebase = s.timebase := by obtain ⟨_, _, _, _, _, h⟩ := settleTenure_shape s; rw [h]
@[simp] theorem settleTenure_porAsserted (s : State) : (settleTenure s).porAsserted = s.porAsserted := by obtain ⟨_, _, _, _, _, h⟩ := settleTenure_shape s; rw [h]
@[simp] theorem settleTenure_cardAsserted (s : State) : (settleTenure s).cardAsserted = s.cardAsserted := by obtain ⟨_, _, _, _, _, h⟩ := settleTenure_shape s; rw [h]
@[simp] theorem settleTenure_ti (s : State) : (settleTenure s).ti = s.ti := by obtain ⟨_, _, _, _, _, h⟩ := settleTenure_shape s; rw [h]
@[simp] theorem settleTenure_windows (s : State) : (settleTenure s).windows = s.windows := by obtain ⟨_, _, _, _, _, h⟩ := settleTenure_shape s; rw [h]
@[simp] theorem settleTenure_masters (s : State) : (settleTenure s).masters = s.masters := by obtain ⟨_, _, _, _, _, h⟩ := settleTenure_shape s; rw [h]
@[simp] theorem settleTenure_pwq (s : State) : (settleTenure s).pwq = s.pwq := by obtain ⟨_, _, _, _, _, h⟩ := settleTenure_shape s; rw [h]
@[simp] theorem settleTenure_slots (s : State) : (settleTenure s).slots = s.slots := by obtain ⟨_, _, _, _, _, h⟩ := settleTenure_shape s; rw [h]
@[simp] theorem settleTenure_ageOrder (s : State) : (settleTenure s).ageOrder = s.ageOrder := by obtain ⟨_, _, _, _, _, h⟩ := settleTenure_shape s; rw [h]
@[simp] theorem settleTenure_lock (s : State) : (settleTenure s).lock = s.lock := by obtain ⟨_, _, _, _, _, h⟩ := settleTenure_shape s; rw [h]
@[simp] theorem settleTenure_cbc_access (s : State) : (settleTenure s).cbc.access = s.cbc.access := by obtain ⟨_, _, _, _, _, h⟩ := settleTenure_shape s; rw [h]
@[simp] theorem settleTenure_arb_lockHold (s : State) : (settleTenure s).arb.lockHold = s.arb.lockHold := by obtain ⟨_, _, _, _, _, h⟩ := settleTenure_shape s; rw [h]
@[simp] theorem settleTenure_arb_policy (s : State) : (settleTenure s).arb.policy = s.arb.policy := by obtain ⟨_, _, _, _, _, h⟩ := settleTenure_shape s; rw [h]
@[simp] theorem settleTenure_arb_highWater (s : State) : (settleTenure s).arb.highWater = s.arb.highWater := by obtain ⟨_, _, _, _, _, h⟩ := settleTenure_shape s; rw [h]
@[simp] theorem settleTenure_arb_enabled (s : State) : (settleTenure s).arb.enabled = s.arb.enabled := by obtain ⟨_, _, _, _, _, h⟩ := settleTenure_shape s; rw [h]
@[simp] theorem settleTenure_lines (s : State) : (settleTenure s).lines = s.lines := by obtain ⟨_, _, _, _, _, h⟩ := settleTenure_shape s; rw [h]
@[simp] theorem settleTenure_cu (s : State) : (settleTenure s).cu = s.cu := by obtain ⟨_, _, _, _, _, h⟩ := settleTenure_shape s; rw [h]
@[simp] theorem settleTenure_rq (s : State) : (settleTenure s).rq = s.rq := by obtain ⟨_, _, _, _, _, h⟩ := settleTenure_shape s; rw [h]
@[simp] theorem settleTenure_gsc (s : State) : (settleTenure s).gsc = s.gsc := by obtain ⟨_, _, _, _, _, h⟩ := settleTenure_shape s; rw [h]
@[simp] theorem settleTenure_freeCount (s : State) : (settleTenure s).freeCount = s.freeCount := by obtain ⟨_, _, _, _, _, h⟩ := settleTenure_shape s; rw [h]
@[simp] theorem settleTenure_pending (s : State) : (settleTenure s).pending = s.pending := by obtain ⟨_, _, _, _, _, h⟩ := settleTenure_shape s; rw [h]

/-- All that `endIdleTenure` can change. -/
theorem endIdleTenure_shape (held : Bool) (s : State) : ∃ (x0 : ArbState) (x1 : Requester) (x2 : Option Timer) (x3 : Bool) (x4 : Bool), endIdleTenure held s = { s with arb.state := x0, arb.pointer := x1, arb.overstay := x2, cbc.request := x3, cbc.tenure := x4 } := by
  unfold endIdleTenure; split
  · exact endTenure_shape s
  · exact ⟨s.arb.state, s.arb.pointer, s.arb.overstay, s.cbc.request, s.cbc.tenure, rfl⟩

@[simp] theorem endIdleTenure_timebase (held : Bool) (s : State) : (endIdleTenure held s).timebase = s.timebase := by obtain ⟨_, _, _, _, _, h⟩ := endIdleTenure_shape held s; rw [h]
@[simp] theorem endIdleTenure_porAsserted (held : Bool) (s : State) : (endIdleTenure held s).porAsserted = s.porAsserted := by obtain ⟨_, _, _, _, _, h⟩ := endIdleTenure_shape held s; rw [h]
@[simp] theorem endIdleTenure_cardAsserted (held : Bool) (s : State) : (endIdleTenure held s).cardAsserted = s.cardAsserted := by obtain ⟨_, _, _, _, _, h⟩ := endIdleTenure_shape held s; rw [h]
@[simp] theorem endIdleTenure_ti (held : Bool) (s : State) : (endIdleTenure held s).ti = s.ti := by obtain ⟨_, _, _, _, _, h⟩ := endIdleTenure_shape held s; rw [h]
@[simp] theorem endIdleTenure_windows (held : Bool) (s : State) : (endIdleTenure held s).windows = s.windows := by obtain ⟨_, _, _, _, _, h⟩ := endIdleTenure_shape held s; rw [h]
@[simp] theorem endIdleTenure_masters (held : Bool) (s : State) : (endIdleTenure held s).masters = s.masters := by obtain ⟨_, _, _, _, _, h⟩ := endIdleTenure_shape held s; rw [h]
@[simp] theorem endIdleTenure_pwq (held : Bool) (s : State) : (endIdleTenure held s).pwq = s.pwq := by obtain ⟨_, _, _, _, _, h⟩ := endIdleTenure_shape held s; rw [h]
@[simp] theorem endIdleTenure_slots (held : Bool) (s : State) : (endIdleTenure held s).slots = s.slots := by obtain ⟨_, _, _, _, _, h⟩ := endIdleTenure_shape held s; rw [h]
@[simp] theorem endIdleTenure_ageOrder (held : Bool) (s : State) : (endIdleTenure held s).ageOrder = s.ageOrder := by obtain ⟨_, _, _, _, _, h⟩ := endIdleTenure_shape held s; rw [h]
@[simp] theorem endIdleTenure_lock (held : Bool) (s : State) : (endIdleTenure held s).lock = s.lock := by obtain ⟨_, _, _, _, _, h⟩ := endIdleTenure_shape held s; rw [h]
@[simp] theorem endIdleTenure_cbc_access (held : Bool) (s : State) : (endIdleTenure held s).cbc.access = s.cbc.access := by obtain ⟨_, _, _, _, _, h⟩ := endIdleTenure_shape held s; rw [h]
@[simp] theorem endIdleTenure_arb_lockHold (held : Bool) (s : State) : (endIdleTenure held s).arb.lockHold = s.arb.lockHold := by obtain ⟨_, _, _, _, _, h⟩ := endIdleTenure_shape held s; rw [h]
@[simp] theorem endIdleTenure_arb_policy (held : Bool) (s : State) : (endIdleTenure held s).arb.policy = s.arb.policy := by obtain ⟨_, _, _, _, _, h⟩ := endIdleTenure_shape held s; rw [h]
@[simp] theorem endIdleTenure_arb_highWater (held : Bool) (s : State) : (endIdleTenure held s).arb.highWater = s.arb.highWater := by obtain ⟨_, _, _, _, _, h⟩ := endIdleTenure_shape held s; rw [h]
@[simp] theorem endIdleTenure_arb_enabled (held : Bool) (s : State) : (endIdleTenure held s).arb.enabled = s.arb.enabled := by obtain ⟨_, _, _, _, _, h⟩ := endIdleTenure_shape held s; rw [h]
@[simp] theorem endIdleTenure_lines (held : Bool) (s : State) : (endIdleTenure held s).lines = s.lines := by obtain ⟨_, _, _, _, _, h⟩ := endIdleTenure_shape held s; rw [h]
@[simp] theorem endIdleTenure_cu (held : Bool) (s : State) : (endIdleTenure held s).cu = s.cu := by obtain ⟨_, _, _, _, _, h⟩ := endIdleTenure_shape held s; rw [h]
@[simp] theorem endIdleTenure_rq (held : Bool) (s : State) : (endIdleTenure held s).rq = s.rq := by obtain ⟨_, _, _, _, _, h⟩ := endIdleTenure_shape held s; rw [h]
@[simp] theorem endIdleTenure_gsc (held : Bool) (s : State) : (endIdleTenure held s).gsc = s.gsc := by obtain ⟨_, _, _, _, _, h⟩ := endIdleTenure_shape held s; rw [h]
@[simp] theorem endIdleTenure_freeCount (held : Bool) (s : State) : (endIdleTenure held s).freeCount = s.freeCount := by obtain ⟨_, _, _, _, _, h⟩ := endIdleTenure_shape held s; rw [h]
@[simp] theorem endIdleTenure_pending (held : Bool) (s : State) : (endIdleTenure held s).pending = s.pending := by obtain ⟨_, _, _, _, _, h⟩ := endIdleTenure_shape held s; rw [h]

/-! `takeHold` -/

@[simp] theorem takeHold_timebase (s : State) : (takeHold s).timebase = s.timebase := rfl
@[simp] theorem takeHold_porAsserted (s : State) : (takeHold s).porAsserted = s.porAsserted := rfl
@[simp] theorem takeHold_cardAsserted (s : State) : (takeHold s).cardAsserted = s.cardAsserted := rfl
@[simp] theorem takeHold_ti (s : State) : (takeHold s).ti = s.ti := rfl
@[simp] theorem takeHold_windows (s : State) : (takeHold s).windows = s.windows := rfl
@[simp] theorem takeHold_masters (s : State) : (takeHold s).masters = s.masters := rfl
@[simp] theorem takeHold_pwq (s : State) : (takeHold s).pwq = s.pwq := rfl
@[simp] theorem takeHold_slots (s : State) : (takeHold s).slots = s.slots := rfl
@[simp] theorem takeHold_ageOrder (s : State) : (takeHold s).ageOrder = s.ageOrder := rfl
@[simp] theorem takeHold_lock (s : State) : (takeHold s).lock = s.lock := rfl
@[simp] theorem takeHold_cbc (s : State) : (takeHold s).cbc = s.cbc := rfl
@[simp] theorem takeHold_arb_pointer (s : State) : (takeHold s).arb.pointer = s.arb.pointer := rfl
@[simp] theorem takeHold_arb_overstay (s : State) : (takeHold s).arb.overstay = s.arb.overstay := rfl
@[simp] theorem takeHold_arb_policy (s : State) : (takeHold s).arb.policy = s.arb.policy := rfl
@[simp] theorem takeHold_arb_highWater (s : State) : (takeHold s).arb.highWater = s.arb.highWater := rfl
@[simp] theorem takeHold_arb_enabled (s : State) : (takeHold s).arb.enabled = s.arb.enabled := rfl
@[simp] theorem takeHold_lines (s : State) : (takeHold s).lines = s.lines := rfl
@[simp] theorem takeHold_cu (s : State) : (takeHold s).cu = s.cu := rfl
@[simp] theorem takeHold_rq (s : State) : (takeHold s).rq = s.rq := rfl
@[simp] theorem takeHold_gsc (s : State) : (takeHold s).gsc = s.gsc := rfl
@[simp] theorem takeHold_freeCount (s : State) : (takeHold s).freeCount = s.freeCount := rfl
@[simp] theorem takeHold_pending (s : State) : (takeHold s).pending = s.pending := rfl

/-- All that `releaseHold` can change. -/
theorem releaseHold_shape (s : State) : ∃ (x0 : ArbState) (x1 : Requester) (x2 : Option Timer) (x3 : Bool) (x4 : Bool) (x5 : Bool), releaseHold s = { s with arb.state := x0, arb.pointer := x1, arb.overstay := x2, cbc.request := x3, cbc.tenure := x4, arb.lockHold := x5 } := by
  unfold releaseHold; split
  · exact ⟨_, s.arb.pointer, s.arb.overstay, s.cbc.request, s.cbc.tenure, _, rfl⟩
  · exact ⟨s.arb.state, s.arb.pointer, s.arb.overstay, s.cbc.request, s.cbc.tenure, s.arb.lockHold, rfl⟩

@[simp] theorem releaseHold_timebase (s : State) : (releaseHold s).timebase = s.timebase := by obtain ⟨_, _, _, _, _, _, h⟩ := releaseHold_shape s; rw [h]
@[simp] theorem releaseHold_porAsserted (s : State) : (releaseHold s).porAsserted = s.porAsserted := by obtain ⟨_, _, _, _, _, _, h⟩ := releaseHold_shape s; rw [h]
@[simp] theorem releaseHold_cardAsserted (s : State) : (releaseHold s).cardAsserted = s.cardAsserted := by obtain ⟨_, _, _, _, _, _, h⟩ := releaseHold_shape s; rw [h]
@[simp] theorem releaseHold_ti (s : State) : (releaseHold s).ti = s.ti := by obtain ⟨_, _, _, _, _, _, h⟩ := releaseHold_shape s; rw [h]
@[simp] theorem releaseHold_windows (s : State) : (releaseHold s).windows = s.windows := by obtain ⟨_, _, _, _, _, _, h⟩ := releaseHold_shape s; rw [h]
@[simp] theorem releaseHold_masters (s : State) : (releaseHold s).masters = s.masters := by obtain ⟨_, _, _, _, _, _, h⟩ := releaseHold_shape s; rw [h]
@[simp] theorem releaseHold_pwq (s : State) : (releaseHold s).pwq = s.pwq := by obtain ⟨_, _, _, _, _, _, h⟩ := releaseHold_shape s; rw [h]
@[simp] theorem releaseHold_slots (s : State) : (releaseHold s).slots = s.slots := by obtain ⟨_, _, _, _, _, _, h⟩ := releaseHold_shape s; rw [h]
@[simp] theorem releaseHold_ageOrder (s : State) : (releaseHold s).ageOrder = s.ageOrder := by obtain ⟨_, _, _, _, _, _, h⟩ := releaseHold_shape s; rw [h]
@[simp] theorem releaseHold_lock (s : State) : (releaseHold s).lock = s.lock := by obtain ⟨_, _, _, _, _, _, h⟩ := releaseHold_shape s; rw [h]
@[simp] theorem releaseHold_cbc_access (s : State) : (releaseHold s).cbc.access = s.cbc.access := by obtain ⟨_, _, _, _, _, _, h⟩ := releaseHold_shape s; rw [h]
@[simp] theorem releaseHold_arb_policy (s : State) : (releaseHold s).arb.policy = s.arb.policy := by obtain ⟨_, _, _, _, _, _, h⟩ := releaseHold_shape s; rw [h]
@[simp] theorem releaseHold_arb_highWater (s : State) : (releaseHold s).arb.highWater = s.arb.highWater := by obtain ⟨_, _, _, _, _, _, h⟩ := releaseHold_shape s; rw [h]
@[simp] theorem releaseHold_arb_enabled (s : State) : (releaseHold s).arb.enabled = s.arb.enabled := by obtain ⟨_, _, _, _, _, _, h⟩ := releaseHold_shape s; rw [h]
@[simp] theorem releaseHold_lines (s : State) : (releaseHold s).lines = s.lines := by obtain ⟨_, _, _, _, _, _, h⟩ := releaseHold_shape s; rw [h]
@[simp] theorem releaseHold_cu (s : State) : (releaseHold s).cu = s.cu := by obtain ⟨_, _, _, _, _, _, h⟩ := releaseHold_shape s; rw [h]
@[simp] theorem releaseHold_rq (s : State) : (releaseHold s).rq = s.rq := by obtain ⟨_, _, _, _, _, _, h⟩ := releaseHold_shape s; rw [h]
@[simp] theorem releaseHold_gsc (s : State) : (releaseHold s).gsc = s.gsc := by obtain ⟨_, _, _, _, _, _, h⟩ := releaseHold_shape s; rw [h]
@[simp] theorem releaseHold_freeCount (s : State) : (releaseHold s).freeCount = s.freeCount := by obtain ⟨_, _, _, _, _, _, h⟩ := releaseHold_shape s; rw [h]
@[simp] theorem releaseHold_pending (s : State) : (releaseHold s).pending = s.pending := by obtain ⟨_, _, _, _, _, _, h⟩ := releaseHold_shape s; rw [h]

/-! `takeChoice` -/

@[simp] theorem takeChoice_timebase (s : State) : (takeChoice s).timebase = s.timebase := rfl
@[simp] theorem takeChoice_porAsserted (s : State) : (takeChoice s).porAsserted = s.porAsserted := rfl
@[simp] theorem takeChoice_cardAsserted (s : State) : (takeChoice s).cardAsserted = s.cardAsserted := rfl
@[simp] theorem takeChoice_ti (s : State) : (takeChoice s).ti = s.ti := rfl
@[simp] theorem takeChoice_windows (s : State) : (takeChoice s).windows = s.windows := rfl
@[simp] theorem takeChoice_masters (s : State) : (takeChoice s).masters = s.masters := rfl
@[simp] theorem takeChoice_pwq (s : State) : (takeChoice s).pwq = s.pwq := rfl
@[simp] theorem takeChoice_slots (s : State) : (takeChoice s).slots = s.slots := rfl
@[simp] theorem takeChoice_ageOrder (s : State) : (takeChoice s).ageOrder = s.ageOrder := rfl
@[simp] theorem takeChoice_lock (s : State) : (takeChoice s).lock = s.lock := rfl
@[simp] theorem takeChoice_cbc (s : State) : (takeChoice s).cbc = s.cbc := rfl
@[simp] theorem takeChoice_arb (s : State) : (takeChoice s).arb = s.arb := rfl
@[simp] theorem takeChoice_lines (s : State) : (takeChoice s).lines = s.lines := rfl
@[simp] theorem takeChoice_cu (s : State) : (takeChoice s).cu = s.cu := rfl
@[simp] theorem takeChoice_rq (s : State) : (takeChoice s).rq = s.rq := rfl
@[simp] theorem takeChoice_gsc (s : State) : (takeChoice s).gsc = s.gsc := rfl
@[simp] theorem takeChoice_pending (s : State) : (takeChoice s).pending = s.pending := rfl

/-! `clearLock` -/

@[simp] theorem clearLock_timebase (s : State) : (clearLock s).timebase = s.timebase := rfl
@[simp] theorem clearLock_porAsserted (s : State) : (clearLock s).porAsserted = s.porAsserted := rfl
@[simp] theorem clearLock_cardAsserted (s : State) : (clearLock s).cardAsserted = s.cardAsserted := rfl
@[simp] theorem clearLock_ti (s : State) : (clearLock s).ti = s.ti := rfl
@[simp] theorem clearLock_windows (s : State) : (clearLock s).windows = s.windows := rfl
@[simp] theorem clearLock_masters (s : State) : (clearLock s).masters = s.masters := rfl
@[simp] theorem clearLock_pwq (s : State) : (clearLock s).pwq = s.pwq := rfl
@[simp] theorem clearLock_slots (s : State) : (clearLock s).slots = s.slots := rfl
@[simp] theorem clearLock_ageOrder (s : State) : (clearLock s).ageOrder = s.ageOrder := rfl
@[simp] theorem clearLock_cbc (s : State) : (clearLock s).cbc = s.cbc := rfl
@[simp] theorem clearLock_arb (s : State) : (clearLock s).arb = s.arb := rfl
@[simp] theorem clearLock_lines (s : State) : (clearLock s).lines = s.lines := rfl
@[simp] theorem clearLock_cu (s : State) : (clearLock s).cu = s.cu := rfl
@[simp] theorem clearLock_rq (s : State) : (clearLock s).rq = s.rq := rfl
@[simp] theorem clearLock_gsc (s : State) : (clearLock s).gsc = s.gsc := rfl
@[simp] theorem clearLock_freeCount (s : State) : (clearLock s).freeCount = s.freeCount := rfl
@[simp] theorem clearLock_pending (s : State) : (clearLock s).pending = s.pending := rfl

/-! `markVoid` -/

@[simp] theorem markVoid_timebase (s : State) : (markVoid s).timebase = s.timebase := rfl
@[simp] theorem markVoid_porAsserted (s : State) : (markVoid s).porAsserted = s.porAsserted := rfl
@[simp] theorem markVoid_cardAsserted (s : State) : (markVoid s).cardAsserted = s.cardAsserted := rfl
@[simp] theorem markVoid_ti (s : State) : (markVoid s).ti = s.ti := rfl
@[simp] theorem markVoid_windows (s : State) : (markVoid s).windows = s.windows := rfl
@[simp] theorem markVoid_masters (s : State) : (markVoid s).masters = s.masters := rfl
@[simp] theorem markVoid_pwq_accepted (s : State) : (markVoid s).pwq.accepted = s.pwq.accepted := rfl
@[simp] theorem markVoid_pwq_performed (s : State) : (markVoid s).pwq.performed = s.pwq.performed := rfl
@[simp] theorem markVoid_pwq_dropped (s : State) : (markVoid s).pwq.dropped = s.pwq.dropped := rfl
@[simp] theorem markVoid_slots (s : State) : (markVoid s).slots = s.slots := rfl
@[simp] theorem markVoid_ageOrder (s : State) : (markVoid s).ageOrder = s.ageOrder := rfl
@[simp] theorem markVoid_lock (s : State) : (markVoid s).lock = s.lock := rfl
@[simp] theorem markVoid_cbc (s : State) : (markVoid s).cbc = s.cbc := rfl
@[simp] theorem markVoid_arb (s : State) : (markVoid s).arb = s.arb := rfl
@[simp] theorem markVoid_lines (s : State) : (markVoid s).lines = s.lines := rfl
@[simp] theorem markVoid_cu (s : State) : (markVoid s).cu = s.cu := rfl
@[simp] theorem markVoid_rq (s : State) : (markVoid s).rq = s.rq := rfl
@[simp] theorem markVoid_gsc (s : State) : (markVoid s).gsc = s.gsc := rfl
@[simp] theorem markVoid_freeCount (s : State) : (markVoid s).freeCount = s.freeCount := rfl
@[simp] theorem markVoid_pending (s : State) : (markVoid s).pending = s.pending := rfl

/-- All that `withdrawLockedSlot` can change. -/
theorem withdrawLockedSlot_shape (o : Option SlotId) (s : State) : ∃ (x0 : Vector Master 16) (x1 : Vector Window 32) (x2 : Vector Slot 8) (x3 : List SlotId), withdrawLockedSlot o s = { s with masters := x0, windows := x1, slots := x2, ageOrder := x3 } := by
  cases o with
  | none => exact ⟨s.masters, s.windows, s.slots, s.ageOrder, rfl⟩
  | some i => exact withdrawSlot_shape i s

@[simp] theorem withdrawLockedSlot_timebase (o : Option SlotId) (s : State) : (withdrawLockedSlot o s).timebase = s.timebase := by obtain ⟨_, _, _, _, h⟩ := withdrawLockedSlot_shape o s; rw [h]
@[simp] theorem withdrawLockedSlot_porAsserted (o : Option SlotId) (s : State) : (withdrawLockedSlot o s).porAsserted = s.porAsserted := by obtain ⟨_, _, _, _, h⟩ := withdrawLockedSlot_shape o s; rw [h]
@[simp] theorem withdrawLockedSlot_cardAsserted (o : Option SlotId) (s : State) : (withdrawLockedSlot o s).cardAsserted = s.cardAsserted := by obtain ⟨_, _, _, _, h⟩ := withdrawLockedSlot_shape o s; rw [h]
@[simp] theorem withdrawLockedSlot_ti (o : Option SlotId) (s : State) : (withdrawLockedSlot o s).ti = s.ti := by obtain ⟨_, _, _, _, h⟩ := withdrawLockedSlot_shape o s; rw [h]
@[simp] theorem withdrawLockedSlot_pwq (o : Option SlotId) (s : State) : (withdrawLockedSlot o s).pwq = s.pwq := by obtain ⟨_, _, _, _, h⟩ := withdrawLockedSlot_shape o s; rw [h]
@[simp] theorem withdrawLockedSlot_lock (o : Option SlotId) (s : State) : (withdrawLockedSlot o s).lock = s.lock := by obtain ⟨_, _, _, _, h⟩ := withdrawLockedSlot_shape o s; rw [h]
@[simp] theorem withdrawLockedSlot_cbc (o : Option SlotId) (s : State) : (withdrawLockedSlot o s).cbc = s.cbc := by obtain ⟨_, _, _, _, h⟩ := withdrawLockedSlot_shape o s; rw [h]
@[simp] theorem withdrawLockedSlot_arb (o : Option SlotId) (s : State) : (withdrawLockedSlot o s).arb = s.arb := by obtain ⟨_, _, _, _, h⟩ := withdrawLockedSlot_shape o s; rw [h]
@[simp] theorem withdrawLockedSlot_lines (o : Option SlotId) (s : State) : (withdrawLockedSlot o s).lines = s.lines := by obtain ⟨_, _, _, _, h⟩ := withdrawLockedSlot_shape o s; rw [h]
@[simp] theorem withdrawLockedSlot_cu (o : Option SlotId) (s : State) : (withdrawLockedSlot o s).cu = s.cu := by obtain ⟨_, _, _, _, h⟩ := withdrawLockedSlot_shape o s; rw [h]
@[simp] theorem withdrawLockedSlot_rq (o : Option SlotId) (s : State) : (withdrawLockedSlot o s).rq = s.rq := by obtain ⟨_, _, _, _, h⟩ := withdrawLockedSlot_shape o s; rw [h]
@[simp] theorem withdrawLockedSlot_gsc (o : Option SlotId) (s : State) : (withdrawLockedSlot o s).gsc = s.gsc := by obtain ⟨_, _, _, _, h⟩ := withdrawLockedSlot_shape o s; rw [h]
@[simp] theorem withdrawLockedSlot_freeCount (o : Option SlotId) (s : State) : (withdrawLockedSlot o s).freeCount = s.freeCount := by obtain ⟨_, _, _, _, h⟩ := withdrawLockedSlot_shape o s; rw [h]
@[simp] theorem withdrawLockedSlot_pending (o : Option SlotId) (s : State) : (withdrawLockedSlot o s).pending = s.pending := by obtain ⟨_, _, _, _, h⟩ := withdrawLockedSlot_shape o s; rw [h]

/-- All that `noteBreak` can change. -/
theorem noteBreak_shape (c : BreakCause) (l : Lock) (s : State) : ∃ (x0 : Vector Master 16), noteBreak c l s = { s with masters := x0 } := by
  unfold noteBreak; split
  · split
    · exact ⟨s.masters, rfl⟩
    · exact ⟨_, rfl⟩
  · exact ⟨s.masters, rfl⟩

@[simp] theorem noteBreak_timebase (c : BreakCause) (l : Lock) (s : State) : (noteBreak c l s).timebase = s.timebase := by obtain ⟨_, h⟩ := noteBreak_shape c l s; rw [h]
@[simp] theorem noteBreak_porAsserted (c : BreakCause) (l : Lock) (s : State) : (noteBreak c l s).porAsserted = s.porAsserted := by obtain ⟨_, h⟩ := noteBreak_shape c l s; rw [h]
@[simp] theorem noteBreak_cardAsserted (c : BreakCause) (l : Lock) (s : State) : (noteBreak c l s).cardAsserted = s.cardAsserted := by obtain ⟨_, h⟩ := noteBreak_shape c l s; rw [h]
@[simp] theorem noteBreak_ti (c : BreakCause) (l : Lock) (s : State) : (noteBreak c l s).ti = s.ti := by obtain ⟨_, h⟩ := noteBreak_shape c l s; rw [h]
@[simp] theorem noteBreak_windows (c : BreakCause) (l : Lock) (s : State) : (noteBreak c l s).windows = s.windows := by obtain ⟨_, h⟩ := noteBreak_shape c l s; rw [h]
@[simp] theorem noteBreak_pwq (c : BreakCause) (l : Lock) (s : State) : (noteBreak c l s).pwq = s.pwq := by obtain ⟨_, h⟩ := noteBreak_shape c l s; rw [h]
@[simp] theorem noteBreak_slots (c : BreakCause) (l : Lock) (s : State) : (noteBreak c l s).slots = s.slots := by obtain ⟨_, h⟩ := noteBreak_shape c l s; rw [h]
@[simp] theorem noteBreak_ageOrder (c : BreakCause) (l : Lock) (s : State) : (noteBreak c l s).ageOrder = s.ageOrder := by obtain ⟨_, h⟩ := noteBreak_shape c l s; rw [h]
@[simp] theorem noteBreak_lock (c : BreakCause) (l : Lock) (s : State) : (noteBreak c l s).lock = s.lock := by obtain ⟨_, h⟩ := noteBreak_shape c l s; rw [h]
@[simp] theorem noteBreak_cbc (c : BreakCause) (l : Lock) (s : State) : (noteBreak c l s).cbc = s.cbc := by obtain ⟨_, h⟩ := noteBreak_shape c l s; rw [h]
@[simp] theorem noteBreak_arb (c : BreakCause) (l : Lock) (s : State) : (noteBreak c l s).arb = s.arb := by obtain ⟨_, h⟩ := noteBreak_shape c l s; rw [h]
@[simp] theorem noteBreak_lines (c : BreakCause) (l : Lock) (s : State) : (noteBreak c l s).lines = s.lines := by obtain ⟨_, h⟩ := noteBreak_shape c l s; rw [h]
@[simp] theorem noteBreak_cu (c : BreakCause) (l : Lock) (s : State) : (noteBreak c l s).cu = s.cu := by obtain ⟨_, h⟩ := noteBreak_shape c l s; rw [h]
@[simp] theorem noteBreak_rq (c : BreakCause) (l : Lock) (s : State) : (noteBreak c l s).rq = s.rq := by obtain ⟨_, h⟩ := noteBreak_shape c l s; rw [h]
@[simp] theorem noteBreak_gsc (c : BreakCause) (l : Lock) (s : State) : (noteBreak c l s).gsc = s.gsc := by obtain ⟨_, h⟩ := noteBreak_shape c l s; rw [h]
@[simp] theorem noteBreak_freeCount (c : BreakCause) (l : Lock) (s : State) : (noteBreak c l s).freeCount = s.freeCount := by obtain ⟨_, h⟩ := noteBreak_shape c l s; rw [h]
@[simp] theorem noteBreak_pending (c : BreakCause) (l : Lock) (s : State) : (noteBreak c l s).pending = s.pending := by obtain ⟨_, h⟩ := noteBreak_shape c l s; rw [h]

/-- All that `unlockReadySlot` can change. -/
theorem unlockReadySlot_shape (o : Option SlotId) (s : State) : ∃ (x0 : Vector Slot 8), unlockReadySlot o s = { s with slots := x0 } := by
  unfold unlockReadySlot; split
  · split
    · exact ⟨_, rfl⟩
    · exact ⟨s.slots, rfl⟩
  · exact ⟨s.slots, rfl⟩

@[simp] theorem unlockReadySlot_timebase (o : Option SlotId) (s : State) : (unlockReadySlot o s).timebase = s.timebase := by obtain ⟨_, h⟩ := unlockReadySlot_shape o s; rw [h]
@[simp] theorem unlockReadySlot_porAsserted (o : Option SlotId) (s : State) : (unlockReadySlot o s).porAsserted = s.porAsserted := by obtain ⟨_, h⟩ := unlockReadySlot_shape o s; rw [h]
@[simp] theorem unlockReadySlot_cardAsserted (o : Option SlotId) (s : State) : (unlockReadySlot o s).cardAsserted = s.cardAsserted := by obtain ⟨_, h⟩ := unlockReadySlot_shape o s; rw [h]
@[simp] theorem unlockReadySlot_ti (o : Option SlotId) (s : State) : (unlockReadySlot o s).ti = s.ti := by obtain ⟨_, h⟩ := unlockReadySlot_shape o s; rw [h]
@[simp] theorem unlockReadySlot_windows (o : Option SlotId) (s : State) : (unlockReadySlot o s).windows = s.windows := by obtain ⟨_, h⟩ := unlockReadySlot_shape o s; rw [h]
@[simp] theorem unlockReadySlot_masters (o : Option SlotId) (s : State) : (unlockReadySlot o s).masters = s.masters := by obtain ⟨_, h⟩ := unlockReadySlot_shape o s; rw [h]
@[simp] theorem unlockReadySlot_pwq (o : Option SlotId) (s : State) : (unlockReadySlot o s).pwq = s.pwq := by obtain ⟨_, h⟩ := unlockReadySlot_shape o s; rw [h]
@[simp] theorem unlockReadySlot_ageOrder (o : Option SlotId) (s : State) : (unlockReadySlot o s).ageOrder = s.ageOrder := by obtain ⟨_, h⟩ := unlockReadySlot_shape o s; rw [h]
@[simp] theorem unlockReadySlot_lock (o : Option SlotId) (s : State) : (unlockReadySlot o s).lock = s.lock := by obtain ⟨_, h⟩ := unlockReadySlot_shape o s; rw [h]
@[simp] theorem unlockReadySlot_cbc (o : Option SlotId) (s : State) : (unlockReadySlot o s).cbc = s.cbc := by obtain ⟨_, h⟩ := unlockReadySlot_shape o s; rw [h]
@[simp] theorem unlockReadySlot_arb (o : Option SlotId) (s : State) : (unlockReadySlot o s).arb = s.arb := by obtain ⟨_, h⟩ := unlockReadySlot_shape o s; rw [h]
@[simp] theorem unlockReadySlot_lines (o : Option SlotId) (s : State) : (unlockReadySlot o s).lines = s.lines := by obtain ⟨_, h⟩ := unlockReadySlot_shape o s; rw [h]
@[simp] theorem unlockReadySlot_cu (o : Option SlotId) (s : State) : (unlockReadySlot o s).cu = s.cu := by obtain ⟨_, h⟩ := unlockReadySlot_shape o s; rw [h]
@[simp] theorem unlockReadySlot_rq (o : Option SlotId) (s : State) : (unlockReadySlot o s).rq = s.rq := by obtain ⟨_, h⟩ := unlockReadySlot_shape o s; rw [h]
@[simp] theorem unlockReadySlot_gsc (o : Option SlotId) (s : State) : (unlockReadySlot o s).gsc = s.gsc := by obtain ⟨_, h⟩ := unlockReadySlot_shape o s; rw [h]
@[simp] theorem unlockReadySlot_freeCount (o : Option SlotId) (s : State) : (unlockReadySlot o s).freeCount = s.freeCount := by obtain ⟨_, h⟩ := unlockReadySlot_shape o s; rw [h]
@[simp] theorem unlockReadySlot_pending (o : Option SlotId) (s : State) : (unlockReadySlot o s).pending = s.pending := by obtain ⟨_, h⟩ := unlockReadySlot_shape o s; rw [h]

/-- All that `stopLockTimer` can change. -/
theorem stopLockTimer_shape (d : DataEntry) (s : State) : ∃ (x0 : Option Timer), stopLockTimer d s = { s with lock.hold := x0 } := by
  unfold stopLockTimer; split
  · exact ⟨_, rfl⟩
  · exact ⟨s.lock.hold, rfl⟩

@[simp] theorem stopLockTimer_timebase (d : DataEntry) (s : State) : (stopLockTimer d s).timebase = s.timebase := by obtain ⟨_, h⟩ := stopLockTimer_shape d s; rw [h]
@[simp] theorem stopLockTimer_porAsserted (d : DataEntry) (s : State) : (stopLockTimer d s).porAsserted = s.porAsserted := by obtain ⟨_, h⟩ := stopLockTimer_shape d s; rw [h]
@[simp] theorem stopLockTimer_cardAsserted (d : DataEntry) (s : State) : (stopLockTimer d s).cardAsserted = s.cardAsserted := by obtain ⟨_, h⟩ := stopLockTimer_shape d s; rw [h]
@[simp] theorem stopLockTimer_ti (d : DataEntry) (s : State) : (stopLockTimer d s).ti = s.ti := by obtain ⟨_, h⟩ := stopLockTimer_shape d s; rw [h]
@[simp] theorem stopLockTimer_windows (d : DataEntry) (s : State) : (stopLockTimer d s).windows = s.windows := by obtain ⟨_, h⟩ := stopLockTimer_shape d s; rw [h]
@[simp] theorem stopLockTimer_masters (d : DataEntry) (s : State) : (stopLockTimer d s).masters = s.masters := by obtain ⟨_, h⟩ := stopLockTimer_shape d s; rw [h]
@[simp] theorem stopLockTimer_pwq (d : DataEntry) (s : State) : (stopLockTimer d s).pwq = s.pwq := by obtain ⟨_, h⟩ := stopLockTimer_shape d s; rw [h]
@[simp] theorem stopLockTimer_slots (d : DataEntry) (s : State) : (stopLockTimer d s).slots = s.slots := by obtain ⟨_, h⟩ := stopLockTimer_shape d s; rw [h]
@[simp] theorem stopLockTimer_ageOrder (d : DataEntry) (s : State) : (stopLockTimer d s).ageOrder = s.ageOrder := by obtain ⟨_, h⟩ := stopLockTimer_shape d s; rw [h]
@[simp] theorem stopLockTimer_lock_state (d : DataEntry) (s : State) : (stopLockTimer d s).lock.state = s.lock.state := by obtain ⟨_, h⟩ := stopLockTimer_shape d s; rw [h]
@[simp] theorem stopLockTimer_lock_owner (d : DataEntry) (s : State) : (stopLockTimer d s).lock.owner = s.lock.owner := by obtain ⟨_, h⟩ := stopLockTimer_shape d s; rw [h]
@[simp] theorem stopLockTimer_lock_window (d : DataEntry) (s : State) : (stopLockTimer d s).lock.window = s.lock.window := by obtain ⟨_, h⟩ := stopLockTimer_shape d s; rw [h]
@[simp] theorem stopLockTimer_lock_slot (d : DataEntry) (s : State) : (stopLockTimer d s).lock.slot = s.lock.slot := by obtain ⟨_, h⟩ := stopLockTimer_shape d s; rw [h]
@[simp] theorem stopLockTimer_lock_closing (d : DataEntry) (s : State) : (stopLockTimer d s).lock.closing = s.lock.closing := by obtain ⟨_, h⟩ := stopLockTimer_shape d s; rw [h]
@[simp] theorem stopLockTimer_cbc (d : DataEntry) (s : State) : (stopLockTimer d s).cbc = s.cbc := by obtain ⟨_, h⟩ := stopLockTimer_shape d s; rw [h]
@[simp] theorem stopLockTimer_arb (d : DataEntry) (s : State) : (stopLockTimer d s).arb = s.arb := by obtain ⟨_, h⟩ := stopLockTimer_shape d s; rw [h]
@[simp] theorem stopLockTimer_lines (d : DataEntry) (s : State) : (stopLockTimer d s).lines = s.lines := by obtain ⟨_, h⟩ := stopLockTimer_shape d s; rw [h]
@[simp] theorem stopLockTimer_cu (d : DataEntry) (s : State) : (stopLockTimer d s).cu = s.cu := by obtain ⟨_, h⟩ := stopLockTimer_shape d s; rw [h]
@[simp] theorem stopLockTimer_rq (d : DataEntry) (s : State) : (stopLockTimer d s).rq = s.rq := by obtain ⟨_, h⟩ := stopLockTimer_shape d s; rw [h]
@[simp] theorem stopLockTimer_gsc (d : DataEntry) (s : State) : (stopLockTimer d s).gsc = s.gsc := by obtain ⟨_, h⟩ := stopLockTimer_shape d s; rw [h]
@[simp] theorem stopLockTimer_freeCount (d : DataEntry) (s : State) : (stopLockTimer d s).freeCount = s.freeCount := by obtain ⟨_, h⟩ := stopLockTimer_shape d s; rw [h]
@[simp] theorem stopLockTimer_pending (d : DataEntry) (s : State) : (stopLockTimer d s).pending = s.pending := by obtain ⟨_, h⟩ := stopLockTimer_shape d s; rw [h]

/-- All that `closeLock` can change. -/
theorem closeLock_shape (d : DataEntry) (s : State) : ∃ (x0 : Lock) (x1 : Vector Slot 8) (x2 : ArbState) (x3 : Requester) (x4 : Option Timer) (x5 : Bool) (x6 : Bool) (x7 : Bool), closeLock d s = { s with lock := x0, slots := x1, arb.state := x2, arb.pointer := x3, arb.overstay := x4, cbc.request := x5, cbc.tenure := x6, arb.lockHold := x7 } := by
  unfold closeLock; split
  · obtain ⟨a, b, c, d, e, f, h⟩ := releaseHold_shape (unlockReadySlot s.lock.slot (clearLock s))
    refine ⟨Lock.powerOn, (unlockReadySlot s.lock.slot (clearLock s)).slots, a, b, c, d, e, f, ?_⟩
    rw [h]; unfold unlockReadySlot; split <;> (try split) <;> rfl
  · exact ⟨s.lock, s.slots, s.arb.state, s.arb.pointer, s.arb.overstay, s.cbc.request, s.cbc.tenure, s.arb.lockHold, rfl⟩

@[simp] theorem closeLock_timebase (d : DataEntry) (s : State) : (closeLock d s).timebase = s.timebase := by obtain ⟨_, _, _, _, _, _, _, _, h⟩ := closeLock_shape d s; rw [h]
@[simp] theorem closeLock_porAsserted (d : DataEntry) (s : State) : (closeLock d s).porAsserted = s.porAsserted := by obtain ⟨_, _, _, _, _, _, _, _, h⟩ := closeLock_shape d s; rw [h]
@[simp] theorem closeLock_cardAsserted (d : DataEntry) (s : State) : (closeLock d s).cardAsserted = s.cardAsserted := by obtain ⟨_, _, _, _, _, _, _, _, h⟩ := closeLock_shape d s; rw [h]
@[simp] theorem closeLock_ti (d : DataEntry) (s : State) : (closeLock d s).ti = s.ti := by obtain ⟨_, _, _, _, _, _, _, _, h⟩ := closeLock_shape d s; rw [h]
@[simp] theorem closeLock_windows (d : DataEntry) (s : State) : (closeLock d s).windows = s.windows := by obtain ⟨_, _, _, _, _, _, _, _, h⟩ := closeLock_shape d s; rw [h]
@[simp] theorem closeLock_masters (d : DataEntry) (s : State) : (closeLock d s).masters = s.masters := by obtain ⟨_, _, _, _, _, _, _, _, h⟩ := closeLock_shape d s; rw [h]
@[simp] theorem closeLock_pwq (d : DataEntry) (s : State) : (closeLock d s).pwq = s.pwq := by obtain ⟨_, _, _, _, _, _, _, _, h⟩ := closeLock_shape d s; rw [h]
@[simp] theorem closeLock_ageOrder (d : DataEntry) (s : State) : (closeLock d s).ageOrder = s.ageOrder := by obtain ⟨_, _, _, _, _, _, _, _, h⟩ := closeLock_shape d s; rw [h]
@[simp] theorem closeLock_cbc_access (d : DataEntry) (s : State) : (closeLock d s).cbc.access = s.cbc.access := by obtain ⟨_, _, _, _, _, _, _, _, h⟩ := closeLock_shape d s; rw [h]
@[simp] theorem closeLock_arb_policy (d : DataEntry) (s : State) : (closeLock d s).arb.policy = s.arb.policy := by obtain ⟨_, _, _, _, _, _, _, _, h⟩ := closeLock_shape d s; rw [h]
@[simp] theorem closeLock_arb_highWater (d : DataEntry) (s : State) : (closeLock d s).arb.highWater = s.arb.highWater := by obtain ⟨_, _, _, _, _, _, _, _, h⟩ := closeLock_shape d s; rw [h]
@[simp] theorem closeLock_arb_enabled (d : DataEntry) (s : State) : (closeLock d s).arb.enabled = s.arb.enabled := by obtain ⟨_, _, _, _, _, _, _, _, h⟩ := closeLock_shape d s; rw [h]
@[simp] theorem closeLock_lines (d : DataEntry) (s : State) : (closeLock d s).lines = s.lines := by obtain ⟨_, _, _, _, _, _, _, _, h⟩ := closeLock_shape d s; rw [h]
@[simp] theorem closeLock_cu (d : DataEntry) (s : State) : (closeLock d s).cu = s.cu := by obtain ⟨_, _, _, _, _, _, _, _, h⟩ := closeLock_shape d s; rw [h]
@[simp] theorem closeLock_rq (d : DataEntry) (s : State) : (closeLock d s).rq = s.rq := by obtain ⟨_, _, _, _, _, _, _, _, h⟩ := closeLock_shape d s; rw [h]
@[simp] theorem closeLock_gsc (d : DataEntry) (s : State) : (closeLock d s).gsc = s.gsc := by obtain ⟨_, _, _, _, _, _, _, _, h⟩ := closeLock_shape d s; rw [h]
@[simp] theorem closeLock_freeCount (d : DataEntry) (s : State) : (closeLock d s).freeCount = s.freeCount := by obtain ⟨_, _, _, _, _, _, _, _, h⟩ := closeLock_shape d s; rw [h]
@[simp] theorem closeLock_pending (d : DataEntry) (s : State) : (closeLock d s).pending = s.pending := by obtain ⟨_, _, _, _, _, _, _, _, h⟩ := closeLock_shape d s; rw [h]

/-! `markStop` -/

@[simp] theorem markStop_timebase (s : State) : (markStop s).timebase = s.timebase := rfl
@[simp] theorem markStop_porAsserted (s : State) : (markStop s).porAsserted = s.porAsserted := rfl
@[simp] theorem markStop_cardAsserted (s : State) : (markStop s).cardAsserted = s.cardAsserted := rfl
@[simp] theorem markStop_ti (s : State) : (markStop s).ti = s.ti := rfl
@[simp] theorem markStop_windows (s : State) : (markStop s).windows = s.windows := rfl
@[simp] theorem markStop_masters (s : State) : (markStop s).masters = s.masters := rfl
@[simp] theorem markStop_pwq (s : State) : (markStop s).pwq = s.pwq := rfl
@[simp] theorem markStop_slots (s : State) : (markStop s).slots = s.slots := rfl
@[simp] theorem markStop_ageOrder (s : State) : (markStop s).ageOrder = s.ageOrder := rfl
@[simp] theorem markStop_lock (s : State) : (markStop s).lock = s.lock := rfl
@[simp] theorem markStop_cbc_request (s : State) : (markStop s).cbc.request = s.cbc.request := rfl
@[simp] theorem markStop_cbc_tenure (s : State) : (markStop s).cbc.tenure = s.cbc.tenure := rfl
@[simp] theorem markStop_arb (s : State) : (markStop s).arb = s.arb := rfl
@[simp] theorem markStop_lines (s : State) : (markStop s).lines = s.lines := rfl
@[simp] theorem markStop_cu (s : State) : (markStop s).cu = s.cu := rfl
@[simp] theorem markStop_rq (s : State) : (markStop s).rq = s.rq := rfl
@[simp] theorem markStop_gsc (s : State) : (markStop s).gsc = s.gsc := rfl
@[simp] theorem markStop_freeCount (s : State) : (markStop s).freeCount = s.freeCount := rfl
@[simp] theorem markStop_pending (s : State) : (markStop s).pending = s.pending := rfl

/-! `detachFetch` -/

@[simp] theorem detachFetch_timebase (s : State) : (detachFetch s).timebase = s.timebase := rfl
@[simp] theorem detachFetch_porAsserted (s : State) : (detachFetch s).porAsserted = s.porAsserted := rfl
@[simp] theorem detachFetch_cardAsserted (s : State) : (detachFetch s).cardAsserted = s.cardAsserted := rfl
@[simp] theorem detachFetch_ti (s : State) : (detachFetch s).ti = s.ti := rfl
@[simp] theorem detachFetch_windows (s : State) : (detachFetch s).windows = s.windows := rfl
@[simp] theorem detachFetch_masters (s : State) : (detachFetch s).masters = s.masters := rfl
@[simp] theorem detachFetch_pwq (s : State) : (detachFetch s).pwq = s.pwq := rfl
@[simp] theorem detachFetch_slots (s : State) : (detachFetch s).slots = s.slots := rfl
@[simp] theorem detachFetch_ageOrder (s : State) : (detachFetch s).ageOrder = s.ageOrder := rfl
@[simp] theorem detachFetch_lock (s : State) : (detachFetch s).lock = s.lock := rfl
@[simp] theorem detachFetch_cbc_request (s : State) : (detachFetch s).cbc.request = s.cbc.request := rfl
@[simp] theorem detachFetch_cbc_tenure (s : State) : (detachFetch s).cbc.tenure = s.cbc.tenure := rfl
@[simp] theorem detachFetch_arb (s : State) : (detachFetch s).arb = s.arb := rfl
@[simp] theorem detachFetch_lines (s : State) : (detachFetch s).lines = s.lines := rfl
@[simp] theorem detachFetch_cu (s : State) : (detachFetch s).cu = s.cu := rfl
@[simp] theorem detachFetch_rq (s : State) : (detachFetch s).rq = s.rq := rfl
@[simp] theorem detachFetch_gsc (s : State) : (detachFetch s).gsc = s.gsc := rfl
@[simp] theorem detachFetch_freeCount (s : State) : (detachFetch s).freeCount = s.freeCount := rfl
@[simp] theorem detachFetch_pending (s : State) : (detachFetch s).pending = s.pending := rfl

/-! `becomeFaulted` -/

@[simp] theorem becomeFaulted_timebase (c : FaultCause) (s : State) : (becomeFaulted c s).timebase = s.timebase := rfl
@[simp] theorem becomeFaulted_porAsserted (c : FaultCause) (s : State) : (becomeFaulted c s).porAsserted = s.porAsserted := rfl
@[simp] theorem becomeFaulted_cardAsserted (c : FaultCause) (s : State) : (becomeFaulted c s).cardAsserted = s.cardAsserted := rfl
@[simp] theorem becomeFaulted_ti (c : FaultCause) (s : State) : (becomeFaulted c s).ti = s.ti := rfl
@[simp] theorem becomeFaulted_windows (c : FaultCause) (s : State) : (becomeFaulted c s).windows = s.windows := rfl
@[simp] theorem becomeFaulted_masters (c : FaultCause) (s : State) : (becomeFaulted c s).masters = s.masters := rfl
@[simp] theorem becomeFaulted_pwq (c : FaultCause) (s : State) : (becomeFaulted c s).pwq = s.pwq := rfl
@[simp] theorem becomeFaulted_slots (c : FaultCause) (s : State) : (becomeFaulted c s).slots = s.slots := rfl
@[simp] theorem becomeFaulted_ageOrder (c : FaultCause) (s : State) : (becomeFaulted c s).ageOrder = s.ageOrder := rfl
@[simp] theorem becomeFaulted_lock (c : FaultCause) (s : State) : (becomeFaulted c s).lock = s.lock := rfl
@[simp] theorem becomeFaulted_cbc (c : FaultCause) (s : State) : (becomeFaulted c s).cbc = s.cbc := rfl
@[simp] theorem becomeFaulted_arb (c : FaultCause) (s : State) : (becomeFaulted c s).arb = s.arb := rfl
@[simp] theorem becomeFaulted_lines (c : FaultCause) (s : State) : (becomeFaulted c s).lines = s.lines := rfl
@[simp] theorem becomeFaulted_cu (c : FaultCause) (s : State) : (becomeFaulted c s).cu = s.cu := rfl
@[simp] theorem becomeFaulted_rq (c : FaultCause) (s : State) : (becomeFaulted c s).rq = s.rq := rfl
@[simp] theorem becomeFaulted_freeCount (c : FaultCause) (s : State) : (becomeFaulted c s).freeCount = s.freeCount := rfl
@[simp] theorem becomeFaulted_pending (c : FaultCause) (s : State) : (becomeFaulted c s).pending = s.pending := rfl

/-! `clearAccess` -/

@[simp] theorem clearAccess_timebase (s : State) : (clearAccess s).timebase = s.timebase := rfl
@[simp] theorem clearAccess_porAsserted (s : State) : (clearAccess s).porAsserted = s.porAsserted := rfl
@[simp] theorem clearAccess_cardAsserted (s : State) : (clearAccess s).cardAsserted = s.cardAsserted := rfl
@[simp] theorem clearAccess_ti (s : State) : (clearAccess s).ti = s.ti := rfl
@[simp] theorem clearAccess_windows (s : State) : (clearAccess s).windows = s.windows := rfl
@[simp] theorem clearAccess_masters (s : State) : (clearAccess s).masters = s.masters := rfl
@[simp] theorem clearAccess_pwq (s : State) : (clearAccess s).pwq = s.pwq := rfl
@[simp] theorem clearAccess_slots (s : State) : (clearAccess s).slots = s.slots := rfl
@[simp] theorem clearAccess_ageOrder (s : State) : (clearAccess s).ageOrder = s.ageOrder := rfl
@[simp] theorem clearAccess_lock (s : State) : (clearAccess s).lock = s.lock := rfl
@[simp] theorem clearAccess_cbc_request (s : State) : (clearAccess s).cbc.request = s.cbc.request := rfl
@[simp] theorem clearAccess_cbc_tenure (s : State) : (clearAccess s).cbc.tenure = s.cbc.tenure := rfl
@[simp] theorem clearAccess_arb (s : State) : (clearAccess s).arb = s.arb := rfl
@[simp] theorem clearAccess_lines (s : State) : (clearAccess s).lines = s.lines := rfl
@[simp] theorem clearAccess_cu (s : State) : (clearAccess s).cu = s.cu := rfl
@[simp] theorem clearAccess_rq (s : State) : (clearAccess s).rq = s.rq := rfl
@[simp] theorem clearAccess_gsc (s : State) : (clearAccess s).gsc = s.gsc := rfl
@[simp] theorem clearAccess_freeCount (s : State) : (clearAccess s).freeCount = s.freeCount := rfl
@[simp] theorem clearAccess_pending (s : State) : (clearAccess s).pending = s.pending := rfl

/-! `answer` -/

@[simp] theorem answer_timebase (a : Answer) (s : State) : (answer a s).timebase = s.timebase := rfl
@[simp] theorem answer_porAsserted (a : Answer) (s : State) : (answer a s).porAsserted = s.porAsserted := rfl
@[simp] theorem answer_cardAsserted (a : Answer) (s : State) : (answer a s).cardAsserted = s.cardAsserted := rfl
@[simp] theorem answer_ti_slotNumber (a : Answer) (s : State) : (answer a s).ti.slotNumber = s.ti.slotNumber := rfl
@[simp] theorem answer_ti_serviceLine (a : Answer) (s : State) : (answer a s).ti.serviceLine = s.ti.serviceLine := rfl
@[simp] theorem answer_windows (a : Answer) (s : State) : (answer a s).windows = s.windows := rfl
@[simp] theorem answer_masters (a : Answer) (s : State) : (answer a s).masters = s.masters := rfl
@[simp] theorem answer_pwq (a : Answer) (s : State) : (answer a s).pwq = s.pwq := rfl
@[simp] theorem answer_slots (a : Answer) (s : State) : (answer a s).slots = s.slots := rfl
@[simp] theorem answer_ageOrder (a : Answer) (s : State) : (answer a s).ageOrder = s.ageOrder := rfl
@[simp] theorem answer_lock (a : Answer) (s : State) : (answer a s).lock = s.lock := rfl
@[simp] theorem answer_cbc (a : Answer) (s : State) : (answer a s).cbc = s.cbc := rfl
@[simp] theorem answer_arb (a : Answer) (s : State) : (answer a s).arb = s.arb := rfl
@[simp] theorem answer_lines (a : Answer) (s : State) : (answer a s).lines = s.lines := rfl
@[simp] theorem answer_cu (a : Answer) (s : State) : (answer a s).cu = s.cu := rfl
@[simp] theorem answer_rq (a : Answer) (s : State) : (answer a s).rq = s.rq := rfl
@[simp] theorem answer_gsc (a : Answer) (s : State) : (answer a s).gsc = s.gsc := rfl
@[simp] theorem answer_freeCount (a : Answer) (s : State) : (answer a s).freeCount = s.freeCount := rfl
@[simp] theorem answer_pending (a : Answer) (s : State) : (answer a s).pending = s.pending := rfl

/-! `clearNotes` -/

@[simp] theorem clearNotes_timebase (s : State) : (clearNotes s).timebase = s.timebase := by rw [clearNotes]
@[simp] theorem clearNotes_porAsserted (s : State) : (clearNotes s).porAsserted = s.porAsserted := by rw [clearNotes]
@[simp] theorem clearNotes_cardAsserted (s : State) : (clearNotes s).cardAsserted = s.cardAsserted := by rw [clearNotes]
@[simp] theorem clearNotes_ti (s : State) : (clearNotes s).ti = s.ti := by rw [clearNotes]
@[simp] theorem clearNotes_windows (s : State) : (clearNotes s).windows = s.windows := by rw [clearNotes]
@[simp] theorem clearNotes_pwq (s : State) : (clearNotes s).pwq = s.pwq := by rw [clearNotes]
@[simp] theorem clearNotes_slots (s : State) : (clearNotes s).slots = s.slots := by rw [clearNotes]
@[simp] theorem clearNotes_ageOrder (s : State) : (clearNotes s).ageOrder = s.ageOrder := by rw [clearNotes]
@[simp] theorem clearNotes_lock (s : State) : (clearNotes s).lock = s.lock := by rw [clearNotes]
@[simp] theorem clearNotes_cbc (s : State) : (clearNotes s).cbc = s.cbc := by rw [clearNotes]
@[simp] theorem clearNotes_arb (s : State) : (clearNotes s).arb = s.arb := by rw [clearNotes]
@[simp] theorem clearNotes_lines (s : State) : (clearNotes s).lines = s.lines := by rw [clearNotes]
@[simp] theorem clearNotes_cu (s : State) : (clearNotes s).cu = s.cu := by rw [clearNotes]
@[simp] theorem clearNotes_rq (s : State) : (clearNotes s).rq = s.rq := by rw [clearNotes]
@[simp] theorem clearNotes_gsc (s : State) : (clearNotes s).gsc = s.gsc := by rw [clearNotes]
@[simp] theorem clearNotes_freeCount (s : State) : (clearNotes s).freeCount = s.freeCount := by rw [clearNotes]
@[simp] theorem clearNotes_pending (s : State) : (clearNotes s).pending = s.pending := by rw [clearNotes]

end Sys2Proof.Machine
end

