-- ==== Sys2Proof/Laws/Table.lean ====
section
/-! SUPPORT. Reading a table after an update, and counting its entries. -/

namespace Sys2Proof.Machine

@[simp] theorem modAt_getElem {n : Nat} {α : Type} (t : Vector α n) (i : Fin n) (f : α → α) (j : Nat) (hj : j < n) :
    (modAt t i f)[j] = if i.val = j then f t[j] else t[j] := by
  simp only [modAt, Fin.getElem_fin, Vector.getElem_set]
  split
  · next h => simp only [h]
  · rfl

@[simp] theorem mapTable_getElem {n : Nat} {α : Type} (t : Vector α n) (f : α → α) (j : Nat) (hj : j < n) :
    (mapTable t f)[j] = f t[j] := by simp [mapTable]

theorem modAt_get {n : Nat} {α : Type} (t : Vector α n) (i j : Fin n) (f : α → α) :
    (modAt t i f)[j] = if i = j then f t[j] else t[j] := by
  simp [Fin.ext_iff]

theorem modAt_get_self {n : Nat} {α : Type} (t : Vector α n) (i : Fin n) (f : α → α) :
    (modAt t i f)[i] = f t[i] := by simp

theorem modAt_get_ne {n : Nat} {α : Type} (t : Vector α n) (i j : Fin n) (f : α → α) (h : i ≠ j) :
    (modAt t i f)[j] = t[j] := by rw [modAt_get, if_neg h]

theorem mapTable_get {n : Nat} {α : Type} (t : Vector α n) (f : α → α) (i : Fin n) :
    (mapTable t f)[i] = f t[i] := by simp

/-- An update that keeps a projection of the entry keeps it all over the table. -/
theorem modAt_get_proj {n : Nat} {α β : Type} (t : Vector α n) (i j : Fin n) (f : α → α) (g : α → β)
    (h : ∀ e, g (f e) = g e) : g (modAt t i f)[j] = g t[j] := by
  rw [modAt_get]; split
  · exact h _
  · rfl

/-- A table's entries as a list. -/
theorem toList_eq_ofFn {n : Nat} {α : Type} (t : Vector α n) : t.toList = List.ofFn fun i : Fin n => t[i] := by
  apply List.ext_getElem <;> simp

/-- Counting entries over the indices. -/
theorem countTable_eq {n : Nat} {α : Type} (t : Vector α n) (p : α → Bool) :
    countTable t p = (List.finRange n).countP fun i => p t[i] := by
  rw [countTable, toList_eq_ofFn, List.ofFn_eq_map, List.countP_map]; rfl

theorem countP_flip_one {ι : Type} [DecidableEq ι] (l : List ι) (hl : l.Nodup) (i : ι) (hi : i ∈ l) (p q : ι → Bool)
    (h : ∀ j, j ≠ i → p j = q j) :
    l.countP p + (if q i then 1 else 0) = l.countP q + (if p i then 1 else 0) := by
  induction l with
  | nil => simp at hi
  | cons a l ih =>
    rw [List.nodup_cons] at hl
    simp only [List.countP_cons]
    by_cases ha : a = i
    · subst ha
      have : l.countP p = l.countP q := List.countP_congr fun j hj => by
        rw [h j (fun e => hl.1 (e ▸ hj))]
      omega
    · have := ih hl.2 (by simpa [Ne.symm ha] using hi)
      rw [h a ha]; omega

/-- Changing one entry changes a count by that entry alone. -/
theorem countTable_modAt {n : Nat} {α : Type} (t : Vector α n) (i : Fin n) (f : α → α) (p : α → Bool) :
    countTable (modAt t i f) p + (if p t[i] then 1 else 0) = countTable t p + (if p (f t[i]) then 1 else 0) := by
  rw [countTable_eq, countTable_eq]
  have := countP_flip_one (List.finRange n) (List.nodup_finRange n) i (List.mem_finRange i)
    (fun j => p (modAt t i f)[j]) (fun j => p t[j]) (fun j hj => by rw [modAt_get_ne _ _ _ _ (Ne.symm hj)])
  simpa only [modAt_get_self] using this

/-- Changing one entry in what `p` does not look at keeps the count. -/
theorem countTable_modAt_same {n : Nat} {α : Type} (t : Vector α n) (i : Fin n) (f : α → α) (p : α → Bool)
    (h : p (f t[i]) = p t[i]) : countTable (modAt t i f) p = countTable t p := by
  have := countTable_modAt t i f p; rw [h] at this; omega

/-- Changing every entry in what `p` does not look at keeps the count. -/
theorem countTable_mapTable {n : Nat} {α : Type} (t : Vector α n) (f : α → α) (p : α → Bool)
    (h : ∀ e, p (f e) = p e) : countTable (mapTable t f) p = countTable t p := by
  simp only [countTable_eq, mapTable_get, h]

theorem countTable_eq_zero {n : Nat} {α : Type} (t : Vector α n) (p : α → Bool) :
    countTable t p = 0 ↔ ∀ i : Fin n, p t[i] = false := by
  rw [countTable_eq, List.countP_eq_zero]; simp

/-- Extensionality of a table over its indices. -/
theorem table_ext {n : Nat} {α : Type} {t u : Vector α n} (h : ∀ i : Fin n, t[i] = u[i]) : t = u := by
  apply Vector.ext; intro i hi; exact h ⟨i, hi⟩

end Sys2Proof.Machine
end

