-- ==== Sys2Proof/Laws/Kept.lean ====
section
/-! SUPPORT. The gate's internal work, from the storing of a report to the end of an event, keeps what the manager
and the outside have set (`Safety.Kept`). -/

namespace Sys2Proof.Machine

open Sys2Proof.Safety

/-! ### Composition -/

theorem kept_refl (s : State) : Kept s s := by constructor <;> simp

theorem kept_trans {s t u : State} (h : Kept s t) (k : Kept t u) : Kept s u where
  timebase := k.timebase.trans h.timebase
  porAsserted := k.porAsserted.trans h.porAsserted
  cardAsserted := k.cardAsserted.trans h.cardAsserted
  slotNumber := k.slotNumber.trans h.slotNumber
  answer := k.answer.trans h.answer
  windows := fun w => (k.windows w).trans (h.windows w)
  masters := fun m => (k.masters m).trans (h.masters m)
  accepted := k.accepted.trans h.accepted
  policy := k.policy.trans h.policy
  highWater := k.highWater.trans h.highWater
  enabled := k.enabled.trans h.enabled
  lines := k.lines.trans h.lines
  cu := k.cu.trans h.cu
  cardData := k.cardData.trans h.cardData
  cardControl := k.cardControl.trans h.cardControl
  freeCount := h.freeCount.trans k.freeCount
  pending := k.pending.trans h.pending

theorem kept_foldl {α : Type} (f : State → α → State) (h : ∀ s a, Kept s (f s a)) (l : List α) (s : State) :
    Kept s (l.foldl f s) := by
  induction l generalizing s with
  | nil => exact kept_refl s
  | cons a l ih => exact kept_trans (h s a) (ih _)

/-- An update of one window that keeps its configuration. -/
theorem kept_modWindow (w : WindowId) (f : Window → Window) (h : ∀ e, windowConfig (f e) = windowConfig e) (s : State) :
    Kept s { s with windows := modAt s.windows w f } := by
  constructor <;> first | exact le_rfl | (try (intros; rfl))
  exact fun v => modAt_get_proj _ _ _ _ windowConfig h

/-- An update of one master record that keeps its configuration. -/
theorem kept_modMaster (m : MasterId) (f : Master → Master) (h : ∀ e, masterConfig (f e) = masterConfig e) (s : State) :
    Kept s { s with masters := modAt s.masters m f } := by
  constructor <;> first | exact le_rfl | (try (intros; rfl))
  exact fun v => modAt_get_proj _ _ _ _ masterConfig h

/-! ### Reports, claims, slots, queue -/

theorem storeReport_kept (b : ReportBody) (s : State) : Kept s (storeReport b s) := by constructor <;> simp
theorem offerReport_kept (b : ReportBody) (s : State) : Kept s (offerReport b s) := by constructor <;> simp
theorem storeResult_kept (b : ReportBody) (s : State) : Kept s (storeResult b s) := by constructor <;> simp
theorem modSlot_kept (i : SlotId) (f : Slot → Slot) (s : State) : Kept s (modSlot i f s) := by constructor <;> simp
theorem markStale_kept (a : CardAddr) (n : Nat) (s : State) : Kept s (markStale a n s) := by constructor <;> simp
theorem countDropped_kept (s : State) : Kept s (countDropped s) := by constructor <;> simp
theorem countPerformed_kept (s : State) : Kept s (countPerformed s) := by constructor <;> simp
theorem askForPlace_kept (s : State) : Kept s (askForPlace s) := by constructor <;> simp
theorem testQuiesce_kept (s : State) : Kept s (testQuiesce s) := by constructor <;> simp

theorem raiseRef_kept (w : WindowId) (s : State) : Kept s (raiseRef w s) := by
  unfold raiseRef; exact kept_modWindow _ _ (by intro e; rfl) s
theorem lowerRef_kept (w : WindowId) (s : State) : Kept s (lowerRef w s) := by
  unfold lowerRef; exact kept_modWindow _ _ (by intro e; rfl) s
theorem countDiscard_kept (w : WindowId) (s : State) : Kept s (countDiscard w s) := by
  unfold countDiscard; exact kept_modWindow _ _ (by intro e; rfl) s
theorem raiseWrites_kept (m : MasterId) (s : State) : Kept s (raiseWrites m s) := by
  unfold raiseWrites; exact kept_modMaster _ _ (by intro e; rfl) s
theorem lowerWrites_kept (m : MasterId) (s : State) : Kept s (lowerWrites m s) := by
  unfold lowerWrites; exact kept_modMaster _ _ (by intro e; rfl) s
theorem raiseReads_kept (m : MasterId) (s : State) : Kept s (raiseReads m s) := by
  unfold raiseReads; exact kept_modMaster _ _ (by intro e; rfl) s
theorem lowerReads_kept (m : MasterId) (s : State) : Kept s (lowerReads m s) := by
  unfold lowerReads; exact kept_modMaster _ _ (by intro e; rfl) s
theorem setNote_kept (m : MasterId) (n : Option WindowId) (s : State) : Kept s (setNote m n s) := by
  unfold setNote; exact kept_modMaster _ _ (by intro e; rfl) s

theorem freeIfDrained_kept (s : State) (w : WindowId) : Kept s (freeIfDrained s w) := by
  unfold freeIfDrained; split
  · exact kept_trans (kept_modWindow w freedWindow (fun _ => rfl) s) (offerReport_kept _ _)
  · exact kept_refl s

theorem freeDrainedWindows_kept (s : State) : Kept s (freeDrainedWindows s) :=
  kept_foldl _ freeIfDrained_kept _ s

theorem freeSlot_kept (i : SlotId) (s : State) : Kept s (freeSlot i s) := by
  unfold freeSlot; split
  · exact kept_refl s
  · exact kept_trans (kept_trans (t := { s with
      slots := modAt s.slots i (fun _ => Slot.powerOn), ageOrder := s.ageOrder.filter (· != i) })
      (by constructor <;> simp) (lowerReads_kept _ _)) (lowerRef_kept _ _)

theorem withdrawSlot_kept (i : SlotId) (s : State) : Kept s (withdrawSlot i s) := by
  unfold withdrawSlot; split
  · exact modSlot_kept _ _ _
  · exact freeSlot_kept _ _

theorem withdrawSlots_kept (p : Slot → Bool) (s : State) : Kept s (withdrawSlots p s) :=
  kept_foldl _ (fun s i => by
    split
    · exact withdrawSlot_kept i s
    · exact kept_refl s) _ s

theorem freeAllSlots_kept (s : State) : Kept s (freeAllSlots s) := kept_foldl _ (fun s i => freeSlot_kept i s) _ s

theorem dropClaims_kept (d : DataEntry) (s : State) : Kept s (dropClaims d s) := by
  unfold dropClaims; dsimp only; split
  · exact kept_trans (lowerWrites_kept _ _) (lowerRef_kept _ _)
  · exact lowerWrites_kept _ _

theorem entryClaims_kept (e : Entry) (s : State) : Kept s (entryClaims e s) := by
  cases e with
  | data d => exact dropClaims_kept d s
  | control c => exact kept_refl s

theorem removeHead_kept (s : State) : Kept s (removeHead s) := by
  unfold removeHead; split
  · exact kept_refl s
  · next e rest _ =>
    exact kept_trans (t := { s with pwq.entries := rest, slots := mapTable s.slots lowerAhead })
      (by constructor <;> simp) (entryClaims_kept e _)

theorem dropDeadHeads_kept (n : Nat) (s : State) : Kept s (dropDeadHeads n s) := by
  induction n generalizing s with
  | zero => exact kept_refl s
  | succ n ih =>
    unfold dropDeadHeads; split
    · split
      · exact kept_refl s
      · split
        · exact kept_trans (kept_trans (countDropped_kept s) (removeHead_kept _)) (ih _)
        · split
          · exact kept_trans (kept_trans (kept_trans (countDiscard_kept _ s) (countDropped_kept _)) (removeHead_kept _)) (ih _)
          · exact kept_refl s
    · exact kept_refl s

theorem leaveDeadHeads_kept (s : State) : Kept s (leaveDeadHeads s) := dropDeadHeads_kept _ s

theorem finishEvent_kept (s : State) : Kept s (finishEvent s) :=
  kept_trans (kept_trans (freeDrainedWindows_kept s) (testQuiesce_kept _)) (askForPlace_kept _)

theorem emptyQueue_kept (s : State) : Kept s (emptyQueue s) := by
  unfold emptyQueue
  exact kept_trans (t := { s with
      pwq.entries := keptEntries s
      pwq.dropped := s.pwq.dropped + BitVec.ofNat 32 ((removedEntries s).countP isData)
      rq.space := .none }) (by constructor <;> simp) (kept_foldl _ (fun s e => entryClaims_kept e s) _ _)

/-! ### Arbiter and lock unit -/

theorem decision_kept (s : State) : Kept s (decision s) := by constructor <;> simp
theorem requestArrives_kept (r : Requester) (s : State) : Kept s (requestArrives r s) := by constructor <;> simp
theorem reviewRequest_kept (s : State) : Kept s (reviewRequest s) := by constructor <;> simp
theorem endTenure_kept (s : State) : Kept s (endTenure s) := by constructor <;> simp
theorem settleTenure_kept (s : State) : Kept s (settleTenure s) := by constructor <;> simp
theorem takeHold_kept (s : State) : Kept s (takeHold s) := by constructor <;> simp
theorem endIdleTenure_kept (held : Bool) (s : State) : Kept s (endIdleTenure held s) := by constructor <;> simp
theorem releaseHold_kept (s : State) : Kept s (releaseHold s) := by constructor <;> simp
theorem clearLock_kept (s : State) : Kept s (clearLock s) := by constructor <;> simp
theorem markVoid_kept (s : State) : Kept s (markVoid s) := by constructor <;> simp
theorem closeLock_kept (d : DataEntry) (s : State) : Kept s (closeLock d s) := by constructor <;> simp
theorem stopLockTimer_kept (d : DataEntry) (s : State) : Kept s (stopLockTimer d s) := by constructor <;> simp
theorem markStop_kept (s : State) : Kept s (markStop s) := by constructor <;> simp
theorem detachFetch_kept (s : State) : Kept s (detachFetch s) := by constructor <;> simp
theorem becomeFaulted_kept (c : FaultCause) (s : State) : Kept s (becomeFaulted c s) := by constructor <;> simp
theorem clearAccess_kept (s : State) : Kept s (clearAccess s) := by constructor <;> simp

theorem withdrawLockedSlot_kept (o : Option SlotId) (s : State) : Kept s (withdrawLockedSlot o s) := by
  cases o with
  | none => exact kept_refl s
  | some i => exact withdrawSlot_kept i s

theorem noteBreak_kept (c : BreakCause) (l : Lock) (s : State) : Kept s (noteBreak c l s) := by
  unfold noteBreak; split
  · split
    · exact kept_refl s
    · exact setNote_kept _ _ _
  · exact kept_refl s

theorem breakLock_kept (c : BreakCause) (s : State) : Kept s (breakLock c s) := by
  unfold breakLock; split
  · dsimp only
    refine kept_trans ?_ (offerReport_kept _ _)
    refine kept_trans ?_ (noteBreak_kept _ _ _)
    refine kept_trans ?_ (markVoid_kept _)
    refine kept_trans ?_ (withdrawLockedSlot_kept _ _)
    split
    · exact kept_trans (clearLock_kept s) (releaseHold_kept _)
    · exact clearLock_kept s
  · exact kept_refl s

theorem faultGate_kept (c : FaultCause) (s : State) : Kept s (faultGate c s) := by
  unfold faultGate; dsimp only
  refine kept_trans ?_ (freeDrainedWindows_kept _)
  refine kept_trans ?_ (offerReport_kept _ _)
  refine kept_trans ?_ (endIdleTenure_kept _ _)
  refine kept_trans ?_ (releaseHold_kept _)
  refine kept_trans ?_ (breakLock_kept _ _)
  refine kept_trans ?_ (freeAllSlots_kept _)
  refine kept_trans ?_ (emptyQueue_kept _)
  exact kept_trans (becomeFaulted_kept c s) (markStop_kept _)

/-- A free choice leaves all but the count of choices as it was. -/
theorem takeChoice_kept (s : State) : Kept s (takeChoice s) := by
  constructor <;> first | exact Nat.le_succ _ | (intros; rfl)

theorem raceCloseTimer_kept (d : DataEntry) (s : State) : Kept s (raceCloseTimer d s) := by
  unfold raceCloseTimer; split
  · exact kept_trans (takeChoice_kept s) (stopLockTimer_kept d _)
  · exact kept_trans (takeChoice_kept s) (breakLock_kept _ _)

theorem drainBegins_kept (d : DataEntry) (s : State) : Kept s (drainBegins d s) := by
  unfold drainBegins; split
  · exact raceCloseTimer_kept d s
  · exact stopLockTimer_kept d s

/-! ### The card bus controller -/

theorem freezeOnError_kept (d : DataEntry) (k : ErrorKind) (a : CardAddr) (s : State) : Kept s (freezeOnError d k a s) := by
  unfold freezeOnError; dsimp only; split
  · have h := kept_trans (kept_modWindow d.window (fun e => { e with frozen := true }) (fun _ => rfl) s)
      (offerReport_kept (windowFrozenBody d k a) _)
    split
    · exact kept_trans h (breakLock_kept _ _)
    · exact h
  · exact kept_refl s

theorem drainConsequences_kept (o : DrainOutcome) (d : DataEntry) (s : State) : Kept s (drainConsequences o d s) := by
  cases o with
  | performed => exact countPerformed_kept s
  | stopped => exact countDropped_kept s
  | checkFailed => exact countDropped_kept s
  | cutOff k a =>
    exact kept_trans (kept_trans (countDropped_kept s) (offerReport_kept _ _)) (freezeOnError_kept _ _ _ _)

theorem drainStaleness_kept (o : DrainOutcome) (d : DataEntry) (s : State) : Kept s (drainStaleness o d s) := by
  unfold drainStaleness; split
  · exact kept_refl s
  · exact markStale_kept _ _ _

theorem drainEnded_kept (o : DrainOutcome) (d : DataEntry) (s : State) : Kept s (drainEnded o d s) := by
  have h : Kept s (clearAccess (removeHead (drainConsequences o d (closeLock d (drainStaleness o d s))))) :=
    kept_trans (kept_trans (kept_trans (kept_trans (drainStaleness_kept o d s) (closeLock_kept d _))
      (drainConsequences_kept o d _)) (removeHead_kept _)) (clearAccess_kept _)
  unfold drainEnded; dsimp only; split
  · exact kept_trans h (faultGate_kept _ _)
  · exact kept_trans h (leaveDeadHeads_kept _)

theorem endDrain_kept (o : DrainOutcome) (s : State) : Kept s (endDrain o s) := by
  unfold endDrain; split
  · exact kept_trans (drainEnded_kept _ _ _) (settleTenure_kept _)
  · exact kept_trans (clearAccess_kept _) (settleTenure_kept _)

theorem continueDrain_kept (a : Access) (d : DataEntry) (n : Nat) (s : State) : Kept s (continueDrain a d n s) := by
  unfold continueDrain; split
  · constructor <;> simp [performPiece]
  · exact endDrain_kept _ _
  · exact endDrain_kept _ _

theorem startFetch_kept (i : SlotId) (s : State) : Kept s (startFetch i s) := by constructor <;> simp [startFetch]

theorem startDrain_kept (d : DataEntry) (s : State) : Kept s (startDrain d s) := by
  unfold startDrain
  exact kept_trans (kept_trans (t := { s with cbc.access := some (drainRecord d) }) (by constructor <;> simp)
    (drainBegins_kept d _)) (continueDrain_kept _ _ _ _)

theorem runBus_kept (n : Nat) (s : State) : Kept s (runBus n s) := by
  induction n generalizing s with
  | zero => exact kept_refl s
  | succ n ih =>
    unfold runBus; split
    · exact kept_refl s
    · split
      · split
        · exact startFetch_kept _ _
        · exact kept_trans (startDrain_kept _ _) (ih _)
        · split
          · exact kept_refl s
          · exact kept_trans (endTenure_kept s) (ih _)
      · dsimp only; split
        · exact kept_trans (reviewRequest_kept s) (ih _)
        · exact reviewRequest_kept s

theorem settleBus_kept (s : State) : Kept s (settleBus s) := runBus_kept _ s

theorem settle_kept (s : State) : Kept s (settle s) :=
  kept_trans (kept_trans (leaveDeadHeads_kept s) (settleBus_kept _)) (finishEvent_kept _)

theorem ownLock_kept (s : State) : Kept s (ownLock s) :=
  kept_trans (t := { s with lock.state := .owned, lock.hold := some (startTimer s s.cu.lockHold) })
    (by constructor <;> simp) (takeHold_kept _)

theorem fetchSucceeds_kept (i : SlotId) (ws : List Word) (s : State) : Kept s (fetchSucceeds i ws s) := by
  unfold fetchSucceeds; dsimp only; split
  · split
    · exact kept_trans (modSlot_kept _ _ _) (ownLock_kept _)
    · exact modSlot_kept _ _ _
  · exact modSlot_kept _ _ _

theorem fetchFails_kept (i : SlotId) (k : ErrorKind) (a : CardAddr) (s : State) : Kept s (fetchFails i k a s) := by
  unfold fetchFails; dsimp only; split
  · exact kept_trans (kept_trans (kept_trans (modSlot_kept _ _ _) (offerReport_kept _ _)) (clearLock_kept _))
      (markVoid_kept _)
  · exact kept_trans (modSlot_kept _ _ _) (offerReport_kept _ _)

theorem fetchOutcome_kept (o : FetchOutcome) (i : SlotId) (ws : List Word) (s : State) :
    Kept s (fetchOutcome o i ws s) := by
  unfold fetchOutcome; split
  · split
    · exact freeSlot_kept _ _
    · cases o with
      | success => exact fetchSucceeds_kept _ _ _
      | failed k a => exact fetchFails_kept _ _ _ _
  · exact kept_refl s

theorem endFetch_kept (o : FetchOutcome) (a : Access) (s : State) : Kept s (endFetch o a s) := by
  unfold endFetch; dsimp only
  refine kept_trans ?_ (settleTenure_kept _)
  refine kept_trans ?_ (leaveDeadHeads_kept _)
  refine kept_trans ?_ (clearAccess_kept _)
  cases a.slot with
  | none => exact kept_refl s
  | some i => exact fetchOutcome_kept _ _ _ _

theorem drainPieceAcked_kept (a : Access) (p : PieceOp) (s : State) : Kept s (drainPieceAcked a p s) := by
  unfold drainPieceAcked; dsimp only
  refine kept_trans (t := { s with cbc.access := some { a with bytes := a.bytes + laneCount p.op.enables, op := none } })
    (by constructor <;> simp) ?_
  split
  · exact endDrain_kept _ _
  · split
    · exact endDrain_kept _ _
    · split
      · exact continueDrain_kept _ _ _ _
      · exact endDrain_kept _ _

theorem fetchPieceAcked_kept (a : Access) (p : PieceOp) (d : Word) (s : State) : Kept s (fetchPieceAcked a p d s) := by
  unfold fetchPieceAcked; dsimp only; split
  · exact endFetch_kept _ _ _
  · constructor <;> simp

theorem pieceAcked_kept (a : Access) (p : PieceOp) (d : Word) (s : State) : Kept s (pieceAcked a p d s) := by
  unfold pieceAcked; split
  · exact drainPieceAcked_kept _ _ _
  · exact fetchPieceAcked_kept _ _ _ _

theorem pieceFailed_kept (a : Access) (p : PieceOp) (k : ErrorKind) (s : State) : Kept s (pieceFailed a p k s) := by
  unfold pieceFailed; split
  · exact endDrain_kept _ _
  · exact endFetch_kept _ _ _

theorem endStoppedAccess_kept (s : State) : Kept s (endStoppedAccess s) := by
  unfold endStoppedAccess; split
  · split
    · split
      · exact endDrain_kept _ _
      · exact endFetch_kept _ _ _
    · exact kept_refl s
  · exact kept_refl s

end Sys2Proof.Machine
end

