-- ==== Sys2Proof/Laws/Settle.lean ====
section
/-! SUPPORT. The end of an event (`settle`): it moves the gate on (`Safety.MovesOn`), it changes nothing where nothing
is left to do, and so it is `Safety.SettlesTo`. -/

namespace Sys2Proof.Machine

open Sys2Proof.Safety

/-! ### Composition -/

theorem moves_refl (s : State) : MovesOn s s :=
  ⟨⟨[], by simp⟩, Nat.le_refl _, fun _ h => ⟨h, rfl⟩, .inl rfl⟩

theorem moves_trans {s t u : State} (h : MovesOn s t) (k : MovesOn t u) : MovesOn s u := by
  refine ⟨?_, Nat.le_trans k.queue h.queue, ?_, ?_⟩
  · obtain ⟨a, ha⟩ := h.reports
    obtain ⟨b, hb⟩ := k.reports
    exact ⟨a ++ b, by rw [hb, ha, List.append_assoc]⟩
  · intro w hw
    obtain ⟨h1, h2⟩ := h.live w hw
    obtain ⟨k1, k2⟩ := k.live w h1
    exact ⟨k1, k2.trans h2⟩
  · obtain k1 | ⟨k1, k2⟩ | k1 := k.gate
    · obtain h1 | ⟨h1, h2⟩ | h1 := h.gate
      · exact .inl (k1.trans h1)
      · exact .inr (.inl ⟨h1, k1.trans h2⟩)
      · exact .inr (.inr (by rw [k1]; exact h1))
    · obtain h1 | ⟨h1, h2⟩ | h1 := h.gate
      · exact .inr (.inl ⟨by rw [← h1]; exact k1, by rw [k2, h1]⟩)
      · rw [h2] at k1; exact GateState.noConfusion k1
      · rw [h1] at k1; exact absurd k1 (by decide)
    · exact .inr (.inr k1)

theorem moves_foldl {α : Type} (f : State → α → State) (h : ∀ s a, MovesOn s (f s a)) (l : List α) (s : State) :
    MovesOn s (l.foldl f s) := by
  induction l generalizing s with
  | nil => exact moves_refl s
  | cons a l ih => exact moves_trans (h s a) (ih _)

/-- A change that touches neither reports, nor windows, nor the gate state, and does not lengthen the queue. -/
theorem moves_of_same {s t : State} (hr : t.rq.reports = s.rq.reports)
    (hq : t.pwq.entries.length ≤ s.pwq.entries.length) (hw : t.windows = s.windows) (hg : t.gsc = s.gsc) : MovesOn s t :=
  ⟨⟨[], by simp [hr]⟩, hq, fun w h => by rw [hw]; exact ⟨h, rfl⟩, .inl hg⟩

/-- A change of window entries that keeps their states and frozen flags. -/
theorem moves_of_windows {s t : State} (hr : t.rq.reports = s.rq.reports)
    (hq : t.pwq.entries.length ≤ s.pwq.entries.length)
    (hw : ∀ w : WindowId, t.windows[w].state = s.windows[w].state ∧ t.windows[w].frozen = s.windows[w].frozen)
    (hg : t.gsc = s.gsc) : MovesOn s t :=
  ⟨⟨[], by simp [hr]⟩, hq, fun w h => ⟨(hw w).1.trans h, (hw w).2⟩, .inl hg⟩

/-! ### Operations -/

/-- Where a report goes: at the tail, or nowhere (R165, R166). -/
theorem offerReport_reports (b : ReportBody) (s : State) :
    (offerReport b s).rq.reports = s.rq.reports ++ [⟨s.rq.nextSeq, s.rq.suppressed, b⟩] ∨
      (offerReport b s).rq.reports = s.rq.reports := by
  unfold offerReport; split
  · exact .inl rfl
  · exact .inr rfl

theorem offerReport_moves (b : ReportBody) (s : State) : MovesOn s (offerReport b s) := by
  refine ⟨?_, by simp [queueLength], by intro w h; simpa using h, by simp⟩
  obtain h | h := offerReport_reports b s
  · exact ⟨_, h⟩
  · exact ⟨[], by simp [h]⟩

theorem lowerRef_moves (w : WindowId) (s : State) : MovesOn s (lowerRef w s) := by
  unfold lowerRef
  refine moves_of_windows rfl (Nat.le_refl _) (fun v => ⟨?_, ?_⟩) rfl
  · exact modAt_get_proj _ _ _ _ Window.state (fun _ => rfl)
  · exact modAt_get_proj _ _ _ _ Window.frozen (fun _ => rfl)

theorem countDiscard_moves (w : WindowId) (s : State) : MovesOn s (countDiscard w s) := by
  unfold countDiscard
  refine moves_of_windows rfl (Nat.le_refl _) (fun v => ⟨?_, ?_⟩) rfl
  · exact modAt_get_proj _ _ _ _ Window.state (fun _ => rfl)
  · exact modAt_get_proj _ _ _ _ Window.frozen (fun _ => rfl)

theorem freeIfDrained_moves (s : State) (w : WindowId) : MovesOn s (freeIfDrained s w) := by
  unfold freeIfDrained; split
  · next h =>
    refine moves_trans (t := { s with windows := modAt s.windows w freedWindow }) ?_ (offerReport_moves _ _)
    refine ⟨⟨[], by simp⟩, Nat.le_refl _, fun v hv => ?_, .inl rfl⟩
    have hne : w ≠ v := fun e => by rw [e, hv] at h; exact absurd h.1 (by decide)
    rw [modAt_get_ne _ _ _ _ hne]; exact ⟨hv, rfl⟩
  · exact moves_refl s

theorem freeDrainedWindows_moves (s : State) : MovesOn s (freeDrainedWindows s) :=
  moves_foldl _ freeIfDrained_moves _ s

theorem freeSlot_moves (i : SlotId) (s : State) : MovesOn s (freeSlot i s) := by
  unfold freeSlot; split
  · exact moves_refl s
  · exact moves_trans (moves_of_same (by simp) (by simp) (by simp) (by simp)) (lowerRef_moves _ _)

theorem withdrawSlot_moves (i : SlotId) (s : State) : MovesOn s (withdrawSlot i s) := by
  unfold withdrawSlot; split
  · exact moves_of_same rfl (Nat.le_refl _) rfl rfl
  · exact freeSlot_moves i s

theorem freeAllSlots_moves (s : State) : MovesOn s (freeAllSlots s) := moves_foldl _ (fun s i => freeSlot_moves i s) _ s

theorem dropClaims_moves (d : DataEntry) (s : State) : MovesOn s (dropClaims d s) := by
  unfold dropClaims; dsimp only; split
  · exact moves_trans (t := lowerWrites d.master s) (moves_of_same rfl (Nat.le_refl _) rfl rfl) (lowerRef_moves _ _)
  · exact moves_of_same rfl (Nat.le_refl _) rfl rfl

theorem entryClaims_moves (e : Entry) (s : State) : MovesOn s (entryClaims e s) := by
  cases e with
  | data d => exact dropClaims_moves d s
  | control c => exact moves_refl s

theorem removeHead_moves (s : State) : MovesOn s (removeHead s) := by
  unfold removeHead; split
  · exact moves_refl s
  · next e rest h =>
    exact moves_trans (t := { s with pwq.entries := rest, slots := mapTable s.slots lowerAhead })
      (moves_of_same rfl (by simp [h]) rfl rfl) (entryClaims_moves e _)

theorem countDropped_moves (s : State) : MovesOn s (countDropped s) := moves_of_same rfl (Nat.le_refl _) rfl rfl
theorem countPerformed_moves (s : State) : MovesOn s (countPerformed s) := moves_of_same rfl (Nat.le_refl _) rfl rfl
theorem markStale_moves (a : CardAddr) (n : Nat) (s : State) : MovesOn s (markStale a n s) :=
  moves_of_same rfl (Nat.le_refl _) rfl rfl
theorem clearAccess_moves (s : State) : MovesOn s (clearAccess s) := moves_of_same rfl (Nat.le_refl _) rfl rfl
theorem askForPlace_moves (s : State) : MovesOn s (askForPlace s) := moves_of_same (by simp) (by simp) (by simp) (by simp)

theorem dropDeadHeads_moves (n : Nat) (s : State) : MovesOn s (dropDeadHeads n s) := by
  induction n generalizing s with
  | zero => exact moves_refl s
  | succ n ih =>
    unfold dropDeadHeads; split
    · split
      · exact moves_refl s
      · split
        · exact moves_trans (moves_trans (countDropped_moves s) (removeHead_moves _)) (ih _)
        · split
          · exact moves_trans (moves_trans (moves_trans (countDiscard_moves _ s) (countDropped_moves _))
              (removeHead_moves _)) (ih _)
          · exact moves_refl s
    · exact moves_refl s

theorem testQuiesce_moves (s : State) : MovesOn s (testQuiesce s) := by
  unfold testQuiesce; split
  · next h =>
    simp only [Bool.and_eq_true, decide_eq_true_eq] at h
    refine moves_trans (t := { s with gsc.state := .standby, gsc.quiesceTag := none }) ?_ (offerReport_moves _ _)
    exact ⟨⟨[], by simp⟩, Nat.le_refl _, fun w hw => ⟨hw, rfl⟩, .inr (.inl ⟨h.1, rfl⟩)⟩
  · exact moves_refl s

theorem leaveDeadHeads_moves (s : State) : MovesOn s (leaveDeadHeads s) := dropDeadHeads_moves _ s

theorem finishEvent_moves (s : State) : MovesOn s (finishEvent s) :=
  moves_trans (moves_trans (freeDrainedWindows_moves s) (testQuiesce_moves _)) (askForPlace_moves _)

theorem reviewRequest_moves (s : State) : MovesOn s (reviewRequest s) :=
  moves_of_same (by simp) (by simp) (by simp) (by simp)
theorem endTenure_moves (s : State) : MovesOn s (endTenure s) := moves_of_same (by simp) (by simp) (by simp) (by simp)
theorem settleTenure_moves (s : State) : MovesOn s (settleTenure s) :=
  moves_of_same (by simp) (by simp) (by simp) (by simp)
theorem endIdleTenure_moves (held : Bool) (s : State) : MovesOn s (endIdleTenure held s) :=
  moves_of_same (by simp) (by simp) (by simp) (by simp)
theorem releaseHold_moves (s : State) : MovesOn s (releaseHold s) :=
  moves_of_same (by simp) (by simp) (by simp) (by simp)
theorem closeLock_moves (d : DataEntry) (s : State) : MovesOn s (closeLock d s) :=
  moves_of_same (by simp) (by simp) (by simp) (by simp)
theorem stopLockTimer_moves (d : DataEntry) (s : State) : MovesOn s (stopLockTimer d s) :=
  moves_of_same (by simp) (by simp) (by simp) (by simp)
theorem clearLock_moves (s : State) : MovesOn s (clearLock s) := moves_of_same rfl (Nat.le_refl _) rfl rfl

/-- A break changes no place in the queue (R40). -/
theorem markVoid_length (s : State) : (markVoid s).pwq.entries.length = s.pwq.entries.length := by
  unfold markVoid notBegun
  cases inDrain s <;> cases s.pwq.entries <;> simp

theorem markVoid_moves (s : State) : MovesOn s (markVoid s) := moves_of_same rfl (markVoid_length s).le rfl rfl

theorem noteBreak_moves (c : BreakCause) (l : Lock) (s : State) : MovesOn s (noteBreak c l s) :=
  moves_of_same (by simp) (by simp) (by simp) (by simp)

theorem withdrawLockedSlot_moves (o : Option SlotId) (s : State) : MovesOn s (withdrawLockedSlot o s) := by
  cases o with
  | none => exact moves_refl s
  | some i => exact withdrawSlot_moves i s

theorem breakLock_moves (c : BreakCause) (s : State) : MovesOn s (breakLock c s) := by
  unfold breakLock; split
  · dsimp only
    refine moves_trans ?_ (offerReport_moves _ _)
    refine moves_trans ?_ (noteBreak_moves _ _ _)
    refine moves_trans ?_ (markVoid_moves _)
    refine moves_trans ?_ (withdrawLockedSlot_moves _ _)
    split
    · exact moves_trans (clearLock_moves s) (releaseHold_moves _)
    · exact clearLock_moves s
  · exact moves_refl s

theorem emptyQueue_moves (s : State) : MovesOn s (emptyQueue s) := by
  unfold emptyQueue; dsimp only
  refine moves_trans ?_ (moves_foldl _ (fun s e => entryClaims_moves e s) _ _)
  refine moves_of_same rfl ?_ rfl rfl
  simp only [keptEntries]; split
  · exact List.length_take_le' 1 s.pwq.entries
  · simp

theorem faultGate_moves (c : FaultCause) (s : State) : MovesOn s (faultGate c s) := by
  unfold faultGate; dsimp only
  refine moves_trans ?_ (freeDrainedWindows_moves _)
  refine moves_trans ?_ (offerReport_moves _ _)
  refine moves_trans ?_ (endIdleTenure_moves _ _)
  refine moves_trans ?_ (releaseHold_moves _)
  refine moves_trans ?_ (breakLock_moves _ _)
  refine moves_trans ?_ (freeAllSlots_moves _)
  refine moves_trans ?_ (emptyQueue_moves _)
  refine moves_trans (t := becomeFaulted c s) ?_ (moves_of_same rfl (Nat.le_refl _) rfl rfl)
  exact ⟨⟨[], by simp⟩, Nat.le_refl _, fun w hw => ⟨hw, rfl⟩, .inr (.inr rfl)⟩

/-- The end of a drain that no error cuts off. -/
theorem endDrain_moves (o : DrainOutcome) (s : State) (ho : o = .performed ∨ o = .stopped ∨ o = .checkFailed) :
    MovesOn s (endDrain o s) := by
  unfold endDrain; split
  · refine moves_trans ?_ (settleTenure_moves _)
    next d _ _ =>
    have hc : ∀ u, MovesOn u (drainConsequences o d u) := by
      obtain rfl | rfl | rfl := ho
      · exact countPerformed_moves
      · exact countDropped_moves
      · exact countDropped_moves
    have hst : MovesOn s (drainStaleness o d s) := by
      unfold drainStaleness; split
      · exact moves_refl s
      · exact markStale_moves _ _ _
    have h : MovesOn s (clearAccess (removeHead (drainConsequences o d (closeLock d (drainStaleness o d s))))) :=
      moves_trans (moves_trans (moves_trans (moves_trans hst (closeLock_moves d _)) (hc _)) (removeHead_moves _))
        (clearAccess_moves _)
    unfold drainEnded; dsimp only; split
    · exact moves_trans h (faultGate_moves _ _)
    · exact moves_trans h (leaveDeadHeads_moves _)
  · exact moves_trans (clearAccess_moves _) (settleTenure_moves _)

theorem startFetch_moves (i : SlotId) (s : State) : MovesOn s (startFetch i s) :=
  moves_of_same rfl (Nat.le_refl _) rfl rfl

theorem continueDrain_moves (a : Access) (d : DataEntry) (n : Nat) (s : State) : MovesOn s (continueDrain a d n s) := by
  unfold continueDrain; split
  · exact moves_of_same rfl (Nat.le_refl _) rfl rfl
  · exact endDrain_moves _ _ (.inl rfl)
  · exact endDrain_moves _ _ (.inr (.inr rfl))

theorem drainBegins_moves (d : DataEntry) (s : State) : MovesOn s (drainBegins d s) := by
  have h : MovesOn s (takeChoice s) := moves_of_same rfl (Nat.le_refl _) rfl rfl
  unfold drainBegins raceCloseTimer; split
  · split
    · exact moves_trans h (stopLockTimer_moves d _)
    · exact moves_trans h (breakLock_moves _ _)
  · exact stopLockTimer_moves d s

theorem startDrain_moves (d : DataEntry) (s : State) : MovesOn s (startDrain d s) := by
  unfold startDrain
  refine moves_trans ?_ (continueDrain_moves _ _ _ _)
  refine moves_trans ?_ (drainBegins_moves d _)
  exact moves_of_same rfl (Nat.le_refl _) rfl rfl

theorem runBus_moves (n : Nat) (s : State) : MovesOn s (runBus n s) := by
  induction n generalizing s with
  | zero => exact moves_refl s
  | succ n ih =>
    unfold runBus; split
    · exact moves_refl s
    · split
      · split
        · exact startFetch_moves _ _
        · exact moves_trans (startDrain_moves _ _) (ih _)
        · split
          · exact moves_refl s
          · exact moves_trans (endTenure_moves s) (ih _)
      · dsimp only; split
        · exact moves_trans (reviewRequest_moves s) (ih _)
        · exact reviewRequest_moves s

theorem settleBus_moves (s : State) : MovesOn s (settleBus s) := runBus_moves _ s

/-! ### Nothing left to do -/

theorem freeIfDrained_named (s : State) (h : DrainingNamed s) (w : WindowId) : freeIfDrained s w = s := by
  unfold freeIfDrained
  exact if_neg fun ⟨h1, h2⟩ => h w h1 h2

theorem freeDrainedWindows_named (s : State) (h : DrainingNamed s) : freeDrainedWindows s = s := by
  unfold freeDrainedWindows
  generalize List.finRange 32 = l
  induction l with
  | nil => rfl
  | cons w l ih => rw [List.foldl_cons, freeIfDrained_named s h w, ih]

theorem testQuiesce_open (s : State) (h : ¬(s.gsc.state = .quiescing ∧ quiesceConditions s = true)) :
    testQuiesce s = s := by
  unfold testQuiesce
  exact if_neg (by simpa using h)

theorem dropDeadHeads_settled (n : Nat) (s : State) (h : HeadSettled s) : dropDeadHeads n s = s := by
  cases n with
  | zero => rfl
  | succ n =>
    unfold dropDeadHeads; split
    · next d rest he =>
      unfold HeadSettled at h; rw [he] at h
      obtain h | ⟨h1, h2⟩ := h.1
      · rw [if_pos h]
      · split
        · rfl
        · simp [h1, h2]
    · rfl

theorem askForPlace_settled (s : State) (h : HeadSettled s) : askForPlace s = s := by
  unfold askForPlace; split
  · next c rest he => unfold HeadSettled at h; rw [he] at h; rw [if_neg h]
  · rfl

/-- Where nothing is left to do at the head, no entry leaves. -/
theorem leaveDeadHeads_settled (s : State) (h : Settled s) : leaveDeadHeads s = s := dropDeadHeads_settled _ _ h.1

/-- Where nothing is left to do, the end of an event changes nothing. -/
theorem finishEvent_settled (s : State) (h : Settled s) : finishEvent s = s := by
  unfold finishEvent
  rw [freeDrainedWindows_named _ h.2.1, testQuiesce_open _ h.2.2, askForPlace_settled _ h.1]

theorem reviewRequest_quiet (s : State) (h1 : hasCandidate s = false) (h2 : s.cbc.request = false)
    (h3 : s.cbc.tenure = false) : reviewRequest s = s := by
  unfold reviewRequest
  rw [if_neg (by simp [h3]), if_neg (by simp [h1])]
  obtain ⟨_, _, _, _, _, _, _, _, _, _, ⟨r, t, a⟩, _⟩ := s
  cases h2; rfl

/-- A controller with nothing to start or end stays as it is. -/
theorem settleBus_quiet (s : State) (h : BusQuiet s) : settleBus s = s := by
  unfold settleBus busFuel
  rw [show 2 * queueLength s + 4 = (2 * queueLength s + 3) + 1 from rfl, runBus]
  obtain h | ⟨h1, ⟨h2, h3⟩ | ⟨h3, h4⟩⟩ := h
  · rw [if_pos h]
  · split
    · rfl
    · rw [if_neg (by simp [h3])]
      simp [reviewRequest_quiet s h1 h2 h3, h3]
  · split
    · rfl
    · unfold hasCandidate at h1
      rw [Bool.or_eq_false_iff, Option.isSome_eq_false_iff, Option.isSome_eq_false_iff] at h1
      simp only [Option.isNone_iff_eq_none] at h1
      rw [h1.1, h1.2]

/-- Where nothing is left to do, an event goes no further. -/
theorem settle_quiet (s : State) (h1 : Settled s) (h2 : BusQuiet s) : settle s = s := by
  rw [settle, leaveDeadHeads_settled s h1, settleBus_quiet s h2, finishEvent_settled s h1]

theorem settle_moves (s : State) : MovesOn s (settle s) :=
  moves_trans (moves_trans (leaveDeadHeads_moves s) (settleBus_moves _)) (finishEvent_moves _)

end Sys2Proof.Machine
end

