-- ==== Sys2Proof/Laws/Region.lean ====
section
/-! SUPPORT. The transactions of the listed control-region operations: each lies in the gate's own region at its
offset, passes the shape test, and reaches the control unit (R91, R139, R140). -/

namespace Sys2Proof.Machine

theorem regionBase_toNat (n : BitVec 4) : (regionBase n).toNat = 0xFFF00000 + n.toNat * 0x10000 := by
  have := n.isLt
  simp only [regionBase, BitVec.toNat_ofNat]; omega

theorem regionAddr_toNat (n : BitVec 4) (offset : Nat) (h : offset < 0x10000) :
    (regionBase n + BitVec.ofNat 32 offset).toNat = (regionBase n).toNat + offset := by
  have := n.isLt
  have := regionBase_toNat n
  rw [BitVec.toNat_add, BitVec.toNat_ofNat]; omega

theorem inRegion_offset (n : BitVec 4) (offset : Nat) (h : offset < 0x10000) :
    inRegion n (regionBase n + BitVec.ofNat 32 offset) = true := by
  simp [inRegion, regionAddr_toNat n offset h, h]

theorem regionOffset_offset (n : BitVec 4) (offset : Nat) (h : offset < 0x10000) :
    regionOffset n (regionBase n + BitVec.ofNat 32 offset) = offset := by
  simp [regionOffset, regionAddr_toNat n offset h]

/-- A read of a listed operation outside RESET is served by the control unit. -/
theorem trunkTxn_regionRead (s : State) (m : MasterId) (offset beats : Nat) (h : offset < 0x10000)
    (hr : s.gsc.state ≠ .reset) :
    trunkTxn (regionRead s m offset beats) s =
      match readShape offset beats with
      | none => answer .refuse s
      | some op => serveOp m op s := by
  simp only [trunkTxn, hr, if_false, regionRead, inRegion_offset _ _ h, if_true, controlTxn, regionOffset_offset _ _ h,
    writtenBeats, shapeOf]
  simp [disagreeing] <;> (cases readShape offset beats <;> rfl)

/-- The beats of a listed write. -/
def regionBeats (words : List CheckedWord) : List Beat := words.map fun c => ⟨c.word, 0xF, c.code⟩

theorem disagreeing_nil_iff (beats : List Beat) : disagreeing beats = [] ↔ ∀ b ∈ beats, beatAgrees b = true := by
  simp only [disagreeing, List.filter_eq_nil_iff, List.mem_range]
  constructor
  · intro h b hb
    obtain ⟨i, hi, rfl⟩ := List.mem_iff_getElem.mp hb
    simpa [List.getElem?_eq_getElem hi] using h i hi
  · intro h i hi
    simp [List.getElem?_eq_getElem hi, h _ (List.getElem_mem hi)]

/-- A write of a listed operation outside RESET whose codes agree is served by the control unit. -/
theorem trunkTxn_regionWrite (s : State) (m : MasterId) (offset : Nat) (words : List CheckedWord) (h : offset < 0x10000)
    (hr : s.gsc.state ≠ .reset) (hc : ∀ c ∈ words, wordAgrees c = true) :
    trunkTxn (regionWrite s m offset words) s =
      match writeShape offset (words.map CheckedWord.word) with
      | none => answer .refuse s
      | some op => serveOp m op s := by
  have hd : disagreeing (words.map fun c => (⟨c.word, 0xF, c.code⟩ : Beat)) = [] := by
    rw [disagreeing_nil_iff]
    simpa [beatAgrees, wordAgrees] using hc
  simp only [trunkTxn, hr, if_false, regionWrite, inRegion_offset _ _ h, if_true, controlTxn, regionOffset_offset _ _ h,
    writtenBeats, shapeOf, hd]
  simp [Function.comp_def] <;> (cases writeShape offset (List.map (fun x => x.word) words) <;> rfl)

/-- A write of a listed operation outside RESET with a damaged word is refused with a report (R97). -/
theorem trunkTxn_regionWrite_damaged (s : State) (m : MasterId) (offset : Nat) (words : List CheckedWord)
    (h : offset < 0x10000) (hr : s.gsc.state ≠ .reset) (hc : ∃ c ∈ words, wordAgrees c = false) :
    trunkTxn (regionWrite s m offset words) s =
      refuseDamaged m (regionBase s.ti.slotNumber + BitVec.ofNat 32 offset) (regionBeats words) s := by
  have hd : disagreeing (words.map fun c => (⟨c.word, 0xF, c.code⟩ : Beat)) ≠ [] := by
    rw [Ne, disagreeing_nil_iff]
    obtain ⟨c, hc, hw⟩ := hc
    intro k
    have := k ⟨c.word, 0xF, c.code⟩ (List.mem_map.mpr ⟨c, hc, rfl⟩)
    simp only [beatAgrees, wordAgrees] at this hw
    rw [hw] at this; exact absurd this (by decide)
  simp only [trunkTxn, hr, if_false, regionWrite, inRegion_offset _ _ h, if_true, controlTxn, writtenBeats, regionBeats]
  exact if_pos (by simpa [List.isEmpty_iff] using hd)

/-! ### Each row reaches its operation -/

/-- The value of a word that is two fields laid side by side. -/
theorem append_toNat {n m : Nat} (x : BitVec n) (y : BitVec m) : (x ++ y).toNat = x.toNat * 2 ^ m + y.toNat := by
  rw [BitVec.toNat_append, ← Nat.shiftLeft_add_eq_or_of_lt y.isLt, Nat.shiftLeft_eq]

/-- Rows 3 to 5 of R140 refuse an operation. -/
theorem serve_refused {s : State} {m : MasterId} {op : ControlOp} (h : refusedOp s m op = true) :
    serveOp m op s = answer .refuse s := by
  simp [serveOp, h]
/-- An operation that rows 3 to 5 of R140 pass is decided by its own rule. -/
theorem serve_ok {s : State} {m : MasterId} {op : ControlOp} (h : refusedOp s m op = false) :
    serveOp m op s = operate m op s := by
  simp [serveOp, h]

theorem exec_identity (s : State) (m : MasterId) (h : s.gsc.state ≠ .reset) :
    exec (.identity m) s = .next (serveOp m .identity s) := by
  simp [exec, execIdentity, trunkTxn_regionRead s m 0x0000 1 (by decide) h, readShape]

theorem exec_counts (s : State) (m : MasterId) (h : s.gsc.state ≠ .reset) :
    exec (.counts m) s = .next (serveOp m .counts s) := by
  simp [exec, execCounts, trunkTxn_regionRead s m 0x0010 3 (by decide) h, readShape]

theorem exec_status (s : State) (m : MasterId) (h : s.gsc.state ≠ .reset) :
    exec (.status m) s = .next (serveOp m .status s) := by
  simp [exec, execStatus, trunkTxn_regionRead s m 0x0004 1 (by decide) h, readShape]

theorem exec_reportHead (s : State) (m : MasterId) (h : s.gsc.state ≠ .reset) :
    exec (.reportHead m) s = .next (serveOp m .reportHead s) := by
  simp [exec, execReportHead, trunkTxn_regionRead s m 0x0200 4 (by decide) h, readShape]

theorem readShape_window : ∀ w : WindowId, readShape (0x1000 + w.val * 0x20) 8 = some (.windowReadback w) := by decide

theorem readShape_master : ∀ m : MasterId, readShape (0x2000 + m.val * 0x10) 4 = some (.masterReadback m) := by decide

theorem exec_windowReadback (s : State) (m : MasterId) (w : WindowId) (h : s.gsc.state ≠ .reset) :
    exec (.windowReadback m w) s = .next (serveOp m (.windowReadback w) s) := by
  have := w.isLt
  simp only [exec, execWindowReadback, trunkTxn_regionRead _ _ _ _ (show 0x1000 + w.val * 0x20 < 0x10000 by omega) h, readShape_window]

theorem exec_masterReadback (s : State) (m : MasterId) (k : MasterId) (h : s.gsc.state ≠ .reset) :
    exec (.masterReadback m k) s = .next (serveOp m (.masterReadback k) s) := by
  have := k.isLt
  simp only [exec, execMasterReadback, trunkTxn_regionRead _ _ _ _ (show 0x2000 + k.val * 0x10 < 0x10000 by omega) h, readShape_master]

theorem exec_claim (s : State) (m : MasterId) (d : CheckedWord) (h : s.gsc.state ≠ .reset) (hd : wordAgrees d = true) :
   exec (.claim m d) s = .next (serveOp m (.claim d.word) s) := by
  simp [exec, execClaim, trunkTxn_regionWrite s m 0x100 [d] (by decide) h (by simpa using hd), writeShape]

theorem exec_relinquish (s : State) (m : MasterId) (d : CheckedWord) (h : s.gsc.state ≠ .reset) (hd : wordAgrees d = true) :
   exec (.relinquish m d) s = .next (serveOp m (.relinquish d.word) s) := by
  simp [exec, execRelinquish, trunkTxn_regionWrite s m 0x104 [d] (by decide) h (by simpa using hd), writeShape]

theorem exec_release (s : State) (m : MasterId) (d : CheckedWord) (h : s.gsc.state ≠ .reset) (hd : wordAgrees d = true) :
   exec (.release m d) s = .next (serveOp m (.release d.word) s) := by
  simp [exec, execRelease, trunkTxn_regionWrite s m 0x108 [d] (by decide) h (by simpa using hd), writeShape]

theorem exec_attention (s : State) (m : MasterId) (d : CheckedWord) (h : s.gsc.state ≠ .reset) (hd : wordAgrees d = true) :
   exec (.attention m d) s = .next (serveOp m (.attention d.word) s) := by
  simp [exec, execAttention, trunkTxn_regionWrite s m 0x10C [d] (by decide) h (by simpa using hd), writeShape]

theorem exec_resetGate (s : State) (m : MasterId) (d : CheckedWord) (h : s.gsc.state ≠ .reset) (hd : wordAgrees d = true) :
   exec (.resetGate m d) s = .next (serveOp m (.resetGate d.word) s) := by
  simp [exec, execResetGate, trunkTxn_regionWrite s m 0x110 [d] (by decide) h (by simpa using hd), writeShape]

theorem exec_intake (s : State) (m : MasterId) (words : List CheckedWord) (h1 : 1 ≤ words.length) (h2 : words.length ≤ 16)
   (h : s.gsc.state ≠ .reset) (hd : ∀ c ∈ words, wordAgrees c = true) :
   exec (.controlIntake m words) s = .next (serveOp m (.intake (words.map CheckedWord.word)) s) := by
  have : beatCountLegal (txnBeats (regionWrite s m 0x400 words)) = true := by simp [beatCountLegal, txnBeats, regionWrite, h1, h2]
  simp [exec, execControlIntake, takeTxn, this, trunkTxn_regionWrite s m 0x400 words (by decide) h hd, writeShape, h1, h2]

end Sys2Proof.Machine
end

