-- ==== Sys2Proof/Laws/Answer.lean ====
section
/-! SUPPORT. Each test of the answer selection (R92), once: the model's computation and the manual's condition. -/

namespace Sys2Proof.Laws

open Sys2Proof.Machine Sys2Proof.Safety

theorem inRegion_iff (s : State) (a : TrunkAddr) : inRegion s.ti.slotNumber a = true ↔ InRegion s a := by
  rw [inRegion, regionBase_toNat, Bool.and_eq_true, decide_eq_true_iff, decide_eq_true_iff, InRegion]

theorem unitBytes_pos (u : BeatUnit) : 1 ≤ unitBytes u := by cases u <;> decide

theorem misaligned_iff (t : Txn) : misaligned t = true ↔ Misaligned t := by
  unfold misaligned Misaligned txnDirection
  rw [Nat.dvd_iff_mod_eq_zero]
  cases t.payload <;> simp

theorem crossesEnd_iff (e : Window) (t : Txn) (h : 1 ≤ txnBeats t) : crossesEnd e t = true ↔ CrossesEnd e t := by
  have hp : 1 ≤ txnBeats t * unitBytes t.unit := Nat.mul_le_mul h (unitBytes_pos t.unit)
  rw [crossesEnd, decide_eq_true_iff, CrossesEnd]
  constructor
  · intro hc
    exact ⟨txnBeats t * unitBytes t.unit - 1, by omega, by omega⟩
  · rintro ⟨b, hb, hc⟩
    omega

theorem lockOwnedBy_iff (s : State) (m : MasterId) (w : WindowId) : lockOwnedBy s m w = true ↔ OwnsLock s m w := by
  unfold lockOwnedBy lockedWindow lockStands OwnsLock
  simp only [Bool.and_eq_true, bne_iff_ne, ne_eq, decide_eq_true_eq]
  constructor
  · rintro ⟨⟨h, hw⟩, hm⟩; exact ⟨h, hm, hw⟩
  · rintro ⟨h, hm, hw⟩; exact ⟨⟨h, hw⟩, hm⟩

theorem lockOwnedBy_false_iff (s : State) (m : MasterId) (w : WindowId) : lockOwnedBy s m w = false ↔ ¬OwnsLock s m w := by
  rw [← lockOwnedBy_iff, Bool.not_eq_true]

theorem rightsFail_iff (s : State) (w : WindowId) (t : Txn) : rightsFail s w t = true ↔ RightsFail s w t := by
  unfold rightsFail RightsFail hasRight txnDirection
  rw [Bool.or_eq_true, Bool.and_eq_true, Bool.and_eq_true, Bool.not_eq_true', Bool.not_eq_true', Bool.not_eq_true',
    lockOwnedBy_false_iff]
  cases t.payload <;> simp [and_assoc]

theorem returnsToLocked_iff (s : State) (t : Txn) : returnsToLocked s t = true ↔ ReturnsToLocked s t := by
  unfold returnsToLocked ReturnsToLocked lockStands
  cases s.lock.slot <;> simp [and_assoc]

theorem returnsToAnswer_iff (s : State) (t : Txn) : returnsToAnswer s t = true ↔ ReturnsToAnswer s t := by
  unfold returnsToAnswer ReturnsToAnswer txnDirection
  cases t.payload <;> cases matchingSlot s t <;> simp [or_assoc]

theorem gatePasses_iff (s : State) (w : WindowId) (t : Txn) : gatePasses s w t = true ↔ GatePasses s w t := by
  unfold gatePasses GatePasses
  rw [← returnsToAnswer_iff, ← lockOwnedBy_iff]
  cases s.gsc.state <;> simp

theorem lockStep_pass_iff (s : State) (w : WindowId) (t : Txn) :
    (∃ clear, lockStep s w t = .pass clear) ↔ LockStepPasses s w t := by
  unfold lockStep LockStepPasses
  rw [← returnsToLocked_iff]
  generalize s.masters[t.master].note = note
  cases t.lock
  · simp only [lockedWindow, lockStands]
    by_cases h : s.lock.state = .free <;> by_cases h2 : s.lock.window = some w <;>
      by_cases h3 : s.lock.owner = some t.master <;> simp [h, h2, h3]
  · by_cases hr : returnsToLocked s t = true
    · simp [hr]
    · by_cases h : s.lock.state = .free <;> simp [hr, lockStands, h]
  all_goals
    rw [← lockOwnedBy_iff]
    by_cases hn : note = some w
    · simp [hn]
    · by_cases ho : lockOwnedBy s t.master w = true <;> by_cases hc : s.lock.closing = true <;> simp [hn, ho, hc]

/-- Where the lock step passes, the last step works on the state with the note taken (R73, R76, R92). -/
theorem lockAndLastStep_of_passes (s : State) (w : WindowId) (t : Txn) (h : LockStepPasses s w t) :
    lockAndLastStep w t s = lastStep w t (noteTaken t s) := by
  obtain ⟨clear, hc⟩ := (lockStep_pass_iff s w t).2 h
  have hn : clearNoteIf clear t.master s = noteTaken t s := by
    unfold noteTaken clearNoteIf setNote
    unfold lockStep at hc
    cases hl : t.lock
    · rw [hl] at hc
      simp only at hc
      split at hc <;> cases hc
      rw [if_neg (by decide), if_neg (by simp)]
    · rw [hl] at hc
      simp only at hc
      split at hc
      next hr =>
        cases hc
        rw [if_neg (by decide), if_neg (fun hf => ((returnsToLocked_iff s t).1 hr).1 hf.2)]
      next =>
        split at hc <;> cases hc
        next hs => rw [if_pos rfl, if_pos ⟨rfl, by simpa [lockStands] using hs⟩]
    all_goals
      rw [hl] at hc
      simp only at hc
      split at hc
      · cases hc
      · split at hc <;> cases hc
        rw [if_neg (by decide), if_neg (by simp)]
  rw [lockAndLastStep, hc, ← hn]

end Sys2Proof.Laws
end

