-- ==== Sys2Proof/Laws/EventEnd.lean ====
section
/-! SUPPORT. The operations at the end of an event, each equal to the account that the statements give of it
(`Safety.SettlesTo`): reports, freed windows, the quiesce, the place, the void and frozen heads, the card bus. -/

namespace Sys2Proof.Machine

open Sys2Proof.Safety

/-! ### Reports and the end of an event -/

theorem offerReport_eq_offered (b : ReportBody) (s : State) : offerReport b s = offered b s := by
  have h : (0 < freePlaces s) ↔ s.rq.reports.length + heldPlaces s < 16 := by
    simp only [freePlaces, heldPlaces, Config.reportPlaces]
    split <;> omega
  unfold offerReport offered
  by_cases hp : s.rq.reports.length + heldPlaces s < 16
  · rw [if_pos (h.2 hp), if_pos hp]
    simp [storeReport, driveLine]
  · rw [if_neg (fun x => hp (h.1 x)), if_neg hp]

/-- A report and a change of the windows do not meet. -/
theorem offered_windows (b : ReportBody) (s : State) (ws : Vector Window 32) :
    { offered b s with windows := ws } = offered b { s with windows := ws } := by
  by_cases h : s.rq.reports.length + heldPlaces s < 16
  · have h' : ({ s with windows := ws } : State).rq.reports.length + heldPlaces { s with windows := ws } < 16 := h
    rw [offered, offered, if_pos h, if_pos h']
  · have h' : ¬({ s with windows := ws } : State).rq.reports.length + heldPlaces { s with windows := ws } < 16 := h
    rw [offered, offered, if_neg h, if_neg h']

theorem offerAll_windows (bs : List ReportBody) (s : State) (ws : Vector Window 32) :
    { offerAll bs s with windows := ws } = offerAll bs { s with windows := ws } := by
  induction bs generalizing s with
  | nil => rfl
  | cons b bs ih => exact (ih (offered b s)).trans (by rw [offered_windows]; rfl)

@[simp] theorem offerAll_windows_eq (bs : List ReportBody) (s : State) : (offerAll bs s).windows = s.windows := by
  induction bs generalizing s with
  | nil => rfl
  | cons b bs ih => exact (ih (offered b s)).trans (by unfold offered; split <;> rfl)

theorem offerAll_append (bs cs : List ReportBody) (s : State) : offerAll (bs ++ cs) s = offerAll cs (offerAll bs s) :=
  List.foldl_append

/-- The WINDOW FREED report of the window in a state. -/
def freedReport (s : State) (w : WindowId) : ReportBody :=
  ⟨.windowFreed, none, none, none, some w, none, (s.windows[w].retireTag.getD 0).setWidth 32⟩

theorem windowFreedBody_eq (s : State) (w : WindowId) : windowFreedBody w s.windows[w].retireTag = freedReport s w := by
  unfold windowFreedBody freedReport reportBody
  cases s.windows[w].retireTag with
  | none => rfl
  | some tag => simp [BitVec.ofNat_toNat]

/-- The window table of a state with the drained windows of a list freed. -/
def freedTable (l : List WindowId) (s : State) : Vector Window 32 :=
  Vector.ofFn fun w => if w ∈ l ∧ drained s.windows[w] = true then freedWindow s.windows[w] else s.windows[w]

theorem freedTable_get (l : List WindowId) (s : State) (w : WindowId) :
    (freedTable l s)[w] =
      if w ∈ l ∧ drained s.windows[w] = true then freedWindow s.windows[w] else s.windows[w] := by
  simp [freedTable]

/-- A state with the drained windows of a list freed and their reports offered. -/
def windowsFreedIn (l : List WindowId) (s : State) : State :=
  offerAll ((l.filter fun w => drained s.windows[w]).map (freedReport s)) { s with windows := freedTable l s }

theorem freeIfDrained_foldl (l : List WindowId) (hl : l.Nodup) (s : State) :
    l.foldl freeIfDrained s = windowsFreedIn l s := by
  induction l generalizing s with
  | nil =>
    have h : freedTable [] s = s.windows := table_ext fun w => by rw [freedTable_get, if_neg (by simp)]
    rw [windowsFreedIn, h]; rfl
  | cons w l ih =>
    rw [List.nodup_cons] at hl
    rw [List.foldl_cons, ih hl.2, windowsFreedIn, windowsFreedIn, List.filter_cons]
    by_cases hd : drained s.windows[w] = true
    · have hd' : s.windows[w].state = .draining ∧ s.windows[w].refCount = 0 := by simpa [drained] using hd
      rw [freeIfDrained, if_pos hd', offerReport_eq_offered, windowFreedBody_eq, if_pos hd, List.map_cons]
      generalize hs1 : offered (freedReport s w) { s with windows := modAt s.windows w freedWindow } = s1
      have h1 : s1.windows = modAt s.windows w freedWindow := by
        rw [← hs1]; exact (offerAll_windows_eq [freedReport s w] _)
      have hw : ∀ v ∈ l, s1.windows[v] = s.windows[v] := fun v hv => by
        rw [h1]; exact modAt_get_ne _ _ _ _ fun e => hl.1 (e ▸ hv)
      have hl1 : (l.filter fun v => drained s1.windows[v]).map (freedReport s1) =
          (l.filter fun v => drained s.windows[v]).map (freedReport s) := by
        rw [List.filter_congr fun v hv => by rw [hw v hv]]
        exact List.map_congr_left fun v hv => by
          simp only [freedReport, hw v (List.mem_of_mem_filter hv)]
      have ht : freedTable l s1 = freedTable (w :: l) s := table_ext fun v => by
        rw [freedTable_get, freedTable_get]
        by_cases hv : v = w
        · subst hv
          rw [if_neg (fun h => hl.1 h.1), if_pos ⟨List.mem_cons_self, hd⟩, h1, modAt_get_self]
        · by_cases hm : v ∈ l
          · simp only [hw v hm, hm, List.mem_cons, or_true]
          · rw [if_neg (fun h => hm h.1), if_neg (fun h => (List.mem_cons.1 h.1).elim hv hm), h1,
              modAt_get_ne _ _ _ _ (Ne.symm hv)]
      rw [hl1, ht, ← hs1, offered_windows]
      rfl
    · have hd' : ¬(s.windows[w].state = .draining ∧ s.windows[w].refCount = 0) := by simpa [drained] using hd
      have ht : freedTable l s = freedTable (w :: l) s := table_ext fun v => by
        rw [freedTable_get, freedTable_get]
        by_cases hv : v = w
        · subst hv; rw [if_neg (fun h => hd h.2), if_neg (fun h => hd h.2)]
        · simp only [List.mem_cons, hv, false_or]
      rw [freeIfDrained, if_neg hd', if_neg hd, ht]

theorem freeDrainedWindows_eq (s : State) : freeDrainedWindows s = windowsFreed s := by
  rw [freeDrainedWindows, freeIfDrained_foldl _ (List.nodup_finRange 32), windowsFreedIn, windowsFreed]
  refine congrArg (fun ws => offerAll _ { s with windows := ws }) (table_ext fun v => ?_)
  simp [freedTable, freedWindow]

theorem testQuiesce_eq (s : State) : testQuiesce s = quiesceEnded s := by
  have hc : (slotsInUse s = 0) ↔ ∀ i : SlotId, s.slots[i].state = .free := by
    rw [slotsInUse, countTable_eq_zero]; simp
  have hb : reportBody .quiesced none none none ((s.gsc.quiesceTag.map BitVec.toNat).getD 0) =
      ⟨.quiesced, none, none, none, none, none, (s.gsc.quiesceTag.getD 0).setWidth 32⟩ := by
    unfold reportBody
    cases s.gsc.quiesceTag with
    | none => rfl
    | some tag => simp [BitVec.ofNat_toNat]
  unfold testQuiesce quiesceEnded
  rw [offerReport_eq_offered, hb]
  refine if_congr ?_ rfl rfl
  simp [quiesceConditions, hc, dataCount, and_assoc]

theorem askForPlace_eq (s : State) : askForPlace s = placeAsked s := by
  have h : s.rq.space = .none → (0 < freePlaces s ↔ s.rq.reports.length < 16) := fun hs => by
    simp only [freePlaces, hs, Config.reportPlaces]; simp
  unfold askForPlace placeAsked
  generalize s.pwq.entries = es
  rcases es with _ | ⟨_ | _, _⟩
  · rfl
  · rfl
  · refine ite_congr rfl (fun hs => ?_) fun _ => rfl
    simp only [h hs]

/-- The end of an event, as the statements say it. -/
theorem finishEvent_eq (s : State) : finishEvent s = eventOver s := by
  rw [finishEvent, freeDrainedWindows_eq, testQuiesce_eq, askForPlace_eq, eventOver]

/-! ### The void and frozen heads -/

theorem mapTable_eq {n : Nat} {α : Type} (t : Vector α n) (f : α → α) : mapTable t f = Vector.ofFn fun i => f t[i] := rfl

theorem lowerAhead_eq (e : Slot) : lowerAhead e = if e.state = .waiting then { e with ahead := e.ahead - 1 } else e := by
  unfold lowerAhead
  by_cases h : e.state = .waiting
  · by_cases h0 : 0 < e.ahead
    · rw [if_pos (by simp [h, h0]), if_pos h]
    · rw [if_neg (by simp [h0]), if_pos h]
      obtain h1 : e.ahead = 0 := by omega
      cases e; simp_all
  · rw [if_neg (by simp [h]), if_neg h]

theorem dropClaims_eq (d : DataEntry) (s : State) : dropClaims d s =
    { s with
      masters := modAt s.masters d.master fun e => { e with outWrites := e.outWrites - 1 }
      windows := modAt s.windows d.window fun e => { e with refCount := if d.names then e.refCount - 1 else e.refCount } } := by
  unfold dropClaims lowerRef lowerWrites
  dsimp only
  cases d.names with
  | true => rfl
  | false =>
    have h : (modAt s.windows d.window fun e => { e with refCount := if false = true then e.refCount - 1 else e.refCount }) =
        s.windows := table_ext fun w => by rw [modAt_get]; split <;> rfl
    rw [if_neg (by decide), h]

/-- A state with its queue, its slots and its claims replaced. -/
def withQueue (s : State) (entries : List Entry) (dropped : BitVec 32) (slots : Vector Slot 8)
    (masters : Vector Master 16) (windows : Vector Window 32) : State :=
  { s with pwq.entries := entries, pwq.dropped := dropped, slots := slots, masters := masters, windows := windows }

/-- The removal of a data entry from the head (R37). -/
theorem removeHead_eq (d : DataEntry) (rest : List Entry) (s : State) (he : s.pwq.entries = .data d :: rest) :
    removeHead s = withQueue s rest s.pwq.dropped (mapTable s.slots lowerAhead)
      (modAt s.masters d.master fun e => { e with outWrites := e.outWrites - 1 })
      (modAt s.windows d.window fun e => { e with refCount := if d.names then e.refCount - 1 else e.refCount }) := by
  unfold removeHead
  split
  · next h => rw [h] at he; exact absurd he (by simp)
  · next e l h =>
    obtain ⟨rfl, rfl⟩ : e = .data d ∧ l = rest := by rw [h] at he; simpa using he
    rw [entryClaims, dropClaims_eq]; rfl

/-- The state in which one void or frozen head has left. -/
def headGone (d : DataEntry) (s : State) : State :=
  removeHead (countDropped (if d.void then s else countDiscard d.window s))

theorem headGone_eq (d : DataEntry) (rest : List Entry) (s : State) (he : s.pwq.entries = .data d :: rest) :
    headGone d s = withQueue s rest (s.pwq.dropped + 1) (mapTable s.slots lowerAhead)
      (modAt s.masters d.master fun e => { e with outWrites := e.outWrites - 1 })
      (modAt s.windows d.window fun e => { e with
        refCount := if d.names then e.refCount - 1 else e.refCount
        discards := if d.void then e.discards else min 65535 (e.discards + 1) }) := by
  unfold headGone
  rw [removeHead_eq d rest _ (by split <;> exact he)]
  cases d.void with
  | true => rfl
  | false =>
    refine congrArg (withQueue s rest (s.pwq.dropped + 1) (mapTable s.slots lowerAhead) _) (table_ext fun w => ?_)
    simp only [if_neg (by decide : ¬false = true), countDropped, countDiscard, modAt_get]
    split <;> rfl

/-- A window entry once its entries among those that leave are gone. -/
def afterHeads (gone : List Entry) (w : WindowId) (e : Window) : Window :=
  { e with
    refCount := e.refCount - gone.countP (entryNames w)
    discards := if gone.countP (discardOf w) = 0 then e.discards
      else min 65535 (e.discards + gone.countP (discardOf w)) }

/-- A window entry once one data entry that leaves is gone. -/
def afterHead (d : DataEntry) (e : Window) : Window :=
  { e with
    refCount := if d.names then e.refCount - 1 else e.refCount
    discards := if d.void then e.discards else min 65535 (e.discards + 1) }

theorem afterHeads_cons_self (d : DataEntry) (gone : List Entry) (e : Window) (hn : d.void = false → d.names = true) :
    afterHeads gone d.window (afterHead d e) = afterHeads (.data d :: gone) d.window e := by
  have e1 : entryNames d.window (.data d) = d.names := by simp [entryNames]
  have e2 : discardOf d.window (.data d) = !d.void := by
    cases hv : d.void with
    | true => simp [discardOf, hv]
    | false => simp [discardOf, hv, hn hv]
  unfold afterHeads afterHead
  rw [List.countP_cons, List.countP_cons, e1, e2]
  generalize gone.countP (entryNames d.window) = n
  generalize gone.countP (discardOf d.window) = k
  clear e1 e2 hn
  have hr : (if d.names = true then e.refCount - 1 else e.refCount) - n =
      e.refCount - (n + if d.names = true then 1 else 0) := by split <;> omega
  have hk : (if k = 0 then (if d.void = true then e.discards else min 65535 (e.discards + 1))
        else min 65535 ((if d.void = true then e.discards else min 65535 (e.discards + 1)) + k)) =
      if (k + if (!d.void) = true then 1 else 0) = 0 then e.discards
        else min 65535 (e.discards + (k + if (!d.void) = true then 1 else 0)) := by
    cases d.void
    · simp; split_ifs <;> omega
    · simp
  rw [← hr, ← hk]

theorem afterHeads_cons_ne (d : DataEntry) (gone : List Entry) (w : WindowId) (e : Window) (h : d.window ≠ w) :
    afterHeads gone w e = afterHeads (.data d :: gone) w e := by
  have e1 : entryNames w (.data d) = false := by simp [entryNames, h]
  have e2 : discardOf w (.data d) = false := by simp [discardOf, h]
  simp [afterHeads, e1, e2]

theorem headsGone_step (d : DataEntry) (rest : List Entry) (s : State) (he : s.pwq.entries = .data d :: rest)
    (hd : inDrain s = false) (hl : leavesAtOnce s (.data d) = true) : headsGone (headGone d s) = headsGone s := by
  have hg := headGone_eq d rest s he
  have hleave : ∀ e, leavesAtOnce (headGone d s) e = leavesAtOnce s e := fun e => by
    cases e with
    | control c => rfl
    | data x =>
      simp only [leavesAtOnce, hg]
      have : (withQueue s rest (s.pwq.dropped + 1) (mapTable s.slots lowerAhead)
        (modAt s.masters d.master fun e => { e with outWrites := e.outWrites - 1 })
        (modAt s.windows d.window fun e => { e with
        refCount := if d.names then e.refCount - 1 else e.refCount
        discards := if d.void then e.discards else min 65535 (e.discards + 1) })).windows[x.window].frozen =
          s.windows[x.window].frozen := modAt_get_proj _ _ _ _ Window.frozen fun _ => rfl
      rw [this]
  have hgone : leavingHeads s = .data d :: leavingHeads (headGone d s) := by
    have hd' : inDrain (headGone d s) = false := by rw [hg]; exact hd
    unfold leavingHeads
    rw [hd, hd', if_neg (by decide), if_neg (by decide), he, List.takeWhile_cons, if_pos hl]
    rw [show (headGone d s).pwq.entries = rest by rw [hg]; rfl, funext hleave]
  generalize hL : leavingHeads (headGone d s) = L at hgone
  have hq : ∀ {e e' : List Entry} {n n' : BitVec 32} {t t' : Vector Slot 8} {m m' : Vector Master 16}
      {w w' : Vector Window 32}, e = e' → n = n' → t = t' → m = m' → w = w' →
      withQueue s e n t m w = withQueue s e' n' t' m' w' := by
    rintro _ _ _ _ _ _ _ _ _ _ rfl rfl rfl rfl rfl; rfl
  unfold headsGone
  rw [hgone, hL, hg]
  refine hq ?_ ?_ (table_ext fun i => ?_) (table_ext fun m => ?_) (table_ext fun w => ?_)
  · rw [he]; rfl
  · rw [List.length_cons, BitVec.ofNat_add, BitVec.add_comm (BitVec.ofNat 32 L.length), ← BitVec.add_assoc]
    rfl
  · simp only [withQueue, Fin.getElem_fin, Vector.getElem_ofFn, mapTable_getElem, lowerAhead_eq, List.length_cons]
    by_cases h : s.slots[i.val].state = .waiting
    · simp only [h, if_true, Nat.sub_sub, Nat.add_comm]
    · simp only [h, if_false]
  · simp only [withQueue, Fin.getElem_fin, Vector.getElem_ofFn, modAt_getElem, List.countP_cons]
    by_cases h : d.master = m
    · subst h; simp [entryOfMaster, Nat.sub_sub, Nat.add_comm]
    · have hv : ¬d.master.val = m.val := fun e => h (Fin.ext e)
      simp [entryOfMaster, h, hv]
  · have hn : d.void = false → d.names = true := fun hv => by
      rw [leavesAtOnce, hv, Bool.false_or, Bool.and_eq_true] at hl; exact hl.1
    rw [Fin.getElem_fin, Fin.getElem_fin, Vector.getElem_ofFn, Vector.getElem_ofFn]
    change afterHeads L w (modAt s.windows d.window (afterHead d))[w] = afterHeads (.data d :: L) w s.windows[w]
    rw [modAt_get]
    by_cases h : d.window = w
    · subst h; rw [if_pos rfl, afterHeads_cons_self d L _ hn]
    · rw [if_neg h, afterHeads_cons_ne d L w _ h]

/-- Where no entry leaves, nothing changes. -/
theorem headsGone_none (s : State) (h : leavingHeads s = []) : headsGone s = s := by
  have h1 : (Vector.ofFn fun i : SlotId =>
      if s.slots[i].state = .waiting then { s.slots[i] with ahead := s.slots[i].ahead - 0 } else s.slots[i]) = s.slots :=
    table_ext fun i => by simp
  have h2 : (Vector.ofFn fun m : MasterId => { s.masters[m] with outWrites := s.masters[m].outWrites - 0 }) = s.masters :=
    table_ext fun m => by simp
  have h3 : (Vector.ofFn fun w : WindowId => afterHeads [] w s.windows[w]) = s.windows :=
    table_ext fun w => by simp [afterHeads]
  have h4 : headsGone s = withQueue s (s.pwq.entries.drop 0) (s.pwq.dropped + 0)
      (Vector.ofFn fun i : SlotId =>
        if s.slots[i].state = .waiting then { s.slots[i] with ahead := s.slots[i].ahead - 0 } else s.slots[i])
      (Vector.ofFn fun m : MasterId => { s.masters[m] with outWrites := s.masters[m].outWrites - 0 })
      (Vector.ofFn fun w : WindowId => afterHeads [] w s.windows[w]) := by
    unfold headsGone; rw [h]; rfl
  rw [h4, h1, h2, h3, show s.pwq.dropped + 0 = s.pwq.dropped from BitVec.add_zero _]; rfl

theorem dropDeadHeads_eq (n : Nat) (s : State) (hn : s.pwq.entries.length ≤ n) : dropDeadHeads n s = headsGone s := by
  induction n generalizing s with
  | zero =>
    have h : s.pwq.entries = [] := List.eq_nil_of_length_eq_zero (Nat.le_zero.1 hn)
    exact (headsGone_none s (by unfold leavingHeads; rw [h]; simp)).symm
  | succ n ih =>
    have hstop : leavingHeads s = [] → s = headsGone s := fun h => (headsGone_none s h).symm
    unfold dropDeadHeads; split
    · next d rest he =>
      cases hd : inDrain s with
      | true => exact (if_pos rfl).trans (hstop (by unfold leavingHeads; rw [hd]; rfl))
      | false =>
        have hlen : ∀ t : State, headGone d s = t → t.pwq.entries.length ≤ n := by
          rintro t rfl
          rw [headGone_eq d rest s he]
          rw [he, List.length_cons] at hn; exact Nat.le_of_succ_le_succ hn
        rw [if_neg (by decide)]
        cases hv : d.void with
        | true =>
          have hg : headGone d s = removeHead (countDropped s) := by unfold headGone; rw [hv]; rfl
          rw [if_pos rfl, ← hg, ih _ (hlen _ rfl), headsGone_step d rest s he hd (by simp [leavesAtOnce, hv])]
        | false =>
          have hg : headGone d s = removeHead (countDropped (countDiscard d.window s)) := by
            unfold headGone; rw [hv]; rfl
          rw [if_neg (by decide)]
          cases hf : entryFrozen s d with
          | true =>
            rw [if_pos rfl, ← hg, ih _ (hlen _ rfl), headsGone_step d rest s he hd]
            unfold entryFrozen at hf
            rw [leavesAtOnce, hv, hf]; rfl
          | false =>
            refine (if_neg (by decide)).trans (hstop ?_)
            unfold leavingHeads
            rw [hd, if_neg (by decide), he, List.takeWhile_cons, if_neg]
            unfold entryFrozen at hf
            rw [leavesAtOnce, hv, hf]; decide
    · next h =>
      refine hstop ?_
      unfold leavingHeads
      rcases he : s.pwq.entries with _ | ⟨d | c, rest⟩
      · simp
      · exact absurd he (h d rest)
      · split
        · rfl
        · exact List.takeWhile_cons_of_neg (by simp [leavesAtOnce])

/-- The void and frozen heads leave, as the statements say it. -/
theorem leaveDeadHeads_eq (s : State) : leaveDeadHeads s = headsGone s := dropDeadHeads_eq _ s (Nat.le_refl _)

end Sys2Proof.Machine
end

