-- ==== Sys2Proof/Laws/Bus.lean ====
section
/-! SUPPORT. The card bus controller and the arbiter within an event, equal to the account that the statements give of
them (`Safety.BusMoves`), and with it all that the end of an event can do (`Safety.SettlesTo`). -/

namespace Sys2Proof.Machine

open Sys2Proof.Safety

/-! ### Candidates -/

theorem eligible_iff (s : State) (i : SlotId) : eligible s i = true ↔ Eligible s i := by
  simp [eligible, Eligible]

theorem oldestEligible_some (s : State) (i : SlotId) : oldestEligible s = some i ↔ NextSlot s i := by
  unfold oldestEligible NextSlot
  rw [List.find?_eq_some_iff_append, eligible_iff]
  simp only [Bool.not_eq_true', ← Bool.not_eq_true, eligible_iff]

theorem oldestEligible_none (s : State) : oldestEligible s = none ↔ NoSlot s := by
  unfold oldestEligible NoSlot
  simp only [List.find?_eq_none, eligible_iff]

theorem offeredHead_some (s : State) (d : DataEntry) : offeredHead s = some d ↔ Offers s d := by
  unfold Offers
  rcases he : s.pwq.entries with _ | ⟨x | c, rest⟩
  · simp [offeredHead, he]
  · have h : offeredHead s = if (inDrain s || x.void || entryFrozen s x) = true then none else some x := by
      unfold offeredHead; rw [he]
    have hc : (inDrain s || x.void || entryFrozen s x) = true ↔
        ¬(inDrain s = false ∧ x.void = false ∧ ¬(x.names = true ∧ s.windows[x.window].frozen = true)) := by
      unfold entryFrozen
      cases inDrain s <;> cases x.void <;> cases x.names <;> cases s.windows[x.window].frozen <;> decide
    rw [h]
    simp only [hc]
    constructor
    · intro hx
      split at hx
      · exact absurd hx (by simp)
      · next hn =>
        cases hx
        exact ⟨rest, rfl, not_not.1 hn⟩
    · rintro ⟨rest', hr, h3⟩
      obtain ⟨rfl, rfl⟩ : x = d ∧ rest = rest' := by simpa using hr
      exact if_neg (not_not.2 h3)
  · simp [offeredHead, he]

theorem hasCandidate_iff (s : State) : hasCandidate s = true ↔ Candidate s := by
  unfold hasCandidate Candidate
  simp only [Bool.or_eq_true, Option.isSome_iff_exists, oldestEligible_some, offeredHead_some]

theorem hasCandidate_eq_false (s : State) : hasCandidate s = false ↔ ¬Candidate s := by
  rw [← hasCandidate_iff, Bool.not_eq_true]

theorem noCandidate (s : State) (h : ¬Candidate s) : oldestEligible s = none ∧ offeredHead s = none := by
  rw [← hasCandidate_eq_false, hasCandidate, Bool.or_eq_false_iff] at h
  simpa using h

/-! ### Decisions -/

theorem requesting_iff (s : State) (r : Requester) : requesting s r = true ↔ Requests s r := by
  cases r <;> simp [requesting, Requests]

theorem find_first (pointer r : Requester) (p : Requester → Bool) (hr : p r = true)
    (hmin : ∀ q, p q = true → rotationDistance pointer r ≤ rotationDistance pointer q) :
    (rotationAfter pointer).find? p = some r := by
  have hq : ∀ q, rotationDistance pointer q < rotationDistance pointer r → p q = false := fun q hlt => by
    cases hp : p q with
    | false => rfl
    | true => exact absurd (hmin q hp) (Nat.not_le.2 hlt)
  rcases pointer with _ | ⟨_ | _ | _⟩ <;> rcases r with _ | ⟨_ | _ | _⟩ <;>
    simp (disch := decide) only [rotationAfter, List.find?_cons, hr, hq]

theorem granted_eq (r : Requester) (s : State) : grantTo r s = granted r s := by cases r <;> rfl

/-- The winner of a decision is granted the bus (R128). -/
theorem decision_wins (s : State) (r : Requester) (h : Wins s r) : decision s = granted r s := by
  have hw : winner s = some r := by
    unfold winner urgent
    obtain ⟨h1, h2⟩ := h
    by_cases hu : s.cbc.request = true ∧ s.arb.highWater ≤ dataCount s
    · rw [if_pos hu] at h2
      subst h2
      exact if_pos (by simpa using hu)
    · rw [if_neg hu] at h2
      rw [if_neg (by simpa using hu)]
      exact find_first _ _ _ ((requesting_iff s r).2 h1) fun q hq => h2 q ((requesting_iff s q).1 hq)
  rw [decision, hw]
  exact granted_eq r s

/-- A decision that does not count the gate leaves the controller as it was. -/
theorem decision_cbc (s : State) (h : s.cbc.request = false) : (decision s).cbc = s.cbc := by
  unfold decision
  rcases hw : winner s with _ | ⟨_ | p⟩
  · rfl
  · unfold winner urgent at hw
    rw [h, Bool.false_and, if_neg (by decide)] at hw
    have := List.find?_some hw
    rw [requesting, h] at this
    exact absurd this (by decide)
  · rfl

/-- A decision that nothing requests parks the grant (R129). -/
theorem decision_parks (s : State) (h : ∀ r, ¬Requests s r) : decision s = parkedAtTarget s := by
  have hw : winner s = none := by
    unfold winner urgent
    rw [show s.cbc.request = false from Bool.eq_false_iff.2 (h .gate), Bool.false_and, if_neg Bool.false_ne_true,
      List.find?_eq_none]
    exact fun r _ hr => h r ((requesting_iff s r).1 hr)
  rw [decision, hw]
  rfl

/-- A decision has a winner unless nothing requests (R128). -/
theorem wins_or_none (s : State) : (∃ r, Wins s r) ∨ ∀ r, ¬Requests s r := by
  by_cases hg : s.cbc.request = true ∧ s.arb.highWater ≤ dataCount s
  · exact .inl ⟨.gate, hg.1, by rw [if_pos hg]⟩
  · by_cases h : ∃ r, Requests s r
    · obtain ⟨r, hr, hmin⟩ := WellFounded.has_min (measure (rotationDistance s.arb.pointer)).wf {r | Requests s r} h
      exact .inl ⟨r, hr, by rw [if_neg hg]; exact fun q hq => Nat.not_lt.1 (hmin q hq)⟩
    · exact .inr (not_exists.1 h)

/-- All that new arbitration settings can do to the arbiter's present state (R132, logs 11 and 12). -/
theorem settingsTakeEffect_taken (before : PortSet) (s : State) :
    SettingsTaken before s (settingsTakeEffect before s) := by
  unfold settingsTakeEffect
  split
  · next owner hs =>
    rcases wins_or_none s with ⟨r, hr⟩ | hn
    · rw [decision_wins s r hr]; exact .moves s owner r hs hr
    · rw [decision_parks s hn]; exact .reparks s owner hs hn
  · next p inTenure hs =>
    split
    · next he => exact .holds s p inTenure hs he
    · next he =>
      have he := Bool.eq_false_iff.2 he
      cases inTenure with
      | true => exact .unlocks s p hs he
      | false =>
        rw [if_neg Bool.false_ne_true]
        rcases wins_or_none s with ⟨r, hr⟩ | hn
        · rw [decision_wins s r hr]; exact .loses s p r hs he hr
        · rw [decision_parks s hn]; exact .losesToNone s p hs he hn
  · next p hs =>
    split
    · next h =>
      simp only [Bool.and_eq_true, Bool.not_eq_true'] at h
      unfold heedHoldByChoice
      split
      · exact .unheeded s p hs h.1.1 h.1.2 h.2
      · exact .heeded s p hs h.1.1 h.1.2 h.2
    · next h =>
      exact .keeps s p hs (by simpa [and_assoc] using h)
  · next h1 h2 h3 =>
    refine .gate s ?_
    rcases hs : s.arb.state with _ | o | (_ | p) | ⟨_ | p, t⟩
    · exact .inr (.inr rfl)
    · exact absurd hs (h1 o)
    · exact .inl rfl
    · exact absurd hs (h3 p)
    · exact .inr (.inl ⟨t, rfl⟩)
    · exact absurd hs (h2 p t)

/-! ### The start of an access -/

theorem pieceAddr_zero (c : CardAddr) (u : BeatUnit) (p : PortWidth) : pieceAddr c u p 0 0 = c := by
  simp [pieceAddr]

theorem mergeLanes_zero (lanes : Lanes) : mergeLanes 0 0 lanes = 0 := by
  have h : ∀ lane, laneByte 0 lane = 0 := fun lane => by simp [laneByte]
  simp only [mergeLanes, h, ite_self]
  rfl

theorem startFetch_eq (i : SlotId) (s : State) : startFetch i s = fetchBegun i s := by
  unfold startFetch fetchPiece pieceOp
  rw [pieceAddr_zero, mergeLanes_zero]
  rfl

theorem takeUp_perform (a : Access) (beats : List Beat) (next : Nat) (b : Beat)
    (hb : beats[next / piecesPerBeat a.unit a.portWidth]? = some b) (remaining n : Nat)
    (hn : n + remaining = pieceTotal a) (hle : n ≤ next) (hlt : next < pieceTotal a)
    (hskip : ∀ j, n ≤ j → j < next →
      ((beats[j / piecesPerBeat a.unit a.portWidth]?.map Beat.enables).getD 0) &&&
        pieceLanes (pieceAddr a.cardAddr a.unit a.portWidth (j / piecesPerBeat a.unit a.portWidth)
          (j % piecesPerBeat a.unit a.portWidth)) a.unit a.portWidth = 0)
    (hon : b.enables &&& pieceLanes (pieceAddr a.cardAddr a.unit a.portWidth (next / piecesPerBeat a.unit a.portWidth)
      (next % piecesPerBeat a.unit a.portWidth)) a.unit a.portWidth ≠ 0)
    (hcheck : ∀ i x, n ≤ i * piecesPerBeat a.unit a.portWidth → i * piecesPerBeat a.unit a.portWidth ≤ next →
      beats[i]? = some x → beatAgrees x = true) :
    takeUp a beats remaining = .perform (next / piecesPerBeat a.unit a.portWidth)
      (next % piecesPerBeat a.unit a.portWidth)
      (b.enables &&& pieceLanes (pieceAddr a.cardAddr a.unit a.portWidth (next / piecesPerBeat a.unit a.portWidth)
        (next % piecesPerBeat a.unit a.portWidth)) a.unit a.portWidth) b.data := by
  induction remaining generalizing n with
  | zero => omega
  | succ r ih =>
    have hpos : pieceTotal a - (r + 1) = n := by omega
    unfold takeUp
    simp only [hpos]
    generalize hper : piecesPerBeat a.unit a.portWidth = per at *
    have hcase : ∀ x, beats[n / per]? = some x → (n % per = 0 → beatAgrees x = true) := fun x hx h0 => by
      have hm : n / per * per = n := Nat.div_mul_cancel (Nat.dvd_of_mod_eq_zero h0)
      exact hcheck (n / per) x (by omega) (by omega) hx
    have hsome : ∃ x, beats[n / per]? = some x := by
      have hle' : n / per ≤ next / per := Nat.div_le_div_right hle
      have hlen : next / per < beats.length := (List.getElem?_eq_some_iff.1 hb).1
      exact ⟨_, List.getElem?_eq_getElem (Nat.lt_of_le_of_lt hle' hlen)⟩
    obtain ⟨x, hx⟩ := hsome
    rw [hx]
    dsimp only
    rw [if_neg (by
      intro hc
      rw [Bool.and_eq_true, decide_eq_true_eq] at hc
      rw [hcase x hx hc.1] at hc
      exact absurd hc.2 (by decide))]
    by_cases heq : n = next
    · subst heq
      obtain rfl : x = b := by rw [hx] at hb; simpa using hb
      rw [if_neg hon]
    · have h0 := hskip n (Nat.le_refl n) (by omega)
      rw [hx, Option.map_some, Option.getD_some] at h0
      rw [if_pos h0]
      exact ih (n + 1) (by omega) (by omega) (fun j h1 h2 => hskip j (by omega) h2)
        (fun i y h1 h2 h3 => hcheck i y (by omega) h2 h3)

/-- The beginning of a drain whose lock timer is not due (R35, R81). -/
theorem drainBegins_eq (d : DataEntry) (s : State) (hc : ¬ClosesLate d s) :
    drainBegins d { s with cbc.access := some (drainRecord d) } =
      { closeBegun d s with cbc.access := some (drainRecord d) } := by
  have hdue : ¬(d.seq = .close ∧ lockTimerDue s = true) := by
    rintro ⟨h1, h2⟩
    simp only [lockTimerDue, Bool.and_eq_true, decide_eq_true_eq, Option.any_eq_true, expired] at h2
    obtain ⟨h3, timer, h4, h5⟩ := h2
    exact hc ⟨h1, h3, timer, h4, h5⟩
  unfold drainBegins stopLockTimer closeBegun
  rw [if_neg (by
    rw [Bool.and_eq_true, decide_eq_true_eq]
    exact hdue)]
  by_cases hl : d.seq = .close ∧ s.lock.state = .owned
  · rw [if_pos (by simpa using hl), if_pos hl]
  · rw [if_neg (by simpa using hl), if_neg hl]

theorem startDrain_eq (d : DataEntry) (next : Nat) (b : Beat) (s : State) (h : DrainStarts d next b)
    (hc : ¬ClosesLate d s) : startDrain d s = drainBegun d next b (closeBegun d s) := by
  have hlanes : drainLanes (drainAccess d) d next = b.enables &&& pieceLanes (pieceAddr d.cardAddr d.unit d.portWidth
      (next / piecesPerBeat d.unit d.portWidth) (next % piecesPerBeat d.unit d.portWidth)) d.unit d.portWidth := by
    simp only [drainLanes, drainAccess, h.beat]; rfl
  have ht := takeUp_perform (drainRecord d) d.beats next b h.beat (pieceTotal (drainRecord d)) 0 (by omega)
    (Nat.zero_le _) h.within (fun j _ hj => h.skipped j hj) (fun hz => h.enabled (hlanes.trans hz))
    (fun i x _ hi hx => h.checked i x hi hx)
  rw [startDrain, drainBegins_eq d s hc, continueDrain, ht]
  dsimp only
  unfold performPiece drainBegun pieceOp
  rw [hlanes]
  rfl

/-! ### What the dead heads leave as it was -/

@[simp] theorem headsGone_cbc (s : State) : (headsGone s).cbc = s.cbc := by dsimp only [headsGone]
@[simp] theorem headsGone_arb (s : State) : (headsGone s).arb = s.arb := by dsimp only [headsGone]
@[simp] theorem headsGone_lock (s : State) : (headsGone s).lock = s.lock := by dsimp only [headsGone]
@[simp] theorem headsGone_lines (s : State) : (headsGone s).lines = s.lines := by dsimp only [headsGone]
@[simp] theorem headsGone_ageOrder (s : State) : (headsGone s).ageOrder = s.ageOrder := by dsimp only [headsGone]
@[simp] theorem headsGone_rq (s : State) : (headsGone s).rq = s.rq := by dsimp only [headsGone]
@[simp] theorem headsGone_gsc (s : State) : (headsGone s).gsc = s.gsc := by dsimp only [headsGone]

theorem headsGone_entries (s : State) :
    (headsGone s).pwq.entries = s.pwq.entries.drop (leavingHeads s).length := by dsimp only [headsGone]

/-! ### A drain that ends performed -/

theorem takeUp_finished (a : Access) (beats : List Beat) (hskip : ∀ j < pieceTotal a,
      ((beats[j / piecesPerBeat a.unit a.portWidth]?.map Beat.enables).getD 0) &&&
        pieceLanes (pieceAddr a.cardAddr a.unit a.portWidth (j / piecesPerBeat a.unit a.portWidth)
          (j % piecesPerBeat a.unit a.portWidth)) a.unit a.portWidth = 0)
    (hcheck : ∀ b ∈ beats, beatAgrees b = true) (remaining : Nat) (hle : remaining ≤ pieceTotal a) :
    takeUp a beats remaining = .finished := by
  induction remaining with
  | zero => rfl
  | succ r ih =>
    unfold takeUp
    dsimp only
    generalize hn : pieceTotal a - (r + 1) = n
    split
    · rfl
    · next b hb =>
      have h0 := hskip n (by omega)
      rw [hb, Option.map_some, Option.getD_some] at h0
      rw [hcheck b (List.mem_of_getElem? hb), Bool.not_true, Bool.and_false, if_neg Bool.false_ne_true, if_pos h0]
      exact ih (by omega)

theorem markStale_eq (d : DataEntry) (s : State) : markStale d.cardAddr (spanBytes d.unit d.beats.length) s = madeStale d s := by
  unfold markStale madeStale
  rw [mapTable_eq]
  congr 2
  funext i
  refine if_congr ?_ rfl rfl
  simp only [rangesOverlap, spanBytes, Bool.and_eq_true, Bool.not_eq_true', and_assoc]
  exact and_congr decide_eq_true_iff (and_congr Iff.rfl (and_congr decide_eq_true_iff decide_eq_true_iff))

/-- The locked slot that outlives the lock, as a table of slots (R56, R82). -/
theorem unlockReadySlot_eq (slot : Option SlotId) (s : State) : unlockReadySlot slot s =
    { s with slots := Vector.ofFn fun i =>
        if slot = some i ∧ s.slots[i].state = .ready ∧ s.slots[i].locked = true then
          { s.slots[i] with locked := false, hold := some ⟨s.timebase, s.cu.readHold⟩ }
        else s.slots[i] } := by
  have hid : (Vector.ofFn fun i : SlotId => s.slots[i]) = s.slots := table_ext fun i => by simp
  unfold unlockReadySlot
  cases slot with
  | none => simp
  | some k =>
    dsimp only
    by_cases h : s.slots[k].state = .ready ∧ s.slots[k].locked = true
    · rw [if_pos (by simpa using h)]
      unfold modSlot
      congr 1
      refine table_ext fun i => ?_
      rw [modAt_get]
      refine Eq.trans ?_ (Vector.getElem_ofFn i.isLt).symm
      by_cases hi : i = k
      · subst hi; exact (if_pos rfl).trans (if_pos ⟨rfl, h⟩).symm
      · exact (if_neg (Ne.symm hi)).trans (if_neg fun hk : some k = some i ∧ _ => hi (Option.some.inj hk.1).symm).symm
    · rw [if_neg (by simpa using h)]
      refine Eq.symm ?_
      have : (Vector.ofFn fun i : SlotId =>
          if some k = some i ∧ s.slots[i].state = .ready ∧ s.slots[i].locked = true then
            { s.slots[i] with locked := false, hold := some ⟨s.timebase, s.cu.readHold⟩ }
          else s.slots[i]) = s.slots := by
        refine Eq.trans ?_ hid
        congr 1
        funext i
        refine if_neg ?_
        rintro ⟨hi, h1⟩
        cases hi
        exact h h1
      rw [this]

/-- The lock unit at the end of a CLOSE entry's drain (R82, R131). -/
theorem closeLock_eq (d : DataEntry) (s : State)
    (hl : s.lock.state = .owned → s.arb.lockHold = true) : closeLock d s = closeTaken d s := by
  unfold closeLock closeTaken
  by_cases h : d.seq = .close ∧ s.lock.state = .owned ∧ s.lock.hold = none
  · rw [if_pos (by simpa [and_assoc] using h), if_pos h, unlockReadySlot_eq]
    unfold releaseHold
    exact (if_pos (hl h.2.1)).trans rfl
  · rw [if_neg (by simpa [and_assoc] using h), if_neg h]

/-- What the end of a performed drain makes of a state (R36, R37, R38, R82, R114). -/
theorem drainEnded_performed (d : DataEntry) (rest : List Entry) (s : State) (he : s.pwq.entries = .data d :: rest)
    (hl : s.lock.state = .owned → s.arb.lockHold = true) :
    drainEnded .performed d s = headsGone (drainPerformed d s) := by
  have hc : closeLock d (madeStale d s) = closeTaken d (madeStale d s) := closeLock_eq d _ hl
  have hp : countPerformed (closeTaken d (madeStale d s)) =
      closeTaken d (madeStale d { s with pwq.performed := s.pwq.performed + 1 }) := by
    unfold countPerformed closeTaken madeStale
    dsimp only
    split <;> rfl
  unfold drainEnded drainStaleness drainConsequences
  simp only [reduceCtorEq, if_false]
  rw [leaveDeadHeads_eq, markStale_eq, hc, hp]
  unfold drainPerformed
  generalize hx : closeTaken d (madeStale d { s with pwq.performed := s.pwq.performed + 1 }) = x
  have hxe : x.pwq.entries = .data d :: rest := by
    subst hx
    unfold closeTaken madeStale
    dsimp only
    split <;> exact he
  rw [removeHead_eq d rest x hxe]
  unfold entryGone clearAccess withQueue
  rw [hxe, mapTable_eq]
  simp only [lowerAhead_eq]
  rfl

/-- The end of a drain reads nothing of its access. -/
theorem drainPerformed_access (d : DataEntry) (s : State) (a : Option Access) :
    drainPerformed d { s with cbc.access := a } = drainPerformed d s := by
  unfold drainPerformed entryGone closeTaken madeStale
  dsimp only
  split <;> rfl

/-- The drain of an entry that enables no lane begins and ends in one event (R111). -/
theorem startDrain_skips (d : DataEntry) (rest : List Entry) (s : State) (he : s.pwq.entries = .data d :: rest)
    (h : DrainSkips d) (hc : ¬ClosesLate d s) (hl : s.lock.state = .owned → s.arb.lockHold = true) :
    startDrain d s = settleTenure (headsGone (drainPerformed d (closeBegun d s))) := by
  have ht : takeUp (drainRecord d) d.beats (pieceTotal (drainRecord d)) = .finished :=
    takeUp_finished (drainRecord d) d.beats h.skipped h.checked _ (Nat.le_refl _)
  rw [startDrain, drainBegins_eq d s hc, continueDrain, ht]
  dsimp only
  rw [endDrain, show ({ closeBegun d s with cbc.access := some (drainRecord d) } : State).pwq.entries = _ from he]
  dsimp only
  rw [drainEnded_performed d rest { closeBegun d s with cbc.access := some (drainRecord d) } he hl,
    drainPerformed_access]

/-- The tenure after an access, where the gate holds it: it goes on under the lock hold and ends otherwise (R118). -/
theorem settleTenure_eq (s : State) (wanted : Bool) (ht : s.cbc.tenure = true) (hw : wanted = true ↔ Candidate s)
    (hg : s.arb.state = .tenure .gate ∨ ∃ inTenure, s.arb.state = .locked .gate inTenure) :
    settleTenure s = if s.arb.lockHold = true then s else tenureEnded wanted s := by
  have hwc : hasCandidate s = wanted := by rw [Bool.eq_iff_iff, hasCandidate_iff, hw]
  unfold settleTenure
  rw [ht, Bool.not_true, Bool.or_false]
  split
  · rfl
  · unfold endTenure gateTenureEnds tenureEnded
    rw [hwc]
    obtain hg | ⟨x, hg⟩ := hg <;>
      rw [show ({ s with cbc.tenure := false, cbc.request := wanted } : State).arb.state = _ from hg]

/-! ### The controller -/

theorem endTenure_idle (s : State) (h : ¬Candidate s)
    (hg : s.arb.state = .tenure .gate ∨ ∃ inTenure, s.arb.state = .locked .gate inTenure) :
    endTenure s = tenureEnded false s := by
  unfold endTenure gateTenureEnds tenureEnded
  rw [(hasCandidate_eq_false s).2 h]
  obtain hg | ⟨x, hg⟩ := hg <;> rw [show ({ s with cbc.tenure := false, cbc.request := false } : State).arb.state = _ from hg]

/-- Whether the controller works on does not depend on what it finds once an access is in flight. -/
theorem runBus_busy (n : Nat) (s : State) (h : s.cbc.access.isSome = true) : runBus n s = s := by
  cases n with
  | zero => rfl
  | succ n => unfold runBus; exact if_pos h

/-- With no tenure and no candidate the request is dropped, and nothing starts. -/
theorem runBus_idle (n : Nat) (s : State) (ha : s.cbc.access = none) (ht : s.cbc.tenure = false) (hc : ¬Candidate s) :
    runBus (n + 1) s = { s with cbc.request := false } := by
  have hr : reviewRequest s = { s with cbc.request := false } := by
    unfold reviewRequest
    rw [ht, if_neg (by decide), (hasCandidate_eq_false s).2 hc, if_neg (by decide)]
  unfold runBus
  rw [ha, if_neg (by decide), ht, if_neg (by decide)]
  dsimp only
  rw [hr, show ({ s with cbc.request := false } : State).cbc.tenure = false from ht, if_neg (by decide)]
  simp only [ht]

/-- A decision changes no candidate. -/
theorem tenureEnded_candidate (r : Bool) (s : State) : Candidate (tenureEnded r s) ↔ Candidate s := by
  have h : hasCandidate (tenureEnded r s) = hasCandidate s := by
    have he : eligible (tenureEnded r s) = eligible s := funext fun i => by simp [eligible, tenureEnded]
    unfold hasCandidate oldestEligible
    rw [he]
    simp [tenureEnded, offeredHead, inDrain, entryFrozen]
  rw [← hasCandidate_iff, ← hasCandidate_iff, h]

theorem reviewRequest_asks (s : State) (ht : s.cbc.tenure = false) (hc : Candidate s) (hr : s.cbc.request = false) :
    reviewRequest s = requestArrives .gate { s with cbc.request := true } := by
  unfold reviewRequest
  rw [if_neg (by rw [ht]; decide), if_pos ((hasCandidate_iff s).2 hc), if_neg (by rw [hr]; decide)]

theorem drainPerformed_tenure (d : DataEntry) (s : State) : (drainPerformed d s).cbc.tenure = s.cbc.tenure := by
  unfold drainPerformed entryGone closeTaken madeStale
  dsimp only
  split <;> rfl

theorem drainPerformed_entries (d : DataEntry) (s : State) : (drainPerformed d s).pwq.entries = s.pwq.entries.tail := by
  unfold drainPerformed entryGone closeTaken madeStale
  dsimp only
  split <;> rfl

/-- The gate keeps the bus as a drain ends (R82, R131). -/
theorem drainPerformed_arb (d : DataEntry) (s : State)
    (hg : s.arb.state = .tenure .gate ∨ ∃ inTenure, s.arb.state = .locked .gate inTenure) :
    (drainPerformed d s).arb.state = .tenure .gate ∨ ∃ inTenure, (drainPerformed d s).arb.state = .locked .gate inTenure := by
  unfold drainPerformed entryGone closeTaken madeStale
  dsimp only
  split
  · exact .inl rfl
  · exact hg

theorem tenureEnded_entries (r : Bool) (s : State) : (tenureEnded r s).pwq.entries = s.pwq.entries := by
  simp [tenureEnded]

theorem runBus_moves_to (s u : State) (h : BusMoves s u) :
    ∀ n, 2 * queueLength s + (if s.cbc.tenure = true then 2 else 3) ≤ n → runBus n s = u := by
  induction h with
  | busy s ha => exact fun n _ => runBus_busy n s ha
  | fetches s i ha ht hi =>
    intro n hn
    rw [if_pos ht] at hn
    obtain ⟨n, rfl⟩ : ∃ k, n = k + 1 := ⟨n - 1, by omega⟩
    unfold runBus
    rw [ha, if_neg (by decide), if_pos ht, (oldestEligible_some s i).2 hi]
    exact startFetch_eq i s
  | drains s d next b ha ht hn hd hs hc =>
    intro n hle
    rw [if_pos ht] at hle
    obtain ⟨n, rfl⟩ : ∃ k, n = k + 1 := ⟨n - 1, by omega⟩
    unfold runBus
    rw [ha, if_neg (by decide), if_pos ht, (oldestEligible_none s).2 hn, (offeredHead_some s d).2 hd]
    dsimp only
    rw [startDrain_eq d next b s hs hc, runBus_busy _ _ rfl]
  | skips s t d wanted ha ht hn hd hs hc hl hg hw hm ih =>
    intro n hle
    rw [if_pos ht] at hle
    obtain ⟨rest, he, -⟩ := id hd
    obtain ⟨n, rfl⟩ : ∃ k, n = k + 1 := ⟨n - 1, by omega⟩
    unfold runBus
    rw [ha, if_neg (by decide), if_pos ht, (oldestEligible_none s).2 hn, (offeredHead_some s d).2 hd]
    dsimp only
    have hx : settleTenure (headsGone (drainPerformed d (closeBegun d s))) =
        if (drainPerformed d (closeBegun d s)).arb.lockHold = true then headsGone (drainPerformed d (closeBegun d s))
        else tenureEnded wanted (headsGone (drainPerformed d (closeBegun d s))) := by
      rw [settleTenure_eq _ wanted (by rw [headsGone_cbc, drainPerformed_tenure]; exact ht) hw
        (by rw [headsGone_arb]; exact drainPerformed_arb d _ hg), headsGone_arb]
    rw [startDrain_skips d rest s he hs hc hl.2, hx]
    refine ih n ?_
    have hq : queueLength (headsGone (drainPerformed d (closeBegun d s))) + 1 ≤ queueLength s := by
      have h1 : (drainPerformed d (closeBegun d s)).pwq.entries = rest := by
        rw [drainPerformed_entries]; exact congrArg List.tail he
      rw [queueLength, queueLength, headsGone_entries, h1, he, List.length_drop, List.length_cons]
      omega
    split
    · rw [if_pos (by rw [headsGone_cbc, drainPerformed_tenure]; exact ht)]
      omega
    · rw [show queueLength (tenureEnded wanted (headsGone (drainPerformed d (closeBegun d s)))) =
        queueLength (headsGone (drainPerformed d (closeBegun d s))) by rw [queueLength, tenureEnded_entries]; rfl]
      split <;> omega
  | held s ha ht hc hl =>
    intro n hn
    rw [if_pos ht] at hn
    obtain ⟨n, rfl⟩ : ∃ k, n = k + 1 := ⟨n - 1, by omega⟩
    obtain ⟨h1, h2⟩ := noCandidate s hc
    unfold runBus
    rw [ha, if_neg (by decide), if_pos ht, h1, h2]
    exact if_pos hl
  | ends s ha ht hc hl hg =>
    intro n hn
    rw [if_pos ht] at hn
    obtain ⟨n, rfl⟩ : ∃ k, n = k + 2 := ⟨n - 2, by omega⟩
    obtain ⟨h1, h2⟩ := noCandidate s hc
    unfold runBus
    rw [ha, if_neg (by decide), if_pos ht, h1, h2]
    dsimp only
    rw [hl, if_neg (by decide), endTenure_idle s hc hg]
    have hcbc : (tenureEnded false s).cbc = { s.cbc with tenure := false, request := false } := decision_cbc _ rfl
    rw [runBus_idle n _ (by rw [hcbc]; exact ha) (by rw [hcbc]) (by rw [tenureEnded_candidate]; exact hc), hcbc]
    rw [← hcbc]
  | idle s ha ht hc =>
    intro n hn
    rw [if_neg (by rw [ht]; decide)] at hn
    obtain ⟨n, rfl⟩ : ∃ k, n = k + 1 := ⟨n - 1, by omega⟩
    exact runBus_idle n s ha ht hc
  | waits s ha ht hc hr =>
    intro n hn
    rw [if_neg (by rw [ht]; decide)] at hn
    obtain ⟨n, rfl⟩ : ∃ k, n = k + 1 := ⟨n - 1, by omega⟩
    have hv : reviewRequest s = s := by
      unfold reviewRequest
      rw [if_neg (by rw [ht]; decide), if_pos ((hasCandidate_iff s).2 hc), if_pos hr]
    unfold runBus
    rw [ha, if_neg (by decide), if_neg (by rw [ht]; decide)]
    dsimp only
    rw [hv, if_neg (by rw [ht]; decide)]
  | requests s ha ht hc hr hst =>
    intro n hn
    rw [if_neg (by rw [ht]; decide)] at hn
    obtain ⟨n, rfl⟩ : ∃ k, n = k + 1 := ⟨n - 1, by omega⟩
    have hv : reviewRequest s = { s with cbc.request := true } := by
      rw [reviewRequest_asks s ht hc hr]
      unfold requestArrives
      obtain ⟨o, h⟩ | ⟨p, x, h⟩ | h := hst
      · rw [show ({ s with cbc.request := true } : State).arb.state = _ from h]
      · rw [show ({ s with cbc.request := true } : State).arb.state = _ from h]; rfl
      · rw [show ({ s with cbc.request := true } : State).arb.state = _ from h]
    unfold runBus
    rw [ha, if_neg (by decide), if_neg (by rw [ht]; decide)]
    dsimp only
    rw [hv, if_neg (by rw [show ({ s with cbc.request := true } : State).cbc.tenure = false from ht]; decide)]
  | wins s t owner ha ht hc hr hp hw hm ih =>
    intro n hn
    rw [if_neg (by rw [ht]; decide)] at hn
    obtain ⟨n, rfl⟩ : ∃ k, n = k + 1 := ⟨n - 1, by omega⟩
    have hv : reviewRequest s = granted .gate { s with cbc.request := true } := by
      rw [reviewRequest_asks s ht hc hr]
      unfold requestArrives
      rw [show ({ s with cbc.request := true } : State).arb.state = _ from hp]
      dsimp only
      by_cases ho : owner = .gate
      · rw [if_pos ho]; rfl
      · rw [if_neg ho]; exact decision_wins _ _ (hw.resolve_left ho)
    unfold runBus
    rw [ha, if_neg (by decide), if_neg (by rw [ht]; decide)]
    dsimp only
    have ht' : (granted .gate { s with cbc.request := true }).cbc.tenure = true := rfl
    rw [hv, if_pos ht']
    exact ih n (by rw [if_pos ht']; exact Nat.le_of_succ_le_succ hn)
  | loses s owner p ha ht hc hr hp ho hw =>
    intro n hn
    rw [if_neg (by rw [ht]; decide)] at hn
    obtain ⟨n, rfl⟩ : ∃ k, n = k + 1 := ⟨n - 1, by omega⟩
    have hv : reviewRequest s = granted (.port p) { s with cbc.request := true } := by
      rw [reviewRequest_asks s ht hc hr]
      unfold requestArrives
      rw [show ({ s with cbc.request := true } : State).arb.state = _ from hp]
      dsimp only
      rw [if_neg ho]; exact decision_wins _ _ hw
    unfold runBus
    rw [ha, if_neg (by decide), if_neg (by rw [ht]; decide)]
    dsimp only
    rw [hv, if_neg]
    rw [show (granted (.port p) { s with cbc.request := true }).cbc.tenure = false from ht]; decide

/-- The card bus as far as the statements follow it. -/
theorem settleBus_moves_to (s u : State) (h : BusMoves s u) : settleBus s = u :=
  runBus_moves_to s u h _ (by unfold busFuel; split <;> omega)

/-! ### The rest of an event -/

theorem headsGone_windows (s : State) (w : WindowId) :
    (headsGone s).windows[w] = afterHeads (leavingHeads s) w s.windows[w] := by
  dsimp only [headsGone, afterHeads]
  exact Vector.getElem_ofFn w.isLt

/-- Only the entries at the head that leave are gone, so what is left does not leave. -/
theorem leavingHeads_headsGone (s : State) : leavingHeads (headsGone s) = [] := by
  have hf : ∀ w : WindowId, (headsGone s).windows[w].frozen = s.windows[w].frozen := fun w => by
    rw [headsGone_windows, afterHeads]
  have hl : leavesAtOnce (headsGone s) = leavesAtOnce s := by
    funext e
    cases e with
    | control c => simp only [leavesAtOnce]
    | data d => simp only [leavesAtOnce, hf]
  have hd : inDrain (headsGone s) = inDrain s := by unfold inDrain; rw [headsGone_cbc]
  have ht : ∀ (p : Entry → Bool) (l : List Entry), (l.drop (l.takeWhile p).length).takeWhile p = [] := fun p l => by
    induction l with
    | nil => rfl
    | cons e l ih =>
      cases hp : p e with
      | true => rw [List.takeWhile_cons_of_pos hp]; exact ih
      | false =>
        rw [List.takeWhile_cons_of_neg (by rw [hp]; decide)]
        exact List.takeWhile_cons_of_neg (by rw [hp]; decide)
  unfold leavingHeads
  rw [hl, hd, headsGone_entries]
  unfold leavingHeads
  split
  · rfl
  · exact ht _ _

theorem leaveDeadHeads_idem (s : State) : leaveDeadHeads (headsGone s) = headsGone s := by
  rw [leaveDeadHeads_eq]; exact headsGone_none _ (leavingHeads_headsGone s)

/-- All that the end of an event can do. -/
theorem settle_settlesTo (s : State) : SettlesTo s (settle s) where
  kept := settle_kept s
  moves := settle_moves s
  exact := settle_quiet s
  whole := fun u h => by rw [settle, leaveDeadHeads_eq, settleBus_moves_to _ u h, finishEvent_eq]

theorem settle_headsGone (s : State) : settle (headsGone s) = settle s := by
  rw [settle, leaveDeadHeads_idem, settle, leaveDeadHeads_eq]

/-- All that the end of an event can do that began with the end of the gate's access. -/
theorem settle_accessEndsTo (s : State) (ht : s.cbc.tenure = true)
    (hg : s.arb.state = .tenure .gate ∨ s.arb.state = .locked .gate true) :
    AccessEndsTo s (settle (settleTenure (leaveDeadHeads s))) := by
  have hends : ∀ x : State, x.arb.lockHold = false → x.cbc.tenure = true →
      (x.arb.state = .tenure .gate ∨ x.arb.state = .locked .gate true) →
      settleTenure x = tenureEnded (hasCandidate x) x := by
    intro x hl hx hg
    unfold settleTenure endTenure gateTenureEnds tenureEnded
    rw [hl, hx, if_neg (by decide)]
    obtain hg | hg := hg <;> simp only [hg]
  refine ⟨?_, ?_, ?_, ?_, ?_⟩
  · exact kept_trans (kept_trans (leaveDeadHeads_kept s) (settleTenure_kept _)) (settle_kept _)
  · exact moves_trans (moves_trans (leaveDeadHeads_moves s) (settleTenure_moves _)) (settle_moves _)
  · intro hl
    have : settleTenure (headsGone s) = headsGone s := by
      unfold settleTenure
      rw [headsGone_arb, hl]; rfl
    rw [leaveDeadHeads_eq, this, settle_headsGone]
    exact settle_settlesTo s
  · intro hl hc
    rw [leaveDeadHeads_eq, hends (headsGone s) hl ht hg, (hasCandidate_iff _).2 hc]
    exact settle_settlesTo _
  · intro hl hc
    rw [leaveDeadHeads_eq, hends (headsGone s) hl ht hg, (hasCandidate_eq_false _).2 hc]
    exact settle_settlesTo _

/-- All that the end of an event can do in which the lock hold was released while the gate held its tenure idle. -/
theorem settle_idleTenureEnds (s : State) (hl : s.arb.lockHold = false) (ha : s.cbc.access = none)
    (ht : s.cbc.tenure = true) (hg : s.arb.state = .tenure .gate ∨ s.arb.state = .locked .gate true) :
    AccessEndsTo s (settle (endIdleTenure true (leaveDeadHeads s))) := by
  have h : endIdleTenure true (leaveDeadHeads s) = settleTenure (leaveDeadHeads s) := by
    unfold endIdleTenure settleTenure
    rw [leaveDeadHeads_eq, headsGone_arb, headsGone_cbc, hl, ha, ht]
    rfl
  rw [h]
  exact settle_accessEndsTo s ht hg

/-- Where no lock hold was released, or with an access in flight, no tenure ends. -/
theorem settle_noIdleTenure (held : Bool) (s : State)
    (h : held = false ∨ s.arb.lockHold = true ∨ s.cbc.access.isSome = true) :
    SettlesTo s (settle (endIdleTenure held (leaveDeadHeads s))) := by
  have he : endIdleTenure held (leaveDeadHeads s) = headsGone s := by
    unfold endIdleTenure
    rw [leaveDeadHeads_eq, headsGone_arb, headsGone_cbc]
    refine if_neg ?_
    rcases h with h | h | h
    · simp [h]
    · simp [h]
    · simp [Option.isSome_iff_ne_none.1 h]
  rw [he, settle_headsGone]
  exact settle_settlesTo s

end Sys2Proof.Machine
end

