-- ==== Sys2Proof/Tests/Slice0.lean ====
section
/-! SUPPORT. Tests of the model against the worked sequences and tables of spec/, the smoke test of well-formedness,
and, for each statement that has hypotheses, a state and operands that meet them. Each test is one step on a small
state; its comment names the source of the expected values. -/

namespace Sys2Proof.Tests

open Sys2Proof Sys2Proof.Machine Sys2Proof.Safety

set_option Elab.async false

/-! ### Small states -/

/-- The state after a command, where it gives a next state. -/
def after (c : Instr) (s : State) : State :=
  match exec c s with
  | .next t => t
  | _ => s

/-- A beat of four enabled bytes with its check code. -/
def fullBeat (w : Word) : Beat := ⟨w, 0xF, checkCode w⟩

/-- Window 0 of section 12.1. -/
def win : Window := { Window.powerOn with
  state := .live, trunkBase := 0x80000000, sizeCode := 20, cardBase := 0x0100000, portWidth := .bits32,
  policy := .freezes, readMask := 0x0029, writeMask := 0x0008 }

/-- The gate of section 12.1 once it is ENABLED, window 0 loaded, master 3 configured, manager 0. -/
def on : State := { State.reset with
  windows := State.reset.windows.set 0 win
  masters := State.reset.masters.set 3 { Master.powerOn with creditLimit := 8, barThreshold := 16 }
  cu := { ControlUnit.powerOn with manager := some 0 }
  gsc := ⟨.enabled, .none, none⟩ }

/-- `on` with window 0 lockable. -/
def lockable : State := { on with windows := on.windows.set 0 { win with lockable := true } }

/-- A gate state put in a state. -/
def inGate (g : GateController) (s : State) : State := { s with gsc := g }

/-- A gate that is QUIESCING with tag 7. -/
def quiescing : GateController := ⟨.quiescing, .none, some 7⟩

/-- A gate that is FAULTED. -/
def faulted : GateController := ⟨.faulted, .slotCheck, none⟩

/-- A read of master 3 at the base of window 0. -/
def readAt (k : LockAttr) : Txn := ⟨3, 0x80000000, .four, k, .read 1⟩

/-- A write of master 3 at the base of window 0. -/
def writeAt (k : LockAttr) (beats : List Beat) : Txn := ⟨3, 0x80000000, .four, k, .write beats⟩

/-- The slot of `readAt`, in a state, with data and a timer. -/
def slotIn (st : SlotState) (k : LockAttr) (data : Option (List CheckedWord)) (hold : Option Timer) : Slot :=
  ⟨st, ⟨3, 0x80000000, .four, 1, k⟩, 0, 0x0100000, .bits32, k = .openLock, 0, data, hold, false⟩

/-- `lockable` with slot 0 in use, its claims counted. -/
def withSlot (e : Slot) : State := { lockable with
  slots := lockable.slots.set 0 e
  ageOrder := [0]
  masters := lockable.masters.set 3 { lockable.masters[3] with outReads := 1 }
  windows := lockable.windows.set 0 { lockable.windows[0] with refCount := 1 } }

/-- A READY slot of `readAt .noLock` holding a word, its timer started at 0 with limit 256. -/
def ready (code : Lanes) : State := withSlot (slotIn .ready .noLock (some [⟨5, code⟩]) (some ⟨0, 256⟩))

/-- Master 3's lock is OWNED on window 0 with slot 0 as its locked slot, deadline 64, the card bus held. -/
def owned : State := { withSlot (slotIn .ready .openLock (some [withCode 5]) none) with
  lock := ⟨.owned, some 3, some 0, some 0, some ⟨0, 64⟩, false⟩
  cbc := ⟨false, true, none⟩
  arb := { Arbiter.powerOn with state := .locked .gate true, pointer := .gate, lockHold := true } }

/-- An entry of master 3 through window 0. -/
def entryWith (seq : SeqFlag) (beats : List Beat) : DataEntry :=
  ⟨3, 0, true, 0x0100000, .four, beats, .bits32, seq, false⟩

/-- The access record of a drain of `entryWith`, at a beat, with its operation. -/
def drainAt (beats beat : Nat) (stop : Bool) : Access where
  kind := .drain
  slot := none
  cardAddr := 0x0100000
  unit := .four
  beats := beats
  portWidth := .bits32
  beat := beat
  piece := 0
  bytes := 4 * beat
  gathered := []
  op := some ⟨⟨0x0100000 + BitVec.ofNat 28 (4 * beat), .four, true, 0xF, 0⟩, ⟨0, 8⟩⟩
  stop := stop

/-- A state whose queue holds data entries, the first of them in drain, with its claims counted. -/
def draining (a : Access) (entries : List DataEntry) (s : State) : State := { s with
  pwq := ⟨entries.map Entry.data, BitVec.ofNat 32 entries.length, 0, 0⟩
  masters := s.masters.set 3 { s.masters[3] with outWrites := entries.length }
  windows := s.windows.set 0 { s.windows[0] with refCount := s.windows[0].refCount + entries.length }
  cbc := ⟨true, true, some a⟩
  arb := if s.arb.lockHold then s.arb else { s.arb with state := .tenure .gate, pointer := .gate } }

/-- The access record of slot 0's fetch, at beat 0 of `beats`. -/
def fetchOf (slot : Option SlotId) (beats : Nat) : Access where
  kind := .fetch
  slot := slot
  cardAddr := 0x0100000
  unit := .four
  beats := beats
  portWidth := .bits32
  beat := 0
  piece := 0
  bytes := 0
  gathered := List.replicate beats 0
  op := some ⟨⟨0x0100000, .four, false, 0xF, 0⟩, ⟨0, 8⟩⟩
  stop := false

/-- A state with slot 0 FETCHING and its fetch in flight. -/
def fetching (k : LockAttr) (mark : Bool) (beats : Nat) : State :=
  { withSlot { slotIn .fetching k none none with releaseMark := mark } with
    lock := if k = .openLock then ⟨.pending, some 3, some 0, some 0, none, false⟩ else Lock.powerOn
    cbc := ⟨true, true, some (fetchOf (some 0) beats)⟩
    arb := { Arbiter.powerOn with state := .tenure .gate, pointer := .gate } }

/-- A record at the head of the queue, with a place held for its RESULT. -/
def headIs (c : ControlEntry) (s : State) : State := { s with pwq.entries := [.control c], rq.space := .held }

/-- A record of a command, with tag 1, written by master 0. -/
def record (cmd : Command) (operands : List Word) : ControlEntry := ⟨cmd, 1, operands, 0⟩

theorem atHead (c : ControlEntry) (s : State) (h : s.gsc.state = .standby ∨ s.gsc.state = .enabled ∨ s.gsc.state = .quiescing) :
    AtHead c.command c [] (headIs c s) := ⟨rfl, rfl, rfl, h⟩

theorem claimedBy {s : State} {w : WindowId} {t : Txn}
    (h : (1 ≤ txnBeats t ∧ txnBeats t ≤ 16) ∧ s.gsc.state ≠ .reset ∧ inRegion s.ti.slotNumber t.addr = false ∧
      claimingWindow s t.addr = some w) : ClaimedBy s w t :=
  ⟨h.1, h.2.1, fun hr => Bool.false_ne_true (h.2.2.1.symm.trans ((Laws.inRegion_iff s t.addr).2 hr)), h.2.2.2⟩

theorem notMisaligned {t : Txn} (h : misaligned t = false) : ¬Misaligned t :=
  fun hm => Bool.false_ne_true (h.symm.trans ((Laws.misaligned_iff t).2 hm))

theorem notCrossing {e : Window} {t : Txn} (h : 1 ≤ txnBeats t ∧ crossesEnd e t = false) : ¬CrossesEnd e t :=
  fun hc => Bool.false_ne_true (h.2.symm.trans ((Laws.crossesEnd_iff e t h.1).2 hc))

theorem passesToGate {s : State} {w : WindowId} {t : Txn}
    (h : ((1 ≤ txnBeats t ∧ txnBeats t ≤ 16) ∧ s.gsc.state ≠ .reset ∧ inRegion s.ti.slotNumber t.addr = false ∧
      claimingWindow s t.addr = some w) ∧ s.gsc.state ≠ .faulted ∧ misaligned t = false ∧
      crossesEnd s.windows[w] t = false ∧ s.windows[w].frozen = false ∧
      s.masters[t.master].admission = .opened ∧ rightsFail s w t = false) : PassesToGate s w t :=
  ⟨claimedBy h.1, h.2.1, notMisaligned h.2.2.1, notCrossing ⟨h.1.1.1, h.2.2.2.1⟩, h.2.2.2.2.1, h.2.2.2.2.2.1,
    fun hr => Bool.false_ne_true (h.2.2.2.2.2.2.symm.trans ((Laws.rightsFail_iff s w t).2 hr))⟩

theorem gatePasses {s : State} {w : WindowId} {t : Txn} (h : Machine.gatePasses s w t = true) : GatePasses s w t :=
  (Laws.gatePasses_iff s w t).1 h

theorem lockPasses {s : State} {w : WindowId} {t : Txn} (clear : Bool) (h : lockStep s w t = .pass clear) :
    LockStepPasses s w t :=
  (Laws.lockStep_pass_iff s w t).1 ⟨clear, h⟩

theorem ownsLock {s : State} {m : MasterId} {w : WindowId} (h : lockOwnedBy s m w = true) : OwnsLock s m w :=
  (Laws.lockOwnedBy_iff s m w).1 h

theorem notOwning {s : State} {m : MasterId} {w : WindowId} (h : lockOwnedBy s m w = false) : ¬OwnsLock s m w :=
  (Laws.lockOwnedBy_false_iff s m w).1 h

theorem tenureLegal {s : State}
    (h : (s.cbc.tenure = true ↔ s.arb.state = .tenure .gate ∨ s.arb.state = .locked .gate true) ∧
      (s.cbc.access.isSome = true → s.cbc.tenure = true) ∧ (s.cbc.access.all fun a => a.op.isSome) = true) :
    TenureLegal s :=
  ⟨h.1, h.2.1, fun a ha => by simpa [ha] using h.2.2⟩

theorem idleHeld {s : State}
    (h : s.cbc.access = none → s.cbc.tenure = true → s.arb.lockHold = true ∧ hasCandidate s = false) :
    IdleTenureHeld s := h

theorem holdsBus {s : State}
    (h : (s.arb.lockHold = true ↔ s.lock.state = .owned) ∧ (s.arb.lockHold = true ↔ s.arb.state = .locked .gate true) ∧
      s.arb.state ≠ .locked .gate false) : LockHoldsBus s := h

theorem codes {d : Word} {c : Lanes}
    (h : ∀ lane < 4, ((List.range 8).countP (fun k => d.getLsbD (8 * lane + k)) +
      if c.getLsbD lane = true then 1 else 0) % 2 = 1) : CodeAgrees d c := h

theorem damaged {d : Word} {c : Lanes}
    (h : ¬∀ lane < 4, ((List.range 8).countP (fun k => d.getLsbD (8 * lane + k)) +
      if c.getLsbD lane = true then 1 else 0) % 2 = 1) : ¬CodeAgrees d c := h

/-! ### Well-formedness (R88: 1 to 16 beats) -/

theorem test_wf_write_of_no_beats : (Instr.windowWrite 3 0 .four .noLock []).wellFormed = false := by decide
theorem test_wf_write_of_17_beats :
    (Instr.windowWrite 3 0 .four .noLock (List.replicate 17 (fullBeat 0))).wellFormed = false := by decide
theorem test_wf_write_of_16_beats :
    (Instr.windowWrite 3 0 .four .noLock (List.replicate 16 (fullBeat 0))).wellFormed = true := by decide
theorem test_wf_read_of_no_beats : (Instr.windowRead 3 0 .four .noLock 0).wellFormed = false := by decide
theorem test_wf_read_of_17_beats : (Instr.windowRead 3 0 .four .noLock 17).wellFormed = false := by decide
theorem test_wf_intake_of_no_words : (Instr.controlIntake 0 []).wellFormed = false := by decide
theorem test_wf_intake_of_17_words : (Instr.controlIntake 0 (List.replicate 17 (withCode 0))).wellFormed = false := by decide
theorem test_wf_refused_of_no_beats :
    (Instr.controlRegionRefused ⟨0, 0xFFF00000, .four, .noLock, .read 0⟩).wellFormed = false := by decide

/-! ### Timebase and resets -/

/-- R1: the count wraps mod 2 to the power 32. -/
theorem test_tick_wraps : (after .timebaseTick { State.reset with timebase := 0xFFFFFFFF }).timebase = 0 := by decide +kernel

/-- R1, R62: a slot's timer that is due and left expires at the next tick, with READ ABANDONED. -/
theorem test_tick_expires :
    let s := after .timebaseTick { ready 0 with timebase := 256 }
    s.timebase = 257 ∧ s.slots[0] = Slot.powerOn ∧
      s.rq.reports.map (fun r => r.body.kind) = [.resetNotice, .readAbandoned] := by
  decide +kernel

/-- R175: the gate is RESET while power-on reset is asserted; R172: the report queue is empty. -/
theorem test_power_on_assert :
    (after (.powerOnResetAssert 2) on).gsc.state = .reset ∧ (after (.powerOnResetAssert 2) on).rq.reports = [] := by
  decide +kernel

/-- R91, R171: the slot number is held and the RESET NOTICE (POWER) has sequence 0 (section 12.1). -/
theorem test_power_on_release :
    (after (.powerOnResetRelease 2) (assertPowerOn 2 on)).ti.slotNumber = 2 ∧
      (after (.powerOnResetRelease 2) (assertPowerOn 2 on)).rq.reports = [powerNotice] := by
  decide +kernel

/-- R44: the numbers of entries a card reset removes are handed over; R172: stored reports stay. -/
theorem test_card_assert :
    (after (.cardResetAssert 0) (draining (drainAt 1 0 false) [entryWith .none [fullBeat 1]] on)).rq.cardData = 1 ∧
      (after (.cardResetAssert 0) on).rq.reports = [powerNotice] := by
  decide +kernel

/-- R135: with port A's request line raised at the release, A's tenure begins. -/
theorem test_card_release :
    (after (.cardResetRelease 0) { assertCard 0 on with lines.request := ⟨true, false, false⟩ }).arb.state =
      .tenure (.port .a) := by
  decide +kernel

/-- R180: ENABLED becomes STANDBY and no manager is set. -/
theorem test_trunk_reset :
    (after .trunkReset on).gsc.state = .standby ∧ (after .trunkReset on).cu.manager = none := by decide +kernel

/-! ### Window transactions -/

/-- Section 12.1: before ENABLE a write of master 3 is answered RETRY. -/
theorem test_write_in_standby :
    (after (windowCommand (writeAt .noLock [fullBeat 1])) (inGate ⟨.standby, .none,
        none⟩ on)).ti.answer = some .retry := by
  decide +kernel

/-- Section 12.1: a write of master 9 is answered REFUSE and charges a violation RIGHTS. -/
theorem test_write_without_rights :
    (after (.windowWrite 9 0x80000000 .four .noLock [fullBeat 1]) (inGate ⟨.standby, .none, none⟩ on)).ti.answer =
        some .refuse ∧
      (after (.windowWrite 9 0x80000000 .four .noLock [fullBeat 1])
        (inGate ⟨.standby, .none, none⟩ on)).masters[9].violations = 1 := by
  decide +kernel

/-- R7: the last byte of the window is inside it, and a burst that passes it is refused. -/
theorem test_read_to_the_end_of_the_window :
    (after (.windowRead 3 0x800FFFFC .four .noLock 1) on).slots[0].cardAddr = 0x01FFFFC ∧
      (after (.windowRead 3 0x800FFFFC .four .noLock 2) on).ti.answer = some .refuse := by
  decide +kernel

/-- R50: a return to a READY slot is answered DONE with the data, and the slot is freed. -/
theorem test_collection :
    (after (windowCommand (readAt .noLock)) (ready (checkCode 5))).ti.answer = some (.done [withCode 5]) ∧
      (after (windowCommand (readAt .noLock)) (ready (checkCode 5))).slots[0] = Slot.powerOn := by
  decide +kernel

/-- R89: a 1-byte beat at an address whose remainder mod 4 is 2 uses lane 2, and a 2-byte one lanes 2 and 3. -/
theorem test_lanes : laneMask 2 1 = 0b0100 ∧ laneMask 2 2 = 0b1100 ∧ laneMask 0 4 = 0b1111 := by decide

/-- R96: the check bit makes the number of ones odd, so a lane of all zeros has check bit 1. -/
theorem test_check_code : checkCode 0 = 0xF ∧ checkCode 0x00000001 = 0xE ∧ checkCode 0x03010000 = 0b1011 := by decide

/-! ### The control region -/

/-- R183: the IDENTITY word. -/
theorem test_identity : (after (.identity 5) on).ti.answer = some (.done [withCode 0x13206A3D]) := by decide +kernel

/-- Section 12.1, step 1: STATUS after power-on reset reads 0008_0000h. -/
theorem test_status_at_reset :
    (after (.status 0) State.reset).ti.answer = some (.done [withCode 0x00080000]) := by decide +kernel

/-- Section 12.5: STATUS reads 0388_0800h with two data entries, 16 reports, report wait and suppressed count 3. -/
theorem test_status_with_report_wait :
    statusWord { State.reset with
      pwq.entries := .control (record .enable []) :: List.replicate 2 (.data (entryWith .none []))
      rq := ⟨List.replicate 16 powerNotice, 0x210, 3, .waiting, 0, 0⟩ } = 0x03880800 := by
  decide +kernel

/-- Section 2.7.1: the counters read 121, 118 and 2. -/
theorem test_counts :
    (after (.counts 0) { on with pwq := ⟨[], 121, 118, 2⟩ }).ti.answer =
      some (.done [withCode 121, withCode 118, withCode 2]) := by
  decide +kernel

/-- R186: the RESET NOTICE (POWER) has kind code 2, and sequence and suppressed fields 0. -/
theorem test_report_head :
    (after (.reportHead 0) on).ti.answer =
      some (.done [withCode 0x00020000, withCode 0, withCode 0, withCode 0]) := by
  decide +kernel

/-- R187: word 0 of window 0 of section 12.1: LIVE, size code 20, port width code 2, policy FREEZE. -/
theorem test_window_readback :
    windowWords win = [0x00002941, 0x80000000, 0x00100000, 0x00080029, 0, 0, 0, 0] := by decide

/-- R187: after power-on reset word 0 of a master reads 0002_0400h. -/
theorem test_master_readback :
    (after (.masterReadback 0 7) on).ti.answer =
      some (.done [withCode 0x00020400, withCode 0, withCode 0, withCode 0]) := by
  decide +kernel

/-- Section 12.1, step 2: CLAIM with data 0 from master 0 makes it the manager. -/
theorem test_claim : (after (.claim 0 (withCode 0)) State.reset).cu.manager = some 0 := by decide +kernel

/-- R142: the manager becomes absent. -/
theorem test_relinquish : (after (.relinquish 0 (withCode 9)) on).cu.manager = none := by decide +kernel

/-- Section 12.5: RELEASE 0200h removes the oldest report and the WAITING request becomes HELD. -/
theorem test_release :
    (after (.release 0 (withCode 0x200)) { on with
      rq := ⟨[⟨0x200, 0, powerNotice.body⟩, ⟨0x201, 0, powerNotice.body⟩], 0x202, 3, .waiting, 0, 0⟩ }).rq =
      ⟨[⟨0x201, 0, powerNotice.body⟩], 0x202, 3, .held, 0, 0⟩ := by
  decide +kernel

/-- Section 12.1, step 3: ATTENTION with data 1 asserts the service line while a report is stored. -/
theorem test_attention : (after (.attention 0 (withCode 1)) on).ti.serviceLine = true := by decide +kernel

/-- R147, R46: KEEP removes the queued entries and counts the data entries as dropped. -/
theorem test_reset_gate :
    let s := after (.resetGate 0 (withCode 0)) { on with
      pwq := ⟨[.control (record .enable []), .data (entryWith .none [fullBeat 1])], 1, 0, 0⟩, rq.space := .waiting }
    s.pwq = ⟨[], 1, 0, 1⟩ ∧ s.gsc.state = .standby := by
  decide +kernel

/-- Section 12.1: the three records are of good form. -/
theorem test_records_of_12_1 :
    recordEntry 0 [0x04000101, 0x000A1400, 0x80000000, 0x00100000, 0x00080029] =
        some ⟨.loadWindow, 1, [0x000A1400, 0x80000000, 0x00100000, 0x00080029], 0⟩ ∧
      recordEntry 0 [0x02000210, 0x00000403, 0x00100208] = some ⟨.setMaster, 2, [0x00000403, 0x00100208], 0⟩ ∧
      recordEntry 0 [0x00000320] = some ⟨.enable, 3, [], 0⟩ := by
  decide

/-- R149, R167: an accepted record joins the tail, and at the head of an empty queue it holds a report place. -/
theorem test_intake :
    let s := after (.controlIntake 0 [withCode 0x00000320]) on
    s.pwq.entries = [.control ⟨.enable, 3, [], 0⟩] ∧ s.rq.space = .held := by
  decide +kernel

/-- R139: a STATUS read of two beats is refused. -/
theorem test_control_region_refused :
    (after (.controlRegionRefused ⟨0, 0xFFF00004, .four, .noLock, .read 2⟩) on).ti.answer = some .refuse := by
  decide +kernel

/-! ### Ordered commands -/

/-- Section 12.1: the LOAD WINDOW record makes window 0 as section 12.1 gives it. -/
theorem test_load_window :
    (after .loadWindow (headIs (record .loadWindow [0x000A1400, 0x80000000, 0x00100000, 0x00080029])
      State.reset)).windows[0] = win := by
  decide +kernel

/-- Section 12.2: the RESULT of the RETIRE gives 1 slot freed, 1 given the release mark, not FREE. -/
theorem test_retire_window :
    let e : Slot := slotIn .ready .noLock (some [withCode 5]) (some ⟨0, 256⟩)
    let s : State := { withSlot e with
      slots := (withSlot e).slots.set 1 { e with state := .fetching, data := none, hold := none }
      masters := on.masters.set 3 { on.masters[3] with outReads := 2 }
      windows := on.windows.set 0 { win with refCount := 2 }
      ageOrder := [0, 1] }
    let t := after .retireWindow (headIs (record .retireWindow [0]) s)
    t.windows[0].state = .draining ∧ t.rq.reports.map (fun r => r.body.detail) = [0, 0x11] := by
  decide +kernel

/-- R154: MODIFY WINDOW on a FREE window receives WRONG STATE. -/
theorem test_modify_window :
    (after .modifyWindow (headIs (record .modifyWindow [1, 0]) on)).rq.reports.map (fun r => r.body.status) =
      [none, some .wrongState] := by
  decide +kernel

/-- R21: THAW WINDOW answers the discard count and clears it with the frozen flag. -/
theorem test_thaw_window :
    let s := after .thawWindow (headIs (record .thawWindow [0])
      { on with windows := on.windows.set 0 { win with frozen := true, discards := 7 } })
    s.windows[0] = win ∧ s.rq.reports.map (fun r => r.body.detail) = [0, 7] := by
  decide +kernel

/-- Section 12.1: SET MASTER gives master 3 credit limit 8, read limit 2 and bar threshold 16; the detail is 3. -/
theorem test_set_master :
    let s := after .setMaster (headIs (record .setMaster [0x00000403, 0x00100208]) State.reset)
    s.masters[3] = ⟨.opened, 8, 2, 0, 0, 0, 16, none⟩ ∧ s.rq.reports.map (fun r => r.body.detail) = [0, 3] := by
  decide +kernel

/-- R157: SET TIMERS writes the four limits. -/
theorem test_set_timers :
    (after .setTimers (headIs (record .setTimers [0x00200064, 0x00050008]) on)).cu = ⟨some 0, false, 100, 32, 8,
        5⟩ := by
  decide +kernel

/-- R129, R132: a new park policy GATE moves the parked grant when nobody requests. -/
theorem test_set_arbitration :
    (after .setArbitration (headIs (record .setArbitration [0x00071801]) on)).arb.state = .parked .gate := by
  decide +kernel

/-- Section 12.5: the RESULT of the ENABLE has sequence 0210h and suppressed field 3. -/
theorem test_enable :
    let s := after .enable (headIs ⟨.enable, 0x90, [], 0⟩ { State.reset with rq := ⟨[], 0x210, 3, .held, 0, 0⟩ })
    s.gsc.state = .enabled ∧ s.rq.reports.map (fun r => (r.seq, r.suppressed)) = [(0x210, 3)] := by
  decide +kernel

/-- Section 8.9: a QUIESCE with one slot in use receives STARTED with 1 in the slots field of its detail. -/
theorem test_quiesce :
    let s := after .quiesce (headIs (record .quiesce []) (withSlot (slotIn .fetching .noLock none none)))
    s.gsc.state = .quiescing ∧
        s.rq.reports.map (fun r => (r.body.status, r.body.detail)) = [(none, 0), (some .started, 0x100)] := by
  decide +kernel

/-- R161: the detail of FENCE is the number of entries behind it. -/
theorem test_fence :
    let s := after .fence { on with
      pwq := ⟨[.control (record .fence []), .data (entryWith .none [fullBeat 1])], 1, 0, 0⟩, rq.space := .held }
    s.rq.reports.map (fun r => r.body.detail) = [0, 1] := by
  decide +kernel

/-- R35, R81: the drain of a CLOSE entry that starts under the lock stops the lock's hold timer. -/
theorem test_close_stops_the_timer :
    let s := after .fence { owned with
      pwq := ⟨[.control (record .fence []), .data (entryWith .close [fullBeat 1])], 1, 0, 0⟩, rq.space := .held }
    s.lock.state = .owned ∧ s.lock.hold = none ∧ s.cbc.access.isSome = true := by
  decide +kernel

/-! ### Card bus -/

/-- The entry of section 6.2.1: port width 16, unit 4, two beats, lanes 0 and 1 of the second beat disabled. -/
def cutEntry : DataEntry :=
  ⟨3, 0, true, 0x0100100, .four, [fullBeat 1, ⟨1, 0b1100, checkCode 1⟩], .bits16, .none, false⟩

/-- Section 6.2.1: after piece 2 the controller skips piece 3 and writes two bytes at 0010_0106h. -/
theorem test_piece_end_skips :
    let a : Access := { drainAt 2 0 false with cardAddr := 0x0100100, portWidth := .bits16, piece := 1 }
    (after (.pieceEnd (.ack 0)) (draining a [cutEntry] on)).cbc.access.map (fun x => (x.beat, x.piece,
      x.op.map (fun p => (p.op.addr, p.op.size, p.op.enables)))) =
      some (1, 1, some (0x0100106, .two, 0b1100)) := by
  decide +kernel

/-- R15, R120, R178: windows 5 and 3 that a failed check brings to 0 are reported after the FAULT, 3 before 5. -/
theorem test_freed_windows_ascend :
    let d := entryWith .none [fullBeat 1, ⟨1, 0xF, 0⟩]
    let retiring : Window := { win with state := .draining, refCount := 1, retireTag := some 9 }
    let s := after (.pieceEnd (.ack 0)) { draining (drainAt 2 0 false) [] on with
      pwq.entries := [.data { d with window := 5 }, .data { d with window := 3 }]
      windows := (on.windows.set 3 retiring).set 5 retiring }
    (s.rq.reports.drop 1).map (fun r => (r.body.kind, r.body.window)) =
      [(.fault, none), (.windowFreed, some 3), (.windowFreed, some 5)] := by
  decide +kernel

/-- Section 6.2.1: NO RESPONSE at piece 4 reports the address 0010_0106h and 4 bytes performed. -/
theorem test_no_response :
    let a : Access := { drainAt 2 1 false with
      cardAddr := 0x0100100, portWidth := .bits16, piece := 1,
      op := some ⟨⟨0x0100106, .two, true, 0b1100, 0⟩, ⟨0, 8⟩⟩ }
    let s := after .noResponse { draining a [cutEntry] on with timebase := 8 }
    s.pwq.dropped = 1 ∧ (s.rq.reports.drop 1).map (fun r => (r.body.kind, r.body.addr, r.body.detail)) =
      [(.writeLost, some 0x00100106, 0x104), (.windowFrozen, some 0x00100106, 0x100)] := by
  decide +kernel

/-- Section 12.3: with limit 256 a timer started at 300 is not due at 555 and due at 556. -/
theorem test_hold_timer :
    expired 555 ⟨300, 256⟩ = false ∧ expired 556 ⟨300, 256⟩ = true ∧ deadline ⟨300, 256⟩ = 556 := by decide

/-- R62: a READY slot whose timer expires is freed with READ ABANDONED. -/
theorem test_hold_timer_expiry :
    let s := after (.holdTimerExpiry 0) { ready 0 with timebase := 256 }
    s.slots[0] = Slot.powerOn ∧ s.rq.reports.map (fun r => r.body.kind) = [.resetNotice, .readAbandoned] := by
  decide +kernel

/-- Section 12.4: two sequence entries behind a drain are void, and LOCK BROKEN gives TIMEOUT and 2 entries. -/
theorem test_lock_timeout :
    let s := after .lockHoldTimerExpiry { draining (drainAt 1 0 false)
      [entryWith .none [fullBeat 1], entryWith .inSequence [fullBeat 2], entryWith .close [fullBeat 3]] owned with
      timebase := 64 }
    s.lock = Lock.powerOn ∧ s.arb.state = .tenure .gate ∧ s.masters[3].note = some 0 ∧
      (s.rq.reports.drop 1).map (fun r => (r.body.kind, r.body.detail)) = [(.lockBroken, 0x200)] := by
  decide +kernel

/-- R134: one report with the port's code and the limit, and the resident keeps the grant. -/
theorem test_overstay :
    let s := after .overstayTimerExpiry { on with
      timebase := 20, arb := { Arbiter.powerOn with state := .tenure (.port .b), overstay := some ⟨0, 20⟩ } }
    s.arb.state = .tenure (.port .b) ∧ (s.rq.reports.drop 1).map (fun r => r.body.detail) = [0x00140002] := by
  decide +kernel

/-! ### Residents -/

/-- Port B is in tenure, the pointer is B, the gate requests, ports A and C request (section 7.9). -/
def rotation (entries : Nat) : State := { on with
  pwq.entries := List.replicate entries (.data (entryWith .none [fullBeat 1]))
  cbc.request := true
  lines.request := ⟨true, true, true⟩
  arb := { Arbiter.powerOn with state := .tenure (.port .b), pointer := .port .b } }

/-- Section 7.9: with data count 25 the gate wins by urgency when B drops its request, and with 20 C wins. -/
theorem test_request_drop :
    (after (.residentRequestDrop .b) (rotation 25)).arb.state = .tenure .gate ∧
      (after (.residentRequestDrop .b) (rotation 20)).arb.state = .tenure (.port .c) := by
  decide +kernel

/-- The lock OWNED on window 0 with the tenure held idle, port B requesting, and a RETIRE WINDOW of window 0 at the head
with data entries behind it. -/
def retiringIdle (entries : Nat) : State := { owned with
  pwq.entries := .control (record .retireWindow [0]) :: List.replicate entries (.data (entryWith .none [fullBeat 1]))
  rq.space := .held
  lines.request := ⟨false, true, false⟩ }

/-- R126, R128, R131: the decision at the end of an idle tenure counts the gate for the entries behind the record: with 24
of them the gate wins by urgency, and with 23 port B follows it in the rotation while the gate's request stands. -/
theorem test_idle_release_counts_the_gate :
    (after .retireWindow (retiringIdle 24)).arb.state = .tenure .gate ∧
      (after .retireWindow (retiringIdle 24)).cbc.access.isSome = true ∧
      (after .retireWindow (retiringIdle 23)).arb.state = .tenure (.port .b) ∧
      (after .retireWindow (retiringIdle 23)).cbc.request = true := by
  decide +kernel

/-- R129: the parked owner that requests begins its tenure at once. -/
theorem test_request_raise : (after (.residentRequestRaise .a) on).arb.state = .tenure (.port .a) := by decide +kernel

/-- R130: a hold raised in tenure makes LOCKED; its drop gives TENURE. -/
theorem test_hold_raise_and_drop :
    (after (.residentHoldRaise .b) (rotation 1)).arb.state = .locked (.port .b) true ∧
      (after (.residentHoldDrop .b) { rotation 1 with
        lines.hold := ⟨false, true, false⟩, arb.state := .locked (.port .b) true }).arb.state = .tenure (.port .b) := by
  decide +kernel

/-- R38, R65: a resident's write to the slot's last byte makes it STALE, and one to the byte after it does not. -/
theorem test_resident_write :
    (after (.residentWriteObserved .a 0x0100003 .one)
        { ready 0 with arb.state := .tenure (.port .a) }).slots[0].state = .stale ∧
      (after (.residentWriteObserved .a 0x0100004 .one)
        { ready 0 with arb.state := .tenure (.port .a) }).slots[0].state = .ready := by
  decide +kernel

/-! ### Witnesses: states and operands that meet the hypotheses of each statement, clause by clause -/

/-! #### The machine, resets, transactions -/

theorem witness_step :
    ({ on with pending := [.fence] } : State).pending = .fence :: [] ∧ on.pending = [] ∧
        txnBeats (writeAt .noLock []) = 0 ∧
      16 < txnBeats ⟨3, 0x80000000, .four, .noLock, .read 17⟩ ∧ ([] : List CheckedWord).length = 0 ∧
      16 < (List.replicate 17 (withCode 0)).length := by
  decide

/-- A drain of window 0's entry whose response timer is due. -/
def unanswered : State :=
  { draining (drainAt 1 0 false) [entryWith .none [fullBeat 1]] on with timebase := 8 }

/-- Port B owns the bus with its overstay timer due. -/
def overstaying : State := { on with
  timebase := 0x00000003
  arb := { Arbiter.powerOn with state := .tenure (.port .b), pointer := .port .b, overstay := some ⟨0xFFFFFFFB, 8⟩ } }

theorem noHold {s : State} (h : ∀ i : SlotId, s.slots[i].hold = none) (i : SlotId) :
    ¬∃ timer, s.slots[i].hold = some timer ∧ Due s.timebase timer := by
  rintro ⟨timer, ht, -⟩; rw [h i] at ht; cases ht

theorem noneDue {s : State} (ha : s.cbc.access = none) (hl : s.lock.hold = none)
    (hs : ∀ i : SlotId, s.slots[i].hold = none) (ho : s.arb.overstay = none) : NoneDue s :=
  ⟨fun a p h => (by rw [ha] at h; cases h), fun t h => (by rw [hl] at h; cases h),
    fun i t h hd => noHold hs i ⟨t, h, hd⟩, fun t h => (by rw [ho] at h; cases h)⟩

theorem witness_tick :
    on.porAsserted = false ∧ (assertPowerOn 0 on).porAsserted = true ∧ NoneDue on ∧
    (unanswered.porAsserted = false ∧ SettingsLegal unanswered ∧ SlotsLegal unanswered ∧
      ∃ a p, unanswered.cbc.access = some a ∧ a.op = some p ∧ Due unanswered.timebase p.timer) ∧
    (let s := { owned with timebase := 64 };
      SettingsLegal s ∧ SlotsLegal s ∧ s.cbc.access = none ∧ s.lock.state = .owned ∧
        ∃ timer, s.lock.hold = some timer ∧ Due s.timebase timer) ∧
    (let s := { ready 0 with timebase := 256 };
      SettingsLegal s ∧ SlotsLegal s ∧ s.cbc.access = none ∧ s.lock.state = .free ∧
        (∃ timer, s.slots[0].hold = some timer ∧ Due s.timebase timer) ∧
        ∀ j : SlotId, j < 0 → ¬∃ timer, s.slots[j].hold = some timer ∧ Due s.timebase timer) ∧
    (SettingsLegal overstaying ∧ SlotsLegal overstaying ∧ overstaying.cbc.access = none ∧
      overstaying.lock.state = .free ∧
      (∀ i : SlotId, ¬∃ timer, overstaying.slots[i].hold = some timer ∧ Due overstaying.timebase timer) ∧
      ∃ timer, overstaying.arb.overstay = some timer ∧ Due overstaying.timebase timer) := by
  refine ⟨rfl, rfl, noneDue rfl rfl (by decide +kernel) rfl, ?_⟩
  dsimp only
  and_intros <;> first
    | decide +kernel | (simp only [SlotsLegal, SlotLegal]; decide +kernel)
    | exact ⟨_, rfl, by simp only [Due]; decide +kernel⟩ | exact ⟨_, _, rfl, rfl, by simp only [Due]; decide +kernel⟩
    | exact noHold (by decide +kernel) | exact fun j hj => absurd hj (Nat.not_lt_zero j.val)

theorem witness_reset_assertion : on.porAsserted = false ∧ on.cardAsserted = false := by decide

theorem witness_release :
    (let s := assertCard 0 (assertPowerOn 0 on);
      s.porAsserted = true ∧ s.cardAsserted = true) ∧
    (let s := assertPowerOn 0 on;
      s.lines.request = ⟨false, false, false⟩ ∧ s.porAsserted = true ∧ s.cardAsserted = false) ∧
    (let s := assertCard 0 on;
      s.lines.request = ⟨false, false, false⟩ ∧ s.porAsserted = false ∧ s.cardAsserted = true) ∧
    (let s := { assertPowerOn 0 on with lines := ⟨⟨false, true, false⟩, ⟨false, true, false⟩⟩ };
      s.porAsserted = true ∧ s.cardAsserted = false ∧ s.cbc.request = false ∧
        ∀ q, portOf s.lines.request q = true ↔ q = .b) ∧
    (let s := { assertCard 0 on with lines.request := ⟨true, false, false⟩ };
      s.porAsserted = false ∧ s.cardAsserted = true ∧ s.cbc.request = false ∧
        ∀ q, portOf s.lines.request q = true ↔ q = .a) ∧
    (let s := { assertCard 0 on with lines.request := ⟨false, true, true⟩ };
      s.porAsserted = false ∧ s.cardAsserted = true ∧ s.cbc.request = false ∧
        portOf s.lines.request .b = true ∧ portOf s.lines.request .c = true) := by
  dsimp only
  and_intros <;> first
    | decide +kernel | (intro q; cases q <;> decide +kernel)

theorem witness_reset_is_off_the_trunk :
    let s := assertCard 0 on;
    let long := writeAt .noLock (List.replicate 16 (fullBeat 1));
    s.gsc.state = .reset ∧ (1 ≤ txnBeats (readAt .noLock) ∧ txnBeats (readAt .noLock) ≤ 16) ∧
      (1 ≤ txnBeats long ∧ txnBeats long ≤ 16) ∧ 1 ≤ [withCode 0].length ∧
      (List.replicate 16 (withCode 0)).length ≤ 16 ∧
      Instr.identity 0 ∈ [windowCommand long, .controlRegionRefused long, .identity 0] := by
  decide +kernel

theorem witness_trunk_reset :
    (on.gsc.state ≠ .reset ∧ owned.gsc.state ≠ .faulted ∧ LockHoldsBus owned ∧ TenureLegal owned ∧
      IdleTenureHeld owned ∧ LockRecordLegal owned) ∧
    (let s := inGate faulted on;
      s.gsc.state = .faulted ∧ s.pwq.entries = []) ∧
    (let s := inGate faulted (draining (drainAt 1 0 true) [entryWith .none [fullBeat 1]] on);
      s.gsc.state = .faulted ∧ s.cbc.access = some (drainAt 1 0 true) ∧ (drainAt 1 0 true).op.isSome = true ∧
        s.lock.state = .free ∧ HeadSettled s) ∧
    (overstaying.arb.state = .tenure (.port .b) ∧ LockHoldsBus overstaying ∧ TenureLegal overstaying) := by
  dsimp only
  and_intros <;> first
    | decide +kernel | (with_reducible refine idleHeld ?_; decide +kernel)

theorem witness_unchanging_outcomes :
    (1 ≤ txnBeats (readAt .noLock) ∧ txnBeats (readAt .noLock) ≤ 16 ∧ ¬InRegion on (readAt .noLock).addr) ∧
    on.gsc.state ≠ .reset ∧ claimingWindow State.reset 0x80000000 = none ∧
    ((inGate faulted on).gsc.state = .faulted ∧ claimingWindow (inGate faulted on) 0x80000000 = some 0) ∧
    Misaligned ⟨3, 0x80000001, .two, .noLock, .read 1⟩ ∧ Misaligned (readAt .closeLock) ∧
    Misaligned (writeAt .openLock [fullBeat 1]) ∧
    (let s := { on with windows := on.windows.set 0 { win with frozen := true } };
      claimingWindow s 0x80000000 = some 0 ∧ ¬CrossesEnd s.windows[0] (readAt .noLock) ∧ s.windows[0].frozen = true) := by
  dsimp only
  and_intros <;> first
    | exact (Laws.misaligned_iff _).1 (by decide +kernel)
    | exact fun h => absurd ((Laws.inRegion_iff _ _).2 h) (by decide +kernel)
    | (with_reducible refine notCrossing ?_; decide +kernel) | decide +kernel

theorem witness_violations :
    (let t : Txn := ⟨3, 0x800FFFFC, .four, .noLock, .read 2⟩;
      ClaimedBy on 0 t ∧ on.gsc.state ≠ .faulted ∧ ¬Misaligned t ∧ CrossesEnd on.windows[0] t) ∧
    (let t : Txn := ⟨3, 0x800FFFFC, .four, .noLock, .read 1⟩;
      let s := { on with masters := on.masters.set 3 { on.masters[3] with admission := .barred } };
      ClaimedBy s 0 t ∧ ¬CrossesEnd s.windows[0] t ∧ s.windows[0].frozen = false ∧
        s.masters[t.master].admission = .barred) ∧
    (let t : Txn := ⟨9, 0x80000000, .four, .noLock, .read 1⟩;
      ClaimedBy on 0 t ∧ on.masters[t.master].admission = .opened ∧ RightsFail on 0 t) := by
  dsimp only
  and_intros <;> first
    | (with_reducible refine claimedBy ?_; decide +kernel) | (with_reducible refine notMisaligned ?_; decide +kernel)
    | (with_reducible refine notCrossing ?_; decide +kernel) | exact (Laws.rightsFail_iff _ _ _).1 (by decide +kernel)
    | exact (Laws.crossesEnd_iff _ _ (by decide +kernel)).1 (by decide +kernel) | decide +kernel

/-- A read of master 0 at the base of window 0, which master 3 has locked. -/
def readOfAnother : Txn := ⟨0, 0x80000000, .four, .noLock, .read 1⟩

theorem notReturning {s : State} {t : Txn} (h : returnsToAnswer s t = false) : ¬ReturnsToAnswer s t :=
  fun hr => Bool.false_ne_true (h.symm.trans ((Laws.returnsToAnswer_iff s t).2 hr))

theorem witness_turned_away_by_state :
    PassesToGate (inGate ⟨.standby, .none, none⟩ on) 0 (readAt .noLock) ∧
    (PassesToGate (inGate quiescing on) 0 (readAt .noLock) ∧ (inGate quiescing on).gsc.state = .quiescing ∧
      ¬ReturnsToAnswer (inGate quiescing on) (readAt .noLock) ∧ ¬OwnsLock (inGate quiescing on) 3 0) ∧
    (PassesToGate owned 0 readOfAnother ∧ GatePasses owned 0 readOfAnother ∧ readOfAnother.lock = .noLock ∧
      owned.lock.state ≠ .free ∧ owned.lock.window = some 0 ∧ owned.lock.owner ≠ some readOfAnother.master) := by
  and_intros <;> first
    | decide +kernel | (with_reducible refine passesToGate ?_; decide +kernel)
    | (with_reducible refine gatePasses ?_; decide +kernel) | (with_reducible refine notOwning ?_; decide +kernel)
    | (with_reducible refine notReturning ?_; decide +kernel)

theorem witness_turned_away_write :
    (let t := writeAt .noLock [fullBeat 1];
      (let s := { on with masters := on.masters.set 3 { on.masters[3] with outWrites := 8 } };
        PassesToGate s 0 t ∧ GatePasses s 0 t ∧ LockStepPasses s 0 t ∧
            s.masters[t.master].creditLimit ≤ s.masters[t.master].outWrites) ∧
      (let s := { on with pwq.entries := List.replicate 30 (.data (entryWith .none [fullBeat 1])) };
        PassesToGate s 0 t ∧ GatePasses s 0 t ∧ LockStepPasses s 0 t ∧ 30 ≤ dataCount s) ∧
      (let s := { on with pwq.entries := List.replicate 32 (.control (record .fence [])) };
        PassesToGate s 0 t ∧ GatePasses s 0 t ∧ LockStepPasses s 0 t ∧ 32 ≤ queueLength s) ∧
      CodeAgrees (fullBeat 1).data (fullBeat 1).code) := by
  dsimp only
  and_intros <;> first
    | decide +kernel | (with_reducible refine passesToGate ?_; decide +kernel)
    | (with_reducible refine gatePasses ?_; decide +kernel)
    | (with_reducible refine lockPasses false ?_; decide +kernel) | (with_reducible refine codes ?_; decide +kernel)

theorem witness_turned_away_read :
    (let t := readAt .noLock;
      (let s := fetching .noLock false 1;
        PassesToGate s 0 t ∧ GatePasses s 0 t ∧ LockStepPasses s 0 t ∧ matchingSlot s t = some 0 ∧
          s.slots[0].state = .fetching) ∧
      (let s := withSlot (slotIn .waiting .noLock none none);
        PassesToGate s 0 t ∧ LockStepPasses s 0 t ∧ matchingSlot s t = some 0 ∧ s.slots[0].state = .waiting) ∧
      (let s := { on with masters := on.masters.set 3 { on.masters[3] with outReads := 2 } };
        PassesToGate s 0 t ∧ LockStepPasses s 0 t ∧ matchingSlot s t = none ∧
          s.masters[t.master].readLimit ≤ s.masters[t.master].outReads) ∧
      (let s := { on with slots := Vector.replicate 8 { slotIn .waiting .noLock none none with key := ⟨5, 0, .one, 1,
          .noLock⟩ } };
        PassesToGate s 0 t ∧ LockStepPasses s 0 t ∧ matchingSlot s t = none ∧
          ∀ i : SlotId, s.slots[i].state ≠ .free)) ∧
    (let t : Txn := ⟨3, 0x80000004, .four, .holdLock, .read 1⟩;
      let s := inGate quiescing owned;
      PassesToGate s 0 t ∧ GatePasses s 0 t ∧ LockStepPasses s 0 t ∧ matchingSlot s t = none ∧
        s.gsc.state = .quiescing) := by
  dsimp only
  and_intros <;> first
    | decide +kernel | (with_reducible refine passesToGate ?_; decide +kernel)
    | (with_reducible refine gatePasses ?_; decide +kernel)
    | (with_reducible refine lockPasses false ?_; decide +kernel)

/-- Slot 0 as an earlier lock left it, in a state, with the lock FREE and master 3's note on window 0. -/
def leftBehind (st : SlotState) (data : Option (List CheckedWord)) (hold : Option Timer) : State :=
  let s := withSlot { slotIn st .openLock data hold with locked := false }
  { s with masters := s.masters.set 3 { s.masters[3] with note := some 0 } }

theorem witness_lock_step_refusals :
    (let s := { lockable with masters := lockable.masters.set 3 { lockable.masters[3] with note := some 0 } };
      PassesToGate s 0 (writeAt .closeLock [fullBeat 1]) ∧ GatePasses s 0 (writeAt .closeLock [fullBeat 1]) ∧
        s.masters[3].note = some 0) ∧
    (PassesToGate lockable 0 (readAt .holdLock) ∧ GatePasses lockable 0 (readAt .holdLock) ∧
      lockable.masters[3].note ≠ some 0 ∧ ¬OwnsLock lockable 3 0) ∧
    (let s := inGate quiescing { owned with lock.closing := true };
      PassesToGate s 0 (writeAt .holdLock [fullBeat 1]) ∧ GatePasses s 0 (writeAt .holdLock [fullBeat 1]) ∧
        s.masters[3].note ≠ some 0 ∧ s.lock.closing = true) ∧
    (let t : Txn := ⟨3, 0x80000004, .four, .openLock, .read 1⟩;
      PassesToGate owned 0 t ∧ GatePasses owned 0 t ∧ owned.lock.state ≠ .free ∧ ¬ReturnsToLocked owned t) ∧
    (let s := leftBehind .waiting none none;
      PassesToGate s 0 (readAt .openLock) ∧ GatePasses s 0 (readAt .openLock) ∧ s.lock.state = .free ∧
        matchingSlot s (readAt .openLock) = some 0 ∧ s.slots[0].state = .waiting) ∧
    (let s := { lockable with masters := lockable.masters.set 3 { lockable.masters[3] with outReads := 2 } };
      PassesToGate s 0 (readAt .openLock) ∧ s.lock.state = .free ∧ matchingSlot s (readAt .openLock) = none ∧
        s.masters[3].readLimit ≤ s.masters[3].outReads) := by
  dsimp only
  and_intros <;> first
    | decide +kernel | (with_reducible refine passesToGate ?_; decide +kernel)
    | (with_reducible refine gatePasses ?_; decide +kernel) | (with_reducible refine notOwning ?_; decide +kernel)
    | exact fun h => absurd ((Laws.returnsToLocked_iff _ _).2 h) (by decide +kernel)

theorem witness_damaged_writes :
    (let t := writeAt .noLock [fullBeat 1, ⟨0, 0, 0⟩];
      PassesToGate on 0 t ∧ GatePasses on 0 t ∧ LockStepPasses on 0 t ∧ ¬CodeAgrees 0 0) ∧
      on.gsc.state ≠ .reset ∧ ¬CodeAgrees 0 0xE ∧
    (∃ c ∈ [withCode 1, ⟨0, 0⟩, withCode 2], ¬CodeAgrees c.word c.code) ∧
    (let t : Txn := ⟨0, 0xFFF00000, .two, .openLock, .write [⟨0, 0, 0⟩]⟩;
      InRegion on t.addr ∧ (∃ b ∈ [(⟨0, 0, 0⟩ : Beat)], ¬CodeAgrees b.data b.code) ∧ ¬ListedShape 0 t) := by
  dsimp only
  and_intros <;> first
    | decide +kernel | (with_reducible refine passesToGate ?_; decide +kernel)
    | (with_reducible refine gatePasses ?_; decide +kernel)
    | (with_reducible refine lockPasses false ?_; decide +kernel) | (with_reducible refine damaged ?_; decide +kernel)
    | exact ⟨⟨0, 0⟩, by decide, damaged (by decide)⟩ | exact ⟨⟨0, 0, 0⟩, by decide, damaged (by decide)⟩
    | exact (Laws.inRegion_iff _ _).1 (by decide +kernel) | exact fun h => absurd h.1 (by decide)

theorem witness_accepted_write :
    (let t := writeAt .noLock [fullBeat 1];
      let s := { on with masters := on.masters.set 3 { on.masters[3] with outWrites := 7 } };
      PassesToGate s 0 t ∧ GatePasses s 0 t ∧ LockStepPasses s 0 t ∧ CodeAgrees (fullBeat 1).data (fullBeat 1).code ∧
        s.masters[3].outWrites < s.masters[3].creditLimit ∧ dataCount s < 30 ∧ queueLength s < 32) ∧
    (let t := writeAt .closeLock [fullBeat 1];
      let s := inGate quiescing owned;
      PassesToGate s 0 t ∧ GatePasses s 0 t ∧ LockStepPasses s 0 t ∧
        s.masters[3].outWrites < s.masters[3].creditLimit ∧ dataCount s < 30 ∧ queueLength s < 32) ∧
    (let t := writeAt .noLock [fullBeat 1];
      let s := { on with
        pwq.entries := List.replicate 29 (.data (entryWith .none [])) ++ List.replicate 2 (.control (record .fence [])) };
      PassesToGate s 0 t ∧ LockStepPasses s 0 t ∧ dataCount s < 30 ∧ queueLength s < 32) := by
  dsimp only
  and_intros <;> first
    | decide +kernel | (with_reducible refine passesToGate ?_; decide +kernel)
    | (with_reducible refine gatePasses ?_; decide +kernel)
    | (with_reducible refine lockPasses false ?_; decide +kernel) | (with_reducible refine codes ?_; decide +kernel)

theorem witness_recorded_read :
    (let t := readAt .noLock;
      PassesToGate on 0 t ∧ on.gsc.state = .enabled ∧ LockStepPasses on 0 t ∧ matchingSlot on t = none ∧
        on.masters[3].outReads < on.masters[3].readLimit ∧ on.slots[0].state = .free) ∧
    (let t := readAt .openLock;
      let s := { withSlot (slotIn .waiting .noLock none none) with lock := Lock.powerOn };
      PassesToGate s 0 t ∧ s.gsc.state = .enabled ∧ LockStepPasses s 0 t ∧ s.lock.state = .free ∧
        matchingSlot s t = none ∧ s.masters[3].outReads < s.masters[3].readLimit ∧ s.slots[1].state = .free ∧
        ∀ j : SlotId, j < 1 → s.slots[j].state ≠ .free) := by
  dsimp only
  and_intros <;> first
    | decide +kernel | (with_reducible refine passesToGate ?_; decide +kernel)
    | (with_reducible refine lockPasses false ?_; decide +kernel)
    | (with_reducible refine lockPasses true ?_; decide +kernel)

theorem witness_returns :
    (let s := inGate quiescing (ready (checkCode 5));
      PassesToGate s 0 (readAt .noLock) ∧ GatePasses s 0 (readAt .noLock) ∧ LockStepPasses s 0 (readAt .noLock) ∧
        matchingSlot s (readAt .noLock) = some 0 ∧ s.slots[0].state = .ready ∧ s.slots[0].data = some [withCode 5] ∧
        CodeAgrees (withCode 5).word (withCode 5).code) ∧
    (PassesToGate owned 0 (readAt .openLock) ∧ GatePasses owned 0 (readAt .openLock) ∧
      LockStepPasses owned 0 (readAt .openLock) ∧ matchingSlot owned (readAt .openLock) = some 0 ∧
      owned.slots[0].state = .ready ∧ owned.slots[0].data = some [withCode 5]) ∧
    (let s := leftBehind .ready (some [withCode 5]) (some ⟨0, 256⟩);
      PassesToGate s 0 (readAt .openLock) ∧ GatePasses s 0 (readAt .openLock) ∧
        LockStepPasses s 0 (readAt .openLock) ∧ s.lock.state = .free ∧ matchingSlot s (readAt .openLock) = some 0 ∧
        s.slots[0].state = .ready ∧ s.slots[0].data = some [withCode 5]) ∧
    (let s := withSlot (slotIn .failed .noLock none (some ⟨0, 256⟩));
      PassesToGate s 0 (readAt .noLock) ∧ GatePasses s 0 (readAt .noLock) ∧ LockStepPasses s 0 (readAt .noLock) ∧
        matchingSlot s (readAt .noLock) = some 0 ∧ s.slots[0].state = .failed) := by
  dsimp only
  and_intros <;> first
    | decide +kernel | (with_reducible refine passesToGate ?_; decide +kernel)
    | (with_reducible refine gatePasses ?_; decide +kernel)
    | (with_reducible refine lockPasses false ?_; decide +kernel)
    | (with_reducible refine lockPasses true ?_; decide +kernel) | (with_reducible refine codes ?_; decide +kernel)

theorem witness_stale_slots :
    (let s := withSlot (slotIn .stale .noLock (some [withCode 5]) (some ⟨0, 256⟩));
      PassesToGate s 0 (readAt .noLock) ∧ LockStepPasses s 0 (readAt .noLock) ∧
        matchingSlot s (readAt .noLock) = some 0 ∧ s.slots[0].state = .stale ∧ s.gsc.state = .enabled) ∧
    (let s := inGate quiescing (withSlot (slotIn .stale .noLock (some [withCode 5]) (some ⟨0, 256⟩)));
      PassesToGate s 0 (readAt .noLock) ∧ LockStepPasses s 0 (readAt .noLock) ∧
        matchingSlot s (readAt .noLock) = some 0 ∧ s.slots[0].state = .stale ∧ s.gsc.state = .quiescing) ∧
    (let s := leftBehind .stale (some [withCode 5]) (some ⟨0, 256⟩);
      PassesToGate s 0 (readAt .openLock) ∧ LockStepPasses s 0 (readAt .openLock) ∧
        matchingSlot s (readAt .openLock) = some 0 ∧ s.slots[0].state = .stale) := by
  dsimp only
  and_intros <;> first
    | decide +kernel | (with_reducible refine passesToGate ?_; decide +kernel)
    | (with_reducible refine lockPasses false ?_; decide +kernel)
    | (with_reducible refine lockPasses true ?_; decide +kernel)

theorem witness_damaged_slot :
    (let s := ready 0;
      PassesToGate s 0 (readAt .noLock) ∧ GatePasses s 0 (readAt .noLock) ∧ LockStepPasses s 0 (readAt .noLock) ∧
        matchingSlot s (readAt .noLock) = some 0 ∧ s.slots[0].state = .ready ∧ s.slots[0].data = some [⟨5, 0⟩] ∧
        ¬CodeAgrees 5 0) ∧
    (let s := { owned with slots := owned.slots.set 0 (slotIn .ready .openLock (some [⟨5, 0⟩]) none) };
      PassesToGate s 0 (readAt .openLock) ∧ GatePasses s 0 (readAt .openLock) ∧
        LockStepPasses s 0 (readAt .openLock) ∧ matchingSlot s (readAt .openLock) = some 0 ∧
        s.slots[0].state = .ready ∧ LockHoldsBus s ∧ TenureLegal s ∧ LockRecordLegal s) := by
  dsimp only
  and_intros <;> first
    | decide +kernel | (with_reducible refine passesToGate ?_; decide +kernel)
    | (with_reducible refine gatePasses ?_; decide +kernel)
    | (with_reducible refine lockPasses false ?_; decide +kernel) | (with_reducible refine damaged ?_; decide +kernel)

/-- The second beat of this entry is damaged. -/
def spoiled (seq : SeqFlag) : DataEntry := entryWith seq [fullBeat 1, ⟨1, 0xF, 0⟩]

/-- A resident in tenure that drops its request, with the gate requesting and a state's queue and slots. -/
def handingOver (s : State) : State := { s with
  cbc := ⟨true, false, none⟩
  lines.request := ⟨false, true, false⟩
  arb := { Arbiter.powerOn with state := .tenure (.port .b), pointer := .port .b } }

theorem gateWins (s : State) :
    Wins { handingOver s with lines.request := setPort (handingOver s).lines.request .b false } .gate := by
  refine ⟨rfl, ?_⟩
  split
  · rfl
  · intro q hq
    rcases q with _ | ⟨_ | _ | _⟩ <;> first | exact Nat.le_refl _ | exact absurd hq.2 Bool.false_ne_true

theorem witness_queue_check :
    (let s := draining (drainAt 2 0 false) [spoiled .inSequence] owned;
      Draining s (drainAt 2 0 false) ⟨⟨0x0100000, .four, true, 0xF, 0⟩, ⟨0, 8⟩⟩ (spoiled .inSequence) [] 0 ∧
        (drainAt 2 0 false).stop = false ∧ TenureLegal s ∧ LockHoldsBus s ∧
        0 < 1 * piecesPerBeat .four .bits32 ∧ (spoiled .inSequence).beats[1]? = some ⟨1, 0xF, 0⟩ ∧ ¬CodeAgrees 1 0) ∧
    (let s := draining (drainAt 2 0 false) [spoiled .close] { owned with lock.hold := none, lock.closing := true };
      Draining s (drainAt 2 0 false) ⟨⟨0x0100000, .four, true, 0xF, 0⟩, ⟨0, 8⟩⟩ (spoiled .close) [] 0 ∧
        TenureLegal s ∧ LockHoldsBus s) ∧
    (let d := entryWith .none [⟨1, 0, 0⟩];
      let s := handingOver { on with pwq.entries := [.data d] };
      s.arb.state = .tenure (.port .b) ∧ portOf s.lines.request .b = true ∧ LockHoldsBus s ∧ TenureLegal s ∧ NoSlot s ∧
        Offers s d ∧ d.beats[0]? = some ⟨1, 0, 0⟩ ∧ ¬CodeAgrees 1 0 ∧
        Wins { s with lines.request := setPort s.lines.request .b false } .gate) := by
  dsimp only
  refine ⟨⟨⟨rfl, rfl, rfl, rfl, rfl, by decide⟩, ?_⟩, ⟨⟨rfl, rfl, rfl, rfl, rfl, by decide⟩, ?_⟩, ?_, ?_, ?_, ?_, ?_,
    ⟨[], rfl, by decide +kernel, rfl, by decide +kernel⟩, ?_, ?_, gateWins _⟩
  all_goals and_intros
  all_goals first
    | (with_reducible refine damaged ?_; decide +kernel)
    | exact fun i hi => absurd hi (by simp [handingOver, on, State.reset]) | decide +kernel

/-! #### The control region -/

theorem witness_identity_and_counts : on.gsc.state ≠ .reset ∧ on.cu.manager = some 0 ∧
    on.cu.manager ≠ some 1 := by decide

/-- A state with sixteen reports, a WAITING request and 255 reports suppressed. -/
def fullReports : State := { on with
  rq := ⟨List.replicate 16 powerNotice, 16, 255, .waiting, 0, 0⟩, pwq.entries := [.control (record .fence [])] }

theorem witness_status :
    fullReports.gsc.state ≠ .reset ∧ QueueFits fullReports ∧ ReportsFit fullReports ∧ WaitingMeansFull fullReports ∧
      IdleWhenClosed fullReports ∧ GateRecordLegal fullReports ∧ fullReports.rq.space = .waiting ∧
      (let s := inGate faulted on;
        QueueFits s ∧ ReportsFit s ∧ WaitingMeansFull s ∧ IdleWhenClosed s ∧ GateRecordLegal s ∧
            s.gsc.state = .faulted) := by
  refine ⟨?_, ⟨?_, ?_⟩, ⟨?_, ?_, ?_⟩, ?_, ?_, ⟨?_, ?_⟩, ?_, ⟨?_, ?_⟩, ⟨?_, ?_, ?_⟩, ?_, ?_, ⟨?_, ?_⟩, ?_⟩ <;>
    first | decide +kernel | (intro h; exact absurd h (by decide +kernel)) | (intro _; decide +kernel)

theorem witness_report_head :
    on.gsc.state ≠ .reset ∧ on.cu.manager = some 0 ∧ ReportsFit on ∧ on.rq.reports = powerNotice :: [] ∧
      ReportsFit fullReports ∧
      (let s := { on with rq.reports := [] };
        ReportsFit s ∧ s.rq.reports = []) := by
  refine ⟨?_, ?_, ⟨?_, ?_, ?_⟩, ?_, ⟨?_, ?_, ?_⟩, ⟨?_, ?_, ?_⟩, ?_⟩ <;> decide +kernel

theorem witness_readbacks :
    let s := ready 0;
    s.gsc.state ≠ .reset ∧ s.cu.manager = some 0 ∧ QueueFits s ∧ WritesAgree s ∧ ReadsAgree s ∧ RefsAgree s ∧
      WindowsLegal s ∧ SettingsLegal s := by
  refine ⟨?_, ?_, ⟨?_, ?_⟩, ?_, ?_, ?_, ?_, ?_⟩ <;>
    first
      | decide +kernel
      | (simp only [WritesAgree]; decide +kernel)
      | (simp only [ReadsAgree]; decide +kernel)
      | (simp only [RefsAgree]; decide +kernel)
      | (simp only [WindowsLegal, WindowLegal, LoadedLegal]; decide +kernel)
      | (simp only [SettingsLegal]; decide +kernel)

theorem witness_claim :
    State.reset.gsc.state ≠ .reset ∧ State.reset.gsc.state ≠ .faulted ∧ wordAgrees (withCode 5) = true ∧
      (withCode 5).word.toNat ≠ (4 : MasterId).val ∧ (withCode 5).word.toNat = (5 : MasterId).val ∧
      State.reset.cu.manager = none ∧ ({ on with cu.manager := some 5 } : State).cu.manager = some 5 ∧
      (0 : MasterId) ≠ 5 ∧ on.cu.manager = some 0 := by
  decide

theorem witness_relinquish_and_release :
    on.gsc.state ≠ .reset ∧ on.gsc.state ≠ .faulted ∧ wordAgrees (withCode 0) = true ∧
        wordAgrees (withCode 0x10000) = true ∧
      on.cu.manager = some 0 ∧ ({ on with rq.reports := [] } : State).rq.reports = [] ∧
      on.rq.reports = powerNotice :: [] ∧ (withCode 0x10000).word ≠ powerNotice.seq.setWidth 32 ∧
      (withCode 0).word = powerNotice.seq.setWidth 32 := by
  decide

theorem witness_attention :
    on.gsc.state ≠ .reset ∧ on.gsc.state ≠ .faulted ∧ on.cu.manager = some 0 ∧ LineFollows on ∧
      wordAgrees (withCode 0) = true ∧ wordAgrees (withCode 1) = true ∧ wordAgrees (withCode 2) = true ∧
      (withCode 0).word = 0 ∧ (withCode 1).word = 1 ∧ (withCode 2).word ≠ 0 ∧ (withCode 2).word ≠ 1 ∧
      (withCode 0).word = (if on.cu.attention then 1 else 0) := by
  simp only [LineFollows]; decide

theorem witness_reset_gate :
    on.gsc.state ≠ .reset ∧ State.reset.cu.manager = none ∧ on.cu.manager = some 0 ∧
      wordAgrees (withCode 0) = true ∧ wordAgrees (withCode 1) = true ∧ wordAgrees (withCode 2) = true ∧
      (withCode 0).word = 0 ∧ (withCode 1).word = 1 ∧ (withCode 2).word ≠ 0 ∧ (withCode 2).word ≠ 1 ∧
      ({ on with rq.reports := List.replicate 14 powerNotice } : State).rq.reports.length + 2 ≤ 16 ∧
    (owned.gsc.state ≠ .reset ∧ owned.cu.manager = some 0 ∧ LockHoldsBus owned ∧ TenureLegal owned) ∧
    (LockHoldsBus overstaying ∧ TenureLegal overstaying ∧ overstaying.arb.state = .tenure (.port .b)) ∧
    (let s := { overstaying with arb.state := .locked (.port .b) false };
      LockHoldsBus s ∧ TenureLegal s ∧ s.arb.state = .locked (.port .b) false) :=
  ⟨by decide, by decide, by decide, by decide, by decide, by decide, by decide, by decide, by decide, by decide, by decide,
    ⟨by decide, by decide, holdsBus (by decide), tenureLegal (by decide)⟩,
    ⟨holdsBus (by decide), tenureLegal (by decide), by decide⟩, holdsBus (by decide), tenureLegal (by decide), by decide⟩

theorem witness_records :
    recordEntry 0 [0x0100FF02, 0x000000FF] = some ⟨.retireWindow, 0x00FF, [0x000000FF], 0⟩ ∧
      recordEntry 0 [0x0100FF02, 0x00000100] = none ∧ recordEntry 0 [0x1100FF02, 0x000000FF] = none := by
  decide

theorem witness_intake :
    on.gsc.state ≠ .reset ∧ on.gsc.state ≠ .faulted ∧ on.cu.manager = some 0 ∧
      (∀ c ∈ [withCode 0x00000320], wordAgrees c = true) ∧ recordEntry 0 [0x00000320] = some ⟨.enable, 3, [], 0⟩ ∧
      recordEntry 0 [0x00000321, 0] = none ∧ (1 ≤ [withCode 0x00000320].length ∧ [withCode 0x00000320].length ≤ 16) ∧
      32 ≤ queueLength { on with pwq.entries := List.replicate 32 (.control (record .fence [])) } ∧
      queueLength { on with pwq.entries := List.replicate 31 (.control (record .fence [])) } < 32 := by
  decide

theorem witness_control_region_refusals :
    (let t : Txn := ⟨0, 0xFFF00004, .four, .noLock, .read 2⟩;
      (1 ≤ txnBeats t ∧ txnBeats t ≤ 16) ∧ on.gsc.state ≠ .reset ∧ InRegion on t.addr ∧
        (∀ beats, t.payload = .write beats → ∀ b ∈ beats, CodeAgrees b.data b.code) ∧ ¬ListedShape 4 t) ∧
    (wordAgrees (withCode 0) = true ∧ (inGate faulted on).gsc.state = .faulted ∧ on.cu.manager ≠ some 1 ∧
      on.cu.manager.isSome = true) := by
  refine ⟨⟨?_, ?_, ?_, ?_, ?_⟩, ?_⟩
  · decide
  · decide
  · exact (Laws.inRegion_iff _ _).1 (by decide)
  · intro beats h; cases h
  · rintro ⟨-, -, h | ⟨w, h, -⟩ | ⟨m, h, -⟩⟩
    · revert h; decide
    · omega
    · omega
  · decide

/-! #### Ordered commands -/

theorem witness_row_without_its_record (cmd : Command) : ∀ c rest, ¬AtHead cmd c rest on := by
  intro c rest h; exact absurd h.entries (by simp [on, State.reset, WriteQueue.powerOn])

theorem witness_bad_operands :
    (∀ c : ControlEntry, AtHead c.command c [] (headIs c on)) ∧
    32 ≤ ((0x000A1420 : Word).extractLsb' 0 8).toNat ∧ ((0x000A0B00 : Word).extractLsb' 8 5).toNat < 12 ∧
    26 < ((0x000A1B00 : Word).extractLsb' 8 5).toNat ∧
    (0x80000800 : Word).toNat % 2 ^ ((0x000A0C00 : Word).extractLsb' 8 5).toNat ≠ 0 ∧
    ((0x00000800 : Word).extractLsb' 0 28).toNat % 2 ^ 12 ≠ 0 ∧
    2 ^ 28 < ((0x0FFFF000 : Word).extractLsb' 0 28).toNat + 2 ^ 13 ∧
    ((0x00030C00 : Word).extractLsb' 16 2).toNat = 3 ∧ 2 ≤ ((0x00100C00 : Word).extractLsb' 19 2).toNat ∧
    16 ≤ ((0x00000010 : Word).extractLsb' 0 8).toNat ∧ 2 ≤ ((0x00000200 : Word).extractLsb' 8 2).toNat ∧
    30 < ((0x0000001F : Word).extractLsb' 0 8).toNat ∧ 8 < ((0x00000900 : Word).extractLsb' 8 8).toNat ∧
    ((0x00040007 : Word).extractLsb' 0 16).toNat < 8 ∧ 4096 < ((0x00041001 : Word).extractLsb' 0 16).toNat ∧
    ((0x00030008 : Word).extractLsb' 16 16).toNat < 4 ∧ 1024 < ((0x04010008 : Word).extractLsb' 16 16).toNat ∧
    ((0x00000000 : Word).extractLsb' 0 16).toNat < 1 ∧ 255 < ((0x00000100 : Word).extractLsb' 0 16).toNat ∧
    1023 < ((0x04000001 : Word).extractLsb' 16 16).toNat ∧
    4 < ((0x00000805 : Word).extractLsb' 0 3).toNat ∧ ((0x00000700 : Word).extractLsb' 8 8).toNat < 8 ∧
    30 < ((0x00001F00 : Word).extractLsb' 8 8).toNat :=
  ⟨fun c => atHead c on (by decide), by decide⟩

theorem witness_load_window :
    (let c := record .loadWindow [0x000E0C1F, 0xFFFFF000, 0x0FFFF000, 0x00080029];
      AtHead .loadWindow c [] (headIs c on) ∧ c.operands = [0x000E0C1F, 0xFFFFF000, 0x0FFFF000, 0x00080029]) ∧
    ((0x000E0C1F : Word).extractLsb' 0 8).toNat = (31 : WindowId).val ∧
    ((0x000E0C1F : Word).extractLsb' 8 5).toNat = 12 ∧ (0xFFFFF000 : Word).toNat % 2 ^ 12 = 0 ∧
    ((0x0FFFF000 : Word).extractLsb' 0 28).toNat % 2 ^ 12 = 0 ∧
    ((0x0FFFF000 : Word).extractLsb' 0 28).toNat + 2 ^ 12 ≤ 2 ^ 28 ∧
    (((0x000E0C1F : Word).extractLsb' 16 2).toNat, PortWidth.bits32) ∈ [(0, PortWidth.bits8), (1, .bits16), (2,
        .bits32)] ∧
    (((0x000E0C1F : Word).extractLsb' 19 2).toNat, ErrorPolicy.freezes) ∈
      [(0, ErrorPolicy.continues), (1, .freezes)] ∧
    on.windows[31].state = .free ∧ on.windows[0].state ≠ .free :=
  ⟨⟨⟨rfl, rfl, rfl, by decide⟩, rfl⟩, by decide⟩

theorem witness_retire_window :
    (let c := record .retireWindow [0];
      AtHead .retireWindow c [] (headIs c owned) ∧ (headIs c owned).windows[0].state = .live ∧
        LockNamesSlot (headIs c owned) ∧ LockHoldsBus (headIs c owned) ∧ TenureLegal (headIs c owned) ∧
        IdleTenureHeld (headIs c owned) ∧ lockedWindow (headIs c owned) 0 = true) ∧
    (let c := record .retireWindow [31];
      AtHead .retireWindow c [] (headIs c on) ∧ ((31 : Word).extractLsb' 0 8).toNat = (31 : WindowId).val ∧
        (headIs c on).windows[31].state ≠ .live) := by
  refine ⟨⟨⟨rfl, rfl, rfl, ?_⟩, ?_⟩, ⟨rfl, rfl, rfl, ?_⟩, ?_⟩
  all_goals and_intros
  all_goals first
    | (with_reducible refine idleHeld ?_; decide +kernel) | decide +kernel
    | (simp only [LockNamesSlot]; decide +kernel)

theorem witness_modify_and_thaw :
    (let c := record .modifyWindow [0x000C0000, 0xFFFF0001];
      AtHead .modifyWindow c [] (headIs c on) ∧ (((0x000C0000 : Word).extractLsb' 19 2).toNat, ErrorPolicy.freezes) ∈
        [(0, ErrorPolicy.continues), (1, .freezes)] ∧ (headIs c on).windows[0].state = .live) ∧
    (let c := record .modifyWindow [0x0000001F, 0];
      AtHead .modifyWindow c [] (headIs c on) ∧ (headIs c on).windows[31].state ≠ .live) ∧
    (let c := record .thawWindow [0];
      let s := headIs c { on with windows := on.windows.set 0 { win with frozen := true, discards := 65535 } };
      AtHead .thawWindow c [] s ∧ s.windows[0].state ≠ .free ∧ s.windows[0].frozen = true ∧
        (headIs c on).windows[0].frozen = false ∧ (headIs c on).windows[31].state = .free) :=
  ⟨⟨⟨rfl, rfl, rfl, by decide⟩, by decide⟩, ⟨⟨rfl, rfl, rfl, by decide⟩, by decide⟩, ⟨rfl, rfl, rfl, by decide⟩,
      by decide⟩

theorem witness_set_master :
    (let c := record .setMaster [0x0000040F, 0xFF00081E];
      AtHead .setMaster c [] (headIs c on) ∧ ((0x0000040F : Word).extractLsb' 0 8).toNat = (15 : MasterId).val ∧
        ((0xFF00081E : Word).extractLsb' 0 8).toNat ≤ 30 ∧ ((0xFF00081E : Word).extractLsb' 8 8).toNat ≤ 8 ∧
        ((0x0000040F : Word).extractLsb' 8 2).toNat = 0) ∧
    (let c := record .setMaster [0x00000103, 0];
      AtHead .setMaster c [] (headIs c owned) ∧ ((0x00000103 : Word).extractLsb' 8 2).toNat = 1 ∧
        LockNamesSlot (headIs c owned) ∧ LockHoldsBus (headIs c owned) ∧ TenureLegal (headIs c owned) ∧
        IdleTenureHeld (headIs c owned) ∧ (headIs c owned).lock.owner = some 3) := by
  refine ⟨⟨⟨rfl, rfl, rfl, ?_⟩, ?_⟩, ⟨rfl, rfl, rfl, ?_⟩, ?_⟩
  all_goals and_intros
  all_goals first
    | (with_reducible refine idleHeld ?_; decide +kernel) | decide +kernel
    | (simp only [LockNamesSlot]; decide +kernel)

theorem witness_set_timers :
    (let c := record .setTimers [0x04001000, 0x03FF00FF];
      AtHead .setTimers c [] (headIs c on) ∧ ((0x04001000 : Word).extractLsb' 0 16).toNat = 4096 ∧
        ((0x04001000 : Word).extractLsb' 16 16).toNat = 1024 ∧ ((0x03FF00FF : Word).extractLsb' 0 16).toNat = 255 ∧
        ((0x03FF00FF : Word).extractLsb' 16 16).toNat = 1023) ∧
    ((0x00040008 : Word).extractLsb' 0 16).toNat = 8 ∧ ((0x00040008 : Word).extractLsb' 16 16).toNat = 4 ∧
    ((0x00000001 : Word).extractLsb' 0 16).toNat = 1 :=
  ⟨⟨⟨rfl, rfl, rfl, by decide⟩, by decide⟩, by decide⟩

theorem witness_set_arbitration :
    (let c := record .setArbitration [0x00071E04];
      AtHead .setArbitration c [] (headIs c on) ∧ (((0x00071E04 : Word).extractLsb' 0 3).toNat, ParkPolicy.portC) ∈
          [(0, ParkPolicy.last), (1, .gate), (2, .portA), (3, .portB), (4, .portC)] ∧
        ((0x00071E04 : Word).extractLsb' 8 8).toNat = 30 ∧ ((0x00010800 : Word).extractLsb' 8 8).toNat = 8 ∧
        (headIs c on).arb.state = .parked (.port .a) ∧ (headIs c on).cbc.request = false ∧
        (∀ p, portOf ⟨true, true, true⟩ p = true → portOf (headIs c on).lines.request p = false) ∧
        (headIs c owned).arb.state = .locked .gate true ∧ (headIs c (rotation 1)).arb.state = .tenure (.port .b) ∧
        (portOf ⟨true, true, true⟩ .b = true → portOf (headIs c (rotation 1)).arb.enabled .b = true)) ∧
    portOf ⟨true, false, true⟩ .b = false :=
  ⟨⟨⟨rfl, rfl, rfl, by decide⟩, by decide, by decide, by decide, by decide, by decide, by intro p _; cases p <;> rfl,
    by decide, by decide, by decide⟩, by decide⟩

/-- A state in which one enabled port alone requests. -/
def soleRequest (p : Port) (enabled : PortSet) (s : State) : State := { s with
  arb.enabled := enabled
  cbc.request := false
  lines.request := setPort ⟨false, false, false⟩ p true }

theorem soleWins (p : Port) (enabled : PortSet) (s : State) (h : portOf enabled p = true) :
    Wins (soleRequest p enabled s) (.port p) := by
  refine ⟨⟨h, by cases p <;> rfl⟩, ?_⟩
  rw [if_neg fun hu => Bool.false_ne_true hu.1]
  rintro (_ | q) hq
  · exact absurd hq Bool.false_ne_true
  · have : q = p := by
      have h2 := hq.2
      cases p <;> cases q <;> first | rfl | exact absurd h2 Bool.false_ne_true
    rw [this]

theorem noRequest (s : State) (hg : s.cbc.request = false) (hl : s.lines.request = ⟨false, false, false⟩) :
    ∀ r, ¬Requests s r := by
  rintro (_ | p) h
  · exact Bool.false_ne_true (hg.symm.trans h)
  · have h2 := h.2
    rw [hl] at h2
    cases p <;> exact Bool.false_ne_true h2

/-- The cases of section 7.6 (R132): a port newly enabled with its line raised in PARKED, an owner disabled between
tenures, and an owner newly enabled in its tenure with its hold line raised or dropped. -/
theorem witness_set_arbitration_acts :
    (let c := record .setArbitration [0x00071E04];
      let s := headIs c (soleRequest .b ⟨true, false, true⟩ on);
      AtHead .setArbitration c [] s ∧ s.arb.state = .parked (.port .a) ∧ portOf s.arb.enabled .b = false ∧
        portOf s.lines.request .b = true ∧
        Wins { s with arb.policy := .portC, arb.highWater := 30, arb.enabled := ⟨true, true, true⟩ } (.port .b)) ∧
    (let c := record .setArbitration [0x00071E04];
      ∀ r, ¬Requests { headIs c on with arb.policy := .portC, arb.highWater := 30, arb.enabled := ⟨true, true, true⟩ } r) ∧
    (let c := record .setArbitration [0x00051E04];
      let held : State := { on with arb.state := .locked (.port .b) false };
      let s := headIs c (soleRequest .a ⟨true, true, true⟩ held);
      AtHead .setArbitration c [] s ∧ s.arb.state = .locked (.port .b) false ∧
        portOf ⟨(0x00051E04 : Word).getLsbD 16, (0x00051E04 : Word).getLsbD 17, (0x00051E04 : Word).getLsbD 18⟩ .b = false ∧
        Wins { s with arb.policy := .portC, arb.highWater := 30, arb.enabled := ⟨true, false, true⟩ } (.port .a) ∧
        ∀ r, ¬Requests { headIs c held with arb.policy := .portC, arb.highWater := 30, arb.enabled := ⟨true, false, true⟩ } r) ∧
    (let c := record .setArbitration [0x00071E04];
      let s := headIs c { on with arb.state := .tenure (.port .b), arb.enabled := ⟨true, false, true⟩ };
      AtHead .setArbitration c [] s ∧ s.arb.state = .tenure (.port .b) ∧ portOf s.arb.enabled .b = false ∧
        portOf s.lines.hold .b = false ∧ portOf ({ s with lines.hold := ⟨false, true, false⟩ } : State).lines.hold .b = true) := by
  exact ⟨⟨⟨rfl, rfl, rfl, by decide⟩, by decide, by decide, by decide, soleWins .b ⟨true, true, true⟩ _ rfl⟩,
    noRequest _ rfl rfl,
    ⟨⟨rfl, rfl, rfl, by decide⟩, by decide, by decide, soleWins .a ⟨true, false, true⟩ _ rfl, noRequest _ rfl rfl⟩,
    ⟨⟨rfl, rfl, rfl, by decide⟩, by decide, by decide, by decide, by decide⟩⟩

theorem witness_enable_and_quiesce :
    (let c := record .enable [];
      AtHead .enable c [] (headIs c State.reset) ∧ (headIs c State.reset).gsc.state = .standby ∧
        AtHead .enable c [] (headIs c on) ∧ (headIs c on).gsc.state = .enabled ∧
        AtHead .enable c [] (headIs c (inGate quiescing owned)) ∧
            (headIs c (inGate quiescing owned)).gsc.state = .quiescing) ∧
    (let c := record .quiesce [];
      AtHead .quiesce c [] (headIs c on) ∧
          ((List.finRange 8).countP fun i => (headIs c on).slots[i].state ≠ .free) = 0 ∧
        (headIs c on).lock.state = .free ∧ AtHead .quiesce c [] (headIs c owned) ∧ (headIs c owned).lock.state ≠ .free ∧
        AtHead .quiesce c [] (headIs c State.reset) ∧ (headIs c State.reset).gsc.state ≠ .enabled) :=
  ⟨⟨⟨rfl, rfl, rfl, by decide⟩, by decide, ⟨rfl, rfl, rfl, by decide⟩, by decide, ⟨rfl, rfl, rfl, by decide⟩,
      by decide⟩,
    ⟨rfl, rfl, rfl, by decide⟩, by decide, by decide, ⟨rfl, rfl, rfl, by decide⟩, by decide, ⟨rfl, rfl, rfl,
        by decide⟩, by decide⟩

theorem witness_fence :
    AtHead .fence (record .fence []) [] (headIs (record .fence []) on) ∧
    (let s := headIs (record .fence []) (fetching .noLock false 1);
      AtHead .fence (record .fence []) [] s ∧ s.cbc.access.isSome = true) :=
  ⟨⟨rfl, rfl, rfl, by decide⟩, ⟨rfl, rfl, rfl, by decide⟩, by decide⟩

/-! #### Accesses -/

theorem witness_access_goes_on :
    (let a : Access := { drainAt 2 0 false with cardAddr := 0x0100100, portWidth := .bits16, piece := 1 };
      Draining (draining a [cutEntry] on) a ⟨⟨0x0100000, .four, true, 0xF, 0⟩, ⟨0, 8⟩⟩ cutEntry [] 1 ∧ a.stop = false ∧
        3 < cutEntry.beats.length * piecesPerBeat a.unit a.portWidth ∧
        (∀ j, 1 < j → j < 3 → drainLanes a cutEntry j = 0) ∧ drainLanes a cutEntry 3 ≠ 0 ∧
        cutEntry.beats[3 / piecesPerBeat a.unit a.portWidth]? = some ⟨1, 0b1100, checkCode 1⟩ ∧
        beatAgrees ⟨1, 0b1100, checkCode 1⟩ = true) ∧
    (let a := fetchOf (some 0) 2;
      Fetching (fetching .noLock false 2) a ⟨⟨0x0100000, .four, false, 0xF, 0⟩, ⟨0, 8⟩⟩ ∧ a.slot = some 0 ∧
          ¬LastPiece a) := by
  refine ⟨⟨⟨rfl, rfl, rfl, rfl, rfl, by decide⟩, by decide, by decide, ?_, by decide, by decide, by decide⟩, ⟨rfl,
      rfl, rfl⟩, rfl, ?_⟩
  · intro j h1 h3
    have : j = 2 := by omega
    subst this; decide
  · simp only [LastPiece]; decide

theorem witness_performed_drain :
    (let a := drainAt 1 0 false;
      let d := entryWith .none [fullBeat 1];
      let s := draining a [d] on;
      Draining s a ⟨⟨0x0100000, .four, true, 0xF, 0⟩, ⟨0, 8⟩⟩ d [] 0 ∧ a.stop = false ∧ TenureLegal s ∧ LockHoldsBus s ∧
        d.beats.length * piecesPerBeat a.unit a.portWidth = 1) ∧
    LastPiece (drainAt 1 0 true) ∧
    (let a := drainAt 1 0 false;
      let d := entryWith .close [fullBeat 1];
      let s := draining a [d] { owned with lock.hold := none, lock.closing := true };
      Draining s a ⟨⟨0x0100000, .four, true, 0xF, 0⟩, ⟨0, 8⟩⟩ d [] 0 ∧ TenureLegal s ∧ LockHoldsBus s ∧
        d.seq = .close ∧ s.lock.state = .owned ∧ s.lock.hold = none) := by
  dsimp only
  refine ⟨⟨⟨rfl, rfl, rfl, rfl, rfl, by decide⟩, ?_⟩, ?_, ⟨rfl, rfl, rfl, rfl, rfl, by decide⟩, ?_⟩
  all_goals and_intros
  all_goals first
    | decide +kernel | (simp only [LastPiece]; decide)

/-- The gate with master 3's lock OWNED and an entry of master 3 in drain through its window. -/
def cutOff : State := { draining (drainAt 1 0 false) [entryWith .inSequence [fullBeat 1],
    entryWith .close [fullBeat 2]] owned with
  timebase := 8 }

theorem witness_cut_off_drain :
    (let d := entryWith .none [fullBeat 1];
      Draining unanswered (drainAt 1 0 false) ⟨⟨0x0100000, .four, true, 0xF, 0⟩, ⟨0, 8⟩⟩ d [] 0 ∧
        TenureLegal unanswered ∧ LockHoldsBus unanswered ∧ (8 : Nat) ≤ (unanswered.timebase - (0 : Time)).toNat ∧
        unanswered.windows[d.window].policy = .freezes ∧ unanswered.windows[d.window].frozen = false) ∧
    (let d := entryWith .inSequence [fullBeat 1];
      Draining cutOff (drainAt 1 0 false) ⟨⟨0x0100000, .four, true, 0xF, 0⟩, ⟨0, 8⟩⟩ d
          [.data (entryWith .close [fullBeat 2])] 0 ∧
        TenureLegal cutOff ∧ LockHoldsBus cutOff ∧ d.names = true ∧ cutOff.windows[d.window].policy = .freezes ∧
        cutOff.windows[d.window].frozen = false ∧ cutOff.lock.window = some d.window) ∧
    (let d := entryWith .close [fullBeat 1];
      let s := draining (drainAt 1 0 false) [d] { owned with lock.hold := none, lock.closing := true };
      Draining s (drainAt 1 0 false) ⟨⟨0x0100000, .four, true, 0xF, 0⟩, ⟨0, 8⟩⟩ d [] 0 ∧ TenureLegal s ∧
        LockHoldsBus s ∧ d.seq = .close) := by
  dsimp only
  refine ⟨⟨⟨rfl, rfl, rfl, rfl, rfl, by decide⟩, ?_⟩, ⟨⟨rfl, rfl, rfl, rfl, rfl, by decide⟩, ?_⟩,
    ⟨rfl, rfl, rfl, rfl, rfl, by decide⟩, ?_⟩
  all_goals and_intros
  all_goals first
    | decide +kernel

/-- A detached fetch in flight. -/
def detached : State := { on with
  cbc := ⟨false, true, some { fetchOf none 1 with stop := true }⟩
  arb := { Arbiter.powerOn with state := .tenure .gate, pointer := .gate } }

theorem witness_stopped_access :
    (let a := drainAt 2 0 true;
      let d := entryWith .close [fullBeat 1, fullBeat 2];
      let s := draining a [d] on;
      Draining s a ⟨⟨0x0100000, .four, true, 0xF, 0⟩, ⟨0, 8⟩⟩ d [] 0 ∧ TenureLegal s ∧ LockHoldsBus s ∧
        a.stop = true ∧ ¬LastPiece a) ∧
    (Fetching detached { fetchOf none 1 with stop := true } ⟨⟨0x0100000, .four, false, 0xF, 0⟩, ⟨0, 8⟩⟩ ∧
      TenureLegal detached ∧ ({ fetchOf none 1 with stop := true } : Access).slot = none ∧
      Due 8 (⟨0, 8⟩ : Timer)) := by
  dsimp only
  refine ⟨⟨⟨rfl, rfl, rfl, rfl, rfl, by decide⟩, ?_⟩, ⟨rfl, rfl, rfl⟩, ?_⟩
  all_goals and_intros
  all_goals first
    | decide +kernel | (simp only [LastPiece]; decide) | (simp only [Due]; decide)

theorem witness_fetch_in_tenure : TenureLegal (fetching .noLock false 1) ∧ TenureLegal (fetching .noLock true 1) ∧
    TenureLegal (fetching .openLock false 1) :=
  ⟨tenureLegal (by decide +kernel), tenureLegal (by decide +kernel), tenureLegal (by decide +kernel)⟩

theorem witness_fetch :
    (∀ k mark, Fetching (fetching k mark 1) (fetchOf (some 0) 1) ⟨⟨0x0100000, .four, false, 0xF, 0⟩, ⟨0, 8⟩⟩) ∧
    (fetchOf (some 0) 1).slot = some 0 ∧ LastPiece (fetchOf (some 0) 1) ∧
    (fetching .noLock true 1).slots[0].state = .fetching ∧ (fetching .noLock true 1).slots[0].releaseMark = true ∧
    (fetching .noLock false 1).slots[0].releaseMark = false ∧ (fetching .noLock false 1).slots[0].locked = false ∧
    ¬((fetching .noLock false 1).lock.state = .pending ∧ (fetching .noLock false 1).lock.slot = some 0) ∧
    (fetching .openLock false 1).slots[0].locked = true ∧ (fetching .openLock false 1).lock.state = .pending ∧
    (fetching .openLock false 1).lock.slot = some 0 ∧ (8 : Nat) ≤ ((8 : Time) - (0 : Time)).toNat := by
  refine ⟨fun k mark => ⟨rfl, rfl, rfl⟩, rfl, ?_, ?_⟩
  · simp only [LastPiece]; decide
  · decide

/-! #### Timers, residents, laws -/

/-- A resident that hands the bus over with slot 0 waiting and nothing ahead of it. -/
def nextIsFetch : State := handingOver (withSlot (slotIn .waiting .noLock none none))

/-- A beat that enables no byte. -/
def blankBeat : Beat := ⟨1, 0, checkCode 1⟩

/-- A resident that hands the bus over with an entry at the head, unless another is named one whose first beat enables no
byte. -/
def nextIsDrain (d : DataEntry := entryWith .none [blankBeat, fullBeat 1]) : State := handingOver { on with
  pwq := ⟨[.data d], 1, 0, 0⟩
  masters := on.masters.set 3 { on.masters[3] with outWrites := 1 }
  windows := on.windows.set 0 { win with refCount := 1 } }

/-- The lock OWNED with its timer due at 64, a FENCE at the head and an entry behind it, the CLOSE entry unless another
is named. -/
def closing (now : Time) (d : DataEntry := entryWith .close [fullBeat 1]) : State := { owned with
  timebase := now
  pwq := ⟨[.control (record .fence []), .data d], 1, 0, 0⟩
  rq.space := .held }

theorem settledHead {s : State} (h : HeadSettled s) (hw : ∀ w : WindowId, s.windows[w].state = .draining →
    s.windows[w].refCount ≠ 0) (hq : s.gsc.state ≠ .quiescing) : Settled s := ⟨h, hw, fun hc => hq hc.1⟩

theorem witness_next_access :
    (nextIsFetch.arb.state = .tenure (.port .b) ∧ portOf nextIsFetch.lines.request .b = true ∧ Settled nextIsFetch ∧
      LockHoldsBus nextIsFetch ∧ TenureLegal nextIsFetch ∧
      Wins { nextIsFetch with lines.request := setPort nextIsFetch.lines.request .b false } .gate ∧
      NextSlot nextIsFetch 0) ∧
    (let d := entryWith .none [blankBeat, fullBeat 1];
      nextIsDrain.arb.state = .tenure (.port .b) ∧ portOf nextIsDrain.lines.request .b = true ∧ Settled nextIsDrain ∧
        LockHoldsBus nextIsDrain ∧ TenureLegal nextIsDrain ∧
        Wins { nextIsDrain with lines.request := setPort nextIsDrain.lines.request .b false } .gate ∧
        NoSlot nextIsDrain ∧ Offers nextIsDrain d ∧ DrainStarts d 1 (fullBeat 1)) := by
  dsimp only
  refine ⟨⟨rfl, rfl, settledHead rfl (by decide +kernel) (by decide), ?_, ?_, gateWins _,
      ⟨rfl, rfl⟩, [], [], rfl, fun j hj => absurd hj (by simp)⟩,
    rfl, rfl, settledHead ⟨Or.inr (by decide +kernel), rfl⟩ (by decide +kernel) (by decide), ?_, ?_,
    gateWins _, fun i hi => absurd hi (by simp [nextIsDrain, handingOver, on, State.reset]),
    ⟨[], rfl, by decide +kernel, rfl, by decide +kernel⟩, by decide, ?_, by decide, rfl, ?_⟩
  case refine_5 => intro j hj; have : j = 0 := by omega
                   subst this; decide
  case refine_6 =>
    intro i x _ hx
    rcases i with _ | _ | i
    · cases hx; decide
    · cases hx; decide
    · cases hx
  all_goals first
    | (with_reducible refine holdsBus ?_; decide +kernel) | (with_reducible refine tenureLegal ?_; decide +kernel)

theorem witness_close_starts (now : Time) :
    let d := entryWith .close [fullBeat 1];
    AtHead .fence (record .fence []) [.data d] (closing now) ∧ LockHoldsBus (closing now) ∧ TenureLegal (closing now) ∧
      (closing now).cbc.access = none ∧ (closing now).lock.state = .owned ∧ d.seq = .close ∧ d.void = false ∧
      ¬(d.names = true ∧ (closing now).windows[d.window].frozen = true) ∧ DrainStarts d 0 (fullBeat 1) ∧
      NoSlot (afterResult (record .fence []) [.data d] .ok 1 (closing now)) := by
  refine ⟨⟨rfl, rfl, rfl, Or.inr (Or.inl rfl)⟩, holdsBus ?_, tenureLegal ?_, rfl, rfl, rfl, rfl, ?_, ⟨?_, ?_, ?_, rfl, ?_⟩,
    ?_⟩
  · exact ⟨⟨fun _ => rfl, fun _ => rfl⟩, ⟨fun _ => rfl, fun _ => rfl⟩, by show ArbState.locked .gate true ≠ _; decide⟩
  · exact ⟨⟨fun _ => Or.inr rfl, fun _ => rfl⟩, fun _ => rfl, rfl⟩
  · intro h; exact absurd h.2 (by show ¬(win.frozen = true); decide)
  · decide
  · intro j hj; omega
  · decide
  · intro i x hi hx
    have : i = 0 := Nat.le_zero.1 (Nat.mul_one i ▸ hi)
    subst this; cases hx; decide
  · intro i hi
    have : i = 0 := by simpa [afterResult, closing, owned, withSlot] using hi
    subst this
    exact fun h => absurd h.1 (by show SlotState.ready ≠ .waiting; decide)

theorem witness_closes_late :
    ¬ClosesLate (entryWith .close [fullBeat 1]) (closing 63) ∧ ClosesLate (entryWith .close [fullBeat 1]) (closing 64) := by
  refine ⟨?_, rfl, rfl, _, rfl, ?_⟩
  · rintro ⟨-, -, timer, ht, hd⟩
    cases ht
    revert hd
    simp only [Due]; decide
  · simp only [Due]; decide

/-- Entries with no enabled byte (section 6.2, R111): at the head when a resident hands the bus over, and behind a FENCE in
a tenure held idle, the CLOSE entry and one of another kind. -/
theorem witness_drain_skips (now : Time) :
    (let d := entryWith .none [blankBeat, blankBeat];
      (nextIsDrain d).arb.state = .tenure (.port .b) ∧ portOf (nextIsDrain d).lines.request .b = true ∧
        Settled (nextIsDrain d) ∧ LockHoldsBus (nextIsDrain d) ∧ TenureLegal (nextIsDrain d) ∧
        Wins { nextIsDrain d with lines.request := setPort (nextIsDrain d).lines.request .b false } .gate ∧
        NoSlot (nextIsDrain d) ∧ Offers (nextIsDrain d) d ∧ DrainSkips d) ∧
    (∀ seq, let d := entryWith seq [blankBeat];
      AtHead .fence (record .fence []) [.data d] (closing now d) ∧ LockHoldsBus (closing now d) ∧
        TenureLegal (closing now d) ∧ (closing now d).cbc.access = none ∧ (closing now d).lock.state = .owned ∧
        d.void = false ∧ ¬(d.names = true ∧ (closing now d).windows[d.window].frozen = true) ∧ DrainSkips d ∧
        NoSlot (afterResult (record .fence []) [.data d] .ok 1 (closing now d))) := by
  refine ⟨⟨rfl, rfl, settledHead ⟨Or.inr (by decide +kernel), rfl⟩ (by decide +kernel) (by decide), holdsBus ?_,
      tenureLegal ?_, gateWins _, fun i hi => absurd hi (by simp [nextIsDrain, handingOver, on, State.reset]),
      ⟨[], rfl, by decide +kernel, rfl, by decide +kernel⟩, ⟨by decide, by decide⟩⟩,
    fun seq => ⟨⟨rfl, rfl, rfl, Or.inr (Or.inl rfl)⟩, holdsBus ?_, tenureLegal ?_, rfl, rfl, rfl, ?_,
      ⟨by cases seq <;> decide, by cases seq <;> decide⟩, ?_⟩⟩
  · decide +kernel
  · decide +kernel
  · exact ⟨⟨fun _ => rfl, fun _ => rfl⟩, ⟨fun _ => rfl, fun _ => rfl⟩, by show ArbState.locked .gate true ≠ _; decide⟩
  · exact ⟨⟨fun _ => Or.inr rfl, fun _ => rfl⟩, fun _ => rfl, rfl⟩
  · intro h; exact absurd h.2 (by show ¬(win.frozen = true); decide)
  · intro i hi
    have : i = 0 := by simpa [afterResult, closing, owned, withSlot] using hi
    subst this
    exact fun h => absurd h.1 (by show SlotState.ready ≠ .waiting; decide)

theorem witness_skips_late :
    ¬ClosesLate (entryWith .close [blankBeat]) (closing 63 (entryWith .close [blankBeat])) ∧
      ClosesLate (entryWith .close [blankBeat]) (closing 64 (entryWith .close [blankBeat])) := by
  refine ⟨?_, rfl, rfl, _, rfl, ?_⟩
  · rintro ⟨-, -, timer, ht, hd⟩
    cases ht
    revert hd
    simp only [Due]; decide
  · simp only [Due]; decide

theorem witness_nothing_due :
    (∀ timer, on.slots[0].hold = some timer → ¬timer.limit ≤ (on.timebase - timer.start).toNat) ∧
    ¬(64 : Nat) ≤ ((63 : Time) - (0 : Time)).toNat ∧ on.lock.hold = none ∧ on.arb.overstay = none ∧
        on.cbc.access = none :=
  ⟨fun timer h => (by cases h), by decide, rfl, rfl, rfl⟩

/-- A READY slot whose timer is due, with a drain in flight. -/
def dueInDrain : State :=
  { draining (drainAt 1 0 false) [entryWith .none [fullBeat 1]] (ready 0) with timebase := 256 }

theorem witness_timers_due :
    (let s := { ready 0 with timebase := 256 };
      s.slots[0].hold = some ⟨0, 256⟩ ∧ 256 ≤ (s.timebase - 0).toNat ∧ s.slots[0].state = .ready) ∧
    (dueInDrain.slots[0].hold = some ⟨0, 256⟩ ∧ dueInDrain.slots[0].state = .ready ∧
      dueInDrain.cbc.access.isSome = true ∧ HeadSettled dueInDrain) ∧
    (withSlot (slotIn .stale .noLock (some [withCode 5]) (some ⟨0, 256⟩))).slots[0].state = .stale ∧
    (withSlot (slotIn .failed .noLock none (some ⟨0, 256⟩))).slots[0].state = .failed ∧
    (overstaying.arb.overstay = some ⟨0xFFFFFFFB, 8⟩ ∧ 8 ≤ (overstaying.timebase - 0xFFFFFFFB).toNat ∧
      overstaying.arb.state = .tenure (.port .b)) := by
  dsimp only
  and_intros <;> first
    | decide +kernel

theorem witness_lock_timeout :
    let s := { owned with timebase := 64 };
    let inFlight := { draining (drainAt 1 0 false) [entryWith .inSequence [fullBeat 1]] owned with timebase := 64 };
    (s.lock.hold = some ⟨0, 64⟩ ∧ Due s.timebase ⟨0, 64⟩ ∧ s.lock.state = .owned ∧ LockHoldsBus s ∧ TenureLegal s ∧
      s.cbc.access = none) ∧
    inFlight.lock.hold = some ⟨0, 64⟩ ∧ Due inFlight.timebase ⟨0, 64⟩ ∧ inFlight.lock.state = .owned ∧
      LockHoldsBus inFlight ∧ TenureLegal inFlight ∧ inFlight.cbc.access.isSome = true := by
  dsimp only
  and_intros <;> first
    | decide +kernel | (simp only [Due]; decide)

theorem witness_decisions :
    (Wins (rotation 24) .gate ∧ Wins (rotation 23) (.port .c)) ∧ ∀ r, ¬Requests on r := by
  refine ⟨⟨⟨rfl, ?_⟩, ⟨by decide, by decide⟩, ?_⟩, ?_⟩
  · rw [if_pos (by decide)]
  · rw [if_neg (by decide)]
    intro q _
    rcases q with _ | ⟨_ | _ | _⟩ <;> decide
  · intro r
    rcases r with _ | ⟨_ | _ | _⟩ <;> simp only [Requests] <;> decide

theorem witness_resident_lines :
    portOf on.lines.request .a = false ∧ portOf on.arb.enabled .a = true ∧ on.arb.state = .parked (.port .a) ∧
    (∀ r, ¬Requests on r) ∧ portOf ({ on with arb.enabled := ⟨false, true, true⟩ } : State).arb.enabled .a = false ∧
    owned.arb.state = .locked .gate true ∧ (rotation 1).arb.state = .tenure (.port .b) ∧
    portOf (rotation 1).lines.request .b = true ∧ portOf (rotation 1).lines.hold .b = false ∧
    (let s := { on with arb.state := .locked (.port .b) false, lines.hold := ⟨false, true, false⟩ };
      s.arb.state = .locked (.port .b) false ∧ portOf s.lines.hold .b = true ∧ portOf s.lines.request .b = false) ∧
    (let s := { rotation 1 with arb.state := .locked (.port .b) true, lines.hold := ⟨false, true, false⟩ };
      s.arb.state = .locked (.port .b) true ∧ portOf s.lines.hold .b = true ∧ portOf s.lines.request .b = true) ∧
    (∃ r, Wins { rotation 1 with lines.request := ⟨true, false, true⟩ } r) := by
  refine ⟨by decide, by decide, by decide, witness_decisions.2, by decide, by decide, by decide, by decide, by decide,
    by decide, by decide, ⟨.port .c, ⟨by decide, by decide⟩, ?_⟩⟩
  rw [if_neg (by decide)]
  intro q hq
  rcases q with _ | ⟨_ | _ | _⟩
  · decide
  · decide
  · exact absurd hq.2 (by decide)
  · decide

theorem witness_request_in_parked_and_stopped :
    (on.arb.state = .parked (.port .a) ∧ Requester.port .a ≠ .port .b ∧ portOf on.lines.request .b = false ∧
      portOf on.arb.enabled .b = true ∧
      Wins { on with lines.request := setPort on.lines.request .b true } (.port .b)) ∧
    ((assertPowerOn 0 on).arb.state = .stopped ∧ portOf (assertPowerOn 0 on).lines.request .b = false ∧
      portOf (assertPowerOn 0 on).arb.enabled .b = true) := by
  refine ⟨⟨rfl, by decide, rfl, rfl, ⟨rfl, rfl⟩, ?_⟩, rfl, rfl, rfl⟩
  rw [if_neg (by decide)]
  intro q hq
  rcases q with _ | ⟨_ | _ | _⟩
  · exact absurd hq (by simp [Requests, on, State.reset, Controller.powerOn])
  · exact absurd hq.2 Bool.false_ne_true
  · exact Nat.le_refl _
  · exact absurd hq.2 Bool.false_ne_true

theorem witness_resident_writes :
    (let s := { ready 0 with arb.state := .tenure (.port .a) };
      SlotsLegal s ∧ s.arb.state = .tenure (.port .a) ∧ s.slots[0].state = .ready ∧ s.slots[0].locked = false ∧
        s.slots[0].cardAddr.toNat ≤ 0x0100003 ∧
        0x0100003 < s.slots[0].cardAddr.toNat + 1 * unitBytes s.slots[0].key.unit) ∧
    SlotsLegal (ready 0) ∧ (ready 0).arb.state ≠ .tenure (.port .a) ∧ (ready 0).arb.state ≠ .locked (.port .a) true := by
  dsimp only
  and_intros <;> first
    | decide +kernel | (simp only [SlotsLegal, SlotLegal]; decide +kernel)

/-- The lock OWNED, a sequence entry in drain and the CLOSE entry behind it, an earlier report stored. -/
def busy : State := { cutOff with lock.closing := true, cbc.request := false, pending := [.pieceEnd (.ack 0)] }

theorem witness_laws : Lawful busy where
  counters := by simp only [CountersAgree]; decide +kernel
  queueFits := by simp only [QueueFits]; decide +kernel
  writes := by simp only [WritesAgree]; decide +kernel
  reads := by simp only [ReadsAgree]; decide +kernel
  refs := by simp only [RefsAgree]; decide +kernel
  reportsFit := by simp only [ReportsFit]; decide +kernel
  consecutive := by simp only [ReportsConsecutive]; decide +kernel
  waiting := by simp only [WaitingMeansFull]; decide +kernel
  line := by simp only [LineFollows]; decide +kernel
  reset := by simp only [ResetWhileAsserted]; decide +kernel
  held := by intro h; exact absurd h (by decide +kernel)
  idle := by intro h; exact absurd h (by decide +kernel)
  gate := by simp only [GateRecordLegal]; decide +kernel
  slots := by simp only [SlotsLegal, SlotLegal]; decide +kernel
  age := by simp only [AgeOrderLegal]; decide +kernel
  keys := by simp only [KeysDistinct]; decide +kernel
  lockRecord := by simp only [LockRecordLegal]; decide +kernel
  lockSlot := by simp only [LockNamesSlot]; decide +kernel
  lockBus := by simp only [LockHoldsBus]; decide +kernel
  lockWindow := by simp only [LockedWindowLive]; decide +kernel
  tenure := by
    refine ⟨by decide +kernel, by decide +kernel, ?_⟩
    intro a h; cases h; rfl
  idleTenure := by intro h; exact absurd h (by decide +kernel)
  timers := by
    refine ⟨fun a p ha hp => ?_, fun timer h => ?_, fun i timer h => ?_, fun timer h => ?_⟩
    · cases ha; cases hp; simp only [OnTime]; decide
    · cases h; simp only [OnTime]; decide
    · have hn : ∀ j : SlotId, busy.slots[j].hold = none := by decide +kernel
      rw [hn i] at h; cases h
    · cases h
  request := by intro h; exact absurd h (by decide +kernel)
  windows := by simp only [WindowsLegal, WindowLegal, LoadedLegal]; decide +kernel
  settings := by simp only [SettingsLegal]; decide +kernel
  settled := ⟨⟨Or.inl (by decide +kernel), by decide +kernel⟩, by simp only [DrainingNamed]; decide +kernel,
      by decide +kernel⟩

/-- The hypotheses of every invariant statement are met by a lawful state whose next step ends a drain. -/
theorem witness_invariants :
    Lawful busy ∧ step busy = .next (after (.pieceEnd (.ack 0)) { busy with pending := [] }) ∧
      (after (.pieceEnd (.ack 0)) { busy with pending := [] }).pwq.performed = 1 :=
  ⟨witness_laws, rfl, by decide +kernel⟩

end Sys2Proof.Tests
end

section
/-! Timers that are not due, and the assertion of a reset (R1, R113, R175): O47 and O5. -/

namespace Sys2Proof.Scope

open Sys2Proof Sys2Proof.Machine Sys2Proof.Safety

/-! ### Timers that are due -/

theorem expired_iff (now : Time) (timer : Timer) : expired now timer = true ↔ Due now timer := decide_eq_true_iff

theorem expired_eq_false (now : Time) (timer : Timer) : expired now timer = false ↔ ¬Due now timer := by
  rw [← expired_iff, Bool.not_eq_true]

theorem any_expired_eq_false (now : Time) (hold : Option Timer) :
    hold.any (expired now) = false ↔ ∀ timer, hold = some timer → ¬Due now timer := by
  cases hold <;> simp [expired_eq_false]

theorem outstanding_eq_some (s : State) (a : Access) (p : PieceOp) :
    outstanding s = some (a, p) ↔ s.cbc.access = some a ∧ a.op = some p := by
  unfold outstanding
  cases ha : s.cbc.access with
  | none => simp
  | some b =>
    simp only [Option.some.injEq]
    constructor
    · intro h
      split at h <;> cases h
      exact ⟨rfl, by assumption⟩
    · rintro ⟨rfl, hp⟩
      rw [hp]

theorem outstanding_eq_none (s : State) : outstanding s = none ↔ ∀ a, s.cbc.access = some a → a.op = none := by
  unfold outstanding
  cases ha : s.cbc.access with
  | none => simp
  | some b => cases hp : b.op <;> simp [hp]

theorem slotExpires_notDue (i : SlotId) (s : State) (h : ∀ timer, s.slots[i].hold = some timer → ¬Due s.timebase timer) :
    slotExpires i s = s := by
  rw [slotExpires, (any_expired_eq_false _ _).2 h]; rfl

theorem lockExpires_notDue (s : State)
    (h : s.lock.state = .owned → ∀ timer, s.lock.hold = some timer → ¬Due s.timebase timer) : lockExpires s = s := by
  have hd : lockTimerDue s = false := by
    rw [lockTimerDue, Bool.and_eq_false_imp, any_expired_eq_false]
    simpa using h
  rw [lockExpires, hd]; rfl

theorem overstayExpires_notDue (s : State) (h : ∀ timer, s.arb.overstay = some timer → ¬Due s.timebase timer) :
    overstayExpires s = s := by
  unfold overstayExpires
  split
  · next timer p ht _ => rw [(expired_eq_false _ _).2 (h timer ht)]; rfl
  · rfl

theorem responseExpires_notDue (s : State)
    (h : ∀ a p, s.cbc.access = some a → a.op = some p → ¬Due s.timebase p.timer) : responseExpires s = s := by
  unfold responseExpires
  split
  · next a p ho =>
    obtain ⟨ha, hp⟩ := (outstanding_eq_some s a p).1 ho
    rw [(expired_eq_false _ _).2 (h a p ha hp)]; rfl
  · rfl

theorem pieceEnd_ignored (s : State) (answer : TargetAnswer) (h : ∀ a, s.cbc.access = some a → a.op = none) :
    execPieceEnd answer s = .next s := by
  simp only [execPieceEnd, (outstanding_eq_none s).2 h]

/-- Settles O47: each row tests whether its timer is due, or whether an operation is outstanding, before it acts. -/
theorem nothingDueChangesNothing : Obligations.NothingDueChangesNothing := by
  intro s i answer
  refine ⟨fun h => ?_, fun h => ?_, fun h => ?_, fun h => ?_, fun h => pieceEnd_ignored s answer h⟩
  · exact congrArg Host.Outcome.next (slotExpires_notDue i s h)
  · exact congrArg Host.Outcome.next (lockExpires_notDue s fun _ => h)
  · exact congrArg Host.Outcome.next (overstayExpires_notDue s h)
  · exact congrArg Host.Outcome.next (responseExpires_notDue s h)

/-! ### The assertion of a reset -/

theorem powerOnResetAssert_next (lines : BitVec 4) (s : State) (h : s.porAsserted = false) :
    exec (.powerOnResetAssert lines) s = .next (assertPowerOn lines s) := by
  simp [exec, execPowerOnResetAssert, h]

theorem cardResetAssert_next (lines : BitVec 4) (s : State) (h : s.cardAsserted = false) :
    exec (.cardResetAssert lines) s = .next (assertCard lines s) := by
  simp [exec, execCardResetAssert, h]

/-- Settles O5: both assertions hold every block at the values of `State.reset`, and differ in the timebase and the
report queue alone. -/
theorem resetAssertionHoldsEveryBlock : Obligations.ResetAssertionHoldsEveryBlock := by
  refine fun s lines => ⟨fun h => ?_, fun h => ?_⟩
  · rw [powerOnResetAssert_next lines s h]; rfl
  · rw [cardResetAssert_next lines s h]; rfl

end Sys2Proof.Scope
end

section
/-! How an event goes through the gate, once for every law of the record: a property that the single operations keep is
kept by the end of a drain or a fetch, by a fault, and by all that an event ends with. -/

namespace Sys2Proof.Scope

open Sys2Proof Sys2Proof.Machine Sys2Proof.Safety

/-! ### Clocks -/

/-- The gate's timers (R1): the response timer, the lock's, one for each slot, and the overstay timer. -/
inductive Clock where
  | response
  | lock
  | slot (i : SlotId)
  | overstay

/-- The timer that a clock runs, if it runs; the lock's runs while the lock is OWNED (R77). -/
def running (s : State) : Clock → Option Timer
  | .response => s.cbc.access.bind fun a => a.op.map PieceOp.timer
  | .lock => if s.lock.state = .owned then s.lock.hold else none
  | .slot i => s.slots[i].hold
  | .overstay => s.arb.overstay

/-- The limit with which a clock is started (R138). -/
def limitOf (cu : ControlUnit) : Clock → Nat
  | .response => cu.cardResponse
  | .lock => cu.lockHold
  | .slot _ => cu.readHold
  | .overstay => cu.residentTenure

/-! ### What the laws look at -/

/-- Nothing differs of what the laws of the lock, the card bus and the timers look at. -/
structure SameRecord (s t : State) : Prop where
  timebase : t.timebase = s.timebase
  limits : ∀ k, limitOf t.cu k = limitOf s.cu k
  lock : t.lock = s.lock
  slots : t.slots = s.slots
  arb : t.arb = s.arb
  cbc : t.cbc = s.cbc
  windows : ∀ w : WindowId, t.windows[w].state = s.windows[w].state ∧ t.windows[w].frozen = s.windows[w].frozen

theorem SameRecord.refl (s : State) : SameRecord s s := ⟨rfl, fun _ => rfl, rfl, rfl, rfl, rfl, fun _ => ⟨rfl, rfl⟩⟩

theorem SameRecord.trans {s t u : State} (h : SameRecord s t) (k : SameRecord t u) : SameRecord s u where
  timebase := k.timebase.trans h.timebase
  limits := fun c => (k.limits c).trans (h.limits c)
  lock := k.lock.trans h.lock
  slots := k.slots.trans h.slots
  arb := k.arb.trans h.arb
  cbc := k.cbc.trans h.cbc
  windows := fun w => ⟨(k.windows w).1.trans (h.windows w).1, (k.windows w).2.trans (h.windows w).2⟩

/-- A change that leaves the window table as it was. -/
theorem sameRecord_of {s t : State} (hb : t.timebase = s.timebase) (hu : t.cu = s.cu) (hl : t.lock = s.lock)
    (hs : t.slots = s.slots) (ha : t.arb = s.arb) (hc : t.cbc = s.cbc) (hw : t.windows = s.windows) : SameRecord s t :=
  ⟨hb, fun _ => by rw [hu], hl, hs, ha, hc, fun _ => by rw [hw]; exact ⟨rfl, rfl⟩⟩

/-- A change of one window entry that keeps its state and its frozen flag. -/
theorem sameRecord_modWindow (w : WindowId) (f : Window → Window) (hs : ∀ e, (f e).state = e.state)
    (hf : ∀ e, (f e).frozen = e.frozen) (s : State) : SameRecord s { s with windows := modAt s.windows w f } :=
  ⟨rfl, fun _ => rfl, rfl, rfl, rfl, rfl,
    fun v => ⟨modAt_get_proj _ _ v _ Window.state hs, modAt_get_proj _ _ v _ Window.frozen hf⟩⟩

theorem offerReport_same (b : ReportBody) (s : State) : SameRecord s (offerReport b s) := by apply sameRecord_of <;> simp
theorem storeResult_same (b : ReportBody) (s : State) : SameRecord s (storeResult b s) := by apply sameRecord_of <;> simp
theorem countDropped_same (s : State) : SameRecord s (countDropped s) := by apply sameRecord_of <;> simp
theorem countPerformed_same (s : State) : SameRecord s (countPerformed s) := by apply sameRecord_of <;> simp
theorem takeChoice_same (s : State) : SameRecord s (takeChoice s) := by apply sameRecord_of <;> simp
theorem askForPlace_same (s : State) : SameRecord s (askForPlace s) := by apply sameRecord_of <;> simp
theorem testQuiesce_same (s : State) : SameRecord s (testQuiesce s) := by apply sameRecord_of <;> simp
theorem becomeFaulted_same (c : FaultCause) (s : State) : SameRecord s (becomeFaulted c s) := by
  apply sameRecord_of <;> simp
theorem answer_same (a : Answer) (s : State) : SameRecord s (answer a s) := by apply sameRecord_of <;> simp
theorem setNote_same (m : MasterId) (n : Option WindowId) (s : State) : SameRecord s (setNote m n s) := by
  apply sameRecord_of <;> simp
theorem lowerWrites_same (m : MasterId) (s : State) : SameRecord s (lowerWrites m s) := by apply sameRecord_of <;> simp
theorem raiseWrites_same (m : MasterId) (s : State) : SameRecord s (raiseWrites m s) := by apply sameRecord_of <;> simp
theorem raiseReads_same (m : MasterId) (s : State) : SameRecord s (raiseReads m s) := by apply sameRecord_of <;> simp
theorem lowerReads_same (m : MasterId) (s : State) : SameRecord s (lowerReads m s) := by apply sameRecord_of <;> simp
theorem clearNotes_same (s : State) : SameRecord s (clearNotes s) := by apply sameRecord_of <;> simp
theorem markVoid_same (s : State) : SameRecord s (markVoid s) := by apply sameRecord_of <;> simp
theorem appendControl_same (c : ControlEntry) (s : State) : SameRecord s (appendControl c s) := by
  apply sameRecord_of <;> simp
theorem raiseRef_same (w : WindowId) (s : State) : SameRecord s (raiseRef w s) := by
  unfold raiseRef; exact sameRecord_modWindow w _ (by intro e; rfl) (by intro e; rfl) s
theorem lowerRef_same (w : WindowId) (s : State) : SameRecord s (lowerRef w s) := by
  unfold lowerRef; exact sameRecord_modWindow w _ (by intro e; rfl) (by intro e; rfl) s
theorem countDiscard_same (w : WindowId) (s : State) : SameRecord s (countDiscard w s) := by
  unfold countDiscard; exact sameRecord_modWindow w _ (by intro e; rfl) (by intro e; rfl) s

theorem noteBreak_same (c : BreakCause) (l : Lock) (s : State) : SameRecord s (noteBreak c l s) := by
  apply sameRecord_of <;> simp

theorem dropClaims_same (d : DataEntry) (s : State) : SameRecord s (dropClaims d s) := by
  unfold dropClaims; dsimp only; split
  · exact (lowerWrites_same d.master s).trans (lowerRef_same d.window _)
  · exact lowerWrites_same d.master s

theorem entryClaims_same (e : Entry) (s : State) : SameRecord s (entryClaims e s) := by
  cases e with
  | data d => exact dropClaims_same d s
  | control c => exact .refl s

theorem foldl_same {α : Type} (f : State → α → State) (h : ∀ s a, SameRecord s (f s a)) (l : List α) (s : State) :
    SameRecord s (l.foldl f s) := by
  induction l generalizing s with
  | nil => exact .refl s
  | cons a l ih => exact (h s a).trans (ih _)

theorem emptyQueue_same (s : State) : SameRecord s (emptyQueue s) :=
  .trans (t := { s with
      pwq.entries := keptEntries s
      pwq.dropped := s.pwq.dropped + BitVec.ofNat 32 ((removedEntries s).countP isData)
      rq.space := .none })
    (by apply sameRecord_of <;> rfl) (foldl_same _ (fun s e => entryClaims_same e s) _ _)

/-! ### The access in flight -/

theorem leaveDeadHeads_cbc (s : State) : (leaveDeadHeads s).cbc = s.cbc := by rw [leaveDeadHeads_eq, headsGone_cbc]

theorem foldl_cbc {α : Type} (f : State → α → State) (h : ∀ s a, (f s a).cbc = s.cbc) (l : List α) (s : State) :
    (l.foldl f s).cbc = s.cbc := by
  induction l generalizing s with
  | nil => rfl
  | cons a l ih => exact (ih _).trans (h s a)

theorem freeAllSlots_cbc (s : State) : (freeAllSlots s).cbc = s.cbc := foldl_cbc _ (fun s i => freeSlot_cbc i s) _ s

theorem freeDrainedWindows_cbc (s : State) : (freeDrainedWindows s).cbc = s.cbc :=
  foldl_cbc _ (fun s w => by unfold freeIfDrained; split <;> simp) _ s

theorem releaseHold_cbc (s : State) : (releaseHold s).cbc = s.cbc := by
  unfold releaseHold; split <;> rfl

theorem breakLock_cbc (c : BreakCause) (s : State) : (breakLock c s).cbc = s.cbc := by
  unfold breakLock
  split
  · dsimp only
    split <;> simp [releaseHold_cbc]
  · rfl

theorem drainBegins_cbc (d : DataEntry) (s : State) : (drainBegins d s).cbc = s.cbc := by
  unfold drainBegins raceCloseTimer
  split
  · split
    · simp
    · rw [breakLock_cbc]; simp
  · simp

theorem faultGate_access (c : FaultCause) (s : State) : (faultGate c s).cbc.access = s.cbc.access.map stopped := by
  simp only [faultGate, freeDrainedWindows_cbc, offerReport_cbc, endIdleTenure_cbc_access, releaseHold_cbc, breakLock_cbc,
    freeAllSlots_cbc, (emptyQueue_same _).cbc, markStop, becomeFaulted_cbc]

theorem drainEnded_access (o : DrainOutcome) (d : DataEntry) (s : State) : (drainEnded o d s).cbc.access = none := by
  unfold drainEnded
  dsimp only
  split
  · rw [faultGate_access]; rfl
  · rw [leaveDeadHeads_cbc]; rfl

/-! ### Properties that the operations keep -/

/-- A property of the record that each operation of an event keeps, where the event takes that operation. -/
structure Closed (P : State → Prop) : Prop where
  same : ∀ {s t}, SameRecord s t → P s → P t
  removeHead : ∀ {s}, P s → P (removeHead s)
  freeIfDrained : ∀ {s} w, P s → P (freeIfDrained s w)
  endTenure : ∀ {s}, s.arb.lockHold = false → s.cbc.access = none → P s → P (endTenure s)
  reviewRequest : ∀ {s}, P s → P (reviewRequest s)
  startFetch : ∀ {s} i, s.cbc.access = none → s.cbc.tenure = true → eligible s i = true → P s → P (startFetch i s)
  markStale : ∀ {s} a n, P s → P (markStale a n s)
  closeLock : ∀ {s} d, P s → P (closeLock d s)
  stopLockTimer : ∀ {s} d, P s → P (stopLockTimer d s)
  breakLock : ∀ {s} c, P s → P (breakLock c s)
  freezeOnError : ∀ {s} d k a, P s → P (freezeOnError d k a s)
  fetchOutcome : ∀ {s} o i ws, s.cbc.access.isSome = true → P s → P (fetchOutcome o i ws s)
  everySlotFreed : ∀ {s} c, P s → P (releaseHold (Machine.breakLock c (freeAllSlots s)))
  marked : ∀ {s} (f : Access → Access), (∀ a, (f a).op = a.op) → P s →
    P { s with cbc.access := s.cbc.access.map f }

/-- A property `P` between the accesses of an event, and the property `Q` that an event has while the operation of its
access has ended and the access is not yet gone. -/
structure AccessClosed (Q P : State → Prop) : Prop where
  inner : Closed Q
  outer : Closed P
  relax : ∀ {s}, P s → Q s
  pause : ∀ {s} a, (s.cbc.access.isSome = true ∨ s.cbc.tenure = true) → P s → Q { s with cbc.access := some a }
  clear : ∀ {s}, Q s → P (clearAccess s)
  operate : ∀ {s} (a : Access) (op : CardOp), a.op = some ⟨op, startTimer s s.cu.cardResponse⟩ →
    s.cbc.access.isSome = true → Q s → P { s with cbc.access := some a }

namespace Closed

variable {P : State → Prop} (h : Closed P)
include h

omit h in
theorem foldl {α : Type} (f : State → α → State) (hf : ∀ s a, P s → P (f s a)) (l : List α) {s : State} (hs : P s) :
    P (l.foldl f s) := by
  induction l generalizing s with
  | nil => exact hs
  | cons a l ih => exact ih (hf s a hs)

theorem offerReport {s : State} (b : ReportBody) (hs : P s) : P (offerReport b s) := h.same (offerReport_same b s) hs

theorem freeDrainedWindows {s : State} (hs : P s) : P (freeDrainedWindows s) :=
  foldl _ (fun _ w => h.freeIfDrained w) _ hs

theorem dropDeadHeads {s : State} (n : Nat) (hs : P s) : P (dropDeadHeads n s) := by
  induction n generalizing s with
  | zero => exact hs
  | succ n ih =>
    unfold Machine.dropDeadHeads
    split
    · split
      · exact hs
      · split
        · exact ih (h.removeHead (h.same (countDropped_same s) hs))
        · split
          · exact ih (h.removeHead (h.same ((countDiscard_same _ s).trans (countDropped_same _)) hs))
          · exact hs
    · exact hs

theorem leaveDeadHeads {s : State} (hs : P s) : P (leaveDeadHeads s) := h.dropDeadHeads _ hs

theorem finishEvent {s : State} (hs : P s) : P (finishEvent s) :=
  h.same ((testQuiesce_same _).trans (askForPlace_same _)) (h.freeDrainedWindows hs)

theorem endIdleTenure {s : State} (held : Bool) (hs : P s) : P (endIdleTenure held s) := by
  unfold Machine.endIdleTenure
  split
  · next hc =>
    simp only [Bool.and_eq_true, Bool.not_eq_true', Option.isNone_iff_eq_none] at hc
    obtain ⟨⟨-, hl⟩, ha⟩ := hc
    exact h.endTenure hl ha hs
  · exact hs

theorem settleTenure {s : State} (ha : s.cbc.access = none) (hs : P s) : P (settleTenure s) := by
  unfold Machine.settleTenure
  split
  · exact hs
  · next hc =>
    simp only [Bool.or_eq_true, Bool.not_eq_true', not_or, Bool.not_eq_true] at hc
    exact h.endTenure hc.1 ha hs

theorem markStop {s : State} (hs : P s) : P (markStop s) := h.marked stopped (fun _ => rfl) hs

theorem faultGate {s : State} (c : FaultCause) (hs : P s) : P (faultGate c s) := by
  refine h.freeDrainedWindows (h.offerReport _ (h.endIdleTenure _ (h.everySlotFreed _ ?_)))
  exact h.same (emptyQueue_same _) (h.markStop (h.same (becomeFaulted_same c s) hs))

theorem drainBegins {s : State} (d : DataEntry) (hs : P s) : P (drainBegins d s) := by
  unfold Machine.drainBegins raceCloseTimer
  split
  · split
    · exact h.stopLockTimer d (h.same (takeChoice_same s) hs)
    · exact h.breakLock _ (h.same (takeChoice_same s) hs)
  · exact h.stopLockTimer d hs

theorem drainConsequences {s : State} (o : DrainOutcome) (d : DataEntry) (hs : P s) : P (drainConsequences o d s) := by
  cases o with
  | performed => exact h.same (countPerformed_same s) hs
  | stopped => exact h.same (countDropped_same s) hs
  | checkFailed => exact h.same (countDropped_same s) hs
  | cutOff k a => exact h.freezeOnError d k a (h.same ((countDropped_same s).trans (offerReport_same _ _)) hs)

theorem drainStaleness {s : State} (o : DrainOutcome) (d : DataEntry) (hs : P s) : P (drainStaleness o d s) := by
  unfold Machine.drainStaleness
  split
  · exact hs
  · exact h.markStale _ _ hs

end Closed

namespace AccessClosed

variable {Q P : State → Prop} (h : AccessClosed Q P)
include h

theorem drainEnded {s : State} (o : DrainOutcome) (d : DataEntry) (hs : Q s) : P (drainEnded o d s) := by
  have hx := h.clear (h.inner.removeHead (h.inner.drainConsequences o d (h.inner.closeLock d
    (h.inner.drainStaleness o d hs))))
  unfold Machine.drainEnded
  dsimp only
  split
  · exact h.outer.faultGate _ hx
  · exact h.outer.leaveDeadHeads hx

theorem endDrain {s : State} (o : DrainOutcome) (hs : Q s) : P (endDrain o s) := by
  unfold Machine.endDrain
  split
  · exact h.outer.settleTenure (drainEnded_access _ _ _) (h.drainEnded _ _ hs)
  · exact h.outer.settleTenure rfl (h.clear hs)

theorem continueDrain {s : State} (a : Access) (d : DataEntry) (n : Nat) (ha : s.cbc.access.isSome = true) (hs : Q s) :
    P (continueDrain a d n s) := by
  unfold Machine.continueDrain
  split
  · exact h.operate _ _ rfl ha hs
  · exact h.endDrain _ hs
  · exact h.endDrain _ hs

theorem startDrain {s : State} (d : DataEntry) (ht : s.cbc.tenure = true) (hs : P s) : P (startDrain d s) :=
  h.continueDrain _ _ _ (by rw [drainBegins_cbc]; rfl) (h.inner.drainBegins d (h.pause _ (.inr ht) hs))

theorem runBus {s : State} (n : Nat) (hs : P s) : P (runBus n s) := by
  induction n generalizing s with
  | zero => exact hs
  | succ n ih =>
    unfold Machine.runBus
    split
    · exact hs
    · next ha =>
      have ha : s.cbc.access = none := by simpa using ha
      split
      · next ht =>
        split
        · next i he => exact h.outer.startFetch i ha ht (List.find?_some he) hs
        · exact ih (h.startDrain _ ht hs)
        · split
          · exact hs
          · next hl => exact ih (h.outer.endTenure (by simpa using hl) ha hs)
      · dsimp only
        split
        · exact ih (h.outer.reviewRequest hs)
        · exact h.outer.reviewRequest hs

theorem settle {s : State} (hs : P s) : P (settle s) :=
  h.outer.finishEvent (h.runBus _ (h.outer.leaveDeadHeads hs))

theorem endFetch {s : State} (o : FetchOutcome) (a : Access) (ha : s.cbc.access.isSome = true) (hs : Q s) :
    P (endFetch o a s) := by
  unfold Machine.endFetch
  dsimp only
  refine h.outer.settleTenure (by rw [leaveDeadHeads_cbc]; rfl) (h.outer.leaveDeadHeads (h.clear ?_))
  split
  · exact h.inner.fetchOutcome _ _ _ ha hs
  · exact hs

theorem pieceFailed {s : State} (a : Access) (p : PieceOp) (k : ErrorKind) (ha : s.cbc.access.isSome = true) (hs : Q s) :
    P (pieceFailed a p k s) := by
  unfold Machine.pieceFailed
  split
  · exact h.endDrain _ hs
  · exact h.endFetch _ _ ha hs

theorem pieceAcked {s : State} (a : Access) (p : PieceOp) (data : Word) (ha : s.cbc.access.isSome = true) (hs : P s) :
    P (pieceAcked a p data s) := by
  unfold Machine.pieceAcked
  split
  · have hq := h.pause { a with bytes := a.bytes + laneCount p.op.enables, op := none } (.inl ha) hs
    unfold drainPieceAcked
    dsimp only
    split
    · exact h.endDrain _ hq
    · split
      · exact h.endDrain _ hq
      · split
        · exact h.continueDrain _ _ _ rfl hq
        · exact h.endDrain _ hq
  · unfold fetchPieceAcked
    dsimp only
    split
    · exact h.endFetch _ _ ha (h.relax hs)
    · exact h.operate _ _ rfl ha (h.relax hs)

theorem endStoppedAccess {s : State} (hs : P s) : P (endStoppedAccess s) := by
  unfold Machine.endStoppedAccess
  split
  · next a ha =>
    split
    · split
      · exact h.endDrain _ (h.relax hs)
      · exact h.endFetch _ _ (by rw [ha]; rfl) (h.relax hs)
    · exact hs
  · exact hs

end AccessClosed

end Sys2Proof.Scope
end

section
/-! The timers through an event (R1): a timer that runs at the end of an event ran before it, or has been started in it
with the limit in force. -/

namespace Sys2Proof.Scope

open Sys2Proof Sys2Proof.Machine Sys2Proof.Safety

/-! ### Timers that an event starts -/

/-- The timer that a clock runs when the event has started it (R1, R133). -/
def Started (s : State) (c : Clock) (timer : Timer) : Prop :=
  timer = startTimer s (limitOf s.cu c) ∧ (c = .overstay → s.cu.residentTenure ≠ 0)

/-- Every timer of `t` ran in `s` on the same clock or is started at this moment. -/
structure TimersFollow (s t : State) : Prop where
  timebase : t.timebase = s.timebase
  cu : t.cu = s.cu
  runs : ∀ c timer, running t c = some timer → running s c = some timer ∨ Started s c timer

theorem follow_refl (s : State) : TimersFollow s s := ⟨rfl, rfl, fun _ _ h => .inl h⟩

theorem follow_trans {s t u : State} (h : TimersFollow s t) (k : TimersFollow t u) : TimersFollow s u where
  timebase := k.timebase.trans h.timebase
  cu := k.cu.trans h.cu
  runs := fun c timer hu => by
    obtain ht | ⟨ht, ho⟩ := k.runs c timer hu
    · exact h.runs c timer ht
    · rw [startTimer, h.timebase, h.cu] at ht
      rw [h.cu] at ho
      exact .inr ⟨ht, ho⟩

theorem follow_foldl {α : Type} (f : State → α → State) (h : ∀ s a, TimersFollow s (f s a)) (l : List α) (s : State) :
    TimersFollow s (l.foldl f s) := by
  induction l generalizing s with
  | nil => exact follow_refl s
  | cons a l ih => exact follow_trans (h s a) (ih _)

/-- A clock runs on, stops, or starts anew. -/
def GoesOn (s : State) (c : Clock) (before after : Option Timer) : Prop :=
  after = before ∨ after = none ∨ ∃ timer, after = some timer ∧ Started s c timer

theorem GoesOn.runs {s : State} {c : Clock} {before after : Option Timer} (h : GoesOn s c before after) (timer : Timer)
    (ha : after = some timer) : before = some timer ∨ Started s c timer := by
  obtain rfl | rfl | ⟨started, rfl, hs⟩ := h
  · exact .inl ha
  · cases ha
  · cases ha; exact .inr hs

/-- What each block makes of its clocks. -/
theorem follow_of {s t : State} (hb : t.timebase = s.timebase) (hu : t.cu = s.cu)
    (hr : GoesOn s .response (running s .response) (running t .response))
    (hl : GoesOn s .lock (running s .lock) (running t .lock))
    (hs : ∀ i : SlotId, GoesOn s (.slot i) s.slots[i].hold t.slots[i].hold)
    (ho : GoesOn s .overstay s.arb.overstay t.arb.overstay) : TimersFollow s t := by
  refine ⟨hb, hu, fun c timer h => ?_⟩
  cases c with
  | response => exact hr.runs timer h
  | lock => exact hl.runs timer h
  | slot i => exact (hs i).runs timer h
  | overstay => exact ho.runs timer h

theorem running_response_of_access {s t : State} (h : t.cbc.access = s.cbc.access) :
    running t .response = running s .response := by simp only [running, h]

/-- A change of the arbiter alone. -/
theorem follow_of_arb {s t : State} (hb : t.timebase = s.timebase) (hu : t.cu = s.cu)
    (hr : t.cbc.access = s.cbc.access) (hl : t.lock = s.lock) (hs : t.slots = s.slots)
    (ho : GoesOn s .overstay s.arb.overstay t.arb.overstay) : TimersFollow s t :=
  follow_of hb hu (.inl (running_response_of_access hr)) (.inl (by simp only [running, hl])) (fun i => .inl (by rw [hs])) ho

/-- A change of no block that has a clock. -/
theorem follow_of_same {s t : State} (hb : t.timebase = s.timebase) (hu : t.cu = s.cu)
    (hr : t.cbc.access = s.cbc.access) (hl : t.lock = s.lock) (hs : t.slots = s.slots) (ho : t.arb = s.arb) :
    TimersFollow s t :=
  follow_of_arb hb hu hr hl hs (.inl (by rw [ho]))

/-- A change of the slots alone. -/
theorem follow_of_slots {s t : State} (hb : t.timebase = s.timebase) (hu : t.cu = s.cu)
    (hr : t.cbc.access = s.cbc.access) (hl : t.lock = s.lock) (ho : t.arb = s.arb)
    (hs : ∀ i : SlotId, GoesOn s (.slot i) s.slots[i].hold t.slots[i].hold) : TimersFollow s t :=
  follow_of hb hu (.inl (running_response_of_access hr)) (.inl (by simp only [running, hl])) hs (.inl (by rw [ho]))

/-- A change of one slot. -/
theorem follow_modSlot (i : SlotId) (f : Slot → Slot) (s : State)
    (h : GoesOn s (.slot i) s.slots[i].hold (f s.slots[i]).hold) : TimersFollow s (modSlot i f s) := by
  refine follow_of_slots rfl rfl rfl rfl rfl fun j => ?_
  simp only [modSlot]
  rw [modAt_get]
  split
  · next hij => subst hij; exact h
  · exact .inl rfl

/-! ### Operations -/

theorem follow_offerReport (b : ReportBody) (s : State) : TimersFollow s (offerReport b s) := by
  apply follow_of_same <;> simp
theorem follow_clearAccess (s : State) : TimersFollow s (clearAccess s) :=
  follow_of rfl rfl (.inr (.inl rfl)) (.inl rfl) (fun _ => .inl rfl) (.inl rfl)
theorem follow_clearLock (s : State) : TimersFollow s (clearLock s) :=
  follow_of rfl rfl (.inl rfl) (.inr (.inl rfl)) (fun _ => .inl rfl) (.inl rfl)
theorem follow_takeHold (s : State) : TimersFollow s (takeHold s) := follow_of_arb rfl rfl rfl rfl rfl (.inl rfl)
theorem follow_entryClaims (e : Entry) (s : State) : TimersFollow s (entryClaims e s) := by
  apply follow_of_same <;> simp
theorem follow_markVoid (s : State) : TimersFollow s (markVoid s) := by apply follow_of_same <;> simp
theorem follow_noteBreak (c : BreakCause) (l : Lock) (s : State) : TimersFollow s (noteBreak c l s) := by
  apply follow_of_same <;> simp

theorem follow_freeIfDrained (s : State) (w : WindowId) : TimersFollow s (freeIfDrained s w) := by
  unfold freeIfDrained
  split
  · exact follow_of_same (by simp) (by simp) (by simp) (by simp) (by simp) (by simp)
  · exact follow_refl s

theorem follow_freeSlot (i : SlotId) (s : State) : TimersFollow s (freeSlot i s) := by
  unfold freeSlot
  split
  · exact follow_refl s
  · refine follow_trans (follow_modSlot i (fun _ => Slot.powerOn) s (.inr (.inl rfl))) ?_
    exact follow_of_same rfl rfl rfl rfl rfl rfl

theorem follow_withdrawSlot (i : SlotId) (s : State) : TimersFollow s (withdrawSlot i s) := by
  unfold withdrawSlot
  split
  · exact follow_modSlot i _ s (.inl rfl)
  · exact follow_freeSlot i s

theorem follow_freeAllSlots (s : State) : TimersFollow s (freeAllSlots s) :=
  follow_foldl _ (fun s i => follow_freeSlot i s) _ s

theorem lowerAhead_hold (e : Slot) : (lowerAhead e).hold = e.hold := by unfold lowerAhead; split <;> rfl

theorem staleSlot_hold (a : CardAddr) (n : Nat) (e : Slot) : (staleSlot a n e).hold = e.hold := by
  unfold staleSlot; split <;> rfl

theorem follow_removeHead (s : State) : TimersFollow s (removeHead s) := by
  unfold removeHead
  split
  · exact follow_refl s
  · next e rest _ =>
    refine follow_trans (t := { s with pwq.entries := rest, slots := mapTable s.slots lowerAhead }) ?_
      (follow_entryClaims e _)
    exact follow_of_slots rfl rfl rfl rfl rfl fun i => .inl (by rw [mapTable_get]; exact lowerAhead_hold _)

theorem follow_markStale (a : CardAddr) (n : Nat) (s : State) : TimersFollow s (markStale a n s) :=
  follow_of_slots rfl rfl rfl rfl rfl fun i => .inl (by rw [markStale, mapTable_get]; exact staleSlot_hold a n _)

/-! ### The arbiter -/

theorem overstayTimer_goesOn (s : State) (before : Option Timer) : GoesOn s .overstay before (overstayTimer s) := by
  unfold overstayTimer
  split
  · exact .inr (.inl rfl)
  · next h => exact .inr (.inr ⟨_, rfl, rfl, fun _ => h⟩)

theorem follow_grantTo (r : Requester) (s : State) : TimersFollow s (grantTo r s) := by
  cases r with
  | gate => exact follow_of_arb rfl rfl rfl rfl rfl (.inr (.inl rfl))
  | port p => exact follow_of_arb rfl rfl rfl rfl rfl (overstayTimer_goesOn s _)

theorem follow_decision (s : State) : TimersFollow s (decision s) := by
  unfold decision
  split
  · exact follow_grantTo _ s
  · exact follow_of_arb rfl rfl rfl rfl rfl (.inr (.inl rfl))

theorem follow_requestArrives (r : Requester) (s : State) : TimersFollow s (requestArrives r s) := by
  unfold requestArrives
  split
  · exact follow_refl s
  · split
    · exact follow_grantTo r s
    · exact follow_decision s
  · exact follow_refl s
  · split
    · exact follow_of_arb rfl rfl rfl rfl rfl (.inl rfl)
    · exact follow_refl s

theorem follow_reviewRequest (s : State) : TimersFollow s (reviewRequest s) := by
  unfold reviewRequest
  split
  · exact follow_refl s
  · split
    · split
      · exact follow_refl s
      · exact follow_trans (t := { s with cbc.request := true }) (follow_of_same rfl rfl rfl rfl rfl rfl)
          (follow_requestArrives .gate _)
    · exact follow_of_same rfl rfl rfl rfl rfl rfl

theorem follow_endTenure (s : State) : TimersFollow s (endTenure s) := by
  unfold endTenure
  refine follow_trans (t := { s with cbc.tenure := false, cbc.request := hasCandidate s })
    (follow_of_same rfl rfl rfl rfl rfl rfl) ?_
  unfold gateTenureEnds
  split
  · exact follow_decision _
  · exact follow_decision _
  · exact follow_refl _

theorem follow_releaseHold (s : State) : TimersFollow s (releaseHold s) := by
  unfold releaseHold
  split
  · exact follow_of_arb rfl rfl rfl rfl rfl (.inl rfl)
  · exact follow_refl s

/-! ### The lock unit -/

theorem follow_withdrawLockedSlot (o : Option SlotId) (s : State) : TimersFollow s (withdrawLockedSlot o s) := by
  cases o with
  | none => exact follow_refl s
  | some i => exact follow_withdrawSlot i s

theorem follow_breakLock (c : BreakCause) (s : State) : TimersFollow s (breakLock c s) := by
  unfold breakLock
  split
  · dsimp only
    refine follow_trans ?_ (follow_offerReport _ _)
    refine follow_trans ?_ (follow_noteBreak _ _ _)
    refine follow_trans ?_ (follow_markVoid _)
    refine follow_trans ?_ (follow_withdrawLockedSlot _ _)
    split
    · exact follow_trans (follow_clearLock s) (follow_releaseHold _)
    · exact follow_clearLock s
  · exact follow_refl s

theorem follow_unlockReadySlot (slot : Option SlotId) (s : State) : TimersFollow s (unlockReadySlot slot s) := by
  unfold unlockReadySlot
  split
  · split
    · exact follow_modSlot _ _ s (.inr (.inr ⟨_, rfl, rfl, nofun⟩))
    · exact follow_refl s
  · exact follow_refl s

theorem follow_closeLock (d : DataEntry) (s : State) : TimersFollow s (closeLock d s) := by
  unfold closeLock
  split
  · exact follow_trans (follow_trans (follow_clearLock s) (follow_unlockReadySlot _ _)) (follow_releaseHold _)
  · exact follow_refl s

theorem follow_stopLockTimer (d : DataEntry) (s : State) : TimersFollow s (stopLockTimer d s) := by
  unfold stopLockTimer
  split
  · exact follow_of rfl rfl (.inl rfl) (.inr (.inl (by simp [running]))) (fun _ => .inl rfl) (.inl rfl)
  · exact follow_refl s

theorem follow_ownLock (s : State) : TimersFollow s (ownLock s) := by
  refine follow_trans (t := { s with lock.state := .owned, lock.hold := some (startTimer s s.cu.lockHold) }) ?_
    (follow_takeHold _)
  exact follow_of rfl rfl (.inl rfl) (.inr (.inr ⟨_, rfl, rfl, nofun⟩)) (fun _ => .inl rfl) (.inl rfl)

/-! ### Accesses -/

theorem follow_operate (a : Access) (op : CardOp) (s : State) (h : a.op = some ⟨op, startTimer s s.cu.cardResponse⟩) :
    TimersFollow s { s with cbc.access := some a } :=
  have hr : running { s with cbc.access := some a } .response = some (startTimer s (limitOf s.cu .response)) := by
    simp only [running, Option.bind_some, h, Option.map_some]; rfl
  follow_of rfl rfl (.inr (.inr ⟨_, hr, rfl, nofun⟩)) (.inl rfl) (fun _ => .inl rfl) (.inl rfl)

theorem follow_startFetch (i : SlotId) (s : State) : TimersFollow s (startFetch i s) := by
  unfold startFetch
  exact follow_trans (follow_operate _ _ s rfl) (follow_modSlot i _ _ (.inl rfl))

theorem follow_fetchOutcome (o : FetchOutcome) (i : SlotId) (ws : List Word) (s : State) :
    TimersFollow s (fetchOutcome o i ws s) := by
  unfold fetchOutcome
  split
  · split
    · exact follow_freeSlot i s
    · split
      · unfold fetchSucceeds
        dsimp only
        split
        · split
          · exact follow_trans (follow_modSlot i _ s (.inl rfl)) (follow_ownLock _)
          · exact follow_modSlot i _ s (.inl rfl)
        · exact follow_modSlot i _ s (.inr (.inr ⟨_, rfl, rfl, nofun⟩))
      · next k a =>
        have hf := follow_trans (follow_modSlot i (fun e => { e with
          state := .failed, data := none, locked := false, hold := some (startTimer s s.cu.readHold) }) s
          (.inr (.inr ⟨_, rfl, rfl, nofun⟩))) (follow_offerReport (readFailedBody i s.slots[i] k a) _)
        unfold fetchFails
        dsimp only
        split
        · exact follow_trans hf (follow_trans (follow_clearLock _) (follow_markVoid _))
        · exact hf
  · exact follow_refl s

theorem follow_freezeOnError (d : DataEntry) (k : ErrorKind) (a : CardAddr) (s : State) :
    TimersFollow s (freezeOnError d k a s) := by
  unfold freezeOnError
  dsimp only
  split
  · have hf : TimersFollow s (offerReport (windowFrozenBody d k a)
        { s with windows := modAt s.windows d.window fun e => { e with frozen := true } }) :=
      follow_trans (t := { s with windows := modAt s.windows d.window fun e => { e with frozen := true } })
        (follow_of_same rfl rfl rfl rfl rfl rfl) (follow_offerReport _ _)
    split
    · exact follow_trans hf (follow_breakLock _ _)
    · exact hf
  · exact follow_refl s

theorem running_marked (f : Access → Access) (hf : ∀ a, (f a).op = a.op) (s : State) :
    running { s with cbc.access := s.cbc.access.map f } .response = running s .response := by
  unfold running
  cases s.cbc.access with
  | none => rfl
  | some a => simp [hf]

theorem follow_marked (f : Access → Access) (hf : ∀ a, (f a).op = a.op) (s : State) :
    TimersFollow s { s with cbc.access := s.cbc.access.map f } :=
  follow_of rfl rfl (.inl (running_marked f hf s)) (.inl rfl) (fun _ => .inl rfl) (.inl rfl)

/-! ### A property of every timer -/

/-- Every running timer has the property `ok` at this time, but for the clock `out`, and so has each that is started at
this moment. -/
structure Timed (ok : Time → Clock → Timer → Prop) (out : Option Clock) (s : State) : Prop where
  runs : ∀ c timer, out ≠ some c → running s c = some timer → ok s.timebase c timer
  fresh : ∀ c timer, Started s c timer → ok s.timebase c timer

theorem started_congr {s t : State} (hb : t.timebase = s.timebase) (hu : ∀ k, limitOf t.cu k = limitOf s.cu k)
    (c : Clock) (timer : Timer) : Started t c timer ↔ Started s c timer := by
  have hr : t.cu.residentTenure = s.cu.residentTenure := hu .overstay
  rw [Started, Started, startTimer, startTimer, hb, hu c, hr]

section

variable {ok : Time → Clock → Timer → Prop} {out : Option Clock} {s t : State}

theorem Timed.follow (h : TimersFollow s t) (hs : Timed ok out s) : Timed ok out t where
  runs := fun c timer hc ht => h.timebase ▸ (h.runs c timer ht).elim (hs.runs c timer hc) (hs.fresh c timer)
  fresh := fun c timer ht =>
    h.timebase ▸ hs.fresh c timer ((started_congr h.timebase (fun k => by rw [h.cu]) c timer).1 ht)

/-- A clock that has stopped needs the property no longer. -/
theorem Timed.stop {c : Clock} (hn : running s c = none) (hs : Timed ok (some c) s) : Timed ok none s where
  runs := fun k timer _ hk => hs.runs k timer (fun e => by cases e; rw [hn] at hk; cases hk) hk
  fresh := hs.fresh

theorem Timed.relax (out : Option Clock) (hs : Timed ok none s) : Timed ok out s :=
  ⟨fun k timer _ hk => hs.runs k timer nofun hk, hs.fresh⟩

theorem Timed.same (h : SameRecord s t) (hs : Timed ok out s) : Timed ok out t := by
  have hr : ∀ c, running t c = running s c := fun c => by
    cases c <;> simp only [running, h.lock, h.slots, h.arb, h.cbc]
  exact ⟨fun c timer hc ht => h.timebase ▸ hs.runs c timer hc (hr c ▸ ht),
    fun c timer ht => h.timebase ▸ hs.fresh c timer ((started_congr h.timebase h.limits c timer).1 ht)⟩

end

theorem timed_closed (ok : Time → Clock → Timer → Prop) (out : Option Clock) : Closed (Timed ok out) where
  same := Timed.same
  removeHead := Timed.follow (follow_removeHead _)
  freeIfDrained := fun w => Timed.follow (follow_freeIfDrained _ w)
  endTenure := fun _ _ => Timed.follow (follow_endTenure _)
  reviewRequest := Timed.follow (follow_reviewRequest _)
  startFetch := fun i _ _ _ => Timed.follow (follow_startFetch i _)
  markStale := fun a n => Timed.follow (follow_markStale a n _)
  closeLock := fun d => Timed.follow (follow_closeLock d _)
  stopLockTimer := fun d => Timed.follow (follow_stopLockTimer d _)
  breakLock := fun c => Timed.follow (follow_breakLock c _)
  freezeOnError := fun d k a => Timed.follow (follow_freezeOnError d k a _)
  fetchOutcome := fun o i ws _ => Timed.follow (follow_fetchOutcome o i ws _)
  everySlotFreed := fun c => Timed.follow
    (follow_trans (follow_trans (follow_freeAllSlots _) (follow_breakLock c _)) (follow_releaseHold _))
  marked := fun f hf => Timed.follow (follow_marked f hf _)

/-- Between the end of an operation and the end of its access the response timer is none of the event's (R113, R114). -/
theorem timed_accessClosed (ok : Time → Clock → Timer → Prop) :
    AccessClosed (Timed ok (some .response)) (Timed ok none) where
  inner := timed_closed ok _
  outer := timed_closed ok _
  relax := Timed.relax _
  pause := fun {s} a _ hs => by
    refine ⟨fun c timer hc h => hs.runs c timer nofun ?_, hs.fresh⟩
    cases c with
    | response => exact absurd rfl hc
    | _ => exact h
  clear := fun {s} hs => (hs.follow (follow_clearAccess s)).stop rfl
  operate := fun {s} a op ha _ hs => by
    refine ⟨fun c timer _ h => ?_, hs.fresh⟩
    cases c with
    | response =>
      refine hs.fresh .response timer ⟨?_, nofun⟩
      simp only [running, Option.bind_some, ha, Option.map_some, Option.some.injEq] at h
      exact h.symm
    | _ => exact hs.runs _ timer (by simp) h

end Sys2Proof.Scope
end

section
/-! The tick (R1): each expiry stops its clock, and a tick takes the expiries that are left. -/

namespace Sys2Proof.Scope

open Sys2Proof Sys2Proof.Machine Sys2Proof.Safety

/-! ### Expiries -/

/-- A clock whose timer has the property is no exception to it. -/
theorem Timed.runsOn {ok : Time → Clock → Timer → Prop} {s : State} {c : Clock}
    (hc : ∀ timer, running s c = some timer → ok s.timebase c timer) (hs : Timed ok (some c) s) : Timed ok none s := by
  classical
  refine ⟨fun k timer _ hk => ?_, hs.fresh⟩
  by_cases h : k = c
  · subst h; exact hc timer hk
  · exact hs.runs k timer (fun e => h (Option.some.inj e).symm) hk

theorem running_response (s : State) (timer : Timer) :
    running s .response = some timer ↔ ∃ a p, s.cbc.access = some a ∧ a.op = some p ∧ p.timer = timer := by
  simp [running, Option.bind_eq_some_iff]

theorem running_lock (s : State) (timer : Timer) :
    running s .lock = some timer ↔ s.lock.state = .owned ∧ s.lock.hold = some timer := by
  simp only [running]
  split <;> simp [*]

theorem lockTimerDue_iff (s : State) :
    lockTimerDue s = true ↔ ∃ timer, running s .lock = some timer ∧ Due s.timebase timer := by
  simp only [lockTimerDue, running_lock, Bool.and_eq_true, decide_eq_true_eq]
  cases s.lock.hold <;> simp [expired_iff]

section

variable {ok : Time → Clock → Timer → Prop} {s : State}

theorem responseExpires_timed (hok : ∀ timer, ¬Due s.timebase timer → ok s.timebase .response timer)
    (hs : Timed ok (some .response) s) : Timed ok none (responseExpires s) := by
  by_cases hd : ∃ timer, running s .response = some timer ∧ Due s.timebase timer
  · obtain ⟨timer, hr, hd⟩ := hd
    obtain ⟨a, p, ha, hp, rfl⟩ := (running_response s timer).1 hr
    rw [responseExpires, (outstanding_eq_some s a p).2 ⟨ha, hp⟩]
    simp only [(expired_iff _ _).2 hd, if_true]
    exact (timed_accessClosed ok).settle ((timed_accessClosed ok).pieceFailed a p _ (by rw [ha]; rfl) hs)
  · rw [responseExpires_notDue s fun a p ha hp h => hd ⟨_, (running_response s _).2 ⟨a, p, ha, hp, rfl⟩, h⟩]
    exact hs.runsOn fun timer hr => hok timer fun h => hd ⟨timer, hr, h⟩

theorem breakLock_lock (c : BreakCause) (s : State) (h : lockStands s = true) : (breakLock c s).lock = Lock.powerOn := by
  unfold breakLock
  rw [if_pos h]
  dsimp only
  split <;> simp [clearLock]

theorem lockExpires_timed (hok : ∀ timer, ¬Due s.timebase timer → ok s.timebase .lock timer)
    (hs : Timed ok (some .lock) s) : Timed ok none (lockExpires s) := by
  unfold lockExpires
  split
  · next hd =>
    have hl : lockStands s = true := by
      simp only [lockTimerDue, Bool.and_eq_true, decide_eq_true_eq] at hd
      simp [lockStands, hd.1]
    have hb := ((timed_closed ok _).breakLock .timeout hs).stop (by simp [running, breakLock_lock _ _ hl, Lock.powerOn])
    have h := timed_accessClosed ok
    exact h.settle (h.outer.endIdleTenure _ (h.outer.leaveDeadHeads hb))
  · next hd =>
    exact hs.runsOn fun timer hr => hok timer fun h => hd ((lockTimerDue_iff s).2 ⟨timer, hr, h⟩)

theorem freeSlot_hold (i : SlotId) (s : State) (h : s.slots[i].state ≠ .free) : (freeSlot i s).slots[i].hold = none := by
  unfold freeSlot
  rw [if_neg h]
  simp only [lowerRef_slots, lowerReads_slots]
  rw [modAt_get_self]; rfl

/-- A hold timer runs in the states that its expiry ends (R47, R62). -/
def HoldLegal (e : Slot) : Prop :=
  e.hold.isSome = true → (e.state = .ready ∧ e.locked = false) ∨ e.state = .stale ∨ e.state = .failed

theorem slotExpires_timed (i : SlotId) (hl : HoldLegal s.slots[i])
    (hok : ∀ timer, ¬Due s.timebase timer → ok s.timebase (.slot i) timer) (hs : Timed ok (some (.slot i)) s) :
    Timed ok none (slotExpires i s) := by
  have h := timed_accessClosed ok
  have freed : ∀ t, t.slots = s.slots → s.slots[i].state ≠ .free → Timed ok (some (.slot i)) t →
      Timed ok none (settle (freeSlot i t)) := fun t ht hf hs =>
    h.settle (Timed.stop (c := .slot i) (freeSlot_hold i t (by rw [ht]; exact hf)) (hs.follow (follow_freeSlot i t)))
  have reported := fun b => (timed_closed ok _).offerReport b hs
  unfold slotExpires
  split
  · next hd =>
    have hsome : s.slots[i].hold.isSome = true := by
      cases hh : s.slots[i].hold with
      | none => rw [hh] at hd; cases hd
      | some timer => rfl
    unfold holdExpires
    obtain ⟨hr, -⟩ | hr | hr := hl hsome
    · simp only [hr]
      exact freed _ (by simp) (by rw [hr]; nofun) (reported _)
    · simp only [hr]
      exact freed _ (by simp) (by rw [hr]; nofun) (reported _)
    · simp only [hr]
      exact freed _ rfl (by rw [hr]; nofun) hs
  · next hd =>
    have hn := (any_expired_eq_false _ s.slots[i].hold).1 (Bool.eq_false_iff.2 hd)
    exact hs.runsOn fun timer hr => hok timer (hn timer hr)

theorem overstayExpires_timed (ho : s.arb.overstay.isSome = true → (residentOwner s).isSome = true)
    (hok : ∀ timer, ¬Due s.timebase timer → ok s.timebase .overstay timer) (hs : Timed ok (some .overstay) s) :
    Timed ok none (overstayExpires s) := by
  by_cases hd : ∃ timer, s.arb.overstay = some timer ∧ Due s.timebase timer
  · obtain ⟨timer, hr, hd⟩ := hd
    obtain ⟨p, hp⟩ := Option.isSome_iff_exists.1 (ho (by rw [hr]; rfl))
    have hx : Timed ok (some .overstay) { s with arb.overstay := none } :=
      hs.follow (s := s) (follow_of_arb rfl rfl rfl rfl rfl (.inr (.inl rfl)))
    simp only [overstayExpires, hr, hp, (expired_iff _ _).2 hd, if_true]
    exact (timed_closed ok _).offerReport _ (hx.stop rfl)
  · rw [overstayExpires_notDue s fun timer hr h => hd ⟨timer, hr, h⟩]
    exact hs.runsOn fun timer hr => hok timer fun h => hd ⟨timer, hr, h⟩

end

theorem responseExpires_kept (s : State) : Kept s (responseExpires s) := by
  unfold responseExpires
  split
  · split
    · exact kept_trans (pieceFailed_kept _ _ _ s) (settle_kept _)
    · exact kept_refl s
  · exact kept_refl s

theorem lockExpires_kept (s : State) : Kept s (lockExpires s) := by
  unfold lockExpires
  split
  · exact kept_trans (kept_trans (kept_trans (breakLock_kept _ s) (leaveDeadHeads_kept _)) (endIdleTenure_kept _ _))
      (settle_kept _)
  · exact kept_refl s

theorem slotExpires_kept (i : SlotId) (s : State) : Kept s (slotExpires i s) := by
  have freed : ∀ t, Kept s t → Kept s (settle (freeSlot i t)) := fun t ht =>
    kept_trans (kept_trans ht (freeSlot_kept i t)) (settle_kept _)
  unfold slotExpires
  split
  · unfold holdExpires
    split
    · exact freed _ (offerReport_kept _ s)
    · exact freed _ (offerReport_kept _ s)
    · exact freed _ (kept_refl s)
    · exact kept_refl s
  · exact kept_refl s

theorem overstayExpires_kept (s : State) : Kept s (overstayExpires s) := by
  unfold overstayExpires
  split
  · split
    · exact kept_trans (t := { s with arb.overstay := none }) (by constructor <;> simp) (offerReport_kept _ _)
    · exact kept_refl s
  · exact kept_refl s

/-! ### Clocks that are not due -/

/-- No timer of the clocks `D` is due. -/
def NotDue (D : Clock → Prop) : Time → Clock → Timer → Prop := fun now c timer => D c → ¬Due now timer

/-- No timer that is started at this moment is due at once. -/
def StartsUndue (s : State) : Prop := ∀ c timer, Started s c timer → ¬Due s.timebase timer

theorem StartsUndue.kept {s t : State} (hk : Kept s t) (h : StartsUndue s) : StartsUndue t := fun c timer ht => by
  rw [hk.timebase]
  exact h c timer ((started_congr hk.timebase (fun _ => by rw [hk.cu]) c timer).1 ht)

theorem startsUndue_of_settings {s : State} (h : SettingsLegal s) : StartsUndue s := by
  rintro c timer ⟨rfl, ho⟩
  obtain ⟨-, -, hr, hl, hc, -⟩ := h
  simp only [Due, startTimer, BitVec.sub_self, BitVec.toNat_zero, Nat.le_zero]
  cases c with
  | response => exact (by omega : s.cu.cardResponse ≠ 0)
  | lock => exact (by omega : s.cu.lockHold ≠ 0)
  | slot i => exact (by omega : s.cu.readHold ≠ 0)
  | overstay => exact ho rfl

theorem timed_notDue {s : State} (h : StartsUndue s) (D : Clock → Prop) (out : Option Clock)
    (hD : ∀ c, out ≠ some c → D c → ∀ timer, running s c = some timer → ¬Due s.timebase timer) :
    Timed (NotDue D) out s :=
  ⟨fun c timer hc hr hd => hD c hc hd timer hr, fun c timer hs _ => h c timer hs⟩

/-- No clock of `D` runs a timer that is due. -/
def Quiet (D : Clock → Prop) (s : State) : Prop :=
  ∀ c, D c → ∀ timer, running s c = some timer → ¬Due s.timebase timer

theorem Timed.quiet {D : Clock → Prop} {s : State} (h : Timed (NotDue D) none s) : Quiet D s :=
  fun c hD timer ht => h.runs c timer nofun ht hD

theorem quiet_of_noneDue {s : State} (h : NoneDue s) (D : Clock → Prop) : Quiet D s := by
  obtain ⟨hr, hl, hs, ho⟩ := h
  intro c _ timer ht
  cases c with
  | response =>
    obtain ⟨a, p, ha, hp, rfl⟩ := (running_response s timer).1 ht
    exact hr a p ha hp
  | lock => exact hl timer ((running_lock s timer).1 ht).2
  | slot i => exact hs i timer ht
  | overstay => exact ho timer ht

section

variable {D : Clock → Prop} {s : State} (h : Quiet D s)
include h

theorem responseExpires_quiet (hD : D .response) : responseExpires s = s :=
  responseExpires_notDue s fun a p ha hp => h _ hD _ ((running_response s _).2 ⟨a, p, ha, hp, rfl⟩)

theorem lockExpires_quiet (hD : D .lock) : lockExpires s = s :=
  lockExpires_notDue s fun ho timer ht => h _ hD timer ((running_lock s _).2 ⟨ho, ht⟩)

theorem slotExpires_quiet (i : SlotId) (hD : D (.slot i)) : slotExpires i s = s :=
  slotExpires_notDue i s fun timer ht => h _ hD timer ht

theorem overstayExpires_quiet (hD : D .overstay) : overstayExpires s = s :=
  overstayExpires_notDue s fun timer ht => h _ hD timer ht

theorem slotsExpire_quiet (l : List SlotId) (hD : ∀ i ∈ l, D (.slot i)) :
    l.foldl (fun s i => slotExpires i s) s = s := by
  induction l with
  | nil => rfl
  | cons i l ih =>
    rw [List.foldl_cons, slotExpires_quiet h i (hD i (by simp))]
    exact ih fun j hj => hD j (by simp [hj])

end

/-! ### The tick -/

theorem expireDue_quiet {s : State} (h : Quiet (fun _ => True) s) : expireDue s = s := by
  rw [expireDue, responseExpires_quiet h trivial, lockExpires_quiet h trivial,
    slotsExpire_quiet h _ fun _ _ => trivial, overstayExpires_quiet h trivial]

theorem tick_next (s : State) (h : s.porAsserted = false) :
    exec .timebaseTick s = .next { expireDue s with timebase := (expireDue s).timebase + 1 } := by
  simp [exec, execTimebaseTick, h]

theorem tick_in_powerOnReset (s : State) (h : s.porAsserted = true) :
    exec .timebaseTick s = .next { s with timebase := 0 } := by
  simp [exec, execTimebaseTick, h]

/-- A tick that takes an expiry is the tick of the state after that expiry, where the expiries make one state of both. -/
theorem tick_takes {s t : State} (expiry : Instr) (hs : s.porAsserted = false) (hx : exec expiry s = .next t)
    (hk : Kept s t) (h : expireDue s = expireDue t) :
    ∃ t, exec expiry s = .next t ∧ exec .timebaseTick s = exec .timebaseTick t :=
  ⟨t, hx, by rw [tick_next s hs, tick_next t (hk.porAsserted.trans hs), h]⟩

/-- The slots before a slot, and the slots after it, in ascending id. -/
theorem finRange_split (i : SlotId) : ∃ before after, List.finRange 8 = before ++ i :: after ∧ ∀ j ∈ before, j < i := by
  obtain ⟨before, after, h⟩ := List.append_of_mem (List.mem_finRange i)
  refine ⟨before, after, h, fun j hj => ?_⟩
  obtain ⟨-, -, hlt⟩ := List.pairwise_append.1 (h ▸ List.pairwise_lt_finRange 8)
  exact hlt j hj i (by simp)

/-- Where no slot before `i` is due, the slots' expiries begin with that of `i`. -/
theorem slotsExpire_from {D : Clock → Prop} {s t : State} (i : SlotId) (hs : ∀ j < i, slotExpires j s = s)
    (ht : Quiet D t) (hD : ∀ j ≤ i, D (.slot j)) (h : slotExpires i s = t) :
    (List.finRange 8).foldl (fun s i => slotExpires i s) s = (List.finRange 8).foldl (fun s i => slotExpires i s) t := by
  obtain ⟨before, after, hl, hb⟩ := finRange_split i
  have hbefore : ∀ l : List SlotId, (∀ j ∈ l, j < i) → l.foldl (fun s i => slotExpires i s) s = s := by
    intro l hl
    induction l with
    | nil => rfl
    | cons j l ih =>
      rw [List.foldl_cons, hs j (hl j (by simp))]
      exact ih fun k hk => hl k (by simp [hk])
  rw [hl, List.foldl_append, List.foldl_append, hbefore before hb, slotsExpire_quiet ht before fun j hj =>
    hD j (hb j hj).le, List.foldl_cons, List.foldl_cons, h, slotExpires_quiet ht i (hD i le_rfl)]

section

variable {s : State} (hp : s.porAsserted = false) (hset : StartsUndue s)
include hp hset

theorem tick_takes_response :
    ∃ t, exec .noResponse s = .next t ∧ exec .timebaseTick s = exec .timebaseTick t := by
  have hk := responseExpires_kept s
  have hq := (responseExpires_timed (fun _ h _ => h) (timed_notDue hset (· = .response) _
    fun c hc hD => absurd (congrArg some hD.symm) hc)).quiet
  exact tick_takes .noResponse hp rfl hk (by rw [expireDue, expireDue, responseExpires_quiet hq rfl])

theorem tick_takes_lock (hr : Quiet (· = .response) s) :
    ∃ t, exec .lockHoldTimerExpiry s = .next t ∧ exec .timebaseTick s = exec .timebaseTick t := by
  have hk := lockExpires_kept s
  have hq := (lockExpires_timed (fun _ h _ => h) (timed_notDue hset (fun c => c = .response ∨ c = .lock) _
    fun c hc hD => hr c (hD.resolve_right fun e => hc (congrArg some e.symm)))).quiet
  refine tick_takes .lockHoldTimerExpiry hp rfl hk ?_
  rw [expireDue, expireDue, responseExpires_quiet hr rfl, responseExpires_quiet hq (.inl rfl),
    lockExpires_quiet hq (.inr rfl)]

theorem tick_takes_slot (i : SlotId) (hl : HoldLegal s.slots[i])
    (hr : Quiet (fun c => c = .response ∨ c = .lock ∨ ∃ j < i, c = .slot j) s) :
    ∃ t, exec (.holdTimerExpiry i) s = .next t ∧ exec .timebaseTick s = exec .timebaseTick t := by
  have hk := slotExpires_kept i s
  have hq := (slotExpires_timed i hl (fun _ h _ => h) (timed_notDue hset
    (fun c => c = .response ∨ c = .lock ∨ ∃ j ≤ i, c = .slot j) _ fun c hc hD => hr c (by
      obtain h | h | ⟨j, hj, h⟩ := hD
      · exact .inl h
      · exact .inr (.inl h)
      · exact .inr (.inr ⟨j, lt_of_le_of_ne hj fun e => hc (by rw [h, e]), h⟩)))).quiet
  refine tick_takes (.holdTimerExpiry i) hp rfl hk ?_
  rw [expireDue, expireDue, responseExpires_quiet hr (.inl rfl), responseExpires_quiet hq (.inl rfl),
    lockExpires_quiet hr (.inr (.inl rfl)), lockExpires_quiet hq (.inr (.inl rfl)),
    slotsExpire_from i (fun j hj => slotExpires_quiet hr j (.inr (.inr ⟨j, hj, rfl⟩))) hq
      (fun j hj => .inr (.inr ⟨j, hj, rfl⟩)) rfl]

theorem tick_takes_overstay (hr : Quiet (· ≠ .overstay) s) :
    ∃ t, exec .overstayTimerExpiry s = .next t ∧ exec .timebaseTick s = exec .timebaseTick t := by
  have hk := overstayExpires_kept s
  refine tick_takes .overstayTimerExpiry hp rfl hk ?_
  have hs : expireDue s = overstayExpires s := by
    rw [expireDue, responseExpires_quiet hr nofun, lockExpires_quiet hr nofun, slotsExpire_quiet hr _ nofun]
  by_cases ho : s.arb.overstay.isSome = true → (residentOwner s).isSome = true
  · have hq := (overstayExpires_timed ho (fun _ h _ => h) (timed_notDue hset (fun _ => True) _
      fun c hc _ => hr c fun e => hc (congrArg some e.symm))).quiet
    rw [hs, expireDue_quiet hq]
  · have hn : overstayExpires s = s := by
      rw [overstayExpires]
      split
      · next hp => exact absurd (fun _ => by rw [hp]; rfl) ho
      · rfl
    rw [hn]

end

theorem holdLegal_of_slotLegal {e : Slot} (h : SlotLegal e) : HoldLegal e := by
  obtain ⟨-, hh, -⟩ := h
  exact hh.1

/-- Settles O4: an expiry stops its clock and starts none that is due, so the tick of the state after it finds that clock
quiet, and the clocks before it in the order of the tick quiet as they were. -/
theorem tickCountsMicroseconds : Obligations.TickCountsMicroseconds := by
  intro s
  refine ⟨tick_in_powerOnReset s, fun hp hn => ?_, fun hp hsettings hslots => ?_⟩
  · rw [tick_next s hp, expireDue_quiet (quiet_of_noneDue hn _)]
  · intro takes responseDue lockDue slotDue
    have hset := startsUndue_of_settings hsettings
    have response : ¬responseDue → ∀ timer, running s .response = some timer → ¬Due s.timebase timer :=
      fun h timer ht hd => by
        obtain ⟨a, p, ha, hp, rfl⟩ := (running_response s timer).1 ht
        exact h ⟨a, p, ha, hp, hd⟩
    have lock : ¬lockDue → ∀ timer, running s .lock = some timer → ¬Due s.timebase timer := fun h timer ht hd =>
      h ⟨((running_lock s timer).1 ht).1, timer, ((running_lock s timer).1 ht).2, hd⟩
    refine ⟨fun _ => tick_takes_response hp hset, fun hr _ => tick_takes_lock hp hset ?_, fun i hr hl _ hi =>
      tick_takes_slot hp hset i (holdLegal_of_slotLegal (hslots i)) ?_, fun timer hr hl hi _ _ =>
      tick_takes_overstay hp hset ?_⟩
    · rintro c rfl
      exact response hr
    · rintro c (rfl | rfl | ⟨j, hj, rfl⟩)
      · exact response hr
      · exact lock hl
      · exact fun timer ht hd => hi j hj ⟨timer, ht, hd⟩
    · intro c hc
      cases c with
      | response => exact response hr
      | lock => exact lock hl
      | slot j => exact fun timer ht hd => hi j ⟨timer, ht, hd⟩
      | overstay => exact absurd rfl hc

end Sys2Proof.Scope
end

section
/-! The laws of the lock, the slots it names, its window and the card bus (R71, R72, R80, R109, R127, R131, R133), as every
operation within an event keeps them. -/

namespace Sys2Proof.Scope

open Sys2Proof Sys2Proof.Machine Sys2Proof.Safety

/-! ### The laws within an event -/

/-- What the lock asks of the slot that it names (R71, R72). -/
def Named (l : Lock) (e : Slot) : Prop :=
  e.locked = true ∧ l.owner = some e.key.master ∧ l.window = some e.window ∧ e.releaseMark = false ∧
    (l.state = .pending → e.state = .waiting ∨ e.state = .fetching) ∧ (l.state = .owned → e.state = .ready)

/-- Every hold timer runs in a state that its expiry ends. -/
def HoldsLegal (s : State) : Prop := ∀ i : SlotId, HoldLegal s.slots[i]

/-- The laws of the card bus within an event, in which an access may have no operation: the lock hold, the tenure, the
access, and the overstay timer of a resident that owns the grant (R80, R109, R127, R131, R133). -/
structure BusLaws (s : State) : Prop where
  hold : LockHoldsBus s
  tenure : s.cbc.tenure = true ↔ s.arb.state = .tenure .gate ∨ s.arb.state = .locked .gate true
  access : s.cbc.access.isSome = true → s.cbc.tenure = true
  overstay : s.arb.overstay.isSome = true → (residentOwner s).isSome = true

/-- The laws of the lock, the slots, the windows and the card bus within an event. -/
structure Orderly (s : State) : Prop where
  record : LockRecordLegal s
  names : LockNamesSlot s
  window : LockedWindowLive s
  holds : HoldsLegal s
  bus : BusLaws s

/-! ### The lock record -/

theorem lockRecord_congr {s t : State} (hl : t.lock = s.lock) (h : LockRecordLegal s) : LockRecordLegal t := by
  rw [LockRecordLegal, hl]; exact h

theorem lockRecord_powerOn {t : State} (hl : t.lock = Lock.powerOn) : LockRecordLegal t := by
  rw [LockRecordLegal, hl]; exact ⟨fun _ => rfl, fun h => absurd rfl h, nofun⟩

theorem lock_free_of_not_stands {s : State} (h : LockRecordLegal s) (hs : lockStands s = false) : s.lock = Lock.powerOn :=
  h.1 (by simpa [lockStands] using hs)

/-- The lock becomes OWNED, or goes on so, with its owner and its window. -/
theorem lockRecord_of_owned {s t : State} (h : LockRecordLegal s) (hs : s.lock.state ≠ .free)
    (ht : t.lock.state = .owned) (ho : t.lock.owner = s.lock.owner) (hw : t.lock.window = s.lock.window) :
    LockRecordLegal t := by
  obtain ⟨-, hstanding, -⟩ := h
  rw [LockRecordLegal, ht, ho, hw]
  exact ⟨nofun, fun _ => hstanding hs, nofun⟩

theorem lockStands_of_slot {s : State} (h : LockRecordLegal s) {i : SlotId} (hi : s.lock.slot = some i) :
    s.lock.state ≠ .free := fun hf => by
  rw [h.1 hf] at hi; cases hi

theorem lockNames_powerOn {t : State} (hl : t.lock = Lock.powerOn) : LockNamesSlot t := by
  intro i hi; rw [hl] at hi; cases hi

theorem lockedWindow_powerOn {t : State} (hl : t.lock = Lock.powerOn) : LockedWindowLive t := by
  intro w hw; simp [lockedWindow, lockStands, hl, Lock.powerOn] at hw

theorem lockedWindow_congr {s t : State} (hl : t.lock = s.lock) (w : WindowId) : lockedWindow t w = lockedWindow s w := by
  rw [lockedWindow, lockStands, hl]; rfl

theorem lockedWindowLive_congr {s t : State} (hl : t.lock = s.lock)
    (hw : ∀ w : WindowId, t.windows[w].state = s.windows[w].state ∧ t.windows[w].frozen = s.windows[w].frozen)
    (h : LockedWindowLive s) : LockedWindowLive t := by
  intro w hl'
  rw [(hw w).1, (hw w).2]
  exact h w (lockedWindow_congr hl w ▸ hl')

/-! ### The card bus -/

theorem BusLaws.congr {s t : State} (h : BusLaws s) (hl : t.lock.state = .owned ↔ s.lock.state = .owned)
    (ha : t.arb.state = s.arb.state) (hh : t.arb.lockHold = s.arb.lockHold) (ho : t.arb.overstay = s.arb.overstay)
    (ht : t.cbc.tenure = s.cbc.tenure) (hc : t.cbc.access.isSome = true → s.cbc.tenure = true) : BusLaws t := by
  obtain ⟨⟨h1, h2, h3⟩, h4, h5, h6⟩ := h
  refine ⟨⟨?_, ?_, ?_⟩, ?_, ?_, ?_⟩
  · rw [hl, hh]; exact h1
  · rw [ha, hh]; exact h2
  · rw [ha]; exact h3
  · rw [ha, ht]; exact h4
  · rw [ht]; exact hc
  · rw [residentOwner, ha, ho]; exact h6

section

variable {s : State} (h : BusLaws s)
include h

theorem BusLaws.hold_iff_owned : s.arb.lockHold = true ↔ s.lock.state = .owned := h.hold.1

theorem BusLaws.hold_iff_locked : s.arb.lockHold = true ↔ s.arb.state = .locked .gate true := by
  obtain ⟨-, hl, -⟩ := h.hold
  exact hl

theorem BusLaws.not_between : s.arb.state ≠ .locked .gate false := by
  obtain ⟨-, -, hn⟩ := h.hold
  exact hn

end

/-- The lock and the card bus are as they were. -/
theorem BusLaws.same {s t : State} (h : BusLaws s) (hl : t.lock = s.lock) (ha : t.arb = s.arb) (hc : t.cbc = s.cbc) :
    BusLaws t :=
  h.congr (by rw [hl]) (by rw [ha]) (by rw [ha]) (by rw [ha]) (by rw [hc]) (by rw [hc]; exact h.access)

/-- The gate holds neither the bus nor the lock hold: the grant can go to anybody. -/
structure BusFree (s : State) : Prop where
  lockHold : s.arb.lockHold = false
  lock : s.lock.state ≠ .owned
  tenure : s.cbc.tenure = false
  access : s.cbc.access = none

theorem BusLaws.access_none {s : State} (h : BusLaws s) (ht : s.cbc.tenure = false) : s.cbc.access = none := by
  have := h.access
  cases ha : s.cbc.access with
  | none => rfl
  | some a => rw [ha, ht] at this; cases this rfl

theorem BusLaws.free {s : State} (h : BusLaws s) (ht : s.cbc.tenure = false) : BusFree s := by
  have hh : s.arb.lockHold = false := by
    rw [← Bool.not_eq_true, h.hold_iff_locked]
    intro hl
    rw [h.tenure.2 (.inr hl)] at ht; cases ht
  exact ⟨hh, fun hl => absurd (h.hold_iff_owned.2 hl) (by simp [hh]), ht, h.access_none ht⟩

theorem BusLaws.no_tenure {s : State} (h : BusLaws s) (h1 : s.arb.state ≠ .tenure .gate)
    (h2 : s.arb.state ≠ .locked .gate true) : s.cbc.tenure = false := by
  rw [← Bool.not_eq_true, h.tenure]
  exact fun h => h.elim h1 h2

/-- The gate in a tenure has no resident's overstay timer running (R133). -/
theorem BusLaws.no_overstay {s : State} (h : BusLaws s) (ht : s.cbc.tenure = true) : s.arb.overstay = none := by
  have ho := h.overstay
  cases hv : s.arb.overstay with
  | none => rfl
  | some timer =>
    rw [hv, residentOwner] at ho
    obtain hs | hs := h.tenure.1 ht <;> rw [hs] at ho <;> cases ho rfl

theorem grantTo_bus {s : State} (r : Requester) (h : BusFree s) : BusLaws (grantTo r s) := by
  obtain ⟨h1, h2, h3, h4⟩ := h
  cases r with
  | gate =>
    refine ⟨⟨?_, ?_, ?_⟩, ?_, ?_, ?_⟩ <;> simp [grantTo, h1, h2]
  | port p =>
    refine ⟨⟨?_, ?_, ?_⟩, ?_, ?_, ?_⟩ <;> simp only [grantTo, residentOwner, h1, h2, h3, h4]
    · simp
    · split <;> simp
    · split <;> simp
    · split <;> simp
    · simp
    · intro _; by_cases hp : portOf s.lines.hold p = true <;> simp [hp]

theorem park_bus {s : State} (h : BusFree s) : BusLaws (park s) := by
  obtain ⟨h1, h2, h3, h4⟩ := h
  refine ⟨⟨?_, ?_, ?_⟩, ?_, ?_, ?_⟩ <;> simp [park, h1, h2, h3, h4]

theorem decision_bus {s : State} (h : BusFree s) : BusLaws (decision s) := by
  unfold decision
  split
  · exact grantTo_bus _ h
  · exact park_bus h

/-- The owner's resident hold and tenure change, and the resident keeps the grant. -/
theorem residentKeeps_bus {s t : State} (h : BusLaws s) (p : Port) (hs : residentOwner s = some p)
    (ht : t.arb.state = .tenure (.port p) ∨ ∃ inTenure, t.arb.state = .locked (.port p) inTenure)
    (hl : t.lock = s.lock) (hh : t.arb.lockHold = s.arb.lockHold) (hc : t.cbc = s.cbc) : BusLaws t := by
  have hn : s.cbc.tenure = false := by
    apply h.no_tenure <;> intro he <;> simp [residentOwner, he] at hs
  obtain ⟨h1, h2, h3, h4⟩ := h.free hn
  refine ⟨⟨?_, ?_, ?_⟩, ?_, ?_, ?_⟩ <;> obtain ht | ⟨inTenure, ht⟩ := ht <;>
    simp [residentOwner, ht, hl, hh, hc, h1, h2, h3, h4]

theorem requestArrives_bus {s : State} (r : Requester) (h : BusLaws s) : BusLaws (requestArrives r s) := by
  unfold requestArrives
  split
  · exact h
  · next owner hs =>
    have hf := h.free (h.no_tenure (by rw [hs]; nofun) (by rw [hs]; nofun))
    split
    · exact grantTo_bus r hf
    · exact decision_bus hf
  · exact h
  · next owner inTenure hs =>
    split
    · next hc =>
      simp only [Bool.and_eq_true, decide_eq_true_eq, Bool.not_eq_true'] at hc
      obtain ⟨rfl, rfl⟩ := hc
      cases owner with
      | gate => exact absurd hs h.not_between
      | port p => exact residentKeeps_bus h p (by rw [residentOwner, hs]) (.inr ⟨true, rfl⟩) rfl rfl rfl
    · exact h

theorem reviewRequest_bus {s : State} (h : BusLaws s) : BusLaws (reviewRequest s) := by
  unfold reviewRequest
  split
  · exact h
  · split
    · split
      · exact h
      · exact requestArrives_bus .gate (h.congr (t := { s with cbc.request := true }) Iff.rfl rfl rfl rfl rfl h.access)
    · exact h.congr Iff.rfl rfl rfl rfl rfl h.access

theorem endTenure_bus {s : State} (hl : s.arb.lockHold = false) (ha : s.cbc.access = none) (h : BusLaws s) :
    BusLaws (endTenure s) := by
  have hf : BusFree { s with cbc.tenure := false, cbc.request := hasCandidate s } :=
    ⟨hl, fun ho => absurd (h.hold_iff_owned.2 ho) (by simp [hl]), rfl, ha⟩
  unfold endTenure gateTenureEnds
  split
  · exact decision_bus hf
  · exact decision_bus hf
  · next h1 h2 =>
    have ht : s.cbc.tenure = false := h.no_tenure h1 (h2 true)
    exact h.congr Iff.rfl rfl rfl rfl ht.symm (by rw [ha]; nofun)

/-- The lock is no longer OWNED and the lock unit releases the hold: an access in flight goes on in TENURE (R131). -/
theorem releaseHold_bus {s t : State} (h : BusLaws s) (hf : t.lock.state ≠ .owned) (ha : t.arb = s.arb)
    (hc : t.cbc = s.cbc) : BusLaws (releaseHold t) := by
  unfold releaseHold
  split
  · next hh =>
    rw [ha] at hh
    have ht := h.tenure.2 (.inr (h.hold_iff_locked.1 hh))
    refine ⟨⟨by simp [hf], by simp, by simp⟩, by simp [hc, ht], fun _ => by simp [hc, ht], ?_⟩
    simp [ha, h.no_overstay ht]
  · next hh =>
    rw [ha] at hh
    refine h.congr ?_ (by rw [ha]) (by rw [ha]) (by rw [ha]) (by rw [hc]) (by rw [hc]; exact h.access)
    simp [hf, ← h.hold_iff_owned, hh]

theorem ownLock_bus {s : State} (h : BusLaws s) (ht : s.cbc.tenure = true) : BusLaws (ownLock s) := by
  refine ⟨⟨by simp [ownLock, takeHold], by simp [ownLock, takeHold], by simp [ownLock, takeHold]⟩,
    by simp [ownLock, takeHold, ht], fun _ => ht, ?_⟩
  simp [ownLock, takeHold, h.no_overstay ht]

end Sys2Proof.Scope
end

section
/-! Every operation within an event keeps the laws of the lock and the card bus, and an access between events has its
operation outstanding (R71, R72, R109, R114). -/

namespace Sys2Proof.Scope

open Sys2Proof Sys2Proof.Machine Sys2Proof.Safety

/-! ### Changes of one block -/

theorem modSlot_get (i j : SlotId) (f : Slot → Slot) (s : State) :
    (modSlot i f s).slots[j] = if i = j then f s.slots[j] else s.slots[j] := modAt_get s.slots i j f

namespace Orderly

variable {s t : State}

/-- Nothing that the laws look at differs. -/
theorem same (h : SameRecord s t) (hs : Orderly s) : Orderly t where
  record := lockRecord_congr h.lock hs.record
  names := by rw [LockNamesSlot, h.lock, h.slots]; exact hs.names
  window := lockedWindowLive_congr h.lock h.windows hs.window
  holds := by rw [HoldsLegal, h.slots]; exact hs.holds
  bus := hs.bus.same h.lock h.arb h.cbc

/-- A change of the slots alone: the slot that the lock names stays one that it can name. -/
theorem slots (hs : Orderly s) (hl : t.lock = s.lock) (hw : t.windows = s.windows) (ha : t.arb = s.arb)
    (hc : t.cbc = s.cbc) (hn : ∀ i, s.lock.slot = some i → Named s.lock s.slots[i] → Named s.lock t.slots[i])
    (hh : ∀ i : SlotId, HoldLegal s.slots[i] → HoldLegal t.slots[i]) : Orderly t where
  record := lockRecord_congr hl hs.record
  names := by
    rw [LockNamesSlot, hl]
    exact fun i hi => hn i hi (hs.names i hi)
  window := lockedWindowLive_congr hl (fun w => by rw [hw]; exact ⟨rfl, rfl⟩) hs.window
  holds := fun i => hh i (hs.holds i)
  bus := hs.bus.same hl ha hc

/-- A change of one slot. -/
theorem modSlot (hs : Orderly s) (i : SlotId) (f : Slot → Slot)
    (hn : s.lock.slot = some i → Named s.lock s.slots[i] → Named s.lock (f s.slots[i]))
    (hh : HoldLegal s.slots[i] → HoldLegal (f s.slots[i])) : Orderly (modSlot i f s) := by
  refine hs.slots rfl rfl rfl rfl (fun j hj hd => ?_) fun j hd => ?_
  · rw [modSlot_get]
    split
    · next hij => subst hij; exact hn hj hd
    · exact hd
  · rw [modSlot_get]
    split
    · next hij => subst hij; exact hh hd
    · exact hd

/-- A change of every slot by one function. -/
theorem mapSlots (hs : Orderly s) (f : Slot → Slot) (hn : ∀ e, Named s.lock e → Named s.lock (f e))
    (hh : ∀ e, HoldLegal e → HoldLegal (f e)) : Orderly { s with slots := mapTable s.slots f } :=
  hs.slots rfl rfl rfl rfl (fun i _ hd => by rw [mapTable_get]; exact hn _ hd)
    fun i hd => by rw [mapTable_get]; exact hh _ hd

/-- A change of one window entry: the window of a standing lock stays LIVE and not frozen. -/
theorem modWindow (hs : Orderly s) (w : WindowId) (f : Window → Window)
    (hf : lockedWindow s w = true → (f s.windows[w]).state = .live ∧ (f s.windows[w]).frozen = false) :
    Orderly { s with windows := modAt s.windows w f } where
  record := hs.record
  names := hs.names
  window := fun v hv => by
    by_cases hwv : w = v
    · subst hwv
      rw [modAt_get_self]; exact hf hv
    · rw [modAt_get_ne _ _ _ _ hwv]; exact hs.window v hv
  holds := hs.holds
  bus := ⟨hs.bus.hold, hs.bus.tenure, hs.bus.access, hs.bus.overstay⟩

/-- A change of the arbiter and the controller alone. -/
theorem ofBus (hs : Orderly s) (hl : t.lock = s.lock) (hw : t.windows = s.windows) (ht : t.slots = s.slots)
    (hb : BusLaws t) : Orderly t where
  record := lockRecord_congr hl hs.record
  names := by rw [LockNamesSlot, hl, ht]; exact hs.names
  window := lockedWindowLive_congr hl (fun w => by rw [hw]; exact ⟨rfl, rfl⟩) hs.window
  holds := by rw [HoldsLegal, ht]; exact hs.holds
  bus := hb

/-- Another access in the gate's tenure. -/
theorem access (hs : Orderly s) (a : Option Access) (ht : a.isSome = true → s.cbc.tenure = true) :
    Orderly { s with cbc.access := a } :=
  hs.ofBus rfl rfl rfl (hs.bus.congr Iff.rfl rfl rfl rfl rfl ht)

end Orderly

/-- With the lock FREE only the slots' timers and the card bus have laws. -/
theorem orderly_of_free {t : State} (hl : t.lock = Lock.powerOn) (hh : HoldsLegal t) (hb : BusLaws t) : Orderly t :=
  ⟨lockRecord_powerOn hl, lockNames_powerOn hl, lockedWindow_powerOn hl, hh, hb⟩

/-! ### Slots -/

theorem holdLegal_none {e : Slot} (h : e.hold = none) : HoldLegal e := by
  intro hs; rw [h] at hs; cases hs

/-- A slot in none of the states in which a hold timer runs has none. -/
theorem HoldLegal.hold_none {e : Slot} (h : HoldLegal e) (hr : e.state ≠ .ready) (hs : e.state ≠ .stale)
    (hf : e.state ≠ .failed) : e.hold = none := by
  cases hh : e.hold with
  | none => rfl
  | some timer =>
    obtain ⟨h, -⟩ | h | h := h (by rw [hh]; rfl)
    · exact absurd h hr
    · exact absurd h hs
    · exact absurd h hf

theorem lowerAhead_named (l : Lock) (e : Slot) (h : Named l e) : Named l (lowerAhead e) := by
  unfold lowerAhead; split <;> exact h

theorem lowerAhead_holdLegal (e : Slot) (h : HoldLegal e) : HoldLegal (lowerAhead e) := by
  unfold lowerAhead; split <;> exact h

theorem staleSlot_named (l : Lock) (a : CardAddr) (n : Nat) (e : Slot) (h : Named l e) : Named l (staleSlot a n e) := by
  have hl : e.locked = true := h.1
  unfold staleSlot
  rw [if_neg (by simp [hl])]; exact h

theorem staleSlot_holdLegal (a : CardAddr) (n : Nat) (e : Slot) (h : HoldLegal e) : HoldLegal (staleSlot a n e) := by
  unfold staleSlot
  split
  · exact fun _ => .inr (.inl rfl)
  · exact h

theorem modSlot_holds {s : State} (i : SlotId) (f : Slot → Slot) (hf : HoldLegal s.slots[i] → HoldLegal (f s.slots[i]))
    (h : HoldsLegal s) : HoldsLegal (modSlot i f s) := fun j => by
  rw [modSlot_get]
  split
  · next hij => subst hij; exact hf (h i)
  · exact h j

theorem freeSlot_holds (i : SlotId) {s : State} (h : HoldsLegal s) : HoldsLegal (freeSlot i s) := by
  unfold freeSlot
  split
  · exact h
  · exact modSlot_holds i (fun _ => Slot.powerOn) (fun _ => holdLegal_none rfl) h

theorem withdrawSlot_holds (i : SlotId) {s : State} (h : HoldsLegal s) : HoldsLegal (withdrawSlot i s) := by
  unfold withdrawSlot
  split
  · exact modSlot_holds i _ id h
  · exact freeSlot_holds i h

theorem freeAllSlots_holds {s : State} (h : HoldsLegal s) : HoldsLegal (freeAllSlots s) :=
  Closed.foldl (P := HoldsLegal) _ (fun _ i => freeSlot_holds i) _ h

/-- Freeing a slot that the lock does not name. -/
theorem freeSlot_orderly {s : State} (i : SlotId) (hn : s.lock.slot ≠ some i) (hs : Orderly s) :
    Orderly (freeSlot i s) := by
  unfold freeSlot
  split
  · exact hs
  · have hf : Orderly { s with
        slots := modAt s.slots i (fun _ => Slot.powerOn), ageOrder := s.ageOrder.filter (· != i) } :=
      (hs.modSlot i (fun _ => Slot.powerOn) (fun h => absurd h hn) fun _ => holdLegal_none rfl).same
        (by apply sameRecord_of <;> rfl)
    exact hf.same ((lowerReads_same _ _).trans (lowerRef_same _ _))

/-- The lock names a slot that it waits for or that it owns, and no other (R71, R72). -/
theorem Orderly.named_state {s : State} (hs : Orderly s) {i : SlotId} (hi : s.lock.slot = some i) :
    (s.lock.state = .pending ∧ (s.slots[i].state = .waiting ∨ s.slots[i].state = .fetching)) ∨
      (s.lock.state = .owned ∧ s.slots[i].state = .ready) := by
  obtain ⟨-, -, -, -, hp, ho⟩ := hs.names i hi
  cases hl : s.lock.state with
  | free => exact absurd hl (lockStands_of_slot hs.record hi)
  | pending => exact .inl ⟨rfl, hp hl⟩
  | owned => exact .inr ⟨rfl, ho hl⟩

/-! ### The lock unit -/

/-- The laws that a break needs: those of the record, the hold timers and the card bus. -/
structure Breakable (s : State) : Prop where
  record : LockRecordLegal s
  holds : HoldsLegal s
  bus : BusLaws s

theorem Orderly.breakable {s : State} (hs : Orderly s) : Breakable s := ⟨hs.record, hs.holds, hs.bus⟩

theorem breakLock_orderly {s : State} (c : BreakCause) (h : Breakable s) : Orderly (breakLock c s) := by
  obtain ⟨hr, hh, hb⟩ := h
  unfold breakLock
  split
  · dsimp only
    refine Orderly.same (((markVoid_same _).trans (noteBreak_same _ _ _)).trans (offerReport_same _ _)) ?_
    have hlock : (if s.lock.state = .owned then releaseHold (clearLock s) else clearLock s).lock = Lock.powerOn := by
      split <;> simp [clearLock]
    have hbus : BusLaws (if s.lock.state = .owned then releaseHold (clearLock s) else clearLock s) := by
      split
      · exact releaseHold_bus hb nofun rfl rfl
      · next ho => exact hb.congr (by simp [clearLock, Lock.powerOn, ho]) rfl rfl rfl rfl hb.access
    have hholds : HoldsLegal (if s.lock.state = .owned then releaseHold (clearLock s) else clearLock s) := by
      have hs : (if s.lock.state = .owned then releaseHold (clearLock s) else clearLock s).slots = s.slots := by
        split <;> simp
      rw [HoldsLegal, hs]; exact hh
    refine orderly_of_free ?_ ?_ ?_
    · rw [withdrawLockedSlot_lock, hlock]
    · cases s.lock.slot with
      | none => exact hholds
      | some i => exact withdrawSlot_holds i hholds
    · exact hbus.same (by simp) (by simp) (by simp)
  · next hn =>
    have hl := lock_free_of_not_stands hr (by simpa using hn)
    exact orderly_of_free hl hh hb

theorem breakLock_free {s : State} (c : BreakCause) (h : LockRecordLegal s) : (breakLock c s).lock = Lock.powerOn := by
  by_cases hs : lockStands s = true
  · exact breakLock_lock c s hs
  · rw [Bool.not_eq_true] at hs
    rw [breakLock, hs]
    exact lock_free_of_not_stands h hs

theorem freeAllSlots_lock (s : State) : (freeAllSlots s).lock = s.lock := by
  unfold freeAllSlots
  induction List.finRange 8 generalizing s with
  | nil => rfl
  | cons i l ih => exact (ih _).trans (freeSlot_lock i s)

theorem freeAllSlots_arb (s : State) : (freeAllSlots s).arb = s.arb := by
  unfold freeAllSlots
  induction List.finRange 8 generalizing s with
  | nil => rfl
  | cons i l ih => exact (ih _).trans (freeSlot_arb i s)

theorem everySlotFreed_orderly {s : State} (c : BreakCause) (hs : Orderly s) :
    Orderly (releaseHold (breakLock c (freeAllSlots s))) := by
  have hb : Breakable (freeAllSlots s) := ⟨lockRecord_congr (freeAllSlots_lock s) hs.record, freeAllSlots_holds hs.holds,
    hs.bus.same (freeAllSlots_lock s) (freeAllSlots_arb s) (freeAllSlots_cbc s)⟩
  have ho := breakLock_orderly c hb
  have hl : (breakLock c (freeAllSlots s)).lock.state ≠ .owned := by rw [breakLock_free c hb.record]; nofun
  exact ho.ofBus (by simp) (by simp) (by simp) (releaseHold_bus ho.bus hl rfl rfl)

theorem closeLock_orderly {s : State} (d : DataEntry) (hs : Orderly s) : Orderly (closeLock d s) := by
  unfold closeLock
  split
  · have hh : HoldsLegal (unlockReadySlot s.lock.slot (clearLock s)) := by
      unfold unlockReadySlot
      split
      · split
        · next hc =>
          simp only [Bool.and_eq_true, decide_eq_true_eq] at hc
          exact modSlot_holds _ _ (fun _ _ => .inl ⟨hc.1, rfl⟩) hs.holds
        · exact hs.holds
      · exact hs.holds
    have hl : (unlockReadySlot s.lock.slot (clearLock s)).lock = Lock.powerOn := by simp [clearLock]
    refine orderly_of_free (by simp [clearLock]) (by rw [HoldsLegal, releaseHold_slots]; exact hh) ?_
    exact releaseHold_bus hs.bus (by rw [hl]; nofun) (by simp) (by simp)
  · exact hs

theorem stopLockTimer_orderly {s : State} (d : DataEntry) (hs : Orderly s) : Orderly (stopLockTimer d s) := by
  unfold stopLockTimer
  split
  · next hc =>
    simp only [Bool.and_eq_true, decide_eq_true_eq] at hc
    obtain ⟨-, ho⟩ := hc
    exact ⟨lockRecord_of_owned hs.record (by rw [ho]; nofun) ho rfl rfl, hs.names, hs.window, hs.holds,
      hs.bus.congr Iff.rfl rfl rfl rfl rfl hs.bus.access⟩
  · exact hs

theorem freezeOnError_orderly {s : State} (d : DataEntry) (k : ErrorKind) (a : CardAddr) (hs : Orderly s) :
    Orderly (freezeOnError d k a s) := by
  unfold freezeOnError
  dsimp only
  split
  · have hb : Breakable (offerReport (windowFrozenBody d k a)
        { s with windows := modAt s.windows d.window fun e => { e with frozen := true } }) :=
      ⟨lockRecord_congr (by simp) hs.record, by rw [HoldsLegal, offerReport_slots]; exact hs.holds,
        hs.bus.same (by simp) (by simp) (by simp)⟩
    split
    · exact breakLock_orderly _ hb
    · next hn =>
      rw [lockedWindow_congr (s := s) (by simp)] at hn
      exact (hs.modWindow d.window (fun e => { e with frozen := true }) fun h => absurd h hn).same (offerReport_same _ _)
  · exact hs

theorem freeIfDrained_orderly {s : State} (w : WindowId) (hs : Orderly s) : Orderly (freeIfDrained s w) := by
  unfold freeIfDrained
  split
  · next hd =>
    refine (hs.modWindow w freedWindow fun hl => ?_).same (offerReport_same _ _)
    obtain ⟨hlive, -⟩ := hs.window w hl
    rw [hd.1] at hlive; cases hlive
  · exact hs

/-! ### Accesses -/

theorem startFetch_orderly {s : State} (i : SlotId) (ht : s.cbc.tenure = true) (he : eligible s i = true)
    (hs : Orderly s) : Orderly (startFetch i s) := by
  simp only [eligible, Bool.and_eq_true, decide_eq_true_eq] at he
  obtain ⟨hw, -⟩ := he
  have hnone := (hs.holds i).hold_none (by rw [hw]; nofun) (by rw [hw]; nofun) (by rw [hw]; nofun)
  unfold startFetch
  refine (hs.access _ fun _ => ht).modSlot i _ (fun _ hn => ?_) fun _ => holdLegal_none hnone
  obtain ⟨hlocked, howner, hwindow, hmark, -, howned⟩ := hn
  exact ⟨hlocked, howner, hwindow, hmark, fun _ => .inr rfl, fun ho => absurd (hw.symm.trans (howned ho)) nofun⟩

theorem ownLock_orderly {s : State} (i : SlotId) (hp : s.lock.state = .pending) (hi : s.lock.slot = some i)
    (hready : s.slots[i].state = .ready) (ht : s.cbc.tenure = true) (hr : LockRecordLegal s)
    (hn : s.slots[i].locked = true ∧ s.lock.owner = some s.slots[i].key.master ∧ s.lock.window = some s.slots[i].window ∧
      s.slots[i].releaseMark = false)
    (hw : LockedWindowLive s) (hh : HoldsLegal s) (hb : BusLaws s) : Orderly (ownLock s) where
  record := lockRecord_of_owned hr (by rw [hp]; nofun) rfl rfl rfl
  names := fun j hj => by
    obtain rfl : i = j := Option.some.inj (hi.symm.trans hj)
    obtain ⟨h1, h2, h3, h4⟩ := hn
    exact ⟨h1, h2, h3, h4, nofun, fun _ => hready⟩
  window := fun w hl => hw w (by
    simp only [lockedWindow, lockStands, ownLock, takeHold, hp] at hl ⊢; exact hl)
  holds := hh
  bus := ownLock_bus hb ht

theorem fetchSucceeds_orderly {s : State} (i : SlotId) (ws : List Word) (ht : s.cbc.tenure = true)
    (hf : s.slots[i].state = .fetching) (hs : Orderly s) : Orderly (fetchSucceeds i ws s) := by
  have hnone := (hs.holds i).hold_none (by rw [hf]; nofun) (by rw [hf]; nofun) (by rw [hf]; nofun)
  unfold fetchSucceeds
  dsimp only
  split
  · next hlocked =>
    have hh : HoldsLegal (modSlot i (fun e => { e with state := .ready, data := some (ws.map withCode) }) s) :=
      modSlot_holds i _ (fun _ => holdLegal_none hnone) hs.holds
    split
    · next ha =>
      simp only [lockAwaits, Bool.and_eq_true, decide_eq_true_eq] at ha
      obtain ⟨hp, hi⟩ := ha
      obtain ⟨h1, h2, h3, h4, -, -⟩ := hs.names i hi
      refine ownLock_orderly i hp hi ?_ ht hs.record ?_ hs.window hh (hs.bus.same rfl rfl rfl)
      · rw [modSlot_get, if_pos rfl]
      · rw [modSlot_get, if_pos rfl]; exact ⟨h1, h2, h3, h4⟩
    · next ha =>
      refine hs.modSlot i _ (fun hi _ => ?_) fun _ => holdLegal_none hnone
      obtain ⟨hp, -⟩ | ⟨-, hr⟩ := hs.named_state hi
      · exact absurd (by simp only [lockAwaits, modSlot_lock, hp, hi, decide_true, Bool.and_self]) ha
      · rw [hf] at hr; cases hr
  · next hlocked =>
    exact hs.modSlot i _ (fun _ hn => absurd hn.1 hlocked) fun _ _ => .inl ⟨rfl, by simpa using hlocked⟩

theorem fetchFails_orderly {s : State} (i : SlotId) (k : ErrorKind) (a : CardAddr) (hf : s.slots[i].state = .fetching)
    (hs : Orderly s) : Orderly (fetchFails i k a s) := by
  have hh : HoldsLegal (modSlot i (fun e => { e with
      state := .failed, data := none, locked := false, hold := some (startTimer s s.cu.readHold) }) s) :=
    modSlot_holds i _ (fun _ _ => .inr (.inr rfl)) hs.holds
  unfold fetchFails
  dsimp only
  split
  · next ha =>
    simp only [lockAwaits, Bool.and_eq_true, decide_eq_true_eq, offerReport_lock] at ha
    obtain ⟨hp, -⟩ := ha
    replace hp : s.lock.state = .pending := hp
    refine Orderly.same (markVoid_same _) (orderly_of_free rfl ?_ ?_)
    · rw [HoldsLegal, clearLock_slots, offerReport_slots]; exact hh
    · refine BusLaws.congr (s := s) hs.bus ?_ (by simp) (by simp) (by simp) (by simp) (by simpa using hs.bus.access)
      simp [clearLock, Lock.powerOn, hp]
  · next ha =>
    refine Orderly.same (offerReport_same _ _) (hs.modSlot i _ (fun hi _ => ?_) fun _ _ => .inr (.inr rfl))
    obtain ⟨hp, -⟩ | ⟨-, hr⟩ := hs.named_state hi
    · exact absurd (by simpa [lockAwaits] using And.intro hp hi) ha
    · rw [hf] at hr; cases hr

theorem fetchOutcome_orderly {s : State} (o : FetchOutcome) (i : SlotId) (ws : List Word) (ht : s.cbc.tenure = true)
    (hs : Orderly s) : Orderly (fetchOutcome o i ws s) := by
  unfold fetchOutcome
  split
  · next hf =>
    split
    · next hm =>
      refine freeSlot_orderly i (fun hi => ?_) hs
      obtain ⟨-, -, -, hm', -⟩ := hs.names i hi
      rw [hm'] at hm; cases hm
    · cases o with
      | success => exact fetchSucceeds_orderly i ws ht hf hs
      | failed k a => exact fetchFails_orderly i k a hf hs
  · exact hs

theorem removeHead_orderly {s : State} (hs : Orderly s) : Orderly (removeHead s) := by
  unfold removeHead
  split
  · exact hs
  · next e rest _ =>
    have hm := hs.mapSlots lowerAhead (lowerAhead_named _) lowerAhead_holdLegal
    exact hm.same (.trans (t := { s with pwq.entries := rest, slots := mapTable s.slots lowerAhead })
      (by apply sameRecord_of <;> rfl) (entryClaims_same e _))

theorem orderly_closed : Closed Orderly where
  same := Orderly.same
  removeHead := removeHead_orderly
  freeIfDrained := freeIfDrained_orderly
  endTenure := fun hl ha hs => hs.ofBus (by simp) (by simp) (by simp) (endTenure_bus hl ha hs.bus)
  reviewRequest := fun hs => hs.ofBus (by simp) (by simp) (by simp) (reviewRequest_bus hs.bus)
  startFetch := fun i _ ht he => startFetch_orderly i ht he
  markStale := fun a n hs => hs.mapSlots _ (fun e => staleSlot_named _ a n e) (staleSlot_holdLegal a n)
  closeLock := closeLock_orderly
  stopLockTimer := stopLockTimer_orderly
  breakLock := fun c hs => breakLock_orderly c hs.breakable
  freezeOnError := freezeOnError_orderly
  fetchOutcome := fun o i ws ha hs => fetchOutcome_orderly o i ws (hs.bus.access ha) hs
  everySlotFreed := everySlotFreed_orderly
  marked := fun f _ hs => hs.access _ fun h => hs.bus.access (by simpa using h)

theorem orderly_accessClosed : AccessClosed Orderly Orderly where
  inner := orderly_closed
  outer := orderly_closed
  relax := id
  pause := fun _ ha hs => hs.access _ fun _ => ha.elim hs.bus.access id
  clear := fun hs => hs.access none nofun
  operate := fun _ _ _ ha hs => hs.access _ fun _ => hs.bus.access ha

/-! ### Outstanding operations -/

/-- An access in flight has an operation outstanding (R109, R114). -/
def Outstanding (s : State) : Prop := ∀ a, s.cbc.access = some a → a.op.isSome = true

theorem Outstanding.access {s t : State} (h : t.cbc.access = s.cbc.access) (hs : Outstanding s) : Outstanding t := by
  rw [Outstanding, h]; exact hs

theorem removeHead_cbc (s : State) : (removeHead s).cbc = s.cbc := by unfold removeHead; split <;> simp

theorem freeIfDrained_cbc (s : State) (w : WindowId) : (freeIfDrained s w).cbc = s.cbc := by
  unfold freeIfDrained; split <;> simp

theorem freezeOnError_cbc (d : DataEntry) (k : ErrorKind) (a : CardAddr) (s : State) :
    (freezeOnError d k a s).cbc = s.cbc := by
  unfold freezeOnError
  dsimp only
  split
  · split
    · rw [breakLock_cbc, offerReport_cbc]
    · rw [offerReport_cbc]
  · rfl

theorem fetchOutcome_cbc (o : FetchOutcome) (i : SlotId) (ws : List Word) (s : State) :
    (fetchOutcome o i ws s).cbc = s.cbc := by
  unfold fetchOutcome
  split
  · split
    · exact freeSlot_cbc i s
    · split
      · unfold fetchSucceeds; dsimp only
        split
        · split <;> rfl
        · rfl
      · unfold fetchFails; dsimp only
        split <;> simp
  · rfl

theorem outstanding_closed : Closed Outstanding where
  same := fun h => Outstanding.access (by rw [h.cbc])
  removeHead := Outstanding.access (by rw [removeHead_cbc])
  freeIfDrained := fun w => Outstanding.access (by rw [freeIfDrained_cbc])
  endTenure := fun _ _ => Outstanding.access (by simp)
  reviewRequest := Outstanding.access (by simp)
  startFetch := fun i _ _ _ _ _ ha => by cases ha; rfl
  markStale := fun _ _ => Outstanding.access rfl
  closeLock := fun d => Outstanding.access (by simp)
  stopLockTimer := fun d => Outstanding.access (by simp)
  breakLock := fun c => Outstanding.access (by rw [breakLock_cbc])
  freezeOnError := fun d k a => Outstanding.access (by rw [freezeOnError_cbc])
  fetchOutcome := fun o i ws _ => Outstanding.access (by rw [fetchOutcome_cbc])
  everySlotFreed := fun c => Outstanding.access (by rw [releaseHold_cbc, breakLock_cbc, freeAllSlots_cbc])
  marked := fun f hf hs _ ha => by
    obtain ⟨b, hb, rfl⟩ := Option.map_eq_some_iff.1 ha
    rw [hf]; exact hs b hb

/-- Within an access nothing is asked of its operation. -/
theorem anything_closed : Closed fun _ => True := by constructor <;> intros <;> trivial

theorem outstanding_accessClosed : AccessClosed (fun _ => True) Outstanding where
  inner := anything_closed
  outer := outstanding_closed
  relax := fun _ => trivial
  pause := fun _ _ _ => trivial
  clear := fun _ _ ha => by cases ha
  operate := fun a op ho _ _ _ hb => by cases hb; rw [ho]; rfl

end Sys2Proof.Scope
end

section
/-! The laws between events, and the trunk transactions that keep them (chapters 1, 3, 4, 8 and 10). -/

namespace Sys2Proof.Scope

open Sys2Proof Sys2Proof.Machine Sys2Proof.Safety

/-! ### The laws together -/

theorem Closed.and {P₁ P₂ : State → Prop} (h₁ : Closed P₁) (h₂ : Closed P₂) : Closed fun s => P₁ s ∧ P₂ s where
  same := fun h hs => ⟨h₁.same h hs.1, h₂.same h hs.2⟩
  removeHead := fun hs => ⟨h₁.removeHead hs.1, h₂.removeHead hs.2⟩
  freeIfDrained := fun w hs => ⟨h₁.freeIfDrained w hs.1, h₂.freeIfDrained w hs.2⟩
  endTenure := fun hl ha hs => ⟨h₁.endTenure hl ha hs.1, h₂.endTenure hl ha hs.2⟩
  reviewRequest := fun hs => ⟨h₁.reviewRequest hs.1, h₂.reviewRequest hs.2⟩
  startFetch := fun i ha ht he hs => ⟨h₁.startFetch i ha ht he hs.1, h₂.startFetch i ha ht he hs.2⟩
  markStale := fun a n hs => ⟨h₁.markStale a n hs.1, h₂.markStale a n hs.2⟩
  closeLock := fun d hs => ⟨h₁.closeLock d hs.1, h₂.closeLock d hs.2⟩
  stopLockTimer := fun d hs => ⟨h₁.stopLockTimer d hs.1, h₂.stopLockTimer d hs.2⟩
  breakLock := fun c hs => ⟨h₁.breakLock c hs.1, h₂.breakLock c hs.2⟩
  freezeOnError := fun d k a hs => ⟨h₁.freezeOnError d k a hs.1, h₂.freezeOnError d k a hs.2⟩
  fetchOutcome := fun o i ws ha hs => ⟨h₁.fetchOutcome o i ws ha hs.1, h₂.fetchOutcome o i ws ha hs.2⟩
  everySlotFreed := fun c hs => ⟨h₁.everySlotFreed c hs.1, h₂.everySlotFreed c hs.2⟩
  marked := fun f hf hs => ⟨h₁.marked f hf hs.1, h₂.marked f hf hs.2⟩

theorem AccessClosed.and {Q₁ P₁ Q₂ P₂ : State → Prop} (h₁ : AccessClosed Q₁ P₁) (h₂ : AccessClosed Q₂ P₂) :
    AccessClosed (fun s => Q₁ s ∧ Q₂ s) fun s => P₁ s ∧ P₂ s where
  inner := h₁.inner.and h₂.inner
  outer := h₁.outer.and h₂.outer
  relax := fun hs => ⟨h₁.relax hs.1, h₂.relax hs.2⟩
  pause := fun a ha hs => ⟨h₁.pause a ha hs.1, h₂.pause a ha hs.2⟩
  clear := fun hs => ⟨h₁.clear hs.1, h₂.clear hs.2⟩
  operate := fun a op ho ha hs => ⟨h₁.operate a op ho ha hs.1, h₂.operate a op ho ha hs.2⟩

/-- No timer has run past its limit (R1). -/
def InTime : Time → Clock → Timer → Prop := fun now _ timer => OnTime now timer

/-- What an event keeps of the lock, the card bus and the timers from operation to operation. -/
def Mid (s : State) : Prop := Orderly s ∧ Timed InTime none s ∧ Outstanding s

/-- What it keeps while the operation of its access has ended. -/
def InAccess (s : State) : Prop := Orderly s ∧ Timed InTime (some .response) s ∧ True

theorem mid_accessClosed : AccessClosed InAccess Mid :=
  orderly_accessClosed.and ((timed_accessClosed InTime).and outstanding_accessClosed)

theorem started_inTime {s : State} {c : Clock} {timer : Timer} (h : Started s c timer) : OnTime s.timebase timer := by
  obtain ⟨rfl, -⟩ := h
  simp [OnTime, startTimer]

/-- The timers of a state that runs no other than the timers of `s`. -/
theorem inTime_of_running {s t : State} (hb : t.timebase = s.timebase)
    (hr : ∀ c timer, running t c = some timer → running s c = some timer) (hs : Timed InTime none s) :
    Timed InTime none t :=
  ⟨fun c timer hc ht => by rw [hb]; exact hs.runs c timer hc (hr c timer ht), fun _ _ => started_inTime⟩

theorem mid_of_laws {s : State} (hr : LockRecordLegal s) (hn : LockNamesSlot s) (hw : LockedWindowLive s)
    (hb : LockHoldsBus s) (ht : TenureLegal s) (hi : TimersOnTime s) (hs : SlotsLegal s) : Mid s := by
  obtain ⟨h1, h2, h3⟩ := ht
  obtain ⟨hresponse, hlock, hslot, hover⟩ := hi
  refine ⟨⟨hr, hn, hw, fun i => holdLegal_of_slotLegal (hs i), hb, h1, h2, fun ho => ?_⟩,
    ⟨fun c timer _ hc => ?_, fun _ _ => started_inTime⟩, h3⟩
  · obtain ⟨timer, ho⟩ := Option.isSome_iff_exists.1 ho
    obtain ⟨-, p, hp | ⟨inTenure, hp⟩⟩ := hover timer ho <;> simp [residentOwner, hp]
  · cases c with
    | response =>
      obtain ⟨a, p, ha, hp, rfl⟩ := (running_response s timer).1 hc
      exact hresponse a p ha hp
    | lock => exact hlock timer ((running_lock s timer).1 hc).2
    | slot i => exact hslot i timer hc
    | overstay => exact (hover timer hc).1

theorem residentOwner_some {s : State} {p : Port} (h : residentOwner s = some p) :
    s.arb.state = .tenure (.port p) ∨ ∃ inTenure, s.arb.state = .locked (.port p) inTenure := by
  unfold residentOwner at h
  split at h <;> cases h
  · next hs => exact .inl hs
  · next inTenure hs => exact .inr ⟨inTenure, hs⟩

namespace Mid

variable {s t : State}

theorem orderly (h : Mid s) : Orderly s := h.1
theorem timed (h : Mid s) : Timed InTime none s := h.2.1
theorem outstanding (h : Mid s) : Outstanding s := h.2.2
theorem record (h : Mid s) : LockRecordLegal s := h.orderly.record
theorem bus (h : Mid s) : BusLaws s := h.orderly.bus

theorem tenureLegal (h : Mid s) : TenureLegal s := ⟨h.bus.tenure, h.bus.access, h.outstanding⟩

theorem timersOnTime (h : Mid s) : TimersOnTime s := by
  obtain ⟨ho, ht, -⟩ := h
  refine ⟨fun a p ha hp => ht.runs .response _ nofun ((running_response s _).2 ⟨a, p, ha, hp, rfl⟩), fun timer hl => ?_,
    fun i timer hi => ht.runs (.slot i) timer nofun hi, fun timer hv => ⟨ht.runs .overstay timer nofun hv, ?_⟩⟩
  · refine ht.runs .lock timer nofun ((running_lock s timer).2 ⟨?_, hl⟩)
    obtain ⟨hf, -, hp⟩ := ho.record
    cases hs : s.lock.state with
    | free => rw [hf hs] at hl; cases hl
    | pending => rw [(hp hs).2] at hl; cases hl
    | owned => rfl
  · obtain ⟨p, hp⟩ := Option.isSome_iff_exists.1 (ho.bus.overstay (by rw [hv]; rfl))
    exact ⟨p, residentOwner_some hp⟩

theorem same (h : SameRecord s t) (hs : Mid s) : Mid t := mid_accessClosed.outer.same h hs

theorem settle (hs : Mid s) : Mid (settle s) := mid_accessClosed.settle hs

/-- A change that the laws and the timers follow, with the access as it was. -/
theorem of (hs : Mid s) (ho : Orderly t) (hf : TimersFollow s t) (hc : t.cbc.access = s.cbc.access) : Mid t :=
  ⟨ho, hs.timed.follow hf, hs.outstanding.access hc⟩

theorem modSlot (hs : Mid s) (i : SlotId) (f : Slot → Slot)
    (hn : s.lock.slot = some i → Named s.lock s.slots[i] → Named s.lock (f s.slots[i]))
    (hh : HoldLegal s.slots[i] → HoldLegal (f s.slots[i]))
    (ht : (f s.slots[i]).hold = s.slots[i].hold ∨ (f s.slots[i]).hold = none) : Mid (modSlot i f s) :=
  hs.of (hs.orderly.modSlot i f hn hh) (follow_modSlot i f s (ht.imp_right .inl)) rfl

theorem freeSlot (hs : Mid s) (i : SlotId) (hn : s.lock.slot ≠ some i) : Mid (freeSlot i s) :=
  hs.of (freeSlot_orderly i hn hs.1) (follow_freeSlot i s) (by simp)

theorem modWindow (hs : Mid s) (w : WindowId) (f : Window → Window)
    (hf : lockedWindow s w = true → (f s.windows[w]).state = .live ∧ (f s.windows[w]).frozen = false) :
    Mid { s with windows := modAt s.windows w f } :=
  hs.of (hs.orderly.modWindow w f hf) (follow_of_same rfl rfl rfl rfl rfl rfl) rfl

/-- A change of the arbiter that keeps the laws of the card bus. -/
theorem ofBus (hs : Mid s) (hb : BusLaws t) (hf : TimersFollow s t) (hl : t.lock = s.lock) (hw : t.windows = s.windows)
    (hsl : t.slots = s.slots) (hc : t.cbc.access = s.cbc.access) : Mid t :=
  hs.of (hs.orderly.ofBus hl hw hsl hb) hf hc

theorem requestArrives (hs : Mid s) (r : Requester) : Mid (requestArrives r s) :=
  hs.ofBus (requestArrives_bus r hs.bus) (follow_requestArrives r s) (by simp) (by simp) (by simp) (by simp)

theorem decision (hs : Mid s) (ht : s.cbc.tenure = false) : Mid (decision s) :=
  hs.ofBus (decision_bus (hs.bus.free ht)) (follow_decision s) (by simp) (by simp) (by simp) (by simp)

/-- The resident that owns the grant changes its hold or its tenure. -/
theorem residentKeeps (hs : Mid s) (p : Port) (ho : residentOwner s = some p) (state : ArbState)
    (ht : state = .tenure (.port p) ∨ ∃ inTenure, state = .locked (.port p) inTenure) :
    Mid { s with arb.state := state } :=
  hs.ofBus (residentKeeps_bus hs.bus p ho ht rfl rfl rfl) (follow_of_arb rfl rfl rfl rfl rfl (.inl rfl)) rfl rfl rfl rfl

end Mid

/-- The lock names no slot in any state but those of R71 and R72. -/
theorem Orderly.not_named {s : State} (hs : Orderly s) {i : SlotId} (hw : s.slots[i].state ≠ .waiting)
    (hf : s.slots[i].state ≠ .fetching) (hr : s.slots[i].state ≠ .ready) : s.lock.slot ≠ some i := fun hi => by
  obtain ⟨-, h | h⟩ | ⟨-, h⟩ := hs.named_state hi
  · exact hw h
  · exact hf h
  · exact hr h

/-! ### Returns to a slot -/

theorem collectSlot_mid {s : State} (i : SlotId) (hr : s.slots[i].state = .ready) (hs : Mid s) :
    Mid (collectSlot i s) := by
  unfold collectSlot
  dsimp only
  split
  · next hc =>
    simp only [Bool.and_eq_true, decide_eq_true_eq] at hc
    obtain ⟨-, hi⟩ := hc
    have ho : s.lock.state = .owned := by
      obtain ⟨-, h | h⟩ | ⟨h, -⟩ := hs.orderly.named_state hi
      · rw [hr] at h; cases h
      · rw [hr] at h; cases h
      · exact h
    have hx : Mid { s with lock.slot := none } := by
      refine hs.of ⟨lockRecord_of_owned hs.record (by rw [ho]; nofun) ho rfl rfl, nofun, hs.orderly.window,
        hs.orderly.holds, hs.bus.congr Iff.rfl rfl rfl rfl rfl hs.bus.access⟩ ?_ rfl
      exact follow_of rfl rfl (.inl rfl) (.inl rfl) (fun _ => .inl rfl) (.inl rfl)
    exact hx.freeSlot i nofun
  · next hc =>
    refine hs.freeSlot i fun hi => hc ?_
    have hf := lockStands_of_slot hs.record hi
    simp [lockStands, hf, hi]

theorem returnReady_mid {s : State} (i : SlotId) (hr : s.slots[i].state = .ready) (hs : Mid s) :
    Mid (returnReady i s) := by
  unfold returnReady
  dsimp only
  split
  · exact (collectSlot_mid i hr hs).settle.same (answer_same _ _)
  · exact (mid_accessClosed.endStoppedAccess (mid_accessClosed.outer.faultGate _ hs)).settle.same (answer_same _ _)

theorem restartSlot_mid {s : State} (i : SlotId) (hr : s.slots[i].state = .stale) (hs : Mid s) :
    Mid (restartSlot i s) := by
  have hx : Mid { s with ageOrder := s.ageOrder.filter (· != i) ++ [i] } := hs.same (by apply sameRecord_of <;> rfl)
  refine hx.modSlot i _ (fun hi _ => absurd hi ?_) (fun _ => holdLegal_none rfl) (.inr rfl)
  exact hs.orderly.not_named (by rw [hr]; nofun) (by rw [hr]; nofun) (by rw [hr]; nofun)

theorem returnStale_mid {s : State} (i : SlotId) (hr : s.slots[i].state = .stale) (hs : Mid s) :
    Mid (returnStale i s) := by
  unfold returnStale
  split
  · exact (restartSlot_mid i hr hs).settle.same (answer_same _ _)
  · exact (hs.freeSlot i (hs.orderly.not_named (by rw [hr]; nofun) (by rw [hr]; nofun) (by rw [hr]; nofun))).settle.same
      (answer_same _ _)
  · exact hs.same (answer_same _ _)

theorem returnTo_mid {s : State} (i : SlotId) (hs : Mid s) : Mid (returnTo i s) := by
  unfold returnTo
  split
  · next hr => exact returnReady_mid i hr hs
  · next hr =>
    exact (hs.freeSlot i (hs.orderly.not_named (by rw [hr]; nofun) (by rw [hr]; nofun) (by rw [hr]; nofun))).settle.same
      (answer_same _ _)
  · next hr => exact returnStale_mid i hr hs
  · exact hs.same (answer_same _ _)

/-! ### New reads -/

/-- An OPEN read's slot makes the lock PENDING on a LIVE window that is not frozen (R72, R74). -/
theorem openLockOn_mid {s : State} (i : SlotId) (w : WindowId) (t : Txn)
    (hf : t.lock = .openLock → lockStands s = false)
    (hw : s.windows[w].state = .live ∧ s.windows[w].frozen = false)
    (hi : s.slots[i].state = .waiting ∧ s.slots[i].locked = decide (t.lock = .openLock) ∧
      s.slots[i].key.master = t.master ∧ s.slots[i].window = w ∧ s.slots[i].releaseMark = false)
    (hs : Mid s) : Mid (openLockOn i w t s) := by
  unfold openLockOn
  split
  · next ho =>
    have hfree := lock_free_of_not_stands hs.record (hf ho)
    obtain ⟨hwait, hlocked, hmaster, hwindow, hmark⟩ := hi
    refine hs.of ⟨⟨nofun, fun _ => ⟨rfl, rfl⟩, fun _ => ⟨rfl, rfl⟩⟩, fun j hj => ?_, fun v hv => ?_, hs.orderly.holds, ?_⟩ ?_ rfl
    · cases hj
      exact ⟨by rw [hlocked]; simp [ho], by rw [hmaster], by rw [hwindow], hmark, fun _ => .inl hwait, nofun⟩
    · simp only [lockedWindow, Bool.and_eq_true, decide_eq_true_eq, Option.some.injEq] at hv
      obtain ⟨-, rfl⟩ := hv
      exact hw
    · exact hs.bus.congr (by rw [hfree]; exact ⟨nofun, nofun⟩) rfl rfl rfl rfl hs.bus.access
    · exact follow_of rfl rfl (.inl rfl) (.inr (.inl rfl)) (fun _ => .inl rfl) (.inl rfl)
  · exact hs

theorem allocateSlot_mid {s : State} (i : SlotId) (w : WindowId) (t : Txn) (hi : s.slots[i].state = .free)
    (hf : t.lock = .openLock → lockStands s = false)
    (hw : s.windows[w].state = .live ∧ s.windows[w].frozen = false) (hs : Mid s) : Mid (allocateSlot i w t s) := by
  have hn := hs.orderly.not_named (i := i) (by rw [hi]; nofun) (by rw [hi]; nofun) (by rw [hi]; nofun)
  have hx : Mid { s with slots := modAt s.slots i (fun _ => allocatedSlot s w t), ageOrder := s.ageOrder ++ [i] } :=
    (hs.modSlot i (fun _ => allocatedSlot s w t) (fun h => absurd h hn) (fun _ => holdLegal_none rfl) (.inr rfl)).same
      (by apply sameRecord_of <;> rfl)
  have hr := (raiseReads_same t.master { s with
    slots := modAt s.slots i (fun _ => allocatedSlot s w t), ageOrder := s.ageOrder ++ [i] }).trans (raiseRef_same w _)
  refine openLockOn_mid i w t ?_ ?_ ?_ (hx.same hr)
  · rw [lockStands, hr.lock]; exact hf
  · rw [(hr.windows w).1, (hr.windows w).2]; exact hw
  · rw [hr.slots, modAt_get_self]
    exact ⟨rfl, rfl, rfl, rfl, rfl⟩

theorem newRead_mid {s : State} (w : WindowId) (t : Txn)
    (hw : s.windows[w].state = .live ∧ s.windows[w].frozen = false) (hs : Mid s) : Mid (newRead w t s) := by
  unfold newRead
  split
  · next hc =>
    have hf : t.lock = .openLock → lockStands s = false := fun ho => by
      rw [Bool.and_eq_true] at hc
      simpa [ho] using hc.2
    split
    · next i hi =>
      exact (allocateSlot_mid i w t (by simpa using List.find?_some hi) hf hw hs).settle.same (answer_same _ _)
    · exact hs.same (answer_same _ _)
  · exact hs.same (answer_same _ _)

theorem readStep_mid {s : State} (w : WindowId) (t : Txn)
    (hw : s.windows[w].state = .live ∧ s.windows[w].frozen = false) (hs : Mid s) : Mid (readStep w t s) := by
  unfold readStep
  split
  · exact returnTo_mid _ hs
  · exact newRead_mid w t hw hs

/-! ### Writes -/

theorem noteClosing_mid {s : State} (t : Txn) (hl : t.lock = .closeLock → lockStands s = true) (hs : Mid s) :
    Mid (noteClosing t s) := by
  unfold noteClosing
  split
  · next hc =>
    have hstands : s.lock.state ≠ .free := by simpa [lockStands] using hl hc
    obtain ⟨-, hstanding, hpending⟩ := hs.record
    refine hs.of ⟨⟨fun h => absurd h hstands, hstanding, hpending⟩, hs.orderly.names, hs.orderly.window,
      hs.orderly.holds, hs.bus.congr Iff.rfl rfl rfl rfl rfl hs.bus.access⟩ ?_ rfl
    exact follow_of rfl rfl (.inl rfl) (.inl rfl) (fun _ => .inl rfl) (.inl rfl)
  · exact hs

theorem appendData_same (d : DataEntry) (s : State) : SameRecord s (appendData d s) :=
  .trans (t := { s with pwq.entries := s.pwq.entries ++ [.data d], pwq.accepted := s.pwq.accepted + 1 })
    (by apply sameRecord_of <;> rfl) ((raiseWrites_same _ _).trans (raiseRef_same _ _))

theorem writeStep_mid {s : State} (w : WindowId) (t : Txn) (beats : List Beat)
    (hl : t.lock = .closeLock → lockStands s = true) (hs : Mid s) : Mid (writeStep w t beats s) := by
  unfold writeStep
  split
  · exact hs.same ((offerReport_same _ _).trans (answer_same _ _))
  · split
    · have ha := appendData_same (entryOf s w t beats) s
      refine (noteClosing_mid t ?_ (hs.same ha)).settle.same (answer_same _ _)
      rw [lockStands, ha.lock]; exact hl
    · exact hs.same (answer_same _ _)

/-! ### The answer selection -/

theorem chargeViolation_same (c : ViolationCause) (w : WindowId) (t : Txn) (s : State) :
    SameRecord s (chargeViolation c w t s) := by
  have hv : SameRecord s (countViolation t.master s) := by apply sameRecord_of <;> rfl
  have ht : ∀ x, SameRecord x (applyThreshold c w t x) := fun x => by
    unfold applyThreshold
    split
    · exact .trans (by apply sameRecord_of <;> rfl) (offerReport_same _ _)
    · exact .refl x
  unfold chargeViolation
  dsimp only
  split
  · exact (hv.trans (offerReport_same _ _)).trans (ht _)
  · exact hv.trans (ht _)

theorem clearNoteIf_same (clear : Bool) (m : MasterId) (s : State) : SameRecord s (clearNoteIf clear m s) := by
  unfold clearNoteIf
  split
  · exact setNote_same _ _ _
  · exact .refl s

/-- A CLOSE passes the lock step only under a standing lock (R73). -/
theorem lockStands_of_close {s : State} {w : WindowId} {t : Txn} {clear : Bool} (h : lockStep s w t = .pass clear)
    (hc : t.lock = .closeLock) : lockStands s = true := by
  simp only [lockStep, hc] at h
  split at h
  · cases h
  · split at h
    · cases h
    · next hn =>
      simp only [Bool.or_eq_true, Bool.not_eq_true', not_or, Bool.not_eq_false] at hn
      obtain ⟨ho, -⟩ := hn
      simp only [lockOwnedBy, lockedWindow, Bool.and_eq_true] at ho
      obtain ⟨⟨hstands, -⟩, -⟩ := ho
      exact hstands

theorem lockAndLastStep_mid {s : State} (w : WindowId) (t : Txn)
    (hw : s.windows[w].state = .live ∧ s.windows[w].frozen = false) (hs : Mid s) : Mid (lockAndLastStep w t s) := by
  unfold lockAndLastStep
  split
  · exact hs.same ((clearNoteIf_same _ _ _).trans (answer_same _ _))
  · exact hs.same ((clearNoteIf_same _ _ _).trans (answer_same _ _))
  · next clear hp =>
    have hn := clearNoteIf_same clear t.master s
    unfold lastStep
    split
    · exact readStep_mid w t (by rw [(hn.windows w).1, (hn.windows w).2]; exact hw) (hs.same hn)
    · exact writeStep_mid w t _ (fun hc => by rw [lockStands, hn.lock]; exact lockStands_of_close hp hc) (hs.same hn)

theorem claimedTxn_mid {s : State} (w : WindowId) (t : Txn) (hw : s.windows[w].state = .live) (hs : Mid s) :
    Mid (claimedTxn w t s) := by
  have refused := hs.same (answer_same .refuse s)
  have charged := fun c => hs.same ((chargeViolation_same c w t s).trans (answer_same .refuse _))
  unfold claimedTxn
  split
  · exact refused
  split
  · exact refused
  split
  · exact charged _
  split
  · exact refused
  next hfrozen =>
  split
  · exact charged _
  split
  · exact charged _
  split
  · exact hs.same (answer_same _ _)
  · exact lockAndLastStep_mid w t ⟨hw, by simpa using hfrozen⟩ hs

theorem windowTxn_mid {s : State} (t : Txn) (hs : Mid s) : Mid (windowTxn t s) := by
  unfold windowTxn
  split
  · exact hs.same (answer_same _ _)
  · next w hc =>
    have hl := List.find?_some hc
    simp only [claims, Bool.and_eq_true, decide_eq_true_eq] at hl
    obtain ⟨⟨hlive, -⟩, -⟩ := hl
    exact claimedTxn_mid w t hlive hs

end Sys2Proof.Scope
end

section
/-! The settings, the resets, the control region and the ordered commands keep the laws of the lock, the card bus and the
timers (chapters 7 to 10). -/

namespace Sys2Proof.Scope

open Sys2Proof Sys2Proof.Machine Sys2Proof.Safety

/-! ### Arbitration settings -/

theorem heedHoldByChoice_mid {s : State} (p : Port) (ho : residentOwner s = some p) (hs : Mid s) :
    Mid (heedHoldByChoice p s) := by
  unfold heedHoldByChoice
  split
  · exact hs.same (takeChoice_same s)
  · exact (hs.residentKeeps p ho (.locked (.port p) true) (.inr ⟨true, rfl⟩)).same (takeChoice_same _)

theorem settingsTakeEffect_mid {s : State} (before : PortSet) (hs : Mid s) : Mid (settingsTakeEffect before s) := by
  have hbus := hs.bus
  unfold settingsTakeEffect
  split
  · next owner ha => exact hs.decision (hbus.no_tenure (by rw [ha]; nofun) (by rw [ha]; nofun))
  · next p inTenure ha =>
    have ho : residentOwner s = some p := by rw [residentOwner, ha]
    split
    · exact hs
    · split
      · exact hs.residentKeeps p ho _ (.inl rfl)
      · exact hs.decision (hbus.no_tenure (by rw [ha]; nofun) (by rw [ha]; nofun))
  · next p ha =>
    split
    · exact heedHoldByChoice_mid p (by rw [residentOwner, ha]) hs
    · exact hs
  · exact hs

theorem writeSettings_mid {s : State} (policy : ParkPolicy) (highWater : Nat) (enabled : PortSet) (hs : Mid s) :
    Mid (writeSettings policy highWater enabled s) := by
  have hx : Mid { s with arb.policy := policy, arb.highWater := highWater, arb.enabled := enabled } :=
    hs.ofBus (hs.bus.congr Iff.rfl rfl rfl rfl rfl hs.bus.access) (follow_of_arb rfl rfl rfl rfl rfl (.inl rfl))
      rfl rfl rfl rfl
  exact settingsTakeEffect_mid _ hx

/-! ### The manager's settings -/

/-- A change of the control unit's record: the limits of timers not yet started are no law (R138). -/
theorem Mid.ofControl {s t : State} (hs : Mid s) (hb : t.timebase = s.timebase) (hl : t.lock = s.lock)
    (hw : t.windows = s.windows) (ht : t.slots = s.slots) (ha : t.arb = s.arb) (hc : t.cbc = s.cbc) : Mid t := by
  refine ⟨hs.orderly.ofBus hl hw ht (hs.bus.same hl ha hc), inTime_of_running hb (fun c timer h => ?_) hs.timed,
    hs.outstanding.access (by rw [hc])⟩
  cases c <;> simpa only [running, hl, ht, ha, hc] using h

theorem driveLine_same (s : State) : SameRecord s (driveLine s) := by apply sameRecord_of <;> rfl

/-- The manager and attention are no limits of timers (R138). -/
theorem manager_same (s : State) (manager : Option MasterId) (attention : Bool) :
    SameRecord s { s with cu.manager := manager, cu.attention := attention } :=
  ⟨rfl, fun k => by cases k <;> rfl, rfl, rfl, rfl, rfl, fun _ => ⟨rfl, rfl⟩⟩

/-! ### Resets of the gate and of the trunk -/

theorem clearWindows_mid {s : State} (hl : s.lock = Lock.powerOn) (hs : Mid s) : Mid (clearWindows s) :=
  hs.of (orderly_of_free hl hs.orderly.holds (hs.bus.same rfl rfl rfl)) (follow_of_same rfl rfl rfl rfl rfl rfl) rfl

theorem clearConfiguration_mid {s : State} (hl : s.lock = Lock.powerOn) (hs : Mid s) : Mid (clearConfiguration s) := by
  have hx := (clearWindows_mid hl hs).same (t := { clearWindows s with
    masters := mapTable (clearWindows s).masters defaultMaster }) (by apply sameRecord_of <;> rfl)
  exact (writeSettings_mid _ _ _ hx).ofControl rfl rfl rfl rfl rfl rfl

theorem gateReset_mid {s : State} (clear : Bool) (hs : Mid s) : Mid (gateReset clear s) := by
  have h := mid_accessClosed
  have hx : Mid { s with gsc := ⟨.standby, .none, none⟩ } := hs.same (by apply sameRecord_of <;> rfl)
  have hq := h.outer.same (emptyQueue_same _) (h.outer.markStop hx)
  have hf := fun held => (h.outer.endIdleTenure held (h.outer.everySlotFreed .reset hq)).same (clearNotes_same _)
  unfold gateReset
  dsimp only
  refine (h.endStoppedAccess (Mid.same (offerReport_same _ _) ?_)).settle
  split
  · refine clearConfiguration_mid ?_ (hf _)
    rw [clearNotes_lock, endIdleTenure_lock, releaseHold_lock]
    exact breakLock_free _ (lockRecord_congr (freeAllSlots_lock _) hq.record)
  · exact hf _

theorem trunkReset_mid {s : State} (hs : Mid s) : Mid (trunkReset s) := by
  have h := mid_accessClosed
  have hx : Mid { s with gsc := trunkResetState s.gsc } := hs.same (by apply sameRecord_of <;> rfl)
  have hd : Mid (detachFetch { s with gsc := trunkResetState s.gsc }) :=
    h.outer.marked (fun a => if a.kind = .fetch then stopped a else a) (fun a => by split <;> rfl) hx
  have hf := (h.outer.endIdleTenure (detachFetch { s with gsc := trunkResetState s.gsc }).arb.lockHold
    (h.outer.everySlotFreed .reset hd)).same ((clearNotes_same _).trans ((manager_same _ none false).trans
      (driveLine_same _)))
  exact (h.endStoppedAccess (hf.same (offerReport_same _ _))).settle

/-! ### The control region -/

theorem claimRole_mid {s : State} (m : MasterId) (data : Word) (hs : Mid s) : Mid (claimRole m data s) := by
  unfold claimRole
  split
  · exact hs.same (answer_same _ _)
  · split
    · exact hs.same ((manager_same s (some m) s.cu.attention).trans (answer_same _ _))
    · split <;> exact hs.same (answer_same _ _)

theorem releaseReport_mid {s : State} (data : Word) (hs : Mid s) : Mid (releaseReport data s) := by
  unfold releaseReport
  split
  · exact hs.same (answer_same _ _)
  · split
    · have hr : SameRecord s (removeReport s) := by apply sameRecord_of <;> rfl
      exact hs.same (hr.trans (answer_same _ _))
    · exact hs.same (answer_same _ _)

theorem setAttention_mid {s : State} (data : Word) (hs : Mid s) : Mid (setAttention data s) := by
  have set := fun on => hs.same
    (((manager_same s s.cu.manager on).trans (driveLine_same _)).trans (answer_same (.done []) _))
  unfold setAttention
  split
  · exact set false
  · split
    · exact set true
    · exact hs.same (answer_same _ _)

theorem resetGateWord_mid {s : State} (data : Word) (hs : Mid s) : Mid (resetGateWord data s) := by
  unfold resetGateWord
  split
  · exact (gateReset_mid _ hs).same (answer_same _ _)
  · split
    · exact (gateReset_mid _ hs).same (answer_same _ _)
    · exact hs.same (answer_same _ _)

theorem takeRecord_mid {s : State} (m : MasterId) (words : List Word) (hs : Mid s) : Mid (takeRecord m words s) := by
  unfold takeRecord
  split
  · exact hs.same (answer_same _ _)
  · split
    · exact (hs.same (appendControl_same _ _)).settle.same (answer_same _ _)
    · exact hs.same (answer_same _ _)

theorem operate_mid {s : State} (m : MasterId) (op : ControlOp) (hs : Mid s) : Mid (operate m op s) := by
  cases op with
  | claim data => exact claimRole_mid m data hs
  | relinquish data => exact hs.same ((manager_same s none s.cu.attention).trans (answer_same _ _))
  | release data => exact releaseReport_mid data hs
  | attention data => exact setAttention_mid data hs
  | resetGate data => exact resetGateWord_mid data hs
  | intake words => exact takeRecord_mid m words hs
  | _ => exact hs.same (answer_same _ _)

theorem controlTxn_mid {s : State} (t : Txn) (hs : Mid s) : Mid (controlTxn t s) := by
  unfold controlTxn
  split
  · exact hs.same ((offerReport_same _ _).trans (answer_same _ _))
  · split
    · exact hs.same (answer_same _ _)
    · unfold serveOp
      split
      · exact hs.same (answer_same _ _)
      · exact operate_mid _ _ hs

theorem trunkTxn_mid {s : State} (t : Txn) (hs : Mid s) : Mid (trunkTxn t s) := by
  unfold trunkTxn
  split
  · exact hs.same (answer_same _ _)
  · split
    · exact controlTxn_mid t hs
    · exact windowTxn_mid t hs

/-! ### Withdrawals -/

theorem withdrawSlot_mid {s : State} (i : SlotId) (hn : s.lock.slot ≠ some i) (hs : Mid s) : Mid (withdrawSlot i s) := by
  unfold withdrawSlot
  split
  · exact hs.modSlot i _ (fun h => absurd h hn) id (.inl rfl)
  · exact hs.freeSlot i hn

/-- The withdrawal of slots that the lock does not name. -/
theorem withdrawSlots_mid {s : State} (p : Slot → Bool)
    (hp : ∀ t, Mid t → t.lock = s.lock → ∀ i : SlotId, p t.slots[i] = true → t.lock.slot ≠ some i) (hs : Mid s) :
    Mid (withdrawSlots p s) := by
  refine (Closed.foldl (P := fun t => Mid t ∧ t.lock = s.lock) _ (fun t i ht => ?_) _ ⟨hs, rfl⟩).1
  split
  · next hc =>
    rw [Bool.and_eq_true] at hc
    exact ⟨withdrawSlot_mid i (hp t ht.1 ht.2 i hc.1) ht.1, by rw [withdrawSlot_lock]; exact ht.2⟩
  · exact ht

/-! ### Ordered commands -/

theorem retireLive_mid {s : State} (w : WindowId) (tag : Tag) (hs : Mid s) : Mid (retireLive w tag s) := by
  have hd : Mid (breakIfOnWindow w (drainWindow w tag s)) ∧
      lockedWindow (breakIfOnWindow w (drainWindow w tag s)) w = false := by
    have hf : TimersFollow s (drainWindow w tag s) := follow_of_same rfl rfl rfl rfl rfl rfl
    have hb : Breakable (drainWindow w tag s) := ⟨hs.record, hs.orderly.holds, hs.bus.same rfl rfl rfl⟩
    unfold breakIfOnWindow
    split
    · refine ⟨hs.of (breakLock_orderly _ hb) (follow_trans hf (follow_breakLock _ _)) ?_, ?_⟩
      · rw [breakLock_cbc]; rfl
      · simp [lockedWindow, lockStands, breakLock_free _ hb.record, Lock.powerOn]
    · next hn =>
      exact ⟨hs.modWindow w _ fun h => absurd h hn, by simpa using hn⟩
  have hw : Mid (withdrawSlots (slotNames w) (breakIfOnWindow w (drainWindow w tag s))) ∧
      lockedWindow (withdrawSlots (slotNames w) (breakIfOnWindow w (drainWindow w tag s))) w = false := by
    have hkeep : (withdrawSlots (slotNames w) (breakIfOnWindow w (drainWindow w tag s))).lock =
        (breakIfOnWindow w (drainWindow w tag s)).lock :=
      Closed.foldl (P := fun t => t.lock = (breakIfOnWindow w (drainWindow w tag s)).lock) _
        (fun t i ht => by split <;> simp [ht]) _ rfl
    refine ⟨withdrawSlots_mid _ (fun t ht hl i hi hn => ?_) hd.1, by rw [lockedWindow_congr hkeep]; exact hd.2⟩
    simp only [slotNames, Bool.and_eq_true, decide_eq_true_eq] at hi
    obtain ⟨-, -, hwin, -⟩ := ht.orderly.names i hn
    have hlocked : lockedWindow t w = true := by
      rw [lockedWindow, hwin, hi.2]
      simp [lockStands, lockStands_of_slot ht.record hn]
    rw [lockedWindow_congr hl, hd.2] at hlocked
    cases hlocked
  unfold retireLive freeAtOnce
  split
  · exact hw.1.modWindow w _ fun h => by rw [hw.2] at h; cases h
  · exact hw.1

theorem withdrawMaster_mid {s : State} (m : MasterId) (hs : Mid s) : Mid (withdrawMaster m s) := by
  have hb : Mid (breakIfOwner m s) ∧
      ((breakIfOwner m s).lock.state = .free ∨ (breakIfOwner m s).lock.owner ≠ some m) := by
    unfold breakIfOwner
    split
    · refine ⟨mid_accessClosed.outer.breakLock _ hs, .inl ?_⟩
      rw [breakLock_free _ hs.record]; rfl
    · next hn =>
      refine ⟨hs, ?_⟩
      simp only [lockStands, Bool.and_eq_true, bne_iff_ne, ne_eq, decide_eq_true_eq, not_and_or, not_not] at hn
      exact hn
  refine withdrawSlots_mid _ (fun t ht hl i hi hn => ?_) hb.1
  simp only [slotOf, Bool.and_eq_true, decide_eq_true_eq] at hi
  obtain ⟨-, hown, -⟩ := ht.orderly.names i hn
  rw [hi.2, hl] at hown
  have hstands := lockStands_of_slot ht.record hn
  rw [hl] at hstands
  exact hb.2.elim hstands fun h => h hown

section

variable {s : State} (c : ControlEntry) (hs : Mid s)
include hs

/-- What an execution ends with before its RESULT: freed windows and the end of a quiesce (R15, R177). -/
theorem withdrawn_mid : Mid (testQuiesce (freeDrainedWindows s)) :=
  (mid_accessClosed.outer.freeDrainedWindows hs).same (testQuiesce_same _)

theorem doLoadWindow_mid : Mid (doLoadWindow c s).state := by
  unfold doLoadWindow
  split
  · exact hs
  · split
    · exact hs.modWindow _ _ fun _ => ⟨rfl, rfl⟩
    · exact hs

theorem doRetireWindow_mid : Mid (doRetireWindow c s).state := by
  unfold doRetireWindow
  split
  · exact hs
  · next w _ =>
    split
    · dsimp only
      exact withdrawn_mid (retireLive_mid w c.tag hs)
    · exact hs

theorem doModifyWindow_mid : Mid (doModifyWindow c s).state := by
  unfold doModifyWindow
  split
  · next w _ _ _ =>
    split
    · exact hs.modWindow _ _ fun h => hs.orderly.window w h
    · exact hs
  · exact hs

theorem doThawWindow_mid : Mid (doThawWindow c s).state := by
  unfold doThawWindow
  split
  · exact hs
  · next w _ =>
    split
    · exact hs
    · split
      · exact hs.modWindow _ _ fun h => ⟨(hs.orderly.window w h).1, rfl⟩
      · exact hs

theorem doSetMaster_mid : Mid (doSetMaster c s).state := by
  unfold doSetMaster
  split
  · exact hs
  · next o _ =>
    have hx : Mid { s with masters := modAt s.masters o.master (writtenMaster o) } :=
      hs.same (by apply sameRecord_of <;> rfl)
    dsimp only
    split
    · exact hx
    · dsimp only
      exact withdrawn_mid (withdrawMaster_mid o.master hx)

theorem doSetTimers_mid : Mid (doSetTimers c s).state := by
  unfold doSetTimers
  dsimp only
  split
  · exact hs.ofControl rfl rfl rfl rfl rfl rfl
  · exact hs

theorem doSetArbitration_mid : Mid (doSetArbitration c s).state := by
  unfold doSetArbitration
  dsimp only
  split
  · exact hs
  · split
    · exact writeSettings_mid _ _ _ hs
    · exact hs

theorem doEnable_mid : Mid (doEnable c s).state := by
  unfold doEnable
  split
  · exact hs.same (by apply sameRecord_of <;> rfl)
  · exact hs.same (by apply sameRecord_of <;> rfl)
  · exact hs

theorem doQuiesce_mid : Mid (doQuiesce c s).state := by
  unfold doQuiesce
  split
  · split <;> exact hs.same (by apply sameRecord_of <;> rfl)
  · exact hs

end

theorem executeHead_mid {s : State} (cmd : Command) (act : ControlEntry → State → Execution)
    (hact : ∀ c, Mid (act c s).state) (hs : Mid s) : Mid (executeHead cmd act s) := by
  unfold executeHead
  split
  · exact hs
  · next c _ =>
    have h := mid_accessClosed.outer
    exact (h.endIdleTenure _ (h.leaveDeadHeads (h.removeHead ((hact c).same (storeResult_same _ _))))).settle

end Sys2Proof.Scope
end

section
/-! Every event keeps the laws of the lock, the card bus and the timers: O58. -/

namespace Sys2Proof.Scope

open Sys2Proof Sys2Proof.Machine Sys2Proof.Safety

/-! ### Pieces and expiries -/

theorem pieceEnd_mid {s t : State} (answer : TargetAnswer) (hx : execPieceEnd answer s = .next t) (hs : Mid s) :
    Mid t := by
  have h := mid_accessClosed
  unfold execPieceEnd at hx
  split at hx <;> rw [Host.Outcome.next.injEq] at hx <;> subst hx
  · next a p data ho =>
    obtain ⟨ha, -⟩ := (outstanding_eq_some s a p).1 ho
    have hp := h.pieceAcked a p data (by rw [ha]; rfl) hs
    unfold afterPiece
    split
    · exact hp
    · exact hp.settle
  · next a p ho =>
    obtain ⟨ha, -⟩ := (outstanding_eq_some s a p).1 ho
    exact (h.pieceFailed a p _ (by rw [ha]; rfl) (h.relax hs)).settle
  · exact hs

theorem responseExpires_mid {s : State} (hs : Mid s) : Mid (responseExpires s) := by
  have h := mid_accessClosed
  unfold responseExpires
  split
  · next a p ho =>
    obtain ⟨ha, -⟩ := (outstanding_eq_some s a p).1 ho
    split
    · exact (h.pieceFailed a p _ (by rw [ha]; rfl) (h.relax hs)).settle
    · exact hs
  · exact hs

theorem lockExpires_mid {s : State} (hs : Mid s) : Mid (lockExpires s) := by
  have h := mid_accessClosed.outer
  unfold lockExpires
  split
  · exact (h.endIdleTenure _ (h.leaveDeadHeads (h.breakLock _ hs))).settle
  · exact hs

theorem slotExpires_mid {s : State} (i : SlotId) (hs : Mid s) : Mid (slotExpires i s) := by
  unfold slotExpires
  split
  · next hd =>
    have hsome : s.slots[i].hold.isSome = true := Option.isSome_of_any hd
    have hn : s.lock.slot ≠ some i := fun hi => by
      obtain ⟨hlocked, -⟩ := hs.orderly.names i hi
      obtain ⟨-, h⟩ | h | h := hs.orderly.holds i hsome
      · rw [hlocked] at h; cases h
      · exact hs.orderly.not_named (by rw [h]; nofun) (by rw [h]; nofun) (by rw [h]; nofun) hi
      · exact hs.orderly.not_named (by rw [h]; nofun) (by rw [h]; nofun) (by rw [h]; nofun) hi
    have reported := fun b => ((hs.same (offerReport_same b s)).freeSlot i (by rw [offerReport_lock]; exact hn)).settle
    unfold holdExpires
    split
    · exact reported _
    · exact reported _
    · exact (hs.freeSlot i hn).settle
    · exact hs
  · exact hs

theorem overstayExpires_mid {s : State} (hs : Mid s) : Mid (overstayExpires s) := by
  unfold overstayExpires
  split
  · split
    · have hx : Mid { s with arb.overstay := none } := by
        refine hs.ofBus ⟨hs.bus.hold, hs.bus.tenure, hs.bus.access, nofun⟩ ?_ rfl rfl rfl rfl
        exact follow_of_arb rfl rfl rfl rfl rfl (.inr (.inl rfl))
      exact hx.same (offerReport_same _ _)
    · exact hs
  · exact hs

/-! ### The tick -/

/-- The expiries of a tick, as far as they are taken: the clocks `D` are quiet, and none is started that is due. -/
structure Expiring (D : Clock → Prop) (s : State) : Prop where
  mid : Mid s
  starts : StartsUndue s
  quiet : Quiet D s

/-- An expiry that stops its clock quiets it, and leaves the quiet clocks quiet. -/
theorem Expiring.next {D : Clock → Prop} {s t : State} (c : Clock) (h : Expiring D s) (hm : Mid t) (hk : Kept s t)
    (ht : Timed (NotDue fun k => D k ∨ k = c) (some c) s → Timed (NotDue fun k => D k ∨ k = c) none t) :
    Expiring (fun k => D k ∨ k = c) t where
  mid := hm
  starts := h.starts.kept hk
  quiet := (ht (timed_notDue h.starts _ _ fun k hk hD =>
    h.quiet k (hD.resolve_right fun e => hk (congrArg some e.symm)))).quiet

theorem slotsExpire_expiring (l : List SlotId) {D : Clock → Prop} {s : State} (h : Expiring D s) :
    Expiring (fun c => D c ∨ ∃ i ∈ l, c = .slot i) (l.foldl (fun s i => slotExpires i s) s) := by
  induction l generalizing D s with
  | nil => exact ⟨h.mid, h.starts, fun c hc => h.quiet c (hc.resolve_right (by simp))⟩
  | cons i l ih =>
    have hi := h.next (.slot i) (slotExpires_mid i h.mid) (slotExpires_kept i s)
      (slotExpires_timed i (h.mid.orderly.holds i) fun _ hd _ => hd)
    obtain ⟨hm, hs, hq⟩ := ih hi
    refine ⟨hm, hs, fun c hc => hq c ?_⟩
    obtain hc | ⟨j, hj, rfl⟩ := hc
    · exact .inl (.inl hc)
    · obtain rfl | hj := List.mem_cons.1 hj
      · exact .inl (.inr rfl)
      · exact .inr ⟨j, hj, rfl⟩

/-- After the expiries of a tick no timer is due. -/
theorem expireDue_expiring {s : State} (hs : Mid s) (hset : SettingsLegal s) :
    Mid (expireDue s) ∧ Quiet (fun _ => True) (expireDue s) := by
  have h0 : Expiring (fun _ => False) s := ⟨hs, startsUndue_of_settings hset, nofun⟩
  have h1 := h0.next .response (responseExpires_mid h0.mid) (responseExpires_kept _)
    (responseExpires_timed fun _ hd _ => hd)
  have h2 := h1.next .lock (lockExpires_mid h1.mid) (lockExpires_kept _) (lockExpires_timed fun _ hd _ => hd)
  have h3 := slotsExpire_expiring (List.finRange 8) h2
  have h4 := h3.next .overstay (overstayExpires_mid h3.mid) (overstayExpires_kept _)
    (overstayExpires_timed h3.mid.bus.overstay fun _ hd _ => hd)
  refine ⟨h4.mid, fun c _ => h4.quiet c ?_⟩
  cases c with
  | response => exact .inl (.inl (.inl (.inr rfl)))
  | lock => exact .inl (.inl (.inr rfl))
  | slot i => exact .inl (.inr ⟨i, List.mem_finRange i, rfl⟩)
  | overstay => exact .inr rfl

/-- A timer that is not due is in time at the next microsecond (R1). -/
theorem onTime_of_notDue {now : Time} {timer : Timer} (h : ¬Due now timer) : OnTime (now + 1) timer := by
  have hs : now + 1 - timer.start = now - timer.start + 1 := (sub_add_eq_add_sub _ _ _).symm
  have hle : (now - timer.start + 1).toNat ≤ (now - timer.start).toNat + 1 := by
    rw [BitVec.toNat_add]; exact Nat.mod_le _ _
  unfold Due at h
  rw [OnTime, hs]
  omega

theorem counted_mid {s : State} (hs : Mid s) (hq : Quiet (fun _ => True) s) :
    Mid { s with timebase := s.timebase + 1 } :=
  ⟨hs.orderly.ofBus rfl rfl rfl (hs.bus.same rfl rfl rfl),
    ⟨fun c timer _ hc => onTime_of_notDue (hq c trivial timer (by cases c <;> exact hc)), fun _ _ => started_inTime⟩,
    hs.outstanding⟩

/-! ### Power-on reset and card reset -/

/-- The lock FREE, no hold timer, no access and no tenure, and nobody owns the grant. -/
structure AtRest (s : State) : Prop where
  lock : s.lock = Lock.powerOn
  holds : ∀ i : SlotId, s.slots[i].hold = none
  cbc : s.cbc = Controller.powerOn
  lockHold : s.arb.lockHold = false
  overstay : s.arb.overstay = none
  grant : s.arb.state = .stopped ∨ ∃ owner, s.arb.state = .parked owner

theorem AtRest.mid {s : State} (h : AtRest s) : Mid s := by
  obtain ⟨hl, hh, hc, hlock, hover, hgrant⟩ := h
  refine ⟨orderly_of_free hl (fun i => holdLegal_none (hh i)) ⟨?_, ?_, ?_, ?_⟩, ⟨fun c timer _ hr => ?_,
    fun _ _ => started_inTime⟩, fun a ha => by rw [hc] at ha; cases ha⟩
  · refine ⟨?_, ?_, ?_⟩ <;> obtain hg | ⟨owner, hg⟩ := hgrant <;> simp [hlock, hl, hg, Lock.powerOn]
  · obtain hg | ⟨owner, hg⟩ := hgrant <;> simp [hg, hc, Controller.powerOn]
  · simp [hc, Controller.powerOn]
  · simp [hover]
  · cases c with
    | response => simp [running, hc, Controller.powerOn] at hr
    | lock => simp [running, hl, Lock.powerOn] at hr
    | slot i => rw [running, hh i] at hr; cases hr
    | overstay => rw [running, hover] at hr; cases hr

theorem holdBlocks_atRest (lines : BitVec 4) (s : State) : AtRest (holdBlocks lines s) :=
  ⟨rfl, fun i => by simp [holdBlocks, Slot.powerOn], rfl, rfl, rfl, .inl rfl⟩

theorem takeArrivals_mid {s : State} (hs : Mid s) : Mid (takeArrivals s) := by
  have arrival : ∀ (t : State) (p : Port), Mid t → Mid (takeArrival t p) := fun t p ht =>
    (ht.same (t := setRequestLine p true t) (by apply sameRecord_of <;> rfl)).requestArrives (.port p)
  have hx : Mid { s with lines.request := ⟨false, false, false⟩ } := hs.same (by apply sameRecord_of <;> rfl)
  unfold takeArrivals
  dsimp only
  split
  · exact Closed.foldl _ arrival _ hx
  · exact (Closed.foldl _ arrival _ hx).same (takeChoice_same _)

theorem leaveReset_mid (lines : BitVec 4) (kind : ResetKind) (dataRemoved controlRemoved : Nat) {s : State}
    (hs : AtRest s) : Mid (leaveReset lines kind dataRemoved controlRemoved s) := by
  have hx : AtRest { s with
      ti.slotNumber := lines, arb := Arbiter.powerOn, gsc := ⟨.standby, .none, none⟩,
      rq.cardData := 0, rq.cardControl := 0 } :=
    ⟨hs.lock, hs.holds, hs.cbc, rfl, rfl, .inr ⟨_, rfl⟩⟩
  exact takeArrivals_mid (hx.mid.same (offerReport_same _ _))

theorem AtRest.congr {s t : State} (h : AtRest s) (hl : t.lock = s.lock) (hs : t.slots = s.slots) (hc : t.cbc = s.cbc)
    (ha : t.arb = s.arb) : AtRest t :=
  ⟨hl ▸ h.lock, by rw [hs]; exact h.holds, hc ▸ h.cbc, ha ▸ h.lockHold, ha ▸ h.overstay, ha ▸ h.grant⟩

theorem releasePowerOn_mid (lines : BitVec 4) {s : State} (hs : AtRest s) : Mid (releasePowerOn lines s) := by
  unfold releasePowerOn
  split
  · exact hs.mid.same (by apply sameRecord_of <;> rfl)
  · exact leaveReset_mid _ _ _ _ (hs.congr (t := { s with porAsserted := false }) rfl rfl rfl rfl)

theorem releaseCard_mid (lines : BitVec 4) {s : State} (hs : AtRest s) : Mid (releaseCard lines s) := by
  unfold releaseCard
  split
  · exact hs.mid.same (by apply sameRecord_of <;> rfl)
  · exact leaveReset_mid _ _ _ _ (hs.congr (t := { s with cardAsserted := false }) rfl rfl rfl rfl)

/-! ### Residents -/

section

variable {s : State} (p : Port)

theorem residentRequestRaise_mid {t : State} (hx : execResidentRequestRaise p s = .next t) (hs : Mid s) : Mid t := by
  have hl : Mid (setRequestLine p true s) := hs.same (by apply sameRecord_of <;> rfl)
  unfold execResidentRequestRaise at hx
  split at hx
  · cases hx; exact hs
  · cases hx
    split
    · exact (hl.requestArrives _).settle
    · exact hl

theorem residentTenureEnds_mid (hs : Mid s) : Mid (residentTenureEnds p s) := by
  unfold residentTenureEnds
  split
  · next q hq =>
    split
    · exact (hs.decision (hs.bus.no_tenure (by rw [hq]; nofun) (by rw [hq]; nofun))).settle
    · exact hs
  · next q hq =>
    split
    · next he =>
      subst he
      exact hs.residentKeeps q (by rw [residentOwner, hq]) _ (.inr ⟨false, rfl⟩)
    · exact hs
  · exact hs

theorem residentRequestDrop_mid (hs : Mid s) :
    Mid (if portOf s.lines.request p then residentTenureEnds p (setRequestLine p false s) else s) := by
  split
  · exact residentTenureEnds_mid p (hs.same (by apply sameRecord_of <;> rfl))
  · exact hs

theorem holdTaken_mid (hs : Mid s) : Mid (holdTaken p s) := by
  unfold holdTaken
  split
  · next hc =>
    simp only [Bool.and_eq_true, decide_eq_true_eq] at hc
    exact hs.residentKeeps p (by rw [residentOwner, hc.1]) _ (.inr ⟨true, rfl⟩)
  · exact hs

theorem residentHoldRaise_mid (hs : Mid s) :
    Mid (if portOf s.lines.hold p then s else holdTaken p (setHoldLine p true s)) := by
  split
  · exact hs
  · exact holdTaken_mid p (hs.same (by apply sameRecord_of <;> rfl))

theorem holdReleased_mid (hs : Mid s) : Mid (holdReleased p s) := by
  unfold holdReleased
  split
  · next q inTenure hq =>
    split
    · next he =>
      subst he
      split
      · exact hs.residentKeeps q (by rw [residentOwner, hq]) _ (.inl rfl)
      · exact (hs.decision (hs.bus.no_tenure (by rw [hq]; nofun) (by rw [hq]; nofun))).settle
    · exact hs
  · exact hs

theorem residentHoldDrop_mid (hs : Mid s) :
    Mid (if portOf s.lines.hold p then holdReleased p (setHoldLine p false s) else s) := by
  split
  · exact holdReleased_mid p (hs.same (by apply sameRecord_of <;> rfl))
  · exact hs

theorem residentWriteObserved_mid (a : CardAddr) (size : BeatUnit) (hs : Mid s) :
    Mid (if residentInTenure p s then markStale a (unitBytes size) s else s) := by
  split
  · exact mid_accessClosed.outer.markStale _ _ hs
  · exact hs

end

/-! ### Every command -/

/-- What a command starts from: the laws, the settings in their ranges, and rest while a reset is asserted. -/
structure Ready (s : State) : Prop where
  mid : Mid s
  settings : SettingsLegal s
  held : s.porAsserted = true ∨ s.cardAsserted = true → AtRest s

theorem ready_of_lawful {s : State} (h : Lawful s) (rest : List Instr) : Ready { s with pending := rest } := by
  have hm := mid_of_laws h.lockRecord h.lockSlot h.lockWindow h.lockBus h.tenure h.timers h.slots
  refine ⟨hm.same (by apply sameRecord_of <;> rfl), h.settings, fun ha => ?_⟩
  have hr : s.gsc.state = .reset := h.reset.2 ha
  obtain ⟨hslots, hlock⟩ := h.idle (.inl hr)
  obtain ⟨-, -, hcbc, harb, -⟩ := h.held hr
  refine ⟨h.lockRecord.1 hlock, fun i => ?_, hcbc, ?_, ?_, .inl ?_⟩
  · obtain ⟨-, -, -, -, hfree, -⟩ := h.slots i
    exact congrArg Slot.hold (hfree (hslots i))
  all_goals exact congrArg _ harb

theorem tick_mid {s t : State} (hx : execTimebaseTick s = .next t) (h : Ready s) : Mid t := by
  cases hx
  split
  · next hp => exact ((h.held (.inl hp)).congr (t := { s with timebase := 0 }) rfl rfl rfl rfl).mid
  · obtain ⟨hm, hq⟩ := expireDue_expiring h.mid h.settings
    exact counted_mid hm hq

theorem takeTxn_mid {s t : State} (txn : Txn) (hx : takeTxn txn s = .next t) (hs : Mid s) : Mid t := by
  unfold takeTxn at hx
  split at hx <;> cases hx
  exact trunkTxn_mid txn hs

theorem powerOnResetAssert_mid {s : State} (lines : BitVec 4) (hs : Mid s) :
    Mid (if s.porAsserted then s else assertPowerOn lines s) := by
  split
  · exact hs
  · exact ((holdBlocks_atRest lines s).congr (t := assertPowerOn lines s) rfl rfl rfl rfl).mid

theorem cardResetAssert_mid {s : State} (lines : BitVec 4) (hs : Mid s) :
    Mid (if s.cardAsserted then s else assertCard lines s) := by
  split
  · exact hs
  · exact ((holdBlocks_atRest lines (handOverNumbers s)).congr (t := assertCard lines s) rfl rfl rfl rfl).mid

theorem powerOnResetRelease_mid {s : State} (lines : BitVec 4) (h : Ready s) :
    Mid (if s.porAsserted then releasePowerOn lines s else s) := by
  split
  · next hp => exact releasePowerOn_mid lines (h.held (.inl hp))
  · exact h.mid

theorem cardResetRelease_mid {s : State} (lines : BitVec 4) (h : Ready s) :
    Mid (if s.cardAsserted then releaseCard lines s else s) := by
  split
  · next hp => exact releaseCard_mid lines (h.held (.inr hp))
  · exact h.mid

/-- Every command keeps the laws of the lock, the card bus and the timers. -/
theorem exec_mid {s t : State} (c : Instr) (hx : exec c s = .next t) (h : Ready s) : Mid t := by
  have hs := h.mid
  cases c with
  | timebaseTick => exact tick_mid hx h
  | powerOnResetAssert lines => cases hx; exact powerOnResetAssert_mid lines hs
  | powerOnResetRelease lines => cases hx; exact powerOnResetRelease_mid lines h
  | cardResetAssert lines => cases hx; exact cardResetAssert_mid lines hs
  | cardResetRelease lines => cases hx; exact cardResetRelease_mid lines h
  | trunkReset =>
    cases hx
    split
    · exact hs
    · exact trunkReset_mid hs
  | windowWrite m a u k b => exact takeTxn_mid _ hx hs
  | windowRead m a u k b => exact takeTxn_mid _ hx hs
  | controlIntake m ws => exact takeTxn_mid _ hx hs
  | controlRegionRefused txn => exact takeTxn_mid _ hx hs
  | identity m => cases hx; exact trunkTxn_mid _ hs
  | status m => cases hx; exact trunkTxn_mid _ hs
  | counts m => cases hx; exact trunkTxn_mid _ hs
  | reportHead m => cases hx; exact trunkTxn_mid _ hs
  | windowReadback m w => cases hx; exact trunkTxn_mid _ hs
  | masterReadback m k => cases hx; exact trunkTxn_mid _ hs
  | claim m d => cases hx; exact trunkTxn_mid _ hs
  | relinquish m d => cases hx; exact trunkTxn_mid _ hs
  | release m d => cases hx; exact trunkTxn_mid _ hs
  | attention m d => cases hx; exact trunkTxn_mid _ hs
  | resetGate m d => cases hx; exact trunkTxn_mid _ hs
  | loadWindow => cases hx; exact executeHead_mid _ _ (fun c => doLoadWindow_mid c hs) hs
  | retireWindow => cases hx; exact executeHead_mid _ _ (fun c => doRetireWindow_mid c hs) hs
  | modifyWindow => cases hx; exact executeHead_mid _ _ (fun c => doModifyWindow_mid c hs) hs
  | thawWindow => cases hx; exact executeHead_mid _ _ (fun c => doThawWindow_mid c hs) hs
  | setMaster => cases hx; exact executeHead_mid _ _ (fun c => doSetMaster_mid c hs) hs
  | setTimers => cases hx; exact executeHead_mid _ _ (fun c => doSetTimers_mid c hs) hs
  | setArbitration => cases hx; exact executeHead_mid _ _ (fun c => doSetArbitration_mid c hs) hs
  | enable => cases hx; exact executeHead_mid _ _ (fun c => doEnable_mid c hs) hs
  | quiesce => cases hx; exact executeHead_mid _ _ (fun c => doQuiesce_mid c hs) hs
  | fence => cases hx; exact executeHead_mid _ _ (fun _ => hs) hs
  | pieceEnd answer => exact pieceEnd_mid answer hx hs
  | noResponse => cases hx; exact responseExpires_mid hs
  | holdTimerExpiry i => cases hx; exact slotExpires_mid i hs
  | lockHoldTimerExpiry => cases hx; exact lockExpires_mid hs
  | overstayTimerExpiry => cases hx; exact overstayExpires_mid hs
  | residentRequestRaise p => exact residentRequestRaise_mid p hx hs
  | residentRequestDrop p => cases hx; exact residentRequestDrop_mid p hs
  | residentHoldRaise p => cases hx; exact residentHoldRaise_mid p hs
  | residentHoldDrop p => cases hx; exact residentHoldDrop_mid p hs
  | residentWriteObserved p a size => cases hx; exact residentWriteObserved_mid p a size hs

theorem step_mid {s t : State} (h : Lawful s) (hx : step s = .next t) : Mid t := by
  unfold step at hx
  split at hx
  · cases hx
    exact mid_of_laws h.lockRecord h.lockSlot h.lockWindow h.lockBus h.tenure h.timers h.slots
  · next c rest _ => exact exec_mid c hx (ready_of_lawful h rest)

/-- Settles O58: each operation of an event keeps the laws, and with them those of the access and the timers within the
event (`Mid`), so every command does. -/
theorem lockAndBusLawsHoldAfterEveryEvent : Obligations.LockAndBusLawsHoldAfterEveryEvent := by
  intro s t h hx
  have hm := step_mid h hx
  exact ⟨hm.record, hm.orderly.names, hm.orderly.window, hm.bus.hold, hm.tenureLegal, hm.timersOnTime⟩

end Sys2Proof.Scope
end

section
/-! The single operations of which an event is made (`Act`), and the parts of an event as courses of them (`Work`): a law of
the record that every single operation keeps is kept by all that the gate does within an event. -/

namespace Sys2Proof.WindowTable

-- One proof after the other: the text is compiled as one file, within a limit on memory that each thread draws on.
set_option Elab.async false

open Sys2Proof Sys2Proof.Machine Sys2Proof.Safety

/-! ### Single operations -/

/-- The head of the queue is a data entry. -/
def HeadIsData (s : State) : Prop := ∃ d rest, s.pwq.entries = .data d :: rest

/-- One operation of the gate's internal work within an event, with what the event knows where it takes it. -/
inductive Act : State → State → Prop where
  | reports (s : State) (b : ReportBody) : Act s (offerReport b s)
  | drops (s : State) : Act s (countDropped s)
  | performs (s : State) : Act s (countPerformed s)
  | discards (s : State) (w : WindowId) : Act s (countDiscard w s)
  | leaves (s : State) : HeadIsData s ∨ s.rq.space = .none → Act s (removeHead s)
  | frees (s : State) (w : WindowId) : Act s (freeIfDrained s w)
  | freesSlot (s : State) (i : SlotId) : Act s (freeSlot i s)
  | changesSlot (s : State) (i : SlotId) (f : Slot → Slot) : s.slots[i].state ≠ .free → (f s.slots[i]).state ≠ .free →
      (f s.slots[i]).key = s.slots[i].key → (f s.slots[i]).window = s.slots[i].window → Act s (modSlot i f s)
  | makesStale (s : State) (a : CardAddr) (n : Nat) : Act s (markStale a n s)
  | voids (s : State) : Act s (markVoid s)
  | empties (s : State) : Act s (emptyQueue s)
  | breaks (s : State) (c : BreakCause) : lockStands s = true → Act s (breakLock c s)
  | clearsLock (s : State) : Act s (clearLock s)
  | stopsTimer (s : State) (d : DataEntry) : Act s (stopLockTimer d s)
  | owns (s : State) : s.lock.state = .pending → Act s (ownLock s)
  | releases (s : State) : Act s (releaseHold s)
  | endsTenure (s : State) : Act s (endTenure s)
  | reviews (s : State) : Act s (reviewRequest s)
  | accesses (s : State) (a : Option Access) : Act s { s with cbc.access := a }
  | chooses (s : State) : Act s (takeChoice s)
  | freezes (s : State) (d : DataEntry) (rest : List Entry) : s.pwq.entries = .data d :: rest → d.names = true →
      Act s { s with windows := modAt s.windows d.window fun e => { e with frozen := true } }
  | faults (s : State) : Act s (becomeFaulted .queueCheck s)
  | quiesces (s : State) : Act s (testQuiesce s)
  | asks (s : State) : Act s (askForPlace s)

/-- A course of single operations. -/
abbrev Work : State → State → Prop := Relation.ReflTransGen Act

theorem Act.work {s t : State} (h : Act s t) : Work s t := .single h

/-- A fold each of whose turns is a course of steps is a course of steps. -/
theorem foldl_steps {r : State → State → Prop} {α : Type} (f : State → α → State)
    (h : ∀ s a, Relation.ReflTransGen r s (f s a)) (l : List α) (s : State) : Relation.ReflTransGen r s (l.foldl f s) := by
  induction l generalizing s with
  | nil => exact .refl
  | cons a l ih => exact (h s a).trans (ih _)

/-! ### The end of an event -/

theorem freeDrainedWindows_work (s : State) : Work s (freeDrainedWindows s) :=
  foldl_steps _ (fun s w => (Act.frees s w).work) _ s

theorem finishEvent_work (s : State) : Work s (finishEvent s) :=
  ((freeDrainedWindows_work s).tail (.quiesces _)).tail (.asks _)

theorem dropDeadHeads_work (n : Nat) (s : State) : Work s (dropDeadHeads n s) := by
  induction n generalizing s with
  | zero => exact .refl
  | succ n ih =>
    unfold dropDeadHeads
    split
    · next d rest he =>
      split
      · exact .refl
      · split
        · exact ((Act.drops s).work.tail (.leaves _ (.inl ⟨d, rest, he⟩))).trans (ih _)
        · split
          · exact (((Act.discards s d.window).work.tail (.drops _)).tail (.leaves _ (.inl ⟨d, rest, he⟩))).trans (ih _)
          · exact .refl
    · exact .refl

theorem leaveDeadHeads_work (s : State) : Work s (leaveDeadHeads s) := dropDeadHeads_work _ s

theorem endIdleTenure_work (held : Bool) (s : State) : Work s (endIdleTenure held s) := by
  unfold endIdleTenure
  split
  · exact (Act.endsTenure s).work
  · exact .refl

theorem settleTenure_work (s : State) : Work s (settleTenure s) := by
  unfold settleTenure
  split
  · exact .refl
  · exact (Act.endsTenure s).work

/-! ### The lock, faults and the end of a drain -/

theorem breakLock_work (c : BreakCause) (s : State) : Work s (breakLock c s) := by
  by_cases h : lockStands s = true
  · exact (Act.breaks s c h).work
  · rw [breakLock, if_neg h]

theorem withdrawSlot_work (i : SlotId) (s : State) : Work s (withdrawSlot i s) := by
  unfold withdrawSlot
  split
  · next h => exact (Act.changesSlot s i _ (by rw [h]; nofun) (by dsimp only; rw [h]; nofun) rfl rfl).work
  · exact (Act.freesSlot s i).work

theorem withdrawSlots_work (p : Slot → Bool) (s : State) : Work s (withdrawSlots p s) :=
  foldl_steps _ (fun s i => by
    split
    · exact withdrawSlot_work i s
    · exact .refl) _ s

theorem freeAllSlots_work (s : State) : Work s (freeAllSlots s) :=
  foldl_steps _ (fun s i => (Act.freesSlot s i).work) _ s

/-- What a fault does once the gate state is FAULTED (R178). -/
theorem faultGate_work (c : FaultCause) (s : State) : Work (becomeFaulted c s) (faultGate c s) := by
  unfold faultGate
  dsimp only
  refine .trans ?_ (freeDrainedWindows_work _)
  refine .trans ?_ (Act.reports _ _).work
  refine .trans ?_ (endIdleTenure_work _ _)
  refine .trans ?_ (Act.releases _).work
  refine .trans ?_ (breakLock_work _ _)
  refine .trans ?_ (freeAllSlots_work _)
  refine .trans ?_ (Act.empties _).work
  exact (Act.accesses _ _).work

theorem unlockReadySlot_work (slot : Option SlotId) (s : State) : Work s (unlockReadySlot slot s) := by
  unfold unlockReadySlot
  split
  · split
    · next i h =>
      simp only [Bool.and_eq_true, decide_eq_true_eq] at h
      exact (Act.changesSlot s i _ (by rw [h.1]; nofun) (by dsimp only; rw [h.1]; nofun) rfl rfl).work
    · exact .refl
  · exact .refl

theorem closeLock_work (d : DataEntry) (s : State) : Work s (closeLock d s) := by
  unfold closeLock
  split
  · exact ((Act.clearsLock s).work.trans (unlockReadySlot_work _ _)).tail (.releases _)
  · exact .refl

theorem drainBegins_work (d : DataEntry) (s : State) : Work s (drainBegins d s) := by
  unfold drainBegins raceCloseTimer
  split
  · split
    · exact (Act.chooses s).work.tail (.stopsTimer _ d)
    · exact (Act.chooses s).work.trans (breakLock_work _ _)
  · exact (Act.stopsTimer s d).work

theorem drainStaleness_work (o : DrainOutcome) (d : DataEntry) (s : State) : Work s (drainStaleness o d s) := by
  unfold drainStaleness
  split
  · exact .refl
  · exact (Act.makesStale s _ _).work

theorem freezeOnError_work (d : DataEntry) (rest : List Entry) (k : ErrorKind) (a : CardAddr) (s : State)
    (he : s.pwq.entries = .data d :: rest) : Work s (freezeOnError d k a s) := by
  unfold freezeOnError
  dsimp only
  split
  · next h =>
    simp only [Bool.and_eq_true] at h
    have hf := (Act.freezes s d rest he h.1.1).work.tail (.reports _ (windowFrozenBody d k a))
    split
    · exact hf.trans (breakLock_work _ _)
    · exact hf
  · exact .refl

theorem drainConsequences_work (o : DrainOutcome) (d : DataEntry) (rest : List Entry) (s : State)
    (he : s.pwq.entries = .data d :: rest) : Work s (drainConsequences o d s) := by
  cases o with
  | performed => exact (Act.performs s).work
  | stopped => exact (Act.drops s).work
  | checkFailed => exact (Act.drops s).work
  | cutOff k a =>
    exact ((Act.drops s).work.tail (.reports _ _)).trans (freezeOnError_work d rest k a _ (by simpa using he))

theorem markVoid_headIsData (s : State) (h : HeadIsData s) : HeadIsData (markVoid s) := by
  obtain ⟨d, rest, he⟩ := h
  unfold HeadIsData markVoid notBegun
  rw [he]
  cases inDrain s with
  | true => exact ⟨d, rest.map markedVoid, rfl⟩
  | false =>
    simp only [Bool.false_eq_true, if_false, List.nil_append, List.map_cons, markedVoid]
    split
    · exact ⟨_, _, rfl⟩
    · exact ⟨_, _, rfl⟩

theorem headIsData_congr {s t : State} (h : t.pwq.entries = s.pwq.entries) (hs : HeadIsData s) : HeadIsData t := by
  rw [HeadIsData, h]; exact hs

theorem breakLock_headIsData (c : BreakCause) (s : State) (h : HeadIsData s) : HeadIsData (breakLock c s) := by
  have hw : HeadIsData (withdrawLockedSlot s.lock.slot
      (if s.lock.state = .owned then releaseHold (clearLock s) else clearLock s)) :=
    headIsData_congr (by split <;> simp) h
  unfold breakLock
  split
  · exact headIsData_congr (by simp) (markVoid_headIsData _ hw)
  · exact h

theorem drainConsequences_headIsData (o : DrainOutcome) (d : DataEntry) (s : State) (h : HeadIsData s) :
    HeadIsData (drainConsequences o d s) := by
  cases o with
  | performed => exact h
  | stopped => exact h
  | checkFailed => exact h
  | cutOff k a =>
    unfold drainConsequences freezeOnError
    dsimp only
    split
    · split
      · exact breakLock_headIsData _ _ (headIsData_congr (by simp) h)
      · exact headIsData_congr (by simp) h
    · exact headIsData_congr (by simp) h

theorem drainStaleness_entries (o : DrainOutcome) (d : DataEntry) (s : State) :
    (drainStaleness o d s).pwq.entries = s.pwq.entries := by
  unfold drainStaleness; split <;> simp

theorem drainEnded_work (o : DrainOutcome) (d : DataEntry) (rest : List Entry) (s : State)
    (he : s.pwq.entries = .data d :: rest) : Work s (drainEnded o d s) := by
  have hc : (closeLock d (drainStaleness o d s)).pwq.entries = .data d :: rest := by
    rw [closeLock_pwq, drainStaleness_entries, he]
  have h := (((drainStaleness_work o d s).trans (closeLock_work d _)).trans
    (drainConsequences_work o d rest _ hc)).tail
      (.leaves _ (.inl (drainConsequences_headIsData o d _ ⟨d, rest, hc⟩)))
  have hg := h.tail (.accesses _ none)
  unfold drainEnded
  dsimp only
  split
  · exact (hg.tail (.faults _)).trans (faultGate_work _ _)
  · exact hg.trans (leaveDeadHeads_work _)

theorem endDrain_work (o : DrainOutcome) (s : State) : Work s (endDrain o s) := by
  unfold endDrain
  split
  · next d rest he => exact (drainEnded_work o d rest s he).trans (settleTenure_work _)
  · exact (Act.accesses s none).work.trans (settleTenure_work _)

/-! ### Accesses -/

theorem continueDrain_work (a : Access) (d : DataEntry) (n : Nat) (s : State) : Work s (continueDrain a d n s) := by
  unfold continueDrain
  split
  · exact (Act.accesses s _).work
  · exact endDrain_work _ s
  · exact endDrain_work _ s

theorem startDrain_work (d : DataEntry) (s : State) : Work s (startDrain d s) :=
  ((Act.accesses s _).work.trans (drainBegins_work d _)).trans (continueDrain_work _ d _ _)

theorem startFetch_work (i : SlotId) (s : State) (h : s.slots[i].state ≠ .free) : Work s (startFetch i s) :=
  (Act.accesses s _).work.tail (.changesSlot _ i _ h (by dsimp only; nofun) rfl rfl)

theorem eligible_ne_free {s : State} {i : SlotId} (h : eligible s i = true) : s.slots[i].state ≠ .free := by
  simp only [eligible, Bool.and_eq_true, decide_eq_true_eq] at h
  rw [h.1]; nofun

theorem runBus_work (n : Nat) (s : State) : Work s (runBus n s) := by
  induction n generalizing s with
  | zero => exact .refl
  | succ n ih =>
    unfold runBus
    split
    · exact .refl
    · split
      · split
        · next i he => exact startFetch_work i s (eligible_ne_free (List.find?_some he))
        · exact (startDrain_work _ s).trans (ih _)
        · split
          · exact .refl
          · exact (Act.endsTenure s).work.trans (ih _)
      · dsimp only
        split
        · exact (Act.reviews s).work.trans (ih _)
        · exact (Act.reviews s).work

theorem settle_work (s : State) : Work s (settle s) :=
  ((leaveDeadHeads_work s).trans (runBus_work _ _)).trans (finishEvent_work _)

theorem fetchSucceeds_work (i : SlotId) (ws : List Word) (s : State) (h : s.slots[i].state ≠ .free) :
    Work s (fetchSucceeds i ws s) := by
  unfold fetchSucceeds
  dsimp only
  split
  · have hm := (Act.changesSlot s i (fun e => { e with state := .ready, data := some (ws.map withCode) }) h
      (by dsimp only; nofun) rfl rfl).work
    split
    · next ha =>
      simp only [lockAwaits, Bool.and_eq_true, decide_eq_true_eq] at ha
      exact hm.tail (.owns _ ha.1)
    · exact hm
  · exact (Act.changesSlot s i _ h (by dsimp only; nofun) rfl rfl).work

theorem fetchFails_work (i : SlotId) (k : ErrorKind) (a : CardAddr) (s : State) (h : s.slots[i].state ≠ .free) :
    Work s (fetchFails i k a s) := by
  unfold fetchFails
  dsimp only
  have hm := (Act.changesSlot s i (fun e => { e with
    state := .failed, data := none, locked := false, hold := some (startTimer s s.cu.readHold) }) h
    (by dsimp only; nofun) rfl rfl).work.tail (.reports _ (readFailedBody i s.slots[i] k a))
  split
  · exact (hm.tail (.clearsLock _)).tail (.voids _)
  · exact hm

theorem fetchOutcome_work (o : FetchOutcome) (i : SlotId) (ws : List Word) (s : State) :
    Work s (fetchOutcome o i ws s) := by
  unfold fetchOutcome
  split
  · next hf =>
    have h : s.slots[i].state ≠ .free := by rw [hf]; nofun
    split
    · exact (Act.freesSlot s i).work
    · cases o with
      | success => exact fetchSucceeds_work i ws s h
      | failed k a => exact fetchFails_work i k a s h
  · exact .refl

theorem endFetch_work (o : FetchOutcome) (a : Access) (s : State) : Work s (endFetch o a s) := by
  unfold endFetch
  dsimp only
  refine .trans ?_ (settleTenure_work _)
  refine .trans ?_ (leaveDeadHeads_work _)
  refine .tail ?_ (.accesses _ none)
  split
  · exact fetchOutcome_work _ _ _ s
  · exact .refl

theorem pieceFailed_work (a : Access) (p : PieceOp) (k : ErrorKind) (s : State) : Work s (pieceFailed a p k s) := by
  unfold pieceFailed
  split
  · exact endDrain_work _ s
  · exact endFetch_work _ _ s

theorem endStoppedAccess_work (s : State) : Work s (endStoppedAccess s) := by
  unfold endStoppedAccess
  split
  · split
    · split
      · exact endDrain_work _ s
      · exact endFetch_work _ _ s
    · exact .refl
  · exact .refl

end Sys2Proof.WindowTable
end

section
/-! What the gate's own operations make of the whole state, in the closed forms of the statements: claims given back
(R37, R46), slots freed and withdrawn (R66, R67, R70), the lock broken (R84). -/

namespace Sys2Proof.WindowTable

-- One proof after the other: the text is compiled as one file, within a limit on memory that each thread draws on.
set_option Elab.async false

open Sys2Proof Sys2Proof.Machine Sys2Proof.Safety

/-! ### The claims of entries that leave (R37, R46) -/

/-- The state in which the entries given have given their claims back (R37). -/
def claimsReturned (gone : List Entry) (s : State) : State :=
  { s with
    masters := Vector.ofFn fun m =>
      { s.masters[m] with outWrites := s.masters[m].outWrites - gone.countP (entryOfMaster m) }
    windows := Vector.ofFn fun w =>
      { s.windows[w] with refCount := s.windows[w].refCount - gone.countP (entryNames w) } }

theorem claimsReturned_nil (s : State) : claimsReturned [] s = s := by
  have hm : (Vector.ofFn fun m : MasterId => s.masters[m]) = s.masters := table_ext fun _ => by simp
  have hw : (Vector.ofFn fun w : WindowId => s.windows[w]) = s.windows := table_ext fun _ => by simp
  unfold claimsReturned
  simp only [List.countP_nil, Nat.sub_zero, hm, hw]

theorem claimsReturned_append (l k : List Entry) (s : State) :
    claimsReturned k (claimsReturned l s) = claimsReturned (l ++ k) s := by
  simp [claimsReturned, List.countP_append, Nat.sub_add_eq]

/-- A table after an update of one entry by a function, entry by entry. -/
theorem modAt_eq_ofFn {n : Nat} {α : Type} (t : Vector α n) (i : Fin n) (f : α → α) :
    modAt t i f = Vector.ofFn fun j => if i = j then f t[j] else t[j] :=
  table_ext fun j => by rw [modAt_get]; simp

theorem entryClaims_eq (e : Entry) (s : State) : entryClaims e s = claimsReturned [e] s := by
  cases e with
  | control c =>
    have hm : (Vector.ofFn fun m : MasterId => s.masters[m]) = s.masters := table_ext fun _ => by simp
    have hw : (Vector.ofFn fun w : WindowId => s.windows[w]) = s.windows := table_ext fun _ => by simp
    simp [entryClaims, claimsReturned, entryOfMaster, entryNames]
  | data d =>
    have hm : modAt s.masters d.master (fun e => { e with outWrites := e.outWrites - 1 }) =
        Vector.ofFn fun m => { s.masters[m] with
          outWrites := s.masters[m].outWrites - [Entry.data d].countP (entryOfMaster m) } := by
      rw [modAt_eq_ofFn]
      congr 1; funext m
      by_cases h : d.master = m <;> simp [h, entryOfMaster]
    have hw : modAt s.windows d.window
          (fun e => { e with refCount := if d.names then e.refCount - 1 else e.refCount }) =
        Vector.ofFn fun w => { s.windows[w] with
          refCount := s.windows[w].refCount - [Entry.data d].countP (entryNames w) } := by
      rw [modAt_eq_ofFn]
      congr 1; funext w
      by_cases h : d.window = w <;> by_cases hn : d.names = true <;> simp [h, hn, entryNames]
    simp only [entryClaims, dropClaims_eq, claimsReturned, hm, hw]

theorem foldl_entryClaims (l : List Entry) (s : State) :
    l.foldl (fun s e => entryClaims e s) s = claimsReturned l s := by
  induction l generalizing s with
  | nil => exact (claimsReturned_nil s).symm
  | cons e l ih => rw [List.foldl_cons, ih, entryClaims_eq, claimsReturned_append]; rfl

/-- The emptying of the queue, as the statements give it (R46, R167). -/
theorem emptyQueue_eq (s : State) : emptyQueue s = queueEmptied s := by
  unfold emptyQueue
  dsimp only
  rw [foldl_entryClaims]
  unfold removedEntries keptEntries queueEmptied
  cases inDrain s <;> simp [claimsReturned]

/-! ### Slots that leave the table (R66, R67, R70) -/

theorem freeSlot_eq (i : SlotId) (s : State) (h : s.slots[i].state ≠ .free) : freeSlot i s = slotFreed i s := by
  rw [freeSlot, if_neg h]; rfl

/-- The state with another slot table, age order, master table and window table. -/
def withSlots (s : State) (slots : Vector Slot 8) (age : List SlotId) (masters : Vector Master 16)
    (windows : Vector Window 32) : State :=
  { s with slots := slots, ageOrder := age, masters := masters, windows := windows }

theorem withSlots_congr {s : State} {t u : Vector Slot 8} {a b : List SlotId} {m n : Vector Master 16}
    {w x : Vector Window 32} (ht : ∀ i : SlotId, t[i] = u[i]) (ha : a = b) (hm : ∀ i : MasterId, m[i] = n[i])
    (hw : ∀ i : WindowId, w[i] = x[i]) : withSlots s t a m w = withSlots s u b n x := by
  rw [table_ext ht, ha, table_ext hm, table_ext hw]

/-- A slot's turn in a withdrawal: freed where `freed` picks it, marked for release where `marked` does (R67). -/
def slotLeft (freed marked : Bool) (e : Slot) : Slot :=
  if freed then Slot.powerOn else if marked then { e with releaseMark := true } else e

/-- The slots of `l` that `freed` picks are freed, and those of the others that `marked` picks carry the release mark. -/
def slotsLeft (freed marked : SlotId → Bool) (l : List SlotId) (s : State) : State :=
  withSlots s
    (Vector.ofFn fun i => slotLeft (decide (i ∈ l) && freed i) (decide (i ∈ l) && marked i) s.slots[i])
    (s.ageOrder.filter fun i => !(decide (i ∈ l) && freed i))
    (Vector.ofFn fun m => { s.masters[m] with
        outReads := s.masters[m].outReads - l.countP fun i => freed i && s.slots[i].key.master = m })
    (Vector.ofFn fun w => { s.windows[w] with
        refCount := s.windows[w].refCount - l.countP fun i => freed i && s.slots[i].window = w })

/-- What one slot's turn in a withdrawal does. -/
def slotTurn (freed marked : SlotId → Bool) (i : SlotId) (s : State) : State :=
  if freed i then slotFreed i s
  else if marked i then modSlot i (fun e => { e with releaseMark := true }) s
  else s

theorem ofFn_get {n : Nat} {α : Type} (f : Fin n → α) (i : Fin n) : (Vector.ofFn f)[i] = f i := by simp

theorem slotsLeft_nil (freed marked : SlotId → Bool) (s : State) : slotsLeft freed marked [] s = s :=
  withSlots_congr (u := s.slots) (b := s.ageOrder) (n := s.masters) (x := s.windows)
    (fun i => by simp [slotLeft]) (by simp) (fun m => by simp) (fun w => by simp)

theorem slotTurn_eq (freed marked : SlotId → Bool) (i : SlotId) (s : State) :
    slotTurn freed marked i s = slotsLeft freed marked [i] s := by
  unfold slotTurn slotsLeft
  cases hf : freed i with
  | true =>
    refine withSlots_congr (fun j => ?_) (List.filter_congr fun j _ => ?_) (fun m => ?_) (fun w => ?_)
    · rw [modAt_get, ofFn_get]
      by_cases h : i = j
      · subst h; simp [hf, slotLeft]
      · simp [h, Ne.symm h, slotLeft]
    · by_cases h : j = i
      · subst h; simp [hf]
      · simp [h]
    · rw [modAt_get, ofFn_get, List.countP_singleton, hf]
      by_cases h : s.slots[i].key.master = m
      · rw [if_pos h, if_pos (by simpa using h)]
      · rw [if_neg h, if_neg (by simpa using h)]; rfl
    · rw [modAt_get, ofFn_get, List.countP_singleton, hf]
      by_cases h : s.slots[i].window = w
      · rw [if_pos h, if_pos (by simpa using h)]
      · rw [if_neg h, if_neg (by simpa using h)]; rfl
  | false =>
    have hage : s.ageOrder = s.ageOrder.filter fun j => !(decide (j ∈ [i]) && freed j) :=
      (List.filter_eq_self.mpr fun j _ => by
        by_cases h : j = i
        · subst h; simp [hf]
        · simp [h]).symm
    have hms : ∀ m : MasterId, s.masters[m] = (Vector.ofFn fun m : MasterId => { s.masters[m] with
        outReads := s.masters[m].outReads - [i].countP fun i => freed i && s.slots[i].key.master = m })[m] := fun m => by
      rw [ofFn_get, List.countP_singleton, hf]; rfl
    have hws : ∀ w : WindowId, s.windows[w] = (Vector.ofFn fun w : WindowId => { s.windows[w] with
        refCount := s.windows[w].refCount - [i].countP fun i => freed i && s.slots[i].window = w })[w] := fun w => by
      rw [ofFn_get, List.countP_singleton, hf]; rfl
    cases hm : marked i with
    | true =>
      refine withSlots_congr (fun j => ?_) hage hms hws
      rw [modAt_get, ofFn_get]
      by_cases h : i = j
      · subst h; simp [hf, hm, slotLeft]
      · simp [h, Ne.symm h, slotLeft]
    | false =>
      refine withSlots_congr (t := s.slots) (fun j => ?_) hage hms hws
      rw [ofFn_get]
      by_cases h : i = j
      · subst h; simp [hf, hm, slotLeft]
      · simp [Ne.symm h, slotLeft]

theorem slotsLeft_slots (freed marked : SlotId → Bool) (l : List SlotId) (s : State) (i : SlotId) :
    (slotsLeft freed marked l s).slots[i] =
      slotLeft (decide (i ∈ l) && freed i) (decide (i ∈ l) && marked i) s.slots[i] := ofFn_get _ i

theorem withSlots_slotsLeft (freed marked : SlotId → Bool) (l : List SlotId) (s : State) (t : Vector Slot 8)
    (a : List SlotId) (m : Vector Master 16) (w : Vector Window 32) :
    withSlots (slotsLeft freed marked l s) t a m w = withSlots s t a m w := by
  simp only [withSlots, slotsLeft]

theorem slotsLeft_append (freed marked : SlotId → Bool) (k l : List SlotId) (h : ∀ i ∈ l, i ∉ k) (s : State) :
    slotsLeft freed marked l (slotsLeft freed marked k s) = slotsLeft freed marked (k ++ l) s := by
  have hk (i : SlotId) (hi : i ∈ l) : (slotsLeft freed marked k s).slots[i] = s.slots[i] := by
    rw [slotsLeft_slots]; simp [h i hi, slotLeft]
  have hcount (p : Slot → Bool) : (l.countP fun j => freed j && p (slotsLeft freed marked k s).slots[j]) =
      l.countP fun j => freed j && p s.slots[j] := List.countP_congr fun j hj => by rw [hk j hj]
  conv_lhs => rw [slotsLeft]
  rw [withSlots_slotsLeft]
  conv_rhs => rw [slotsLeft]
  refine withSlots_congr (fun i => ?_) ?_ (fun m => ?_) fun w => ?_
  · rw [ofFn_get, ofFn_get]
    by_cases hl : i ∈ l
    · rw [hk i hl]; simp [hl, h i hl]
    · rw [slotsLeft_slots]; simp [hl, slotLeft]
  · change (s.ageOrder.filter _).filter _ = _
    rw [List.filter_filter]
    refine List.filter_congr fun i _ => ?_
    by_cases hl : i ∈ l <;> by_cases hk : i ∈ k <;> simp [hl, hk]
  · rw [ofFn_get, ofFn_get, hcount fun e => e.key.master = m, List.countP_append, Nat.sub_add_eq]
    simp only [slotsLeft, withSlots, ofFn_get]
  · rw [ofFn_get, ofFn_get, hcount fun e => e.window = w, List.countP_append, Nat.sub_add_eq]
    simp only [slotsLeft, withSlots, ofFn_get]

/-- Slots that take their turns one after the other, each as the state finds it then, leave as the closed form says. -/
theorem foldl_slotTurn (freed marked : SlotId → Bool) (turn : State → SlotId → State) (l : List SlotId) (hl : l.Nodup)
    (s : State) (hturn : ∀ (t : State) (i : SlotId), t.slots[i] = s.slots[i] → turn t i = slotTurn freed marked i t) :
    l.foldl turn s = slotsLeft freed marked l s := by
  induction l using List.reverseRecOn with
  | nil => exact (slotsLeft_nil freed marked s).symm
  | append_singleton l i ih =>
    rw [List.nodup_append] at hl
    have hi : i ∉ l := fun h => (hl.2.2 i h i (List.mem_singleton_self i)) rfl
    have hs : (slotsLeft freed marked l s).slots[i] = s.slots[i] := by
      rw [slotsLeft_slots]; simp [hi, slotLeft]
    rw [List.foldl_append, ih hl.1]
    change turn (slotsLeft freed marked l s) i = _
    rw [hturn _ i hs, slotTurn_eq, slotsLeft_append _ _ _ _ (by simpa using hi)]

theorem slotsWithdrawn_eq (p : SlotId → Bool) (s : State) : slotsWithdrawn p s =
    slotsLeft (freedBy p s) (fun i => p i && s.slots[i].state = .fetching) (List.finRange 8) s :=
  withSlots_congr (s := s) (fun i => by
      rw [ofFn_get, ofFn_get]
      by_cases hf : freedBy p s i = true <;> by_cases hp : p i = true ∧ s.slots[i].state = .fetching <;>
        simp_all [slotLeft])
    (by simp) (fun m => rfl) (fun w => rfl)

/-- The withdrawal of slots, as the statements give it (R67). -/
theorem withdrawSlots_eq (p : Slot → Bool) (s : State) :
    withdrawSlots p s = slotsWithdrawn (fun i => p s.slots[i]) s := by
  rw [slotsWithdrawn_eq]
  refine foldl_slotTurn _ _ _ _ (List.nodup_finRange 8) s fun t i ht => ?_
  have hfree := freeSlot_eq i t
  unfold slotTurn freedBy withdrawSlot
  simp only [Fin.getElem_fin] at ht
  simp only [Fin.getElem_fin, ht] at hfree ⊢
  by_cases hg : s.slots[i.val].state = .fetching
  · by_cases hp : p s.slots[i.val] = true <;> simp [hg, hp]
  · by_cases hf : s.slots[i.val].state = .free
    · by_cases hp : p s.slots[i.val] = true <;> simp [hf, hp]
    · by_cases hp : p s.slots[i.val] = true <;> simp [hf, hg, hp, hfree]

theorem slotsCleared_eq (s : State) : slotsCleared s =
    slotsLeft (fun i => s.slots[i].state ≠ .free) (fun _ => false) (List.finRange 8) s :=
  withSlots_congr (s := s) (fun i => by rw [ofFn_get, ofFn_get]; simp [slotLeft])
    (by simp) (fun m => rfl) (fun w => rfl)

/-- The freeing of every slot, as the statements give it (R70). -/
theorem freeAllSlots_eq (s : State) : freeAllSlots s = slotsCleared s := by
  rw [slotsCleared_eq]
  refine foldl_slotTurn _ _ _ _ (List.nodup_finRange 8) s fun t i ht => ?_
  have hfree := freeSlot_eq i t
  unfold slotTurn
  by_cases hf : s.slots[i].state = .free
  · have ht' : t.slots[i].state = .free := by rw [ht]; exact hf
    rw [if_neg (by simpa using hf), if_neg (by simp), freeSlot, if_pos ht']
  · rw [if_pos (by simpa using hf)]
    exact hfree (by rw [ht]; exact hf)

end Sys2Proof.WindowTable
end

section
/-! The claims on the master and window tables (R14, R26, R99) under the single operations of an event. -/

namespace Sys2Proof.WindowTable

-- One proof after the other: the text is compiled as one file, within a limit on memory that each thread draws on.
set_option Elab.async false

open Sys2Proof Sys2Proof.Machine Sys2Proof.Safety

/-! ### The claims -/

/-- The queue within its places, and every claim equal to what is queued (R14, R26, R99). -/
structure Claims (s : State) : Prop where
  fits : QueueFits s
  writes : WritesAgree s
  reads : ReadsAgree s
  refs : RefsAgree s

/-- Both states queue as many entries with each claim, hold as many slots with each claim, and count them alike. -/
structure SameClaims (s t : State) : Prop where
  length : t.pwq.entries.length = s.pwq.entries.length
  data : t.pwq.entries.countP isData = s.pwq.entries.countP isData
  ofMaster : ∀ m, t.pwq.entries.countP (entryOfMaster m) = s.pwq.entries.countP (entryOfMaster m)
  naming : ∀ w, t.pwq.entries.countP (entryNames w) = s.pwq.entries.countP (entryNames w)
  slotsOf : ∀ m, countTable t.slots (slotOf m) = countTable s.slots (slotOf m)
  slotsNaming : ∀ w, countTable t.slots (slotNames w) = countTable s.slots (slotNames w)
  masters : ∀ m : MasterId, t.masters[m].outWrites = s.masters[m].outWrites ∧ t.masters[m].outReads = s.masters[m].outReads
  windows : ∀ w : WindowId, t.windows[w].refCount = s.windows[w].refCount

theorem Claims.same {s t : State} (h : SameClaims s t) (hs : Claims s) : Claims t where
  fits := ⟨h.length.trans_le hs.fits.1, h.data.trans_le hs.fits.2⟩
  writes m := by rw [(h.masters m).1, h.ofMaster, hs.writes]
  reads m := by rw [(h.masters m).2, h.slotsOf, hs.reads]
  refs w := by rw [h.windows, h.naming, h.slotsNaming, hs.refs]

theorem SameClaims.trans {s t u : State} (h : SameClaims s t) (k : SameClaims t u) : SameClaims s u where
  length := k.length.trans h.length
  data := k.data.trans h.data
  ofMaster m := (k.ofMaster m).trans (h.ofMaster m)
  naming w := (k.naming w).trans (h.naming w)
  slotsOf m := (k.slotsOf m).trans (h.slotsOf m)
  slotsNaming w := (k.slotsNaming w).trans (h.slotsNaming w)
  masters m := ⟨(k.masters m).1.trans (h.masters m).1, (k.masters m).2.trans (h.masters m).2⟩
  windows w := (k.windows w).trans (h.windows w)

/-- With queue and slots as they were, the tables alone have to be looked at. -/
theorem SameClaims.of_tables {s t : State} (he : t.pwq.entries = s.pwq.entries) (hs : t.slots = s.slots)
    (hm : ∀ m : MasterId, t.masters[m].outWrites = s.masters[m].outWrites ∧ t.masters[m].outReads = s.masters[m].outReads)
    (hw : ∀ w : WindowId, t.windows[w].refCount = s.windows[w].refCount) : SameClaims s t where
  length := by rw [he]
  data := by rw [he]
  ofMaster _ := by rw [he]
  naming _ := by rw [he]
  slotsOf _ := by rw [hs]
  slotsNaming _ := by rw [hs]
  masters := hm
  windows := hw

theorem SameClaims.of_eq {s t : State} (he : t.pwq.entries = s.pwq.entries) (hs : t.slots = s.slots)
    (hm : t.masters = s.masters) (hw : t.windows = s.windows) : SameClaims s t :=
  .of_tables he hs (fun _ => by rw [hm]; exact ⟨rfl, rfl⟩) fun _ => by rw [hw]

theorem SameClaims.of_slots {s t : State} (he : t.pwq.entries = s.pwq.entries)
    (hm : t.masters = s.masters) (hw : t.windows = s.windows)
    (ho : ∀ m, countTable t.slots (slotOf m) = countTable s.slots (slotOf m))
    (hn : ∀ w, countTable t.slots (slotNames w) = countTable s.slots (slotNames w)) : SameClaims s t where
  length := by rw [he]
  data := by rw [he]
  ofMaster _ := by rw [he]
  naming _ := by rw [he]
  slotsOf := ho
  slotsNaming := hn
  masters _ := by rw [hm]; exact ⟨rfl, rfl⟩
  windows _ := by rw [hw]

theorem modSlot_sameClaims (i : SlotId) (f : Slot → Slot) (s : State) (h₁ : s.slots[i].state ≠ .free)
    (h₂ : (f s.slots[i]).state ≠ .free) (hk : (f s.slots[i]).key = s.slots[i].key)
    (hw : (f s.slots[i]).window = s.slots[i].window) : SameClaims s (modSlot i f s) :=
  .of_slots rfl rfl rfl
    (fun m => countTable_modAt_same _ _ _ _ (by rw [slotOf, slotOf, hk, bne_iff_ne.mpr h₁, bne_iff_ne.mpr h₂]))
    fun w => countTable_modAt_same _ _ _ _ (by rw [slotNames, slotNames, hw, bne_iff_ne.mpr h₁, bne_iff_ne.mpr h₂])

theorem staleSlot_claims (a : CardAddr) (n : Nat) (e : Slot) :
    ((staleSlot a n e).state = .free ↔ e.state = .free) ∧ (staleSlot a n e).key = e.key ∧
      (staleSlot a n e).window = e.window := by
  unfold staleSlot
  split
  · next h =>
    simp only [Bool.and_eq_true, decide_eq_true_eq] at h
    simp [h.1.1]
  · simp

theorem lowerAhead_claims (e : Slot) :
    (lowerAhead e).state = e.state ∧ (lowerAhead e).key = e.key ∧ (lowerAhead e).window = e.window := by
  unfold lowerAhead; split <;> simp

theorem markStale_sameClaims (a : CardAddr) (n : Nat) (s : State) : SameClaims s (markStale a n s) := by
  refine .of_slots rfl rfl rfl (fun m => countTable_mapTable _ _ _ fun e => ?_)
    fun w => countTable_mapTable _ _ _ fun e => ?_
  all_goals
    obtain ⟨hf, hk, hw⟩ := staleSlot_claims a n e
    rw [Bool.eq_iff_iff]
    simp [slotOf, slotNames, hf, hk, hw]

theorem markVoid_countP (p : Entry → Bool) (hp : ∀ e, p (markedVoid e) = p e) (s : State) :
    (markVoid s).pwq.entries.countP p = s.pwq.entries.countP p := by
  have hm : ∀ l : List Entry, (l.map markedVoid).countP p = l.countP p := fun l => by
    rw [List.countP_map]; exact List.countP_congr fun e _ => by simp [hp]
  unfold markVoid notBegun
  dsimp only
  rw [List.countP_append, hm]
  split
  · rw [← List.countP_append, List.take_append_drop]
  · simp

theorem markedVoid_claims (e : Entry) : isData (markedVoid e) = isData e ∧
    (∀ m, entryOfMaster m (markedVoid e) = entryOfMaster m e) ∧ ∀ w, entryNames w (markedVoid e) = entryNames w e := by
  cases e with
  | control c => exact ⟨rfl, fun _ => rfl, fun _ => rfl⟩
  | data d =>
    have h : markedVoid (.data d) = .data { d with void := true } ∨ markedVoid (.data d) = .data d := by
      simp only [markedVoid]; split
      · exact .inl rfl
      · exact .inr rfl
    obtain h | h := h <;> rw [h] <;> exact ⟨rfl, fun _ => rfl, fun _ => rfl⟩

theorem markVoid_sameClaims (s : State) : SameClaims s (markVoid s) where
  length := markVoid_length s
  data := markVoid_countP _ (fun e => (markedVoid_claims e).1) s
  ofMaster m := markVoid_countP _ (fun e => (markedVoid_claims e).2.1 m) s
  naming w := markVoid_countP _ (fun e => (markedVoid_claims e).2.2 w) s
  slotsOf _ := rfl
  slotsNaming _ := rfl
  masters _ := ⟨rfl, rfl⟩
  windows _ := rfl

theorem setNote_sameClaims (m : MasterId) (n : Option WindowId) (s : State) : SameClaims s (setNote m n s) :=
  .of_tables rfl rfl (fun _ => ⟨modAt_get_proj _ _ _ _ Master.outWrites fun _ => rfl,
    modAt_get_proj _ _ _ _ Master.outReads fun _ => rfl⟩) fun _ => rfl

theorem noteBreak_sameClaims (c : BreakCause) (l : Lock) (s : State) : SameClaims s (noteBreak c l s) := by
  have hr : SameClaims s s := .of_eq rfl rfl rfl rfl
  unfold noteBreak
  split
  · split
    · exact hr
    · exact setNote_sameClaims _ _ s
  · exact hr

/-! ### The operations that give claims back -/

/-- From `s` to `t` the entries `gone` have left the queue with their claims (R37, R46). -/
structure Returns (gone : List Entry) (s t : State) : Prop where
  left : (gone ++ t.pwq.entries).Perm s.pwq.entries
  writes : ∀ m : MasterId, t.masters[m].outWrites = s.masters[m].outWrites - gone.countP (entryOfMaster m)
  reads : ∀ m : MasterId, t.masters[m].outReads = s.masters[m].outReads
  refs : ∀ w : WindowId, t.windows[w].refCount = s.windows[w].refCount - gone.countP (entryNames w)
  slotsOf : ∀ m, countTable t.slots (slotOf m) = countTable s.slots (slotOf m)
  slotsNaming : ∀ w, countTable t.slots (slotNames w) = countTable s.slots (slotNames w)

theorem Claims.returns {gone : List Entry} {s t : State} (h : Returns gone s t) (hs : Claims s) : Claims t := by
  have hc (p : Entry → Bool) : gone.countP p + t.pwq.entries.countP p = s.pwq.entries.countP p := by
    rw [← List.countP_append]; exact h.left.countP_eq p
  refine ⟨⟨?_, ?_⟩, fun m => ?_, fun m => ?_, fun w => ?_⟩
  · have hl := h.left.length_eq
    rw [List.length_append] at hl
    exact (hl ▸ Nat.le_add_left _ _ : t.pwq.entries.length ≤ s.pwq.entries.length).trans hs.fits.1
  · exact (hc isData ▸ Nat.le_add_left _ _ : t.pwq.entries.countP isData ≤ s.pwq.entries.countP isData).trans hs.fits.2
  · rw [h.writes, hs.writes, ← hc, Nat.add_sub_cancel_left]
  · rw [h.reads, hs.reads, h.slotsOf]
  · rw [h.refs, hs.refs, h.slotsNaming, ← hc, Nat.add_assoc, Nat.add_sub_cancel_left]

theorem lowerAhead_slotOf (m : MasterId) (e : Slot) : slotOf m (lowerAhead e) = slotOf m e := by
  obtain ⟨hf, hk, -⟩ := lowerAhead_claims e
  rw [slotOf, slotOf, hf, hk]

theorem lowerAhead_slotNames (w : WindowId) (e : Slot) : slotNames w (lowerAhead e) = slotNames w e := by
  obtain ⟨hf, -, hw⟩ := lowerAhead_claims e
  rw [slotNames, slotNames, hf, hw]

theorem removeHead_claims {s : State} (hs : Claims s) : Claims (removeHead s) := by
  unfold removeHead
  split
  · exact hs
  · next e rest he =>
    rw [entryClaims_eq]
    have hp : [e] ++ rest = s.pwq.entries := he.symm
    refine hs.returns (gone := [e]) ⟨.of_eq hp, fun m => ?_, fun m => ?_, fun w => ?_, fun m => ?_, fun w => ?_⟩
    · simp only [claimsReturned, ofFn_get]
    · simp only [claimsReturned, ofFn_get]
    · simp only [claimsReturned, ofFn_get]
    · exact countTable_mapTable _ _ _ fun e => lowerAhead_slotOf m e
    · exact countTable_mapTable _ _ _ fun e => lowerAhead_slotNames w e

theorem emptyQueue_claims {s : State} (hs : Claims s) : Claims (emptyQueue s) := by
  rw [emptyQueue_eq]
  refine hs.returns (gone := s.pwq.entries.drop (if inDrain s then 1 else 0))
    ⟨?_, fun m => ?_, fun m => ?_, fun w => ?_, fun m => by simp only [queueEmptied], fun w => by simp only [queueEmptied]⟩
  · change (s.pwq.entries.drop _ ++ s.pwq.entries.take _).Perm s.pwq.entries
    exact List.perm_append_comm.trans (.of_eq (List.take_append_drop _ _))
  · simp only [queueEmptied, ofFn_get]
  · simp only [queueEmptied, ofFn_get]
  · simp only [queueEmptied, ofFn_get]

/-- A slot that is not FREE and gives its claims back was counted (R66). -/
theorem freeSlot_claims (i : SlotId) {s : State} (hs : Claims s) : Claims (freeSlot i s) := by
  by_cases h : s.slots[i].state = .free
  · rw [freeSlot, if_pos h]; exact hs
  · rw [freeSlot_eq i s h]
    have hb : (s.slots[i].state != .free) = true := bne_iff_ne.mpr h
    refine ⟨hs.fits, fun m => ?_, fun m => ?_, fun w => ?_⟩
    · refine Eq.trans ?_ (hs.writes m)
      exact modAt_get_proj s.masters _ m (fun e => { e with outReads := e.outReads - 1 }) Master.outWrites fun _ => rfl
    · have ho := countTable_modAt s.slots i (fun _ => Slot.powerOn) (slotOf m)
      have hm := hs.reads m
      simp only [slotFreed, modAt_get]
      by_cases hk : s.slots[i].key.master = m
      · rw [if_pos (by rw [slotOf, hb, hk]; simp), if_neg (by simp [slotOf, Slot.powerOn])] at ho
        rw [if_pos hk]
        dsimp only
        omega
      · rw [if_neg (by rw [slotOf, hb]; simpa using hk), if_neg (by simp [slotOf, Slot.powerOn])] at ho
        rw [if_neg hk]
        omega
    · have hn := countTable_modAt s.slots i (fun _ => Slot.powerOn) (slotNames w)
      have hm := hs.refs w
      simp only [slotFreed, modAt_get]
      by_cases hk : s.slots[i].window = w
      · rw [if_pos (by rw [slotNames, hb, hk]; simp), if_neg (by simp [slotNames, Slot.powerOn])] at hn
        rw [if_pos hk]
        dsimp only
        omega
      · rw [if_neg (by rw [slotNames, hb]; simpa using hk), if_neg (by simp [slotNames, Slot.powerOn])] at hn
        rw [if_neg hk]
        omega

theorem withdrawSlot_claims (i : SlotId) {s : State} (hs : Claims s) : Claims (withdrawSlot i s) := by
  unfold withdrawSlot
  split
  · next h => exact hs.same (modSlot_sameClaims i _ s (by rw [h]; nofun) (by dsimp only; rw [h]; nofun) rfl rfl)
  · exact freeSlot_claims i hs

theorem withdrawLockedSlot_claims (slot : Option SlotId) {s : State} (hs : Claims s) :
    Claims (withdrawLockedSlot slot s) := by
  cases slot with
  | none => exact hs
  | some i => exact withdrawSlot_claims i hs

theorem offerReport_sameClaims (b : ReportBody) (s : State) : SameClaims s (offerReport b s) :=
  .of_eq (by simp) (by simp) (by simp) (by simp)

theorem breakLock_claims (c : BreakCause) {s : State} (hs : Claims s) : Claims (breakLock c s) := by
  unfold breakLock
  split
  · have hr : Claims (if s.lock.state = .owned then releaseHold (clearLock s) else clearLock s) :=
      hs.same (by split <;> exact .of_eq (by simp) (by simp) (by simp) (by simp))
    exact (((withdrawLockedSlot_claims _ hr).same (markVoid_sameClaims _)).same (noteBreak_sameClaims _ _ _)).same
      (offerReport_sameClaims _ _)
  · exact hs

theorem freeIfDrained_sameClaims (s : State) (w : WindowId) : SameClaims s (freeIfDrained s w) := by
  unfold freeIfDrained
  split
  · exact .of_tables (by simp) (by simp) (fun _ => by simp)
      fun v => by simpa using modAt_get_proj s.windows w v freedWindow Window.refCount fun _ => rfl
  · exact .of_eq rfl rfl rfl rfl

theorem modWindow_sameClaims (w : WindowId) (f : Window → Window) (s : State)
    (h : (f s.windows[w]).refCount = s.windows[w].refCount) :
    SameClaims s { s with windows := modAt s.windows w f } := by
  refine .of_tables rfl rfl (fun _ => ⟨rfl, rfl⟩) fun v => ?_
  simp only [modAt_get]
  split
  · next hv => subst hv; exact h
  · rfl

/-- Every single operation keeps the claims equal to what is queued (R14, R26, R99). -/
theorem Act.claims {s t : State} (h : Act s t) (hs : Claims s) : Claims t := by
  cases h with
  | leaves _ => exact removeHead_claims hs
  | freesSlot i => exact freeSlot_claims i hs
  | empties => exact emptyQueue_claims hs
  | breaks c _ => exact breakLock_claims c hs
  | frees w => exact hs.same (freeIfDrained_sameClaims s w)
  | discards w => exact hs.same (modWindow_sameClaims w _ s rfl)
  | freezes d rest _ _ => exact hs.same (modWindow_sameClaims d.window _ s rfl)
  | changesSlot i f h₁ h₂ hk hw => exact hs.same (modSlot_sameClaims i f s h₁ h₂ hk hw)
  | makesStale a n => exact hs.same (markStale_sameClaims a n s)
  | voids => exact hs.same (markVoid_sameClaims s)
  | accesses a => exact Claims.same (s := s) (.of_eq rfl rfl rfl rfl) hs
  | owns _ => exact Claims.same (s := s) (.of_eq rfl rfl rfl rfl) hs
  | _ => exact Claims.same (s := s) (.of_eq (by simp) (by simp) (by simp) (by simp)) hs

theorem Work.claims {s t : State} (h : Work s t) (hs : Claims s) : Claims t := by
  induction h with
  | refl => exact hs
  | tail _ h ih => exact h.claims ih

end Sys2Proof.WindowTable
end

section
/-! The windows' and the settings' laws (R2, R3, R4, R98, R125, R138) under the single operations of an event. -/

namespace Sys2Proof.WindowTable

-- One proof after the other: the text is compiled as one file, within a limit on memory that each thread draws on.
set_option Elab.async false

open Sys2Proof Sys2Proof.Machine Sys2Proof.Safety

/-! ### Settings -/

theorem settingsLegal_of_kept {s t : State} (h : Kept s t) (hs : SettingsLegal s) : SettingsLegal t := by
  obtain ⟨hm, ha, hr, hl, hc, ht⟩ := hs
  refine ⟨fun m => ?_, by rw [h.highWater]; exact ha, by rw [h.cu]; exact hr, by rw [h.cu]; exact hl,
    by rw [h.cu]; exact hc, by rw [h.cu]; exact ht⟩
  have hk := h.masters m
  simp only [masterConfig, Prod.mk.injEq] at hk
  obtain ⟨-, hcl, hrl, hv, hb⟩ := hk
  rw [hcl, hrl, hv, hb]
  exact hm m

/-! ### Windows -/

/-- The window is as it was but for a lower reference count. -/
structure Lowered (e f : Window) : Prop where
  state : f.state = e.state
  frozen : f.frozen = e.frozen
  tag : f.retireTag = e.retireTag
  discards : f.discards = e.discards
  refs : f.refCount ≤ e.refCount

theorem Lowered.refl (e : Window) : Lowered e e := ⟨rfl, rfl, rfl, rfl, Nat.le_refl _⟩

theorem Lowered.trans {e f g : Window} (h : Lowered e f) (k : Lowered f g) : Lowered e g :=
  ⟨k.state.trans h.state, k.frozen.trans h.frozen, k.tag.trans h.tag, k.discards.trans h.discards, k.refs.trans h.refs⟩

theorem lowered_of_eq {s t : State} (h : t.windows = s.windows) (w : WindowId) : Lowered s.windows[w] t.windows[w] := by
  rw [h]; exact .refl _

/-- A window entry of the same geometry is legal if the rest of its law holds. -/
theorem loadedLegal_of_config {e f : Window} (hc : windowConfig f = windowConfig e) (hs : f.state ≠ .free → e.state ≠ .free)
    (h : LoadedLegal e) : LoadedLegal f := fun hf => by
  simp only [windowConfig, Prod.mk.injEq] at hc
  obtain ⟨hb, hz, hcb, -⟩ := hc
  rw [hb, hz, hcb]
  exact h (hs hf)

theorem sizeCode_of_config {e f : Window} (hc : windowConfig f = windowConfig e) : f.sizeCode = e.sizeCode := by
  simp only [windowConfig, Prod.mk.injEq] at hc
  exact hc.2.1

theorem windowLegal_lowered {e f : Window} (hc : windowConfig f = windowConfig e) (h : Lowered e f)
    (he : WindowLegal e ∧ LoadedLegal e) : WindowLegal f ∧ LoadedLegal f := by
  obtain ⟨⟨hfree, htag, hsize, hdisc⟩, hl⟩ := he
  refine ⟨⟨fun hf => ?_, by rw [h.tag, h.state]; exact htag, by rw [sizeCode_of_config hc]; exact hsize,
    by rw [h.discards]; exact hdisc⟩, loadedLegal_of_config hc (fun k => by rwa [h.state] at k) hl⟩
  obtain ⟨h1, h2⟩ := hfree (by rw [← h.state]; exact hf)
  exact ⟨by rw [h.frozen]; exact h1, Nat.le_zero.mp (h2 ▸ h.refs)⟩

theorem windowsLegal_lowered {s t : State} (hk : Kept s t) (h : ∀ w : WindowId, Lowered s.windows[w] t.windows[w])
    (hs : WindowsLegal s) : WindowsLegal t := fun w => windowLegal_lowered (hk.windows w) (h w) (hs w)

theorem claimsReturned_lowered (gone : List Entry) (s : State) (w : WindowId) :
    Lowered s.windows[w] (claimsReturned gone s).windows[w] := by
  simp only [claimsReturned, ofFn_get]
  exact ⟨rfl, rfl, rfl, rfl, Nat.sub_le _ _⟩

theorem removeHead_lowered (s : State) (w : WindowId) : Lowered s.windows[w] (removeHead s).windows[w] := by
  unfold removeHead
  split
  · exact .refl _
  · rw [entryClaims_eq]
    exact claimsReturned_lowered _ _ w

theorem emptyQueue_lowered (s : State) (w : WindowId) : Lowered s.windows[w] (emptyQueue s).windows[w] := by
  rw [emptyQueue_eq]
  simp only [queueEmptied, ofFn_get]
  exact ⟨rfl, rfl, rfl, rfl, Nat.sub_le _ _⟩

theorem freeSlot_lowered (i : SlotId) (s : State) (w : WindowId) : Lowered s.windows[w] (freeSlot i s).windows[w] := by
  by_cases h : s.slots[i].state = .free
  · rw [freeSlot, if_pos h]; exact .refl _
  · rw [freeSlot_eq i s h]
    simp only [slotFreed, modAt_get]
    split
    · exact ⟨rfl, rfl, rfl, rfl, Nat.sub_le _ _⟩
    · exact .refl _

theorem withdrawSlot_lowered (i : SlotId) (s : State) (w : WindowId) :
    Lowered s.windows[w] (withdrawSlot i s).windows[w] := by
  unfold withdrawSlot
  split
  · exact .refl _
  · exact freeSlot_lowered i s w

theorem withdrawLockedSlot_lowered (slot : Option SlotId) (s : State) (w : WindowId) :
    Lowered s.windows[w] (withdrawLockedSlot slot s).windows[w] := by
  cases slot with
  | none => exact .refl _
  | some i => exact withdrawSlot_lowered i s w

theorem breakLock_lowered (c : BreakCause) (s : State) (w : WindowId) :
    Lowered s.windows[w] (breakLock c s).windows[w] := by
  unfold breakLock
  split
  · refine Lowered.trans (f := (if s.lock.state = .owned then releaseHold (clearLock s) else clearLock s).windows[w]) ?_ ?_
    · exact lowered_of_eq (by split <;> simp) w
    · exact (withdrawLockedSlot_lowered s.lock.slot _ w).trans (lowered_of_eq (by simp) w)
  · exact .refl _

theorem modWindow_legal {s : State} (w : WindowId) (f : Window → Window)
    (hf : WindowLegal s.windows[w] ∧ LoadedLegal s.windows[w] →
      WindowLegal (f s.windows[w]) ∧ LoadedLegal (f s.windows[w])) (hs : WindowsLegal s) :
    WindowsLegal { s with windows := modAt s.windows w f } := fun v => by
  simp only [modAt_get]
  split
  · next h => subst h; exact hf (hs w)
  · exact hs v

/-- A window that has been freed is legal (R15). -/
theorem freedWindow_legal {e : Window} (hr : e.refCount = 0) (h : WindowLegal e ∧ LoadedLegal e) :
    WindowLegal (freedWindow e) ∧ LoadedLegal (freedWindow e) := by
  obtain ⟨⟨-, -, hsize, hdisc⟩, -⟩ := h
  exact ⟨⟨fun _ => ⟨rfl, hr⟩, by simp [freedWindow], hsize, hdisc⟩, fun hf => absurd rfl hf⟩

theorem freeIfDrained_legal (w : WindowId) {s : State} (hs : WindowsLegal s) : WindowsLegal (freeIfDrained s w) := by
  unfold freeIfDrained
  split
  · next h =>
    have := modWindow_legal w freedWindow (freedWindow_legal h.2) hs
    intro v
    rw [offerReport_windows]
    exact this v
  · exact hs

/-- A window that the head of the queue names is not FREE (R4, R14). -/
theorem named_not_free {s : State} {d : DataEntry} {rest : List Entry} (he : s.pwq.entries = .data d :: rest)
    (hn : d.names = true) (hc : Claims s) (hs : WindowsLegal s) : s.windows[d.window].state ≠ .free := fun hf => by
  obtain ⟨-, hz⟩ := (hs d.window).1.1 hf
  have hr := hc.refs d.window
  rw [hz, he, List.countP_cons, entryNames, hn] at hr
  simp at hr
  omega

theorem Act.kept {s t : State} (h : Act s t) : Kept s t := by
  cases h with
  | reports b => exact offerReport_kept b s
  | drops => exact countDropped_kept s
  | performs => exact countPerformed_kept s
  | discards w => exact countDiscard_kept w s
  | leaves _ => exact removeHead_kept s
  | frees w => exact freeIfDrained_kept s w
  | freesSlot i => exact freeSlot_kept i s
  | changesSlot i f _ _ _ _ => exact modSlot_kept i f s
  | makesStale a n => exact markStale_kept a n s
  | voids => exact markVoid_kept s
  | empties => exact emptyQueue_kept s
  | breaks c _ => exact breakLock_kept c s
  | clearsLock => exact clearLock_kept s
  | stopsTimer d => exact stopLockTimer_kept d s
  | owns _ => exact ownLock_kept s
  | releases => exact releaseHold_kept s
  | endsTenure => exact endTenure_kept s
  | reviews => exact reviewRequest_kept s
  | accesses a => constructor <;> intros <;> rfl
  | chooses => exact takeChoice_kept s
  | freezes d rest _ _ => exact kept_modWindow d.window (fun e => { e with frozen := true }) (fun _ => rfl) s
  | faults => exact becomeFaulted_kept _ s
  | quiesces => exact testQuiesce_kept s
  | asks => exact askForPlace_kept s

theorem Act.windowsLegal {s t : State} (h : Act s t) (hc : Claims s) (hs : WindowsLegal s) : WindowsLegal t := by
  have low := fun k => windowsLegal_lowered (s := s) (t := t) h.kept k hs
  cases h with
  | leaves _ => exact low (removeHead_lowered s)
  | freesSlot i => exact low (freeSlot_lowered i s)
  | empties => exact low (emptyQueue_lowered s)
  | breaks c _ => exact low (breakLock_lowered c s)
  | frees w => exact freeIfDrained_legal w hs
  | discards w =>
    refine modWindow_legal w _ (fun ⟨⟨hfree, htag, hsize, _⟩, hl⟩ => ⟨⟨hfree, htag, hsize, ?_⟩, hl⟩) hs
    exact Nat.min_le_left _ _
  | freezes d rest he hn =>
    have hf := named_not_free he hn hc hs
    exact modWindow_legal d.window _
      (fun ⟨⟨_, htag, hsize, hdisc⟩, hl⟩ => ⟨⟨fun h => absurd h hf, htag, hsize, hdisc⟩, hl⟩) hs
  | accesses a => exact hs
  | owns _ => exact hs
  | changesSlot i f _ _ _ _ => exact hs
  | _ => exact low (lowered_of_eq (by simp))

/-- The claims, the windows' law and the settings' law together: the windows' law needs the claims, because a window that
is frozen must be one that is still named. -/
structure TablesLegal (s : State) : Prop where
  claims : Claims s
  windows : WindowsLegal s
  settings : SettingsLegal s

theorem Act.tablesLegal {s t : State} (h : Act s t) (hs : TablesLegal s) : TablesLegal t :=
  ⟨h.claims hs.claims, h.windowsLegal hs.claims hs.windows, settingsLegal_of_kept h.kept hs.settings⟩

theorem Work.tablesLegal {s t : State} (h : Work s t) (hs : TablesLegal s) : TablesLegal t := by
  induction h with
  | refl => exact hs
  | tail _ h ih => exact h.tablesLegal ih

/-! ### The space request (R167) -/

/-- A place for a RESULT is asked for only while a control entry stands at the head (R33, R167). -/
def SpaceLegal (s : State) : Prop := s.rq.space ≠ .none → ∃ c rest, s.pwq.entries = .control c :: rest

theorem SpaceLegal.of_eq {s t : State} (he : t.pwq.entries = s.pwq.entries)
    (hr : s.rq.space = .none → t.rq.space = .none) (hs : SpaceLegal s) : SpaceLegal t := fun h => by
  rw [he]; exact hs fun k => h (hr k)

theorem markVoid_spaceLegal {s : State} (hs : SpaceLegal s) : SpaceLegal (markVoid s) := fun h => by
  obtain ⟨c, rest, he⟩ := hs h
  unfold markVoid notBegun
  rw [he]
  cases inDrain s with
  | true => exact ⟨c, rest.map markedVoid, rfl⟩
  | false => exact ⟨c, rest.map markedVoid, rfl⟩

theorem breakLock_spaceLegal (c : BreakCause) {s : State} (hs : SpaceLegal s) : SpaceLegal (breakLock c s) := by
  unfold breakLock
  split
  · have hw : SpaceLegal (withdrawLockedSlot s.lock.slot
        (if s.lock.state = .owned then releaseHold (clearLock s) else clearLock s)) :=
      hs.of_eq (by split <;> simp) (by split <;> simp)
    exact (markVoid_spaceLegal hw).of_eq (by simp) (by simp)
  · exact hs

theorem removeHead_entries (s : State) : (removeHead s).pwq.entries = s.pwq.entries.tail := by
  unfold removeHead
  split
  · next he => rw [he]; rfl
  · next e rest he => rw [entryClaims_eq, he]; rfl

theorem removeHead_rq (s : State) : (removeHead s).rq = s.rq := by
  unfold removeHead
  split
  · rfl
  · rw [entryClaims_eq]; simp only [claimsReturned]

theorem freeIfDrained_spaceLegal (w : WindowId) {s : State} (hs : SpaceLegal s) : SpaceLegal (freeIfDrained s w) := by
  unfold freeIfDrained
  split
  · exact hs.of_eq (by simp) (by simp)
  · exact hs

theorem Act.spaceLegal {s t : State} (h : Act s t) (hs : SpaceLegal s) : SpaceLegal t := by
  cases h with
  | leaves hl =>
    intro h
    rw [removeHead_rq] at h
    obtain ⟨d, rest, he⟩ | hn := hl
    · obtain ⟨c, rest', he'⟩ := hs h
      rw [he] at he'
      injection he' with h1 _
      injection h1
    · exact absurd hn h
  | voids => exact markVoid_spaceLegal hs
  | empties => exact fun h => absurd (by rw [emptyQueue_eq]; rfl) h
  | breaks c _ => exact breakLock_spaceLegal c hs
  | frees w => exact freeIfDrained_spaceLegal w hs
  | asks =>
    unfold askForPlace
    split
    · next c rest he => exact fun _ => ⟨c, rest, by split <;> exact he⟩
    · exact hs
  | accesses a => exact hs
  | owns _ => exact hs
  | changesSlot i f _ _ _ _ => exact hs
  | freezes d rest _ _ => exact hs
  | _ => exact hs.of_eq (by simp) (by simp)

theorem Work.spaceLegal {s t : State} (h : Work s t) (hs : SpaceLegal s) : SpaceLegal t := by
  induction h with
  | refl => exact hs
  | tail _ h ih => exact h.spaceLegal ih

end Sys2Proof.WindowTable
end

section
/-! What a command does beside the gate's internal work (`Deed`), and an event as a course of stages: what the command does
itself and then what settles it, or something that leaves the queue, the windows and the bus nothing new to do. -/

namespace Sys2Proof.WindowTable

-- One proof after the other: the text is compiled as one file, within a limit on memory that each thread draws on.
set_option Elab.async false

open Sys2Proof Sys2Proof.Machine Sys2Proof.Safety

/-! ### Deeds -/

/-- Queue, slots, windows and claims are as they were, no place is asked for, and the settings stay legal. -/
structure SameBooks (s t : State) : Prop where
  entries : t.pwq.entries = s.pwq.entries
  slots : t.slots = s.slots
  windows : t.windows = s.windows
  masters : ∀ m : MasterId, t.masters[m].outWrites = s.masters[m].outWrites ∧ t.masters[m].outReads = s.masters[m].outReads
  space : s.rq.space = .none → t.rq.space = .none
  settings : SettingsLegal s → SettingsLegal t

/-- A new slot of a master on a window, with its claims (R55). -/
def slotTaken (i : SlotId) (e : Slot) (s : State) : State :=
  raiseRef e.window (raiseReads e.key.master
    { s with slots := modAt s.slots i (fun _ => e), ageOrder := s.ageOrder ++ [i] })

/-- Every block but the report queue and the timebase at its reset values, with no place asked for. -/
structure Fresh (t : State) : Prop where
  windows : t.windows = Vector.replicate 32 Window.powerOn
  masters : t.masters = Vector.replicate 16 Master.powerOn
  entries : t.pwq.entries = []
  slots : t.slots = Vector.replicate 8 Slot.powerOn
  ageOrder : t.ageOrder = []
  cbc : t.cbc = Controller.powerOn
  arb : t.arb = Arbiter.held
  cu : t.cu = ControlUnit.powerOn
  gsc : t.gsc.state = .reset
  space : t.rq.space = .none

/-- One thing that a command does to the state, with what the command has found before. -/
inductive Deed : State → State → Prop where
  | act {s t : State} : Act s t → Deed s t
  | aside {s t : State} : SameBooks s t → Deed s t
  | appends (s : State) (d : DataEntry) : d.names = true → s.windows[d.window].state ≠ .free →
      dataCount s < Config.dataPlaces → queueLength s < Config.queuePlaces → Deed s (appendData d s)
  | appendsControl (s : State) (c : ControlEntry) : queueLength s < Config.queuePlaces → Deed s (appendControl c s)
  | takes (s : State) (i : SlotId) (e : Slot) : s.slots[i].state = .free → e.state ≠ .free →
      s.windows[e.window].state ≠ .free → Deed s (slotTaken i e s)
  | changes (s : State) (w : WindowId) (f : Window → Window) : (f s.windows[w]).refCount = s.windows[w].refCount →
      (WindowLegal s.windows[w] ∧ LoadedLegal s.windows[w] →
        WindowLegal (f s.windows[w]) ∧ LoadedLegal (f s.windows[w])) →
      Deed s { s with windows := modAt s.windows w f }
  | clears (s : State) : (∀ i : SlotId, s.slots[i].state = .free) → Deed s (clearWindows s)
  | restarts {s t : State} : Fresh t → Deed s t

/-- A course of deeds. -/
abbrev Deeds : State → State → Prop := Relation.ReflTransGen Deed

theorem Deed.deeds {s t : State} (h : Deed s t) : Deeds s t := .single h

theorem Act.deeds {s t : State} (h : Act s t) : Deeds s t := .single (.act h)

theorem SameBooks.deeds {s t : State} (h : SameBooks s t) : Deeds s t := .single (.aside h)

theorem Work.deeds {s t : State} (h : Work s t) : Deeds s t :=
  Relation.ReflTransGen.mono (fun _ _ h => Deed.act h) _ _ h

/-! ### Deeds and the laws -/

theorem SameBooks.sameClaims {s t : State} (h : SameBooks s t) : SameClaims s t :=
  .of_tables h.entries h.slots h.masters fun _ => by rw [h.windows]

/-- Nothing but the named blocks has changed. -/
theorem SameBooks.of_eq {s t : State} (he : t.pwq.entries = s.pwq.entries := by rfl) (hs : t.slots = s.slots := by rfl)
    (hw : t.windows = s.windows := by rfl) (hm : t.masters = s.masters := by rfl)
    (hr : t.rq.space = s.rq.space := by rfl) (ha : t.arb.highWater = s.arb.highWater := by rfl)
    (hc : t.cu = s.cu := by rfl) : SameBooks s t where
  entries := he
  slots := hs
  windows := hw
  masters _ := by rw [hm]; exact ⟨rfl, rfl⟩
  space := by rw [hr]; exact id
  settings := by unfold SettingsLegal; rw [hm, ha, hc]; exact id

theorem appendData_claims {s : State} {d : DataEntry} (hn : d.names = true) (hd : dataCount s < Config.dataPlaces)
    (hq : queueLength s < Config.queuePlaces) (hs : Claims s) : Claims (appendData d s) := by
  refine ⟨⟨?_, ?_⟩, fun m => ?_, fun m => ?_, fun w => ?_⟩
  · change (s.pwq.entries ++ [Entry.data d]).length ≤ _
    rw [List.length_append]; exact hq
  · change (s.pwq.entries ++ [Entry.data d]).countP isData ≤ _
    rw [List.countP_append]; exact hd
  · change (modAt s.masters d.master _)[m].outWrites = (s.pwq.entries ++ [Entry.data d]).countP (entryOfMaster m)
    rw [List.countP_append, ← hs.writes m, List.countP_singleton, modAt_get]
    by_cases h : d.master = m
    · rw [if_pos h, if_pos (by simpa [entryOfMaster] using h)]
    · rw [if_neg h, if_neg (by simpa [entryOfMaster] using h)]; rfl
  · exact (modAt_get_proj s.masters d.master m (fun e => { e with outWrites := e.outWrites + 1 }) Master.outReads
      fun _ => rfl).trans (hs.reads m)
  · change (modAt s.windows d.window _)[w].refCount =
      (s.pwq.entries ++ [Entry.data d]).countP (entryNames w) + countTable s.slots (slotNames w)
    have hr := hs.refs w
    rw [List.countP_append, List.countP_singleton, modAt_get]
    by_cases h : d.window = w
    · rw [if_pos h, if_pos (by simp [entryNames, h, hn])]
      dsimp only
      omega
    · rw [if_neg h, if_neg (by simp [entryNames, h])]
      omega

theorem appendControl_claims {s : State} {c : ControlEntry} (hq : queueLength s < Config.queuePlaces) (hs : Claims s) :
    Claims (appendControl c s) := by
  refine ⟨⟨?_, ?_⟩, fun m => ?_, hs.reads, fun w => ?_⟩
  · change (s.pwq.entries ++ [Entry.control c]).length ≤ _
    rw [List.length_append]; exact hq
  · change (s.pwq.entries ++ [Entry.control c]).countP isData ≤ _
    rw [List.countP_append]; exact hs.fits.2
  · change _ = (s.pwq.entries ++ [Entry.control c]).countP (entryOfMaster m)
    rw [List.countP_append]; exact hs.writes m
  · change _ = (s.pwq.entries ++ [Entry.control c]).countP (entryNames w) + _
    rw [List.countP_append]; exact hs.refs w

theorem slotTaken_claims {s : State} {i : SlotId} {e : Slot} (hi : s.slots[i].state = .free) (he : e.state ≠ .free)
    (hs : Claims s) : Claims (slotTaken i e s) := by
  have hb : (e.state != .free) = true := bne_iff_ne.mpr he
  have hf : (s.slots[i].state != .free) = false := by rw [hi]; rfl
  refine ⟨hs.fits, fun m => ?_, fun m => ?_, fun w => ?_⟩
  · exact (modAt_get_proj s.masters e.key.master m (fun e => { e with outReads := e.outReads + 1 }) Master.outWrites
      fun _ => rfl).trans (hs.writes m)
  · change (modAt s.masters e.key.master _)[m].outReads = countTable (modAt s.slots i _) (slotOf m)
    have hc := countTable_modAt s.slots i (fun _ => e) (slotOf m)
    have hr := hs.reads m
    rw [if_neg (by rw [slotOf, hf]; simp)] at hc
    rw [modAt_get]
    by_cases h : e.key.master = m
    · rw [if_pos (by rw [slotOf, hb]; simpa using h)] at hc
      rw [if_pos h]
      dsimp only
      omega
    · rw [if_neg (by rw [slotOf, hb]; simpa using h)] at hc
      rw [if_neg h]
      omega
  · change (modAt s.windows e.window _)[w].refCount =
      s.pwq.entries.countP (entryNames w) + countTable (modAt s.slots i _) (slotNames w)
    have hc := countTable_modAt s.slots i (fun _ => e) (slotNames w)
    have hr := hs.refs w
    rw [if_neg (by rw [slotNames, hf]; simp)] at hc
    rw [modAt_get]
    by_cases h : e.window = w
    · rw [if_pos (by rw [slotNames, hb]; simpa using h)] at hc
      rw [if_pos h]
      dsimp only
      omega
    · rw [if_neg (by rw [slotNames, hb]; simpa using h)] at hc
      rw [if_neg h]
      omega

theorem clearWindows_claims {s : State} (hf : ∀ i : SlotId, s.slots[i].state = .free) (hs : Claims s) :
    Claims (clearWindows s) := by
  have hc (p : Entry → Bool) (hp : ∀ e, p (unnamed e) = p e) : (s.pwq.entries.map unnamed).countP p = s.pwq.entries.countP p := by
    rw [List.countP_map]; exact List.countP_congr fun e _ => by simp [hp]
  refine ⟨⟨?_, ?_⟩, fun m => ?_, hs.reads, fun w => ?_⟩
  · exact (List.length_map _).trans_le hs.fits.1
  · exact (hc isData fun e => by cases e <;> rfl).trans_le hs.fits.2
  · exact (hs.writes m).trans (hc (entryOfMaster m) fun e => by cases e <;> rfl).symm
  · have h0 : (s.pwq.entries.map unnamed).countP (entryNames w) = 0 := by
      rw [List.countP_map, List.countP_eq_zero]
      intro e _
      cases e <;> simp [unnamed, entryNames]
    have h1 : countTable s.slots (slotNames w) = 0 :=
      (countTable_eq_zero _ _).mpr fun i => by rw [slotNames, hf i]; rfl
    change (Vector.replicate 32 Window.powerOn)[w].refCount = (s.pwq.entries.map unnamed).countP (entryNames w) +
      countTable s.slots (slotNames w)
    rw [h0, h1]
    simp [Window.powerOn]

theorem powerOn_legal : WindowLegal Window.powerOn ∧ LoadedLegal Window.powerOn := by
  simp [WindowLegal, LoadedLegal, Window.powerOn]

theorem windowsLegal_powerOn {s : State} (h : s.windows = Vector.replicate 32 Window.powerOn) : WindowsLegal s :=
  fun w => by rw [h]; simpa using powerOn_legal

theorem Fresh.claims {s : State} (h : Fresh s) : Claims s := by
  refine ⟨⟨?_, ?_⟩, fun m => ?_, fun m => ?_, fun w => ?_⟩
  · rw [queueLength, h.entries]; decide
  · rw [dataCount, h.entries]; decide
  · rw [h.masters, h.entries]; simp [Master.powerOn]
  · have h1 : countTable s.slots (slotOf m) = 0 :=
      (countTable_eq_zero _ _).mpr fun i => by rw [h.slots]; simp [slotOf, Slot.powerOn]
    rw [h1, h.masters]; simp [Master.powerOn]
  · have h1 : countTable s.slots (slotNames w) = 0 :=
      (countTable_eq_zero _ _).mpr fun i => by rw [h.slots]; simp [slotNames, Slot.powerOn]
    rw [h1, h.windows, h.entries]; simp [Window.powerOn]

theorem Fresh.settings {s : State} (h : Fresh s) : SettingsLegal s := by
  unfold SettingsLegal
  rw [h.arb, h.cu, h.masters]
  refine ⟨fun m => ?_, by decide, by decide, by decide, by decide, by decide⟩
  rw [Fin.getElem_fin, Vector.getElem_replicate]
  decide

theorem raised_legal {e : Window} (h : e.state ≠ .free) (he : WindowLegal e ∧ LoadedLegal e) :
    WindowLegal { e with refCount := e.refCount + 1 } ∧ LoadedLegal { e with refCount := e.refCount + 1 } :=
  ⟨⟨fun k => absurd k h, he.1.2⟩, he.2⟩

theorem Deed.claims {s t : State} (h : Deed s t) (hs : Claims s) : Claims t := by
  cases h with
  | act h => exact h.claims hs
  | aside h => exact hs.same h.sameClaims
  | appends d hn _ hd hq => exact appendData_claims hn hd hq hs
  | appendsControl c hq => exact appendControl_claims hq hs
  | takes i e hi he _ => exact slotTaken_claims hi he hs
  | changes w f hr _ => exact hs.same (modWindow_sameClaims w f s hr)
  | clears hf => exact clearWindows_claims hf hs
  | restarts h => exact h.claims

theorem Deed.tablesLegal {s t : State} (h : Deed s t) (hs : TablesLegal s) : TablesLegal t := by
  refine ⟨h.claims hs.claims, ?_, ?_⟩
  · cases h with
    | act h => exact h.windowsLegal hs.claims hs.windows
    | aside h => unfold WindowsLegal; rw [h.windows]; exact hs.windows
    | appends d _ hw _ _ => exact modWindow_legal d.window _ (raised_legal hw) hs.windows
    | appendsControl c _ => exact hs.windows
    | takes i e _ _ hw => exact modWindow_legal e.window _ (raised_legal hw) hs.windows
    | changes w f _ hf => exact modWindow_legal w f hf hs.windows
    | clears _ => exact windowsLegal_powerOn rfl
    | restarts h => exact windowsLegal_powerOn h.windows
  · cases h with
    | act h => exact settingsLegal_of_kept h.kept hs.settings
    | aside h => exact h.settings hs.settings
    | restarts h => exact h.settings
    | appends d _ _ _ _ => exact settingsLegal_of_kept (t := raiseWrites d.master s) (raiseWrites_kept d.master s) hs.settings
    | takes i e _ _ _ => exact settingsLegal_of_kept (t := raiseReads e.key.master s) (raiseReads_kept e.key.master s) hs.settings
    | _ => exact hs.settings

theorem Deed.spaceLegal {s t : State} (h : Deed s t) (hs : SpaceLegal s) : SpaceLegal t := by
  have longer (e : Entry) (hn : s.rq.space ≠ .none) : ∃ c rest, s.pwq.entries ++ [e] = .control c :: rest := by
    obtain ⟨c, rest, he⟩ := hs hn
    exact ⟨c, rest ++ [e], by rw [he]; rfl⟩
  cases h with
  | act h => exact h.spaceLegal hs
  | aside h => exact hs.of_eq h.entries h.space
  | appends d _ _ _ _ => exact longer (.data d)
  | appendsControl c _ => exact longer (.control c)
  | takes i e _ _ _ => exact hs
  | changes w f _ _ => exact hs
  | clears _ =>
    intro h
    obtain ⟨c, rest, he⟩ := hs h
    exact ⟨c, rest.map unnamed, by unfold clearWindows; rw [he]; rfl⟩
  | restarts h => exact fun k => absurd h.space k

theorem Deeds.claims {s t : State} (h : Deeds s t) (hs : Claims s) : Claims t := by
  induction h with
  | refl => exact hs
  | tail _ h ih => exact h.claims ih

theorem Deeds.tablesLegal {s t : State} (h : Deeds s t) (hs : TablesLegal s) : TablesLegal t := by
  induction h with
  | refl => exact hs
  | tail _ h ih => exact h.tablesLegal ih

theorem Deeds.spaceLegal {s t : State} (h : Deeds s t) (hs : SpaceLegal s) : SpaceLegal t := by
  induction h with
  | refl => exact hs
  | tail _ h ih => exact h.spaceLegal ih

/-! ### Stages -/

/-- Nothing that the queue's head, a window, a quiesce or the card bus could act on has changed. -/
structure SameTask (s t : State) : Prop where
  entries : t.pwq.entries = s.pwq.entries
  windows : t.windows = s.windows
  eligible : ∀ i, eligible t i = eligible s i
  slotsInUse : slotsInUse t = slotsInUse s
  ageOrder : t.ageOrder = s.ageOrder
  lock : t.lock.state = s.lock.state
  gsc : t.gsc = s.gsc
  space : t.rq.space = .none ↔ s.rq.space = .none
  lockHold : t.arb.lockHold = s.arb.lockHold
  access : t.cbc.access.isSome = s.cbc.access.isSome
  inDrain : inDrain t = inDrain s
  tenure : t.cbc.tenure = s.cbc.tenure
  request : t.cbc.request = s.cbc.request

/-- A part of an event: deeds that are then settled, or deeds that leave nothing new to do, or a reset asserted. -/
inductive Stage : State → State → Prop where
  | settles {s x : State} : Deeds s x → Stage s (settle x)
  | light {s t : State} : Deeds s t → SameTask s t → Stage s t
  | fresh {s t : State} : Fresh t → Stage s t

/-- An event as a course of stages. -/
abbrev Course : State → State → Prop := Relation.ReflTransGen Stage

theorem Stage.deeds {s t : State} (h : Stage s t) : Deeds s t := by
  cases h with
  | settles h => exact h.trans (settle_work _).deeds
  | light h _ => exact h
  | fresh h => exact .single (.restarts h)

theorem Stage.course {s t : State} (h : Stage s t) : Course s t := .single h

theorem Course.deeds {s t : State} (h : Course s t) : Deeds s t := by
  induction h with
  | refl => exact .refl
  | tail _ h ih => exact ih.trans h.deeds

/-- A light stage in which the blocks that hold work are as they were. -/
theorem SameTask.of_eq {s t : State} (he : t.pwq.entries = s.pwq.entries := by rfl) (hw : t.windows = s.windows := by rfl)
    (hs : t.slots = s.slots := by rfl) (ho : t.ageOrder = s.ageOrder := by rfl) (hl : t.lock = s.lock := by rfl)
    (hg : t.gsc = s.gsc := by rfl) (hr : t.rq.space = s.rq.space := by rfl)
    (ha : t.arb.lockHold = s.arb.lockHold := by rfl) (hc : t.cbc = s.cbc := by rfl) : SameTask s t where
  entries := he
  windows := hw
  eligible i := by unfold Machine.eligible; rw [hs]
  slotsInUse := by unfold Machine.slotsInUse; rw [hs]
  ageOrder := ho
  lock := by rw [hl]
  gsc := hg
  space := by rw [hr]
  lockHold := ha
  access := by rw [hc]
  inDrain := by unfold Machine.inDrain; rw [hc]
  tenure := by rw [hc]
  request := by rw [hc]

end Sys2Proof.WindowTable
end

section
/-! Every command of the table but the releases of a reset is a course of stages. -/

namespace Sys2Proof.WindowTable

-- One proof after the other: the text is compiled as one file, within a limit on memory that each thread draws on.
set_option Elab.async false

open Sys2Proof Sys2Proof.Machine Sys2Proof.Safety

/-! ### Light stages -/

theorem settle_course {s x : State} (h : Deeds s x) : Course s (settle x) := (Stage.settles h).course

theorem light_course {s t : State} (h : Deeds s t) (k : SameTask s t) : Course s t := (Stage.light h k).course

theorem answer_course (a : Answer) {s t : State} (h : Course s t) : Course s (answer a t) :=
  h.tail (.light (SameBooks.of_eq (s := t)).deeds (SameTask.of_eq (s := t)))

theorem answered (a : Answer) (s : State) : Course s (answer a s) := answer_course a .refl

theorem offerReport_course (b : ReportBody) (s : State) : Course s (offerReport b s) :=
  light_course (Act.reports s b).deeds
    (.of_eq (by simp) (by simp) (by simp) (by simp) (by simp) (by simp) (by simp) (by simp) (by simp))

/-- The ranges of a master record's settings (R98). -/
def MasterInRange (e : Master) : Prop :=
  e.creditLimit ≤ 30 ∧ e.readLimit ≤ 8 ∧ e.violations ≤ 255 ∧ e.barThreshold ≤ 255

theorem sameBooks_modMaster (m : MasterId) (f : Master → Master) (s : State)
    (hc : ∀ e, (f e).outWrites = e.outWrites ∧ (f e).outReads = e.outReads)
    (hr : MasterInRange s.masters[m] → MasterInRange (f s.masters[m])) :
    SameBooks s { s with masters := modAt s.masters m f } where
  entries := rfl
  slots := rfl
  windows := rfl
  masters k := ⟨modAt_get_proj _ _ _ _ Master.outWrites fun e => (hc e).1,
    modAt_get_proj _ _ _ _ Master.outReads fun e => (hc e).2⟩
  space := id
  settings h := ⟨fun k => by
    change MasterInRange (modAt s.masters m f)[k]
    rw [modAt_get]
    split
    · next hk => subst hk; exact hr (h.1 m)
    · exact h.1 k, h.2⟩

theorem sameBooks_mapMasters (f : Master → Master) (s : State)
    (hc : ∀ e, (f e).outWrites = e.outWrites ∧ (f e).outReads = e.outReads)
    (hr : ∀ e, MasterInRange e → MasterInRange (f e)) :
    SameBooks s { s with masters := mapTable s.masters f } where
  entries := rfl
  slots := rfl
  windows := rfl
  masters k := by dsimp only; rw [mapTable_get]; exact hc _
  space := id
  settings h := ⟨fun k => by
    change MasterInRange (mapTable s.masters f)[k]
    rw [mapTable_get]
    exact hr _ (h.1 k), h.2⟩

theorem modMaster_course (m : MasterId) (f : Master → Master) (s : State)
    (hc : ∀ e, (f e).outWrites = e.outWrites ∧ (f e).outReads = e.outReads)
    (hr : MasterInRange s.masters[m] → MasterInRange (f s.masters[m])) :
    Course s { s with masters := modAt s.masters m f } :=
  light_course (sameBooks_modMaster m f s hc hr).deeds .of_eq

/-! ### Window transactions -/

theorem chargeViolation_course (c : ViolationCause) (w : WindowId) (t : Txn) (s : State) :
    Course s (chargeViolation c w t s) := by
  have h1 : Course s (countViolation t.master s) :=
    modMaster_course _ _ s (fun _ => ⟨rfl, rfl⟩) fun ⟨h1, h2, _, h4⟩ => ⟨h1, h2, Nat.min_le_left _ _, h4⟩
  have h2 (x : State) : Course x (applyThreshold c w t x) := by
    unfold applyThreshold
    split
    · exact (modMaster_course t.master (fun e => { e with admission := .barred }) x (fun _ => ⟨rfl, rfl⟩) id).trans
        (offerReport_course _ _)
    · exact .refl
  unfold chargeViolation
  dsimp only
  split
  · exact (h1.trans (offerReport_course _ _)).trans (h2 _)
  · exact h1.trans (h2 _)

theorem clearNoteIf_course (clear : Bool) (m : MasterId) (s : State) : Course s (clearNoteIf clear m s) := by
  unfold clearNoteIf
  split
  · exact modMaster_course m _ s (fun _ => ⟨rfl, rfl⟩) id
  · exact .refl

theorem clearNoteIf_windows (clear : Bool) (m : MasterId) (s : State) : (clearNoteIf clear m s).windows = s.windows := by
  unfold clearNoteIf setNote; split <;> rfl

theorem hasCreditAndRoom_room {s : State} {m : MasterId} (h : hasCreditAndRoom s m = true) :
    dataCount s < Config.dataPlaces ∧ queueLength s < Config.queuePlaces := by
  simp only [hasCreditAndRoom, Bool.and_eq_true, decide_eq_true_eq] at h
  exact ⟨h.1.2, h.2⟩

theorem noteClosing_deeds (t : Txn) (s : State) : Deeds s (noteClosing t s) := by
  unfold noteClosing
  split
  · exact SameBooks.deeds .of_eq
  · exact .refl

theorem writeStep_course (w : WindowId) (t : Txn) (beats : List Beat) (s : State) (hw : s.windows[w].state ≠ .free) :
    Course s (writeStep w t beats s) := by
  unfold writeStep
  split
  · exact answer_course _ (offerReport_course _ s)
  · split
    · next h =>
      obtain ⟨hd, hq⟩ := hasCreditAndRoom_room h
      exact answer_course _ (settle_course
        ((Deed.appends s (entryOf s w t beats) rfl hw hd hq).deeds.trans (noteClosing_deeds t _)))
    · exact answered _ s

theorem collectSlot_deeds (i : SlotId) (s : State) : Deeds s (collectSlot i s) := by
  unfold collectSlot
  dsimp only
  split
  · exact (SameBooks.of_eq (s := s) (t := { s with lock.slot := none })).deeds.trans (Act.freesSlot _ i).deeds
  · exact (Act.freesSlot s i).deeds

theorem faultGate_deeds (c : FaultCause) (s : State) : Deeds s (faultGate c s) :=
  (SameBooks.deeds (s := s) (t := becomeFaulted c s) .of_eq).trans (faultGate_work c s).deeds

theorem returnReady_course (i : SlotId) (s : State) : Course s (returnReady i s) := by
  unfold returnReady
  dsimp only
  split
  · exact answer_course _ (settle_course (collectSlot_deeds i s))
  · exact answer_course _ (settle_course ((faultGate_deeds _ s).trans (endStoppedAccess_work _).deeds))

theorem restartSlot_deeds (i : SlotId) (s : State) (h : s.slots[i].state ≠ .free) : Deeds s (restartSlot i s) := by
  unfold restartSlot
  exact (SameBooks.deeds (s := s) (t := { s with ageOrder := s.ageOrder.filter (· != i) ++ [i] }) .of_eq).trans
    (Act.changesSlot { s with ageOrder := s.ageOrder.filter (· != i) ++ [i] } i _ h (by dsimp only; nofun) rfl rfl).deeds

theorem returnStale_course (i : SlotId) (s : State) (h : s.slots[i].state ≠ .free) : Course s (returnStale i s) := by
  unfold returnStale
  split
  · exact answer_course _ (settle_course (restartSlot_deeds i s h))
  · exact answer_course _ (settle_course (Act.freesSlot s i).deeds)
  · exact answered _ s

theorem returnTo_course (i : SlotId) (s : State) : Course s (returnTo i s) := by
  unfold returnTo
  split
  · exact returnReady_course i s
  · exact answer_course _ (settle_course (Act.freesSlot s i).deeds)
  · next h => exact returnStale_course i s (by rw [h]; nofun)
  · exact answered _ s

theorem openLockOn_deeds (i : SlotId) (w : WindowId) (t : Txn) (s : State) : Deeds s (openLockOn i w t s) := by
  unfold openLockOn
  split
  · exact SameBooks.deeds .of_eq
  · exact .refl

theorem freeSlotId_free {s : State} {i : SlotId} (h : freeSlotId s = some i) : s.slots[i].state = .free := by
  simpa using List.find?_some h

theorem newRead_course (w : WindowId) (t : Txn) (s : State) (hw : s.windows[w].state ≠ .free) :
    Course s (newRead w t s) := by
  unfold newRead
  split
  · split
    · next i hi =>
      exact answer_course _ (settle_course ((Deed.takes s i (allocatedSlot s w t) (freeSlotId_free hi)
        (by rw [allocatedSlot]; nofun) hw).deeds.trans (openLockOn_deeds i w t _)))
    · exact answered _ s
  · exact answered _ s

theorem lastStep_course (w : WindowId) (t : Txn) (s : State) (hw : s.windows[w].state ≠ .free) :
    Course s (lastStep w t s) := by
  unfold lastStep
  split
  · unfold readStep
    split
    · exact returnTo_course _ s
    · exact newRead_course w t s hw
  · exact writeStep_course w t _ s hw

theorem lockAndLastStep_course (w : WindowId) (t : Txn) (s : State) (hw : s.windows[w].state ≠ .free) :
    Course s (lockAndLastStep w t s) := by
  unfold lockAndLastStep
  split
  · exact answer_course _ (clearNoteIf_course _ _ s)
  · exact answer_course _ (clearNoteIf_course _ _ s)
  · exact (clearNoteIf_course _ _ s).trans (lastStep_course w t _ (by rw [clearNoteIf_windows]; exact hw))

theorem claimingWindow_live {s : State} {a : TrunkAddr} {w : WindowId} (h : claimingWindow s a = some w) :
    s.windows[w].state = .live := by
  have := List.find?_some h
  simp only [claims, Bool.and_eq_true, decide_eq_true_eq] at this
  exact this.1.1

theorem claimedTxn_course (w : WindowId) (t : Txn) (s : State) (hw : s.windows[w].state ≠ .free) :
    Course s (claimedTxn w t s) := by
  unfold claimedTxn
  split
  · exact answered _ s
  split
  · exact answered _ s
  split
  · exact answer_course _ (chargeViolation_course _ w t s)
  split
  · exact answered _ s
  split
  · exact answer_course _ (chargeViolation_course _ w t s)
  split
  · exact answer_course _ (chargeViolation_course _ w t s)
  split
  · exact answered _ s
  · exact lockAndLastStep_course w t s hw

theorem windowTxn_course (t : Txn) (s : State) : Course s (windowTxn t s) := by
  unfold windowTxn
  split
  · exact answered _ s
  · next w h => exact claimedTxn_course w t s (by rw [claimingWindow_live h]; nofun)

/-! ### Resets within STANDBY -/

theorem settingsTakeEffect_sameBooks (before : PortSet) (s : State) : SameBooks s (settingsTakeEffect before s) := by
  unfold settingsTakeEffect
  split
  · exact .of_eq (by simp) (by simp) (by simp) (by simp) (by simp) (by simp) (by simp)
  · split
    · exact .of_eq
    · split
      · exact .of_eq
      · exact .of_eq (by simp) (by simp) (by simp) (by simp) (by simp) (by simp) (by simp)
  · split
    · unfold heedHoldByChoice
      split
      · exact .of_eq
      · exact .of_eq
    · exact .of_eq
  · exact .of_eq

theorem sameBooks_settings {s t : State} (hl : SettingsLegal s → SettingsLegal t)
    (he : t.pwq.entries = s.pwq.entries := by rfl) (hs : t.slots = s.slots := by rfl)
    (hw : t.windows = s.windows := by rfl) (hm : t.masters = s.masters := by rfl)
    (hr : t.rq.space = s.rq.space := by rfl) : SameBooks s t where
  entries := he
  slots := hs
  windows := hw
  masters _ := by rw [hm]; exact ⟨rfl, rfl⟩
  space := by rw [hr]; exact id
  settings := hl

theorem writeSettings_deeds (policy : ParkPolicy) (highWater : Nat) (enabled : PortSet) (s : State)
    (h : 8 ≤ highWater ∧ highWater ≤ 30) : Deeds s (writeSettings policy highWater enabled s) := by
  have h0 : SameBooks s { s with arb.policy := policy, arb.highWater := highWater, arb.enabled := enabled } :=
    sameBooks_settings fun ⟨hm, _, hc⟩ => ⟨hm, h, hc⟩
  exact h0.deeds.trans (settingsTakeEffect_sameBooks _ _).deeds

theorem timersInRange_powerOn : (8 ≤ ControlUnit.powerOn.readHold ∧ ControlUnit.powerOn.readHold ≤ 4096) ∧
    (4 ≤ ControlUnit.powerOn.lockHold ∧ ControlUnit.powerOn.lockHold ≤ 1024) ∧
    (1 ≤ ControlUnit.powerOn.cardResponse ∧ ControlUnit.powerOn.cardResponse ≤ 255) ∧
    ControlUnit.powerOn.residentTenure ≤ 1023 := by decide

theorem defaultControl_deeds (s : State) : Deeds s (defaultControl s) :=
  SameBooks.deeds (sameBooks_settings (s := s) fun ⟨hm, ha, _⟩ => ⟨hm, ha, timersInRange_powerOn⟩)

theorem clearConfiguration_deeds (s : State) (h : ∀ i : SlotId, s.slots[i].state = .free) :
    Deeds s (clearConfiguration s) := by
  unfold clearConfiguration
  refine .trans ?_ (defaultControl_deeds _)
  refine .trans ?_ (writeSettings_deeds _ _ _ _ (by decide))
  refine .trans (Deed.clears s h).deeds (sameBooks_mapMasters defaultMaster _ (fun _ => ⟨rfl, rfl⟩) fun e _ => ?_).deeds
  exact (by decide : Config.creditDefault ≤ 30 ∧ Config.readLimitDefault ≤ 8 ∧ 0 ≤ 255 ∧ 0 ≤ 255)

theorem clearNotes_deeds (s : State) : Deeds s (clearNotes s) :=
  (sameBooks_mapMasters (fun e => { e with note := none }) s (fun _ => ⟨rfl, rfl⟩) fun _ => id).deeds

theorem slotsCleared_free (s : State) (i : SlotId) : (slotsCleared s).slots[i].state = .free := by
  simp only [slotsCleared, ofFn_get]
  split
  · rfl
  · next h => simpa using h

theorem freeAllSlots_free (s : State) (i : SlotId) : (freeAllSlots s).slots[i].state = .free := by
  rw [freeAllSlots_eq]; exact slotsCleared_free s i

end Sys2Proof.WindowTable
end

section
/-! The courses of the control region, the ordered commands and the other events. -/

namespace Sys2Proof.WindowTable

-- One proof after the other: the text is compiled as one file, within a limit on memory that each thread draws on.
set_option Elab.async false

open Sys2Proof Sys2Proof.Machine Sys2Proof.Safety

/-! ### Resets of the gate and of the trunk -/

theorem markStop_deeds (s : State) : Deeds s (markStop s) := (Act.accesses s _).deeds

theorem detachFetch_deeds (s : State) : Deeds s (detachFetch s) := (Act.accesses s _).deeds

/-- What a reset does to the slots and the lock (R70, R87). -/
theorem resetLock_deeds (held : Bool) (s : State) :
    Deeds s (endIdleTenure held (releaseHold (breakLock .reset (freeAllSlots s)))) :=
  Work.deeds ((freeAllSlots_work s).trans (((breakLock_work .reset _).tail (.releases _)).trans (endIdleTenure_work held _)))

/-- With every slot FREE the break of the lock withdraws none. -/
theorem breakLock_slots_free {s : State} (c : BreakCause) (h : ∀ i : SlotId, s.slots[i].state = .free) :
    (breakLock c s).slots = s.slots := by
  have hl (x : State) (hx : x.slots = s.slots) : (withdrawLockedSlot s.lock.slot x).slots = s.slots := by
    cases s.lock.slot with
    | none => exact hx
    | some j =>
      have hj : x.slots[j].state = .free := by rw [hx]; exact h j
      change (withdrawSlot j x).slots = _
      rw [withdrawSlot, if_neg (by rw [hj]; nofun), freeSlot, if_pos hj, hx]
  unfold breakLock
  split
  · dsimp only
    rw [offerReport_slots, noteBreak_slots, markVoid_slots, hl _ (by split <;> simp)]
  · rfl

theorem gateReset_course (clear : Bool) (s : State) : Course s (gateReset clear s) := by
  unfold gateReset
  dsimp only
  refine settle_course (.trans ?_ (endStoppedAccess_work _).deeds)
  refine .tail ?_ (.act (.reports _ _))
  have h0 : Deeds s { s with gsc := ⟨.standby, .none, none⟩ } := SameBooks.deeds .of_eq
  have h1 := (h0.trans (markStop_deeds _)).tail (.act (.empties _))
  have h2 (held : Bool) := (h1.trans (resetLock_deeds held _)).trans (clearNotes_deeds _)
  cases clear with
  | false => exact h2 _
  | true =>
    refine (h2 _).trans (clearConfiguration_deeds _ fun i => ?_)
    have hs (x : State) (held : Bool) : (clearNotes (endIdleTenure held (releaseHold
        (breakLock .reset (freeAllSlots x))))).slots = (freeAllSlots x).slots := by
      rw [← breakLock_slots_free .reset (freeAllSlots_free x)]; simp [clearNotes]
    rw [hs]
    exact freeAllSlots_free _ i

theorem dropManager_deeds (s : State) : Deeds s (dropManager s) :=
  SameBooks.deeds (sameBooks_settings (s := s) (t := dropManager s) fun ⟨hm, ha, hc⟩ => ⟨hm, ha, hc⟩)

theorem trunkReset_course (s : State) : Course s (trunkReset s) := by
  unfold trunkReset
  dsimp only
  refine settle_course (.trans ?_ (endStoppedAccess_work _).deeds)
  refine .tail ?_ (.act (.reports _ _))
  have h0 : Deeds s { s with gsc := trunkResetState s.gsc } := SameBooks.deeds .of_eq
  exact (((h0.trans (detachFetch_deeds _)).trans (resetLock_deeds _ _)).trans (clearNotes_deeds _)).trans
    (dropManager_deeds _)

/-! ### The control region -/

theorem driveLine_course {s t : State} (h : Course s t) : Course s (driveLine t) :=
  h.tail (.light (SameBooks.deeds (s := t) .of_eq) (SameTask.of_eq (s := t)))

theorem control_course (s : State) (manager : Option MasterId) (attention : Bool) :
    Course s { s with cu.manager := manager, cu.attention := attention } :=
  light_course (SameBooks.deeds (sameBooks_settings fun ⟨hm, ha, hc⟩ => ⟨hm, ha, hc⟩)) .of_eq

theorem claimRole_course (m : MasterId) (data : Word) (s : State) : Course s (claimRole m data s) := by
  unfold claimRole
  split
  · exact answered _ s
  · split
    · exact answer_course _ (control_course s _ _)
    · split
      · exact answered _ s
      · exact answered _ s

theorem removeReport_course (s : State) : Course s (removeReport s) := by
  have hr : (removeReport s).rq.space = .none ↔ s.rq.space = .none := by
    change (if s.rq.space = .waiting then .held else s.rq.space) = SpaceRequest.none ↔ _
    cases s.rq.space <;> simp
  have hb : SameBooks s (removeReport s) :=
    ⟨rfl, rfl, rfl, fun _ => ⟨rfl, rfl⟩, hr.mpr, id⟩
  exact light_course hb.deeds { SameTask.of_eq (s := s) (t := { removeReport s with rq.space := s.rq.space }) with space := hr }

theorem releaseReport_course (data : Word) (s : State) : Course s (releaseReport data s) := by
  unfold releaseReport
  split
  · exact answered _ s
  · split
    · exact answer_course _ (removeReport_course s)
    · exact answered _ s

theorem setAttention_course (data : Word) (s : State) : Course s (setAttention data s) := by
  unfold setAttention
  split
  · exact answer_course _ (driveLine_course (control_course s _ _))
  · split
    · exact answer_course _ (driveLine_course (control_course s _ _))
    · exact answered _ s

theorem resetGateWord_course (data : Word) (s : State) : Course s (resetGateWord data s) := by
  unfold resetGateWord
  split
  · exact answer_course _ (gateReset_course _ s)
  · split
    · exact answer_course _ (gateReset_course _ s)
    · exact answered _ s

theorem takeRecord_course (m : MasterId) (words : List Word) (s : State) : Course s (takeRecord m words s) := by
  unfold takeRecord
  split
  · exact answered _ s
  · split
    · next h => exact answer_course _ (settle_course (Deed.appendsControl s _ h).deeds)
    · exact answered _ s

theorem operate_course (m : MasterId) (op : ControlOp) (s : State) : Course s (operate m op s) := by
  cases op with
  | claim data => exact claimRole_course m data s
  | relinquish data => exact answer_course _ (control_course s _ _)
  | release data => exact releaseReport_course data s
  | attention data => exact setAttention_course data s
  | resetGate data => exact resetGateWord_course data s
  | intake words => exact takeRecord_course m words s
  | _ => exact answered _ s

theorem controlTxn_course (t : Txn) (s : State) : Course s (controlTxn t s) := by
  unfold controlTxn
  split
  · exact answer_course _ (offerReport_course _ s)
  · split
    · exact answered _ s
    · unfold serveOp
      split
      · exact answered _ s
      · exact operate_course _ _ s

theorem trunkTxn_course (t : Txn) (s : State) : Course s (trunkTxn t s) := by
  unfold trunkTxn
  split
  · exact answered _ s
  · split
    · exact controlTxn_course t s
    · exact windowTxn_course t s

theorem takeTxn_course (t : Txn) {s u : State} (h : takeTxn t s = .next u) : Course s u := by
  unfold takeTxn at h
  split at h
  · cases h; exact trunkTxn_course t s
  · cases h

/-! ### Ordered commands -/

theorem storeResult_deeds (b : ReportBody) (s : State) : Deeds s (storeResult b s) :=
  SameBooks.deeds ⟨rfl, rfl, rfl, fun _ => ⟨rfl, rfl⟩, fun _ => rfl, id⟩

theorem executeHead_course (cmd : Command) (act : ControlEntry → State → Execution) (s : State)
    (h : ∀ c, Deeds s (act c s).state) : Course s (executeHead cmd act s) := by
  unfold executeHead
  split
  · exact .refl
  · next c _ =>
    have h1 := (h c).trans (storeResult_deeds (resultBody c (act c s).status (act c s).detail) _)
    have h2 := h1.trans (Act.leaves _ (.inr rfl)).deeds
    exact settle_course (h2.trans (Work.deeds ((leaveDeadHeads_work _).trans (endIdleTenure_work _ _))))

theorem geometryLegal_size {n : Nat} {a : TrunkAddr} {b : CardAddr} (h : geometryLegal n a b = true) : n ≤ 26 := by
  simp only [geometryLegal, Bool.and_eq_true, decide_eq_true_eq] at h
  exact h.1.1.1.2

theorem loadOperands_geometry {c : ControlEntry} {o : LoadOperands} (h : loadOperands c = some o) :
    geometryLegal o.sizeCode o.trunkBase o.cardBase = true := by
  unfold loadOperands at h
  split at h
  · dsimp only at h
    split at h
    · next hg => cases h; exact hg
    · cases h
  · cases h

theorem doLoadWindow_deeds (c : ControlEntry) (s : State) : Deeds s (doLoadWindow c s).state := by
  unfold doLoadWindow
  split
  · exact .refl
  · next o ho =>
    split
    · have hg := loadOperands_geometry ho
      exact (Deed.changes s o.window (loadedWindow o) rfl fun _ =>
        ⟨⟨nofun, by simp [loadedWindow], geometryLegal_size hg, Nat.zero_le _⟩, fun _ => hg⟩).deeds
    · exact .refl

theorem withdrawals_deeds (s : State) : Deeds s (testQuiesce (freeDrainedWindows s)) :=
  Work.deeds ((freeDrainedWindows_work s).tail (.quiesces _))

theorem drainWindow_deeds (w : WindowId) (tag : Tag) (s : State) (h : s.windows[w].state = .live) :
    Deeds s (drainWindow w tag s) :=
  (Deed.changes s w (fun e => { e with state := .draining, retireTag := some tag }) rfl fun ⟨⟨_, _, hsize, hdisc⟩, hl⟩ =>
    ⟨⟨nofun, by simp, hsize, hdisc⟩, fun _ => hl (by rw [h]; nofun)⟩).deeds

theorem freeAtOnce_deeds (w : WindowId) (s : State) : Deeds s (freeAtOnce w s) := by
  unfold freeAtOnce
  split
  · next h => exact (Deed.changes s w freedWindow rfl (freedWindow_legal h)).deeds
  · exact .refl

theorem breakIfOnWindow_work (w : WindowId) (s : State) : Work s (breakIfOnWindow w s) := by
  unfold breakIfOnWindow
  split
  · exact breakLock_work _ s
  · exact .refl

theorem retireLive_deeds (w : WindowId) (tag : Tag) (s : State) (h : s.windows[w].state = .live) :
    Deeds s (retireLive w tag s) :=
  ((drainWindow_deeds w tag s h).trans (Work.deeds ((breakIfOnWindow_work w _).trans (withdrawSlots_work _ _)))).trans
    (freeAtOnce_deeds w _)

theorem doRetireWindow_deeds (c : ControlEntry) (s : State) : Deeds s (doRetireWindow c s).state := by
  unfold doRetireWindow
  split
  · exact .refl
  · next w _ =>
    split
    · next h =>
      dsimp only
      exact (retireLive_deeds w c.tag s h).trans (withdrawals_deeds _)
    · exact .refl

theorem doModifyWindow_deeds (c : ControlEntry) (s : State) : Deeds s (doModifyWindow c s).state := by
  unfold doModifyWindow
  split
  · split
    · exact (Deed.changes s _ _ rfl id).deeds
    · exact .refl
  · exact .refl

theorem doThawWindow_deeds (c : ControlEntry) (s : State) : Deeds s (doThawWindow c s).state := by
  unfold doThawWindow
  split
  · exact .refl
  · next w _ =>
    split
    · exact .refl
    · split
      · exact (Deed.changes s w _ rfl fun ⟨⟨hfree, htag, hsize, _⟩, hl⟩ =>
          ⟨⟨fun h => ⟨rfl, (hfree h).2⟩, htag, hsize, Nat.zero_le _⟩, hl⟩).deeds
      · exact .refl

theorem field_lt (w : Word) (low width : Nat) : field w low width < 2 ^ width := Nat.mod_lt _ (Nat.two_pow_pos _)

theorem masterOperands_inRange {c : ControlEntry} {o : MasterOperands} (h : masterOperands c = some o) :
    o.creditLimit ≤ 30 ∧ o.readLimit ≤ 8 ∧ o.barThreshold ≤ 255 := by
  unfold masterOperands at h
  split at h
  · split at h
    · next hl =>
      simp only [Bool.and_eq_true, decide_eq_true_eq] at hl
      cases h
      exact ⟨hl.1, hl.2, Nat.le_of_lt_succ (field_lt _ 16 8)⟩
    · cases h
  · cases h

theorem writtenMaster_deeds (o : MasterOperands) (s : State)
    (h : o.creditLimit ≤ 30 ∧ o.readLimit ≤ 8 ∧ o.barThreshold ≤ 255) :
    Deeds s { s with masters := modAt s.masters o.master (writtenMaster o) } := by
  obtain ⟨hc, hr, hb⟩ := h
  refine (sameBooks_modMaster _ (writtenMaster o) s (fun _ => ⟨rfl, rfl⟩) fun ⟨_, _, hv, _⟩ => ⟨hc, hr, ?_, hb⟩).deeds
  unfold writtenMaster
  dsimp only
  split
  · exact Nat.zero_le _
  · exact hv

theorem withdrawMaster_work (m : MasterId) (s : State) : Work s (withdrawMaster m s) := by
  unfold withdrawMaster breakIfOwner
  split
  · exact (breakLock_work _ s).trans (withdrawSlots_work _ _)
  · exact withdrawSlots_work _ s

theorem doSetMaster_deeds (c : ControlEntry) (s : State) : Deeds s (doSetMaster c s).state := by
  unfold doSetMaster
  split
  · exact .refl
  · next o ho =>
    have h := writtenMaster_deeds o s (masterOperands_inRange ho)
    dsimp only
    split
    · exact h
    · dsimp only
      exact (h.trans (Work.deeds (withdrawMaster_work _ _))).trans (withdrawals_deeds _)

theorem doSetTimers_deeds (c : ControlEntry) (s : State) : Deeds s (doSetTimers c s).state := by
  unfold doSetTimers
  dsimp only
  split
  · next h =>
    simp only [Bool.and_eq_true, decide_eq_true_eq] at h
    obtain ⟨⟨⟨⟨⟨⟨hr, hr'⟩, hl⟩, hl'⟩, hc⟩, hc'⟩, ht⟩ := h
    exact SameBooks.deeds (sameBooks_settings fun ⟨hm, ha, _⟩ =>
      ⟨hm, ha, ⟨hr, hr'⟩, ⟨hl, hl'⟩, ⟨hc, hc'⟩, ht⟩)
  · exact .refl

theorem doSetArbitration_deeds (c : ControlEntry) (s : State) : Deeds s (doSetArbitration c s).state := by
  unfold doSetArbitration
  dsimp only
  split
  · exact .refl
  · split
    · next h =>
      simp only [Bool.and_eq_true, decide_eq_true_eq] at h
      exact writeSettings_deeds _ _ _ s h
    · exact .refl

theorem doEnable_deeds (c : ControlEntry) (s : State) : Deeds s (doEnable c s).state := by
  unfold doEnable
  split
  · exact SameBooks.deeds .of_eq
  · exact SameBooks.deeds .of_eq
  · exact .refl

theorem doQuiesce_deeds (c : ControlEntry) (s : State) : Deeds s (doQuiesce c s).state := by
  unfold doQuiesce
  split
  · split
    · exact SameBooks.deeds .of_eq
    · exact SameBooks.deeds .of_eq
  · exact .refl

/-! ### Accesses and timers -/

theorem inDrain_of_access {s t : State} {a b : Access} (hs : s.cbc.access = some a) (ht : t.cbc.access = some b)
    (hk : b.kind = a.kind) : inDrain t = inDrain s := by unfold Machine.inDrain; rw [hs, ht]; dsimp only; rw [hk]

/-- The access in flight goes on as another access of its kind. -/
theorem goesOn_course {s : State} {a : Access} (b : Access) (ha : s.cbc.access = some a) (hk : b.kind = a.kind) :
    Course s { s with cbc.access := some b } := by
  refine light_course (Act.accesses s _).deeds { SameTask.of_eq (s := s) (t := s) with access := ?_, inDrain := ?_ }
  · rw [ha]; rfl
  · exact inDrain_of_access ha rfl hk

theorem endDrain_access (o : DrainOutcome) (s : State) : (endDrain o s).cbc.access = none := by
  unfold endDrain
  split
  · rw [settleTenure_cbc_access, Scope.drainEnded_access]
  · rw [settleTenure_cbc_access]; rfl

theorem leaveDeadHeads_access (s : State) : (leaveDeadHeads s).cbc.access = s.cbc.access := by
  rw [leaveDeadHeads_eq, headsGone_cbc]

theorem endFetch_access (o : FetchOutcome) (a : Access) (s : State) : (endFetch o a s).cbc.access = none := by
  unfold endFetch
  dsimp only
  rw [settleTenure_cbc_access, leaveDeadHeads_access]
  rfl

theorem afterPiece_ended {s : State} (h : s.cbc.access = none) : afterPiece s = settle s := by
  rw [afterPiece, if_neg (by rw [h]; nofun)]

theorem afterPiece_goesOn {s : State} (h : s.cbc.access.isSome = true) : afterPiece s = s := by
  rw [afterPiece, if_pos h]

theorem continueDrain_course {s : State} {a : Access} (d : DataEntry) (n : Nat) (ha : s.cbc.access = some a) :
    Course s (afterPiece (continueDrain a d n s)) := by
  have hw := continueDrain_work a d n s
  unfold continueDrain at hw ⊢
  split
  · rw [afterPiece_goesOn rfl]; exact goesOn_course _ ha rfl
  · rw [afterPiece_ended (endDrain_access _ _)]; exact settle_course (endDrain_work _ s).deeds
  · rw [afterPiece_ended (endDrain_access _ _)]; exact settle_course (endDrain_work _ s).deeds

theorem pieceAcked_course {s : State} {a : Access} (p : PieceOp) (data : Word) (ha : s.cbc.access = some a) :
    Course s (afterPiece (pieceAcked a p data s)) := by
  unfold pieceAcked
  split
  · unfold drainPieceAcked
    dsimp only
    refine (goesOn_course { a with bytes := a.bytes + laneCount p.op.enables, op := none } ha rfl).trans ?_
    have hend (o : DrainOutcome) (x : State) : Course x (afterPiece (endDrain o x)) := by
      rw [afterPiece_ended (endDrain_access _ _)]; exact settle_course (endDrain_work _ x).deeds
    split
    · exact hend _ _
    · split
      · exact hend _ _
      · split
        · exact continueDrain_course _ _ rfl
        · exact hend _ _
  · unfold fetchPieceAcked
    dsimp only
    split
    · rw [afterPiece_ended (endFetch_access _ _ _)]; exact settle_course (endFetch_work _ _ s).deeds
    · rw [afterPiece_goesOn rfl]; exact goesOn_course _ ha rfl

theorem pieceFailed_course (a : Access) (p : PieceOp) (k : ErrorKind) (s : State) :
    Course s (settle (pieceFailed a p k s)) := settle_course (pieceFailed_work a p k s).deeds

theorem pieceEnd_course (r : TargetAnswer) {s t : State} (h : execPieceEnd r s = .next t) : Course s t := by
  unfold execPieceEnd at h
  split at h
  · next a p data ho =>
    cases h
    exact pieceAcked_course p data ((Scope.outstanding_eq_some s a p).mp ho).1
  · next a p _ =>
    injection h with h
    rw [← h]
    exact pieceFailed_course a p _ s
  · cases h; exact .refl

theorem responseExpires_course (s : State) : Course s (responseExpires s) := by
  unfold responseExpires
  split
  · split
    · exact pieceFailed_course _ _ _ s
    · exact .refl
  · exact .refl

theorem slotExpires_course (i : SlotId) (s : State) : Course s (slotExpires i s) := by
  unfold slotExpires holdExpires
  split
  · split
    · exact settle_course ((Act.reports s _).deeds.trans (Act.freesSlot _ i).deeds)
    · exact settle_course ((Act.reports s _).deeds.trans (Act.freesSlot _ i).deeds)
    · exact settle_course (Act.freesSlot s i).deeds
    · exact .refl
  · exact .refl

theorem lockExpires_course (s : State) : Course s (lockExpires s) := by
  unfold lockExpires
  split
  · exact settle_course (Work.deeds (((breakLock_work _ s).trans (leaveDeadHeads_work _)).trans (endIdleTenure_work _ _)))
  · exact .refl

theorem overstayExpires_course (s : State) : Course s (overstayExpires s) := by
  unfold overstayExpires
  split
  · split
    · exact (light_course (s := s) (t := { s with arb.overstay := none }) (SameBooks.deeds .of_eq) .of_eq).trans
        (offerReport_course _ _)
    · exact .refl
  · exact .refl

theorem expireDue_course (s : State) : Course s (expireDue s) :=
  (((responseExpires_course s).trans (lockExpires_course _)).trans
    (foldl_steps _ (fun s i => slotExpires_course i s) _ _)).trans (overstayExpires_course _)

theorem timebase_course (s : State) (n : Time) : Course s { s with timebase := n } :=
  light_course (SameBooks.deeds .of_eq) .of_eq

theorem tick_course {s t : State} (h : execTimebaseTick s = .next t) : Course s t := by
  unfold execTimebaseTick at h
  cases h
  split
  · exact timebase_course s _
  · exact (expireDue_course s).trans (timebase_course _ _)

/-! ### Residents -/

theorem lines_course (s : State) (lines : ResidentLines) : Course s { s with lines := lines } :=
  light_course (SameBooks.deeds .of_eq) .of_eq

theorem arbState_course (s : State) (state : ArbState) : Course s { s with arb.state := state } :=
  light_course (SameBooks.deeds .of_eq) .of_eq

theorem decision_deeds (s : State) : Deeds s (decision s) :=
  SameBooks.deeds (.of_eq (by simp) (by simp) (by simp) (by simp) (by simp) (by simp) (by simp))

theorem requestArrives_deeds (r : Requester) (s : State) : Deeds s (requestArrives r s) :=
  SameBooks.deeds (.of_eq (by simp) (by simp) (by simp) (by simp) (by simp) (by simp) (by simp))

theorem residentRequestRaise_course (p : Port) {s t : State} (h : execResidentRequestRaise p s = .next t) :
    Course s t := by
  unfold execResidentRequestRaise at h
  split at h
  · cases h; exact .refl
  · cases h
    have hl : Course s (setRequestLine p true s) := lines_course s _
    split
    · exact hl.trans (settle_course (requestArrives_deeds _ _))
    · exact hl

theorem residentTenureEnds_course (p : Port) (s : State) : Course s (residentTenureEnds p s) := by
  unfold residentTenureEnds
  split
  · split
    · exact settle_course (decision_deeds s)
    · exact .refl
  · split
    · exact arbState_course s _
    · exact .refl
  · exact .refl

theorem holdTaken_course (p : Port) (s : State) : Course s (holdTaken p s) := by
  unfold holdTaken
  split
  · exact arbState_course s _
  · exact .refl

theorem holdReleased_course (p : Port) (s : State) : Course s (holdReleased p s) := by
  unfold holdReleased
  split
  · split
    · split
      · exact arbState_course s _
      · exact settle_course (decision_deeds s)
    · exact .refl
  · exact .refl

theorem markStale_course (a : CardAddr) (n : Nat) (s : State) : Course s (markStale a n s) := by
  have hw (e : Slot) : ((staleSlot a n e).state = .waiting ↔ e.state = .waiting) ∧ (staleSlot a n e).ahead = e.ahead := by
    unfold staleSlot
    split
    · next h =>
      simp only [Bool.and_eq_true, decide_eq_true_eq] at h
      simp [h.1.1]
    · exact ⟨Iff.rfl, rfl⟩
  refine light_course (Act.makesStale s a n).deeds { SameTask.of_eq (s := s) (t := s) with eligible := ?_, slotsInUse := ?_ }
  · intro i
    unfold Machine.eligible markStale
    dsimp only
    rw [mapTable_get, (hw _).2, decide_eq_decide.mpr (hw _).1]
  · refine countTable_mapTable _ _ _ fun e => ?_
    rw [Bool.eq_iff_iff]
    simp [(staleSlot_claims a n e).1]

end Sys2Proof.WindowTable
end

section
/-! Every event keeps the claims equal to what is queued (O54), and the windows' and the settings' laws (O59). -/

namespace Sys2Proof.WindowTable

-- One proof after the other: the text is compiled as one file, within a limit on memory that each thread draws on.
set_option Elab.async false

open Sys2Proof Sys2Proof.Machine Sys2Proof.Safety

/-! ### Power-on reset and card reset -/

theorem assertPowerOn_fresh (lines : BitVec 4) (s : State) : Fresh (assertPowerOn lines s) := by
  constructor <;> rfl

theorem assertCard_fresh (lines : BitVec 4) (s : State) : Fresh (assertCard lines s) := by
  constructor <;> rfl

theorem lines_deeds (s : State) (lines : ResidentLines) : Deeds s { s with lines := lines } := SameBooks.deeds .of_eq

theorem takeArrival_deeds (s : State) (p : Port) : Deeds s (takeArrival s p) :=
  (lines_deeds s _).trans (requestArrives_deeds _ _)

theorem takeArrivals_deeds (s : State) : Deeds s (takeArrivals s) := by
  have h0 : Deeds s { s with lines.request := ⟨false, false, false⟩ } := lines_deeds s _
  unfold takeArrivals
  dsimp only
  split
  · exact h0.trans (foldl_steps _ takeArrival_deeds _ _)
  · exact (h0.trans (foldl_steps _ takeArrival_deeds _ _)).tail (.act (.chooses _))

theorem leaveReset_deeds (lines : BitVec 4) (kind : ResetKind) (data control : Nat) (s : State) :
    Deeds s (leaveReset lines kind data control s) := by
  have h0 : Deeds s { s with
      ti.slotNumber := lines, arb := Arbiter.powerOn, gsc := ⟨.standby, .none, none⟩,
      rq.cardData := 0, rq.cardControl := 0 } :=
    SameBooks.deeds (sameBooks_settings fun ⟨hm, _, hc⟩ => ⟨hm, (by decide : 8 ≤ Config.highWaterDefault ∧ Config.highWaterDefault ≤ 30), hc⟩)
  exact (h0.tail (.act (.reports _ _))).trans (takeArrivals_deeds _)

theorem releasePowerOn_deeds (lines : BitVec 4) (s : State) : Deeds s (releasePowerOn lines s) := by
  unfold releasePowerOn
  split
  · exact SameBooks.deeds .of_eq
  · exact (SameBooks.deeds (s := s) (t := { s with porAsserted := false }) .of_eq).trans (leaveReset_deeds _ _ _ _ _)

theorem releaseCard_deeds (lines : BitVec 4) (s : State) : Deeds s (releaseCard lines s) := by
  unfold releaseCard
  split
  · exact SameBooks.deeds .of_eq
  · exact (SameBooks.deeds (s := s) (t := { s with cardAsserted := false }) .of_eq).trans (leaveReset_deeds _ _ _ _ _)

/-! ### Every command -/

/-- The commands by which a reset is released. -/
def Releases : Instr → Prop
  | .powerOnResetRelease _ => True
  | .cardResetRelease _ => True
  | _ => False

theorem next_course {s t u : State} (h : Course s u) (hx : (.next u : Host.Outcome State Machine.Fault Refusal) = .next t) :
    Course s t := by
  injection hx with hx
  rw [← hx]
  exact h

theorem fresh_course {s t : State} (h : Fresh t) : Course s t := (Stage.fresh h).course

theorem ite_course {s t u : State} {c : Prop} [Decidable c] (h : Course s t) (k : Course s u) :
    Course s (if c then t else u) := by
  split
  · exact h
  · exact k

theorem exec_course {c : Instr} {s t : State} (hx : exec c s = .next t) (hc : ¬Releases c) : Course s t := by
  cases c with
  | timebaseTick => exact tick_course hx
  | powerOnResetAssert l => exact next_course (ite_course .refl (fresh_course (assertPowerOn_fresh l s))) hx
  | powerOnResetRelease l => exact absurd trivial hc
  | cardResetAssert l => exact next_course (ite_course .refl (fresh_course (assertCard_fresh l s))) hx
  | cardResetRelease l => exact absurd trivial hc
  | trunkReset => exact next_course (ite_course .refl (trunkReset_course s)) hx
  | windowWrite m a u k b => exact takeTxn_course _ hx
  | windowRead m a u k b => exact takeTxn_course _ hx
  | identity m => exact next_course (trunkTxn_course _ s) hx
  | status m => exact next_course (trunkTxn_course _ s) hx
  | counts m => exact next_course (trunkTxn_course _ s) hx
  | reportHead m => exact next_course (trunkTxn_course _ s) hx
  | windowReadback m w => exact next_course (trunkTxn_course _ s) hx
  | masterReadback m k => exact next_course (trunkTxn_course _ s) hx
  | claim m d => exact next_course (trunkTxn_course _ s) hx
  | relinquish m d => exact next_course (trunkTxn_course _ s) hx
  | release m d => exact next_course (trunkTxn_course _ s) hx
  | attention m d => exact next_course (trunkTxn_course _ s) hx
  | resetGate m d => exact next_course (trunkTxn_course _ s) hx
  | controlIntake m ws => exact takeTxn_course _ hx
  | controlRegionRefused t => exact takeTxn_course _ hx
  | loadWindow => exact next_course (executeHead_course _ _ s fun c => doLoadWindow_deeds c s) hx
  | retireWindow => exact next_course (executeHead_course _ _ s fun c => doRetireWindow_deeds c s) hx
  | modifyWindow => exact next_course (executeHead_course _ _ s fun c => doModifyWindow_deeds c s) hx
  | thawWindow => exact next_course (executeHead_course _ _ s fun c => doThawWindow_deeds c s) hx
  | setMaster => exact next_course (executeHead_course _ _ s fun c => doSetMaster_deeds c s) hx
  | setTimers => exact next_course (executeHead_course _ _ s fun c => doSetTimers_deeds c s) hx
  | setArbitration => exact next_course (executeHead_course _ _ s fun c => doSetArbitration_deeds c s) hx
  | enable => exact next_course (executeHead_course _ _ s fun c => doEnable_deeds c s) hx
  | quiesce => exact next_course (executeHead_course _ _ s fun c => doQuiesce_deeds c s) hx
  | fence => exact next_course (executeHead_course _ _ s fun _ => .refl) hx
  | pieceEnd r => exact pieceEnd_course r hx
  | noResponse => exact next_course (responseExpires_course s) hx
  | holdTimerExpiry n => exact next_course (slotExpires_course n s) hx
  | lockHoldTimerExpiry => exact next_course (lockExpires_course s) hx
  | overstayTimerExpiry => exact next_course (overstayExpires_course s) hx
  | residentRequestRaise p => exact residentRequestRaise_course p hx
  | residentRequestDrop p =>
    exact next_course (ite_course ((lines_course s _).trans (residentTenureEnds_course p _)) .refl) hx
  | residentHoldRaise p => exact next_course (ite_course .refl ((lines_course s _).trans (holdTaken_course p _))) hx
  | residentHoldDrop p => exact next_course (ite_course ((lines_course s _).trans (holdReleased_course p _)) .refl) hx
  | residentWriteObserved p a z => exact next_course (ite_course (markStale_course _ _ s) .refl) hx

theorem exec_deeds {c : Instr} {s t : State} (hx : exec c s = .next t) : Deeds s t := by
  by_cases hc : Releases c
  · cases c with
    | powerOnResetRelease l =>
      injection hx with hx
      rw [← hx]
      split
      · exact releasePowerOn_deeds l s
      · exact .refl
    | cardResetRelease l =>
      injection hx with hx
      rw [← hx]
      split
      · exact releaseCard_deeds l s
      · exact .refl
    | _ => exact absurd hc id
  · exact (exec_course hx hc).deeds

theorem step_deeds {s t : State} (hx : step s = .next t) : Deeds s t := by
  unfold step at hx
  split at hx
  · injection hx with hx
    rw [← hx]
  · next rest _ => exact (SameBooks.deeds (s := s) (t := { s with pending := rest }) .of_eq).trans (exec_deeds hx)

/-- Settles O54: every deed of an event keeps the claims equal to what is queued. -/
theorem claimsAgreeAfterEveryEvent : Obligations.ClaimsAgreeAfterEveryEvent := by
  intro s t hf hw hr hn hx
  have h := (step_deeds hx).claims ⟨hf, hw, hr, hn⟩
  exact ⟨h.fits, h.writes, h.reads, h.refs⟩

/-- Settles O59: every deed of an event keeps the windows' and the settings' laws, by way of the claims: a window that is
frozen within the event is still named, and so not FREE. -/
theorem windowAndSettingLawsHoldAfterEveryEvent : Obligations.WindowAndSettingLawsHoldAfterEveryEvent := by
  intro s t hs hx
  have h := (step_deeds hx).tablesLegal ⟨⟨hs.queueFits, hs.writes, hs.reads, hs.refs⟩, hs.windows, hs.settings⟩
  exact ⟨h.windows, h.settings⟩

end Sys2Proof.WindowTable
end

section
/-! Every event leaves nothing undone (O60): what settles a state settles the head of its queue, its windows, its quiesce
and the card bus; what does not settle it changes none of these. -/

namespace Sys2Proof.WindowTable

-- One proof after the other: the text is compiled as one file, within a limit on memory that each thread draws on.
set_option Elab.async false

open Sys2Proof Sys2Proof.Machine Sys2Proof.Safety

/-! ### What the bus and the head of the queue look at -/

theorem inDrain_of_eq {s t : State} (h : t.cbc.access = s.cbc.access) : inDrain t = inDrain s := by
  unfold Machine.inDrain; rw [h]

theorem entryFrozen_of_eq {s t : State} (hw : ∀ w : WindowId, t.windows[w].frozen = s.windows[w].frozen) (d : DataEntry) :
    entryFrozen t d = entryFrozen s d := by unfold entryFrozen; rw [hw]

theorem oldestEligible_of_eq {s t : State} (hs : ∀ i, eligible t i = eligible s i) (ho : t.ageOrder = s.ageOrder) :
    oldestEligible t = oldestEligible s := by
  unfold oldestEligible; rw [ho, funext hs]

theorem offeredHead_of_eq {s t : State} (he : t.pwq.entries = s.pwq.entries)
    (hw : ∀ w : WindowId, t.windows[w].frozen = s.windows[w].frozen) (hd : inDrain t = inDrain s) :
    offeredHead t = offeredHead s := by
  have hf := entryFrozen_of_eq hw
  unfold offeredHead
  rw [he]
  split
  · rw [hd, hf]
  · rfl

theorem hasCandidate_of_eq {s t : State} (hs : t.slots = s.slots) (ho : t.ageOrder = s.ageOrder)
    (he : t.pwq.entries = s.pwq.entries) (hw : t.windows = s.windows) (ha : t.cbc.access = s.cbc.access) :
    hasCandidate t = hasCandidate s := by
  unfold hasCandidate
  rw [oldestEligible_of_eq (fun i => by unfold Machine.eligible; rw [hs]) ho,
    offeredHead_of_eq he (fun w => by rw [hw]) (inDrain_of_eq ha)]

/-- No entry is at the head that would leave it at once: the queue is empty, or its head stays. -/
def HeadStays (s : State) : Prop := leavingHeads s = []

theorem headStays_iff (s : State) :
    HeadStays s ↔ inDrain s = true ∨ ∀ e rest, s.pwq.entries = e :: rest → leavesAtOnce s e = false := by
  unfold HeadStays leavingHeads
  cases hd : inDrain s with
  | true => simp
  | false =>
    cases he : s.pwq.entries with
    | nil => simp
    | cons e rest =>
      simp [List.takeWhile_cons]

theorem leavesAtOnce_of_frozen {s t : State} (hw : ∀ w : WindowId, t.windows[w].frozen = true → s.windows[w].frozen = true)
    {e : Entry} (h : leavesAtOnce s e = false) : leavesAtOnce t e = false := by
  cases e with
  | control c => rfl
  | data d =>
    simp only [leavesAtOnce, Bool.or_eq_false_iff, Bool.and_eq_false_iff] at h ⊢
    refine ⟨h.1, h.2.imp_right fun hf => ?_⟩
    by_contra hn
    rw [hw _ (by simpa using hn)] at hf
    cases hf

/-- A head that stays goes on to stay while no window is frozen and no drain given up. -/
theorem HeadStays.of_eq {s t : State} (hs : HeadStays s) (he : t.pwq.entries = s.pwq.entries)
    (hw : ∀ w : WindowId, t.windows[w].frozen = true → s.windows[w].frozen = true)
    (hd : inDrain s = true → inDrain t = true) : HeadStays t := by
  rw [headStays_iff] at hs ⊢
  refine hs.imp hd fun h e rest hr => ?_
  rw [he] at hr
  exact leavesAtOnce_of_frozen hw (h e rest hr)

theorem HeadStays.of_inDrain {s : State} (h : inDrain s = true) : HeadStays s := (headStays_iff s).mpr (.inl h)

theorem HeadStays.of_nil {s : State} (h : s.pwq.entries = []) : HeadStays s :=
  (headStays_iff s).mpr (.inr fun e rest hr => by rw [h] at hr; cases hr)

theorem headStays_headsGone (s : State) : HeadStays (headsGone s) := leavingHeads_headsGone s

theorem headStays_leaveDeadHeads (s : State) : HeadStays (leaveDeadHeads s) := by
  rw [leaveDeadHeads_eq]; exact headStays_headsGone s

/-! ### A drain that begins -/

theorem breakLock_length (c : BreakCause) (s : State) :
    (breakLock c s).pwq.entries.length = s.pwq.entries.length := by
  unfold breakLock
  split
  · dsimp only
    rw [offerReport_pwq, noteBreak_pwq, markVoid_length, withdrawLockedSlot_pwq]
    split <;> simp
  · rfl

theorem emptyQueue_entries (s : State) (h : inDrain s = false) : (emptyQueue s).pwq.entries = [] := by
  rw [emptyQueue_eq]
  simp only [queueEmptied, h, Bool.false_eq_true, if_false, List.take_zero]

/-- The freeing of windows writes windows and reports alone. -/
structure WindowsAlone (s t : State) : Prop where
  pwq : t.pwq = s.pwq
  slots : t.slots = s.slots
  ageOrder : t.ageOrder = s.ageOrder
  lock : t.lock = s.lock
  cbc : t.cbc = s.cbc
  arb : t.arb = s.arb
  gsc : t.gsc = s.gsc
  space : t.rq.space = s.rq.space

theorem freeIfDrained_alone (s : State) (w : WindowId) : WindowsAlone s (freeIfDrained s w) := by
  unfold freeIfDrained
  split
  · constructor <;> simp
  · constructor <;> rfl

theorem freeDrainedWindows_alone (s : State) : WindowsAlone s (freeDrainedWindows s) := by
  unfold freeDrainedWindows
  generalize List.finRange 32 = l
  induction l generalizing s with
  | nil => constructor <;> rfl
  | cons w l ih =>
    obtain ⟨h1, h2, h3, h4, h5, h6, h7, h8⟩ := freeIfDrained_alone s w
    obtain ⟨k1, k2, k3, k4, k5, k6, k7, k8⟩ := ih (freeIfDrained s w)
    exact ⟨k1.trans h1, k2.trans h2, k3.trans h3, k4.trans h4, k5.trans h5, k6.trans h6, k7.trans h7, k8.trans h8⟩

theorem freeAllSlots_pwq (s : State) : (freeAllSlots s).pwq = s.pwq := by
  rw [freeAllSlots_eq]; simp only [slotsCleared]

/-- A fault with no access in flight leaves the queue empty (R46). -/
theorem faultGate_entries (c : FaultCause) {s : State} (h : s.cbc.access = none) :
    (faultGate c s).pwq.entries = [] := by
  unfold faultGate
  dsimp only
  rw [(freeDrainedWindows_alone _).pwq, offerReport_pwq, endIdleTenure_pwq, releaseHold_pwq]
  refine List.length_eq_zero_iff.mp ?_
  rw [breakLock_length, freeAllSlots_pwq, emptyQueue_entries]
  · rfl
  · unfold Machine.inDrain markStop becomeFaulted
    dsimp only
    rw [h]
    rfl

theorem drainConsequences_pwq_entries (o : DrainOutcome) (d : DataEntry) (s : State)
    (ho : o = .performed ∨ o = .checkFailed) : (drainConsequences o d s).pwq.entries = s.pwq.entries := by
  obtain rfl | rfl := ho <;> rfl

theorem drainGone_length (o : DrainOutcome) (d : DataEntry) {s : State} (ho : o = .performed ∨ o = .checkFailed)
    (hs : s.pwq.entries ≠ []) :
    queueLength (clearAccess (removeHead (drainConsequences o d (closeLock d (drainStaleness o d s))))) + 1 =
      queueLength s := by
  unfold queueLength
  rw [clearAccess_pwq, removeHead_entries, drainConsequences_pwq_entries o d _ ho, closeLock_pwq, drainStaleness_entries,
    List.length_tail]
  exact Nat.succ_pred_eq_of_pos (List.length_pos_iff.mpr hs)

theorem drainEnded_shorter (o : DrainOutcome) (d : DataEntry) {s : State} (ho : o = .performed ∨ o = .checkFailed)
    (hs : s.pwq.entries ≠ []) :
    queueLength (drainEnded o d s) + 1 ≤ queueLength s ∧ HeadStays (drainEnded o d s) := by
  have hz := drainGone_length o d ho hs
  have ha : (clearAccess (removeHead (drainConsequences o d (closeLock d (drainStaleness o d s))))).cbc.access = none := rfl
  unfold drainEnded
  dsimp only
  generalize clearAccess (removeHead (drainConsequences o d (closeLock d (drainStaleness o d s)))) = z at hz ha ⊢
  split
  · have hf := faultGate_entries .queueCheck ha
    refine ⟨?_, HeadStays.of_nil hf⟩
    rw [queueLength, hf, ← hz]
    exact Nat.le_add_left 1 _
  · have hq := (leaveDeadHeads_moves z).queue
    exact ⟨(Nat.succ_le_succ hq).trans hz.le, headStays_leaveDeadHeads z⟩

theorem settleTenure_headStays {s : State} (hs : HeadStays s) : HeadStays (settleTenure s) :=
  hs.of_eq (by simp) (fun w h => by simpa using h) fun h => by rw [inDrain_of_eq (settleTenure_cbc_access s)]; exact h

theorem drainBegins_length (d : DataEntry) (s : State) :
    (drainBegins d s).pwq.entries.length = s.pwq.entries.length := by
  unfold drainBegins raceCloseTimer
  split
  · split
    · simp
    · rw [breakLock_length]; simp
  · simp

theorem drainBegins_headIsData (d : DataEntry) {s : State} (h : HeadIsData s) : HeadIsData (drainBegins d s) := by
  unfold drainBegins raceCloseTimer
  split
  · split
    · exact headIsData_congr (by simp) h
    · exact breakLock_headIsData _ _ (headIsData_congr (by simp) h)
  · exact headIsData_congr (by simp) h

/-- A drain that ends in the event of its start leaves the queue shorter. -/
theorem endDrain_shorter (o : DrainOutcome) {s : State} (ho : o = .performed ∨ o = .checkFailed) (hs : HeadIsData s) :
    queueLength (endDrain o s) + 1 ≤ queueLength s ∧ HeadStays (endDrain o s) := by
  obtain ⟨d, rest, he⟩ := hs
  have h := drainEnded_shorter o d (s := s) ho (by rw [he]; nofun)
  have hx : endDrain o s = settleTenure (drainEnded o d s) := by unfold endDrain; rw [he]
  rw [hx]
  exact ⟨by unfold queueLength; rw [settleTenure_pwq]; exact h.1, settleTenure_headStays h.2⟩

/-- A drain that begins goes on, or it ends within the event and the queue is shorter. -/
theorem startDrain_goes (d : DataEntry) {s : State} (hs : HeadIsData s) :
    ((startDrain d s).cbc.access.isSome = true ∨ queueLength (startDrain d s) + 1 ≤ queueLength s) ∧
      HeadStays (startDrain d s) := by
  unfold startDrain continueDrain
  have hx : HeadIsData (drainBegins d { s with cbc.access := some (drainRecord d) }) := drainBegins_headIsData d hs
  have hl := drainBegins_length d { s with cbc.access := some (drainRecord d) }
  have hend (o : DrainOutcome) (ho : o = .performed ∨ o = .checkFailed) :=
    endDrain_shorter o ho hx
  split
  · exact ⟨.inl rfl, HeadStays.of_inDrain rfl⟩
  · exact ⟨.inr ((hend .performed (.inl rfl)).1.trans hl.le), (hend _ (.inl rfl)).2⟩
  · exact ⟨.inr ((hend .checkFailed (.inr rfl)).1.trans hl.le), (hend _ (.inr rfl)).2⟩

/-! ### The card bus comes to rest -/

/-- The controller has nothing to start: an access is in flight, or a tenure without a candidate goes on under the lock
hold, or without a tenure the request follows the candidates (R116, R117, R118). -/
def BusSettled (s : State) : Prop :=
  s.cbc.access.isSome = true ∨ (s.cbc.tenure = true ∧ s.arb.lockHold = true ∧ hasCandidate s = false) ∨
    (s.cbc.tenure = false ∧ s.cbc.request = hasCandidate s)

theorem offeredHead_headIsData {s : State} {d : DataEntry} (h : offeredHead s = some d) : HeadIsData s := by
  obtain ⟨rest, he, -⟩ := (offeredHead_some s d).mp h
  exact ⟨d, rest, he⟩

/-- A tenure that ends without a candidate is not given back. -/
theorem endTenure_noCandidate {s : State} (h : hasCandidate s = false) :
    (endTenure s).cbc.tenure = false ∧ hasCandidate (endTenure s) = false := by
  constructor
  · unfold endTenure gateTenureEnds
    rw [h]
    split
    · rw [decision_cbc _ rfl]
    · rw [decision_cbc _ rfl]
    · rfl
  · exact (hasCandidate_of_eq (by simp) (by simp) (by simp) (by simp) (by simp)).trans h

theorem reviewRequest_hasCandidate (s : State) : hasCandidate (reviewRequest s) = hasCandidate s :=
  hasCandidate_of_eq (by simp) (by simp) (by simp) (by simp) (by simp)

/-- Without a tenure given, the request that has been reviewed follows the candidates (R116). -/
theorem reviewRequest_follows {s : State} (ht : s.cbc.tenure = false) :
    (reviewRequest s).cbc.request = hasCandidate s := by
  unfold reviewRequest
  rw [if_neg (by rw [ht]; nofun)]
  split
  · next h =>
    split
    · next hr => rw [hr, h]
    · rw [requestArrives_cbc_request, h]
  · next h => rw [eq_false_of_ne_true h]

theorem reviewRequest_headStays {s : State} (hs : HeadStays s) : HeadStays (reviewRequest s) :=
  hs.of_eq (by simp) (fun w h => by simpa using h) fun h => by
    rw [inDrain_of_eq (reviewRequest_cbc_access s)]; exact h

theorem endTenure_headStays {s : State} (hs : HeadStays s) : HeadStays (endTenure s) :=
  hs.of_eq (by simp) (fun w h => by simpa using h) fun h => by
    rw [inDrain_of_eq (endTenure_cbc_access s)]; exact h

theorem startFetch_headStays (i : SlotId) {s : State} (ha : s.cbc.access.isSome ≠ true) (hs : HeadStays s) :
    HeadStays (startFetch i s) :=
  hs.of_eq rfl (fun _ h => h) fun h => by
    unfold Machine.inDrain at h
    split at h
    · next a ha' => rw [ha'] at ha; exact absurd rfl ha
    · cases h

/-- Passes enough for the card bus to come to rest. -/
def busMeasure (s : State) : Nat := 2 * queueLength s + if s.cbc.tenure = true then 2 else 3

theorem runBus_settled (n : Nat) : ∀ {s : State}, HeadStays s → busMeasure s ≤ n →
    HeadStays (runBus n s) ∧ BusSettled (runBus n s) := by
  induction n with
  | zero =>
    intro s _ hn
    unfold busMeasure at hn
    split at hn <;> omega
  | succ n ih =>
    intro s hs hn
    unfold runBus
    split
    · next ha => exact ⟨hs, .inl ha⟩
    next ha =>
    split
    · next ht =>
      rw [busMeasure, if_pos ht] at hn
      split
      · exact ⟨startFetch_headStays _ ha hs, .inl rfl⟩
      · next d _ hd =>
        obtain ⟨hgo, hst⟩ := startDrain_goes d (offeredHead_headIsData hd)
        obtain hgo | hgo := hgo
        · rw [runBus_busy n _ hgo]
          exact ⟨hst, .inl hgo⟩
        · refine ih hst ?_
          unfold busMeasure
          split <;> omega
      · next hi hd =>
        have hc : hasCandidate s = false := by rw [hasCandidate, hi, hd]; rfl
        split
        · next hl => exact ⟨hs, .inr (.inl ⟨ht, hl, hc⟩)⟩
        · obtain ⟨ht', hc'⟩ := endTenure_noCandidate hc
          obtain ⟨m, rfl⟩ : ∃ m, n = m + 1 := ⟨n - 1, by omega⟩
          have ha' : (endTenure s).cbc.access = none := by rw [endTenure_cbc_access]; simpa using ha
          rw [runBus_idle m _ ha' ht' ((hasCandidate_eq_false _).mp hc')]
          refine ⟨(endTenure_headStays hs).of_eq rfl (fun _ h => h) id, .inr (.inr ⟨ht', ?_⟩)⟩
          exact (hc'.symm : false = _)
    · next ht =>
      have ht' : s.cbc.tenure = false := eq_false_of_ne_true ht
      rw [busMeasure, if_neg ht] at hn
      dsimp only
      split
      · next hg =>
        refine ih (reviewRequest_headStays hs) ?_
        rw [busMeasure, if_pos hg, queueLength, reviewRequest_pwq]
        exact Nat.le_of_succ_le_succ hn
      · next hg =>
        exact ⟨reviewRequest_headStays hs,
          .inr (.inr ⟨eq_false_of_ne_true hg, by rw [reviewRequest_follows ht', reviewRequest_hasCandidate]⟩)⟩

theorem settleBus_settled {s : State} (hs : HeadStays s) : HeadStays (settleBus s) ∧ BusSettled (settleBus s) := by
  refine runBus_settled _ hs ?_
  unfold busMeasure busFuel
  split <;> omega

end Sys2Proof.WindowTable
end

section
/-! What an event ends with leaves nothing undone (O60). -/

namespace Sys2Proof.WindowTable

-- One proof after the other: the text is compiled as one file, within a limit on memory that each thread draws on.
set_option Elab.async false

open Sys2Proof Sys2Proof.Machine Sys2Proof.Safety

/-! ### The end of an event -/

theorem freeDrainedWindows_get (s : State) (w : WindowId) : (freeDrainedWindows s).windows[w] =
    if drained s.windows[w] then freedWindow s.windows[w] else s.windows[w] := by
  rw [freeDrainedWindows_eq, windowsFreed, offerAll_windows_eq]
  exact ofFn_get _ w

theorem freeDrainedWindows_draining (s : State) : DrainingNamed (freeDrainedWindows s) := fun w h => by
  rw [freeDrainedWindows_get] at h ⊢
  split at h
  · cases h
  · next hd =>
    rw [if_neg hd]
    intro hr
    exact hd (by rw [drained, h, hr]; rfl)

theorem freeDrainedWindows_thaws (s : State) (w : WindowId) (h : (freeDrainedWindows s).windows[w].frozen = true) :
    s.windows[w].frozen = true := by
  rw [freeDrainedWindows_get] at h
  split at h
  · cases h
  · exact h

theorem freeDrainedWindows_headStays {s : State} (hs : HeadStays s) : HeadStays (freeDrainedWindows s) := by
  have ha := freeDrainedWindows_alone s
  exact hs.of_eq (by rw [ha.pwq]) (freeDrainedWindows_thaws s) fun h => by
    rw [inDrain_of_eq (s := s) (by rw [ha.cbc])]; exact h

/-- A data entry stands first. -/
def dataFirst : List Entry → Bool
  | .data _ :: _ => true
  | _ => false

/-- Whether the head is offered, once nothing leaves from it: a data entry is offered unless it is in drain. -/
theorem offeredHead_of_stays {s : State} (hs : HeadStays s) :
    (offeredHead s).isSome = (!inDrain s && dataFirst s.pwq.entries) := by
  rw [headStays_iff] at hs
  unfold offeredHead
  cases he : s.pwq.entries with
  | nil => simp [dataFirst]
  | cons e rest =>
    cases e with
    | control c => simp [dataFirst]
    | data d =>
      cases hd : inDrain s with
      | true => simp
      | false =>
        have hl := (hs.resolve_left (by simp [hd])) _ _ he
        have hn : d.void = false ∧ entryFrozen s d = false := Bool.or_eq_false_iff.mp hl
        simp [hn, dataFirst]

theorem hasCandidate_of_stays {s t : State} (hs : HeadStays s) (ht : HeadStays t) (he : t.pwq.entries = s.pwq.entries)
    (hl : t.slots = s.slots) (ho : t.ageOrder = s.ageOrder) (hd : inDrain t = inDrain s) :
    hasCandidate t = hasCandidate s := by
  unfold hasCandidate
  rw [oldestEligible_of_eq (fun i => by unfold Machine.eligible; rw [hl]) ho, offeredHead_of_stays hs,
    offeredHead_of_stays ht, hd, he]

theorem finishEvent_windows (s : State) : (finishEvent s).windows = (freeDrainedWindows s).windows := by
  unfold finishEvent; simp

theorem finishEvent_headStays {s : State} (hs : HeadStays s) : HeadStays (finishEvent s) := by
  have h := freeDrainedWindows_headStays hs
  unfold finishEvent
  exact h.of_eq (by simp) (fun w h => by simpa using h) fun h => by
    rw [inDrain_of_eq (s := freeDrainedWindows s) (by simp)]; exact h

theorem finishEvent_bus {s : State} (hs : HeadStays s) (hb : BusSettled s) : BusSettled (finishEvent s) := by
  have ha := freeDrainedWindows_alone s
  have hcbc : (finishEvent s).cbc = s.cbc := by unfold finishEvent; rw [askForPlace_cbc, testQuiesce_cbc, ha.cbc]
  have harb : (finishEvent s).arb = s.arb := by unfold finishEvent; rw [askForPlace_arb, testQuiesce_arb, ha.arb]
  have hc : hasCandidate (finishEvent s) = hasCandidate s := by
    refine hasCandidate_of_stays hs (finishEvent_headStays hs) ?_ ?_ ?_ (inDrain_of_eq (by rw [hcbc]))
    · unfold finishEvent; rw [askForPlace_pwq, testQuiesce_pwq, ha.pwq]
    · unfold finishEvent; rw [askForPlace_slots, testQuiesce_slots, ha.slots]
    · unfold finishEvent; rw [askForPlace_ageOrder, testQuiesce_ageOrder, ha.ageOrder]
  unfold BusSettled
  rw [hcbc, harb, hc]
  exact hb

theorem testQuiesce_notReady (s : State) :
    ¬((testQuiesce s).gsc.state = .quiescing ∧ quiesceConditions (testQuiesce s) = true) := by
  unfold testQuiesce
  split
  · rw [offerReport_gsc]; rintro ⟨h, -⟩; cases h
  · next h => simpa using h

/-- A place for a RESULT is asked for exactly while a control entry stands at the head (R33, R167). -/
structure SpaceFollows (s : State) : Prop where
  asked : ∀ c rest, s.pwq.entries = .control c :: rest → s.rq.space ≠ .none
  none : (∀ c rest, s.pwq.entries ≠ .control c :: rest) → s.rq.space = .none

theorem askForPlace_spaceFollows {s : State} (hs : SpaceLegal s) : SpaceFollows (askForPlace s) := by
  constructor
  · intro c rest he
    rw [askForPlace_pwq] at he
    unfold askForPlace
    rw [he]
    dsimp only
    split
    · dsimp only; split <;> nofun
    · next h => exact h
  · intro h
    rw [askForPlace_pwq] at h
    unfold askForPlace
    split
    · next c rest he => exact absurd he (h c rest)
    · by_contra hn
      obtain ⟨c, rest, he⟩ := hs hn
      exact h c rest he

theorem headSettled_of_stays {s : State} (hs : HeadStays s) (hr : SpaceFollows s) : HeadSettled s := by
  rw [headStays_iff] at hs
  unfold HeadSettled
  split
  · next he => exact hr.none fun c rest h => by rw [he] at h; cases h
  · next d rest he =>
    refine ⟨hs.imp_right fun h => ?_, hr.none fun c rest h => by rw [he] at h; cases h⟩
    have hl := h _ _ he
    simpa only [leavesAtOnce, Bool.or_eq_false_iff, entryFrozen] using hl
  · next c rest he => exact hr.asked c rest he

theorem settled_of_stays {s : State} (hs : HeadStays s) (hr : SpaceFollows s) (hd : DrainingNamed s)
    (hq : ¬(s.gsc.state = .quiescing ∧ quiesceConditions s = true)) : Settled s :=
  ⟨headSettled_of_stays hs hr, hd, hq⟩

/-- Nothing is left undone: not at the head, for a window or a quiesce, and not on the card bus. -/
structure Done (s : State) : Prop where
  settled : Settled s
  bus : BusSettled s

theorem finishEvent_done {s : State} (hs : HeadStays s) (hb : BusSettled s) (hr : SpaceLegal s) : Done (finishEvent s) := by
  have ha := freeDrainedWindows_alone s
  have hq : SpaceLegal (testQuiesce (freeDrainedWindows s)) :=
    hr.of_eq (by rw [testQuiesce_pwq, ha.pwq]) (by rw [testQuiesce_rq_space, ha.space]; exact id)
  have hf : SpaceFollows (finishEvent s) := askForPlace_spaceFollows hq
  have hd : DrainingNamed (finishEvent s) := by
    unfold DrainingNamed
    rw [finishEvent_windows]
    exact freeDrainedWindows_draining s
  have hc : ¬((finishEvent s).gsc.state = .quiescing ∧ quiesceConditions (finishEvent s) = true) := by
    have := testQuiesce_notReady (freeDrainedWindows s)
    unfold finishEvent quiesceConditions dataCount slotsInUse at *
    simpa using this
  exact ⟨settled_of_stays (finishEvent_headStays hs) hf hd hc, finishEvent_bus hs hb⟩

/-- What settles a state leaves nothing undone. -/
theorem settle_done {s : State} (hr : SpaceLegal s) : Done (settle s) := by
  obtain ⟨hs, hb⟩ := settleBus_settled (headStays_leaveDeadHeads s)
  exact finishEvent_done hs hb (Work.spaceLegal ((leaveDeadHeads_work s).trans (runBus_work _ _)) hr)

/-! ### Stages -/

theorem spaceLegal_of_settled {s : State} (h : Settled s) : SpaceLegal s := by
  obtain ⟨hh, -, -⟩ := h
  intro hn
  unfold HeadSettled at hh
  split at hh
  · exact absurd hh hn
  · exact absurd hh.2 hn
  · next c rest he => exact ⟨c, rest, he⟩

theorem SameTask.done {s t : State} (h : SameTask s t) (hs : Done s) : Done t := by
  obtain ⟨⟨hh, hd, hq⟩, hb⟩ := hs
  have hf := entryFrozen_of_eq (s := s) (t := t) fun w => by rw [h.windows]
  refine ⟨⟨?_, ?_, ?_⟩, ?_⟩
  · unfold HeadSettled at hh ⊢
    rw [h.entries]
    split
    · next he => rw [he] at hh; exact h.space.mpr hh
    · next d rest he =>
      rw [he] at hh
      rw [h.inDrain, hf]
      exact ⟨hh.1, h.space.mpr hh.2⟩
    · next c rest he => rw [he] at hh; exact fun k => hh (h.space.mp k)
  · unfold DrainingNamed; rw [h.windows]; exact hd
  · unfold quiesceConditions dataCount; rw [h.gsc, h.entries, h.slotsInUse, h.lock]; exact hq
  · have hc : hasCandidate t = hasCandidate s := by
      unfold hasCandidate
      rw [oldestEligible_of_eq h.eligible h.ageOrder, offeredHead_of_eq h.entries (fun w => by rw [h.windows]) h.inDrain]
    unfold BusSettled
    rw [h.access, h.tenure, h.lockHold, h.request, hc]
    exact hb

theorem noCandidate_of_empty {s : State} (he : s.pwq.entries = []) (ho : s.ageOrder = []) : hasCandidate s = false := by
  unfold hasCandidate oldestEligible offeredHead
  rw [he, ho]
  rfl

theorem Fresh.done {s : State} (h : Fresh s) : Done s := by
  refine ⟨⟨?_, ?_, ?_⟩, .inr (.inr ?_)⟩
  · unfold HeadSettled; rw [h.entries]; exact h.space
  · intro w hw; rw [h.windows] at hw; simp [Window.powerOn] at hw
  · rw [h.gsc]; rintro ⟨k, -⟩; cases k
  · rw [noCandidate_of_empty h.entries h.ageOrder, h.cbc]; exact ⟨rfl, rfl⟩

theorem Stage.done {s t : State} (h : Stage s t) (hs : Done s) : Done t := by
  cases h with
  | settles h => exact settle_done (Deeds.spaceLegal h (spaceLegal_of_settled hs.settled))
  | light _ h => exact h.done hs
  | fresh h => exact h.done

theorem Course.done {s t : State} (h : Course s t) (hs : Done s) : Done t := by
  induction h with
  | refl => exact hs
  | tail _ h ih => exact h.done ih

/-! ### The release of a reset -/

/-- What is held in RESET with nothing to do: no queue, no slot, no request (R44, R69, R122). -/
structure Resting (s : State) : Prop where
  entries : s.pwq.entries = []
  ageOrder : s.ageOrder = []
  space : s.rq.space = .none
  cbc : s.cbc = Controller.powerOn
  windows : DrainingNamed s
  gate : s.gsc.state ≠ .quiescing

theorem Resting.done {s : State} (h : Resting s) : Done s := by
  refine ⟨⟨?_, h.windows, fun k => h.gate k.1⟩, .inr (.inr ?_)⟩
  · unfold HeadSettled; rw [h.entries]; exact h.space
  · rw [noCandidate_of_empty h.entries h.ageOrder, h.cbc]; exact ⟨rfl, rfl⟩

theorem requestArrives_cbc_port (p : Port) {s : State} (h : s.cbc.request = false) :
    (requestArrives (.port p) s).cbc = s.cbc := by
  unfold requestArrives
  split
  · rfl
  · split
    · rfl
    · exact decision_cbc s h
  · rfl
  · split <;> rfl

theorem Resting.of_eq {s t : State} (h : Resting s) (he : t.pwq.entries = s.pwq.entries) (ho : t.ageOrder = s.ageOrder)
    (hr : t.rq.space = s.rq.space) (hc : t.cbc = s.cbc) (hw : t.windows = s.windows) (hg : t.gsc.state ≠ .quiescing) :
    Resting t :=
  ⟨he.trans h.entries, ho.trans h.ageOrder, hr.trans h.space, hc.trans h.cbc, by unfold DrainingNamed; rw [hw]; exact h.windows,
    hg⟩

theorem takeArrival_resting (p : Port) {s : State} (h : Resting s) : Resting (takeArrival s p) := by
  have h0 : Resting (setRequestLine p true s) := h.of_eq rfl rfl rfl rfl rfl h.gate
  refine h0.of_eq (by simp [takeArrival]) (by simp [takeArrival]) (by simp [takeArrival]) ?_ (by simp [takeArrival])
    (by simpa [takeArrival, setRequestLine] using h.gate)
  exact requestArrives_cbc_port p (by rw [h0.cbc]; rfl)

theorem foldl_takeArrival_resting (l : List Port) {s : State} (h : Resting s) : Resting (l.foldl takeArrival s) := by
  induction l generalizing s with
  | nil => exact h
  | cons p l ih => exact ih (takeArrival_resting p h)

theorem takeArrivals_resting {s : State} (h : Resting s) : Resting (takeArrivals s) := by
  have h0 : Resting { s with lines.request := ⟨false, false, false⟩ } := h.of_eq rfl rfl rfl rfl rfl h.gate
  unfold takeArrivals
  dsimp only
  split
  · exact foldl_takeArrival_resting _ h0
  · have h1 := foldl_takeArrival_resting (broughtForward (choiceValue s) (raisedPorts s.lines.request)) h0
    exact h1.of_eq rfl rfl rfl rfl rfl h1.gate

theorem leaveReset_resting (lines : BitVec 4) (kind : ResetKind) (data control : Nat) {s : State} (h : Resting s) :
    Resting (leaveReset lines kind data control s) := by
  unfold leaveReset
  dsimp only
  refine takeArrivals_resting (h.of_eq ?_ ?_ ?_ ?_ ?_ ?_) <;> simp

theorem releasePowerOn_resting (lines : BitVec 4) {s : State} (h : Resting s) : Resting (releasePowerOn lines s) := by
  unfold releasePowerOn
  split
  · exact h.of_eq rfl rfl rfl rfl rfl h.gate
  · exact leaveReset_resting _ _ _ _ (h.of_eq rfl rfl rfl rfl rfl h.gate)

theorem releaseCard_resting (lines : BitVec 4) {s : State} (h : Resting s) : Resting (releaseCard lines s) := by
  unfold releaseCard
  split
  · exact h.of_eq rfl rfl rfl rfl rfl h.gate
  · exact leaveReset_resting _ _ _ _ (h.of_eq rfl rfl rfl rfl rfl h.gate)

theorem resting_of_lawful {s : State} (h : Lawful s) (ha : s.porAsserted = true ∨ s.cardAsserted = true) : Resting s := by
  have hg := h.reset.mpr ha
  obtain ⟨he, hr, hc, -, -⟩ := h.held hg
  obtain ⟨hs, -⟩ := h.idle (.inl hg)
  refine ⟨he, ?_, hr, hc, h.settled.2.1, by rw [hg]; nofun⟩
  rw [List.eq_nil_iff_forall_not_mem]
  exact fun i hi => (h.age.2 i).mp hi (hs i)

/-! ### Every event -/

theorem done_of_lawful {s : State} (h : Lawful s) : Done s := by
  refine ⟨h.settled, ?_⟩
  cases ha : s.cbc.access with
  | some a => exact .inl (by rw [ha]; rfl)
  | none =>
    refine .inr ?_
    cases ht : s.cbc.tenure with
    | true => exact .inl ⟨rfl, h.idleTenure ha ht⟩
    | false => exact .inr ⟨rfl, h.request ht⟩

theorem exec_done {c : Instr} {s t : State} (h : Lawful s) (rest : List Instr)
    (hx : exec c { s with pending := rest } = .next t) : Done t := by
  have hd : Done { s with pending := rest } := (SameTask.of_eq (s := s)).done (done_of_lawful h)
  have hr (ha : s.porAsserted = true ∨ s.cardAsserted = true) : Resting { s with pending := rest } :=
    (resting_of_lawful h ha).of_eq rfl rfl rfl rfl rfl (resting_of_lawful h ha).gate
  by_cases hc : Releases c
  · cases c with
    | powerOnResetRelease l =>
      injection hx with hx
      rw [← hx]
      split
      · next ha => exact (releasePowerOn_resting l (hr (.inl ha))).done
      · exact hd
    | cardResetRelease l =>
      injection hx with hx
      rw [← hx]
      split
      · next ha => exact (releaseCard_resting l (hr (.inr ha))).done
      · exact hd
    | _ => exact absurd hc id
  · exact (exec_course hx hc).done hd

theorem step_done {s t : State} (h : Lawful s) (hx : step s = .next t) : Done t := by
  unfold step at hx
  split at hx
  · injection hx with hx
    rw [← hx]
    exact done_of_lawful h
  · exact exec_done h _ hx

/-- Settles O60: every stage of an event leaves nothing undone. That an access in flight means a tenure is one of the laws
of the card bus, which every event keeps. -/
theorem everyEventLeavesNothingUndone : Obligations.EveryEventLeavesNothingUndone := by
  intro s t h hx
  obtain ⟨hs, hb⟩ := step_done h hx
  have hm := Scope.step_mid h hx
  refine ⟨hs, fun ht => ?_, fun ha ht => ?_⟩
  · obtain hb | ⟨hb, -⟩ | ⟨-, hb⟩ := hb
    · rw [hm.tenureLegal.2.1 hb] at ht; cases ht
    · rw [hb] at ht; cases ht
    · exact hb
  · obtain hb | ⟨-, hb⟩ | ⟨hb, -⟩ := hb
    · rw [ha] at hb; cases hb
    · exact hb
    · rw [hb] at ht; cases ht

end Sys2Proof.WindowTable
end

section
/-! The tables at reset, the claiming window and the outcomes that change nothing (O2, O3, O9, O10). -/

namespace Sys2Proof.WindowTable

-- One proof after the other: the text is compiled as one file, within a limit on memory that each thread draws on.
set_option Elab.async false

open Sys2Proof Sys2Proof.Machine Sys2Proof.Safety

/-! ### Power-on reset -/

/-- Settles O2: each block is what its column "After power-on" says, by computation. -/
theorem resetHoldsPowerOnValues : Obligations.ResetHoldsPowerOnValues := by
  refine ⟨rfl, rfl, ?windows, ?masters, rfl, ?slots, rfl, rfl, rfl, rfl, rfl, rfl, rfl, rfl, rfl, rfl⟩
  case windows => decide
  case masters => decide
  case slots => decide

@[simp] theorem reset_window (w : WindowId) : State.reset.windows[w] = Window.powerOn := Vector.getElem_replicate _

@[simp] theorem reset_master (m : MasterId) : State.reset.masters[m] = Master.powerOn := Vector.getElem_replicate _

@[simp] theorem reset_slot (i : SlotId) : State.reset.slots[i] = Slot.powerOn := Vector.getElem_replicate _

theorem reset_atRest : Scope.AtRest State.reset where
  lock := rfl
  holds i := by rw [reset_slot]; rfl
  cbc := rfl
  lockHold := rfl
  overstay := rfl
  grant := .inr ⟨.port .a, rfl⟩

/-- Settles O3: the tables are uniform, the queue and the controller are empty, and the laws of the lock, the card bus and
the timers hold where everything is at rest. -/
theorem lawsHoldAtReset : Obligations.LawsHoldAtReset where
  counters := rfl
  queueFits := by simp only [QueueFits]; decide
  writes m := by rw [reset_master]; rfl
  reads m := by rw [reset_master]; decide +revert
  refs w := by rw [reset_window]; decide +revert
  reportsFit := by simp only [ReportsFit]; decide
  consecutive := by simp only [ReportsConsecutive]; decide
  waiting := nofun
  line := rfl
  reset := by simp only [ResetWhileAsserted]; decide
  held := nofun
  idle _ := ⟨fun i => by rw [reset_slot]; rfl, rfl⟩
  gate := by simp only [GateRecordLegal]; decide
  slots i := by rw [reset_slot]; simp only [SlotLegal]; decide
  age := ⟨.nil, fun i => by rw [reset_slot]; simp [State.reset, Slot.powerOn]⟩
  keys i j h := absurd (by rw [reset_slot]; rfl) h
  lockRecord := reset_atRest.mid.record
  lockSlot := reset_atRest.mid.orderly.names
  lockBus := reset_atRest.mid.bus.hold
  lockWindow := reset_atRest.mid.orderly.window
  tenure := reset_atRest.mid.tenureLegal
  idleTenure := nofun
  timers := reset_atRest.mid.timersOnTime
  request _ := rfl
  windows w := by rw [reset_window]; simp only [WindowLegal, LoadedLegal]; decide
  settings := ⟨fun m => by rw [reset_master]; decide, by decide⟩
  settled := by
    refine ⟨rfl, fun w (h : State.reset.windows[w].state = .draining) => ?_, nofun⟩
    rw [reset_window] at h
    cases h

/-! ### The claiming window -/

theorem finRange_find?_eq_some {n : Nat} (p : Fin n → Bool) (i : Fin n) :
    (List.finRange n).find? p = some i ↔ p i = true ∧ ∀ j < i, p j = false := by
  rw [← Fin.find?_eq_find?_finRange, Fin.find?_eq_some_iff]

theorem claims_iff (e : Window) (a : TrunkAddr) : claims e a = true ↔
    e.state = .live ∧ e.trunkBase.toNat ≤ a.toNat ∧ a.toNat < e.trunkBase.toNat + 2 ^ e.sizeCode := by
  simp [claims, and_assoc]

/-- Settles O9: the window table is searched in ascending window id for one that claims the address. -/
theorem lowestLiveWindowClaims : Obligations.LowestLiveWindowClaims := by
  intro s a
  simp only [← claims_iff]
  constructor
  · intro w
    simp [claimingWindow, finRange_find?_eq_some]
  · simp [claimingWindow]

/-! ### Outcomes that change nothing -/

theorem exec_windowCommand {s : State} {t : Txn} (h1 : 1 ≤ txnBeats t) (h2 : txnBeats t ≤ 16) (hr : s.gsc.state ≠ .reset)
    (ho : ¬InRegion s t.addr) : exec (windowCommand t) s = .next (windowTxn t s) := by
  have hb : beatCountLegal (txnBeats t) = true := by simp [beatCountLegal, h1, h2]
  have hx : exec (windowCommand t) s = takeTxn t s := by
    obtain ⟨m, a, u, k, p⟩ := t
    cases p <;> rfl
  rw [hx, takeTxn, if_pos hb, trunkTxn, if_neg hr, if_neg ((Laws.inRegion_iff s t.addr).not.2 ho)]

theorem windowTxn_claimed {s : State} {t : Txn} {w : WindowId} (h : claimingWindow s t.addr = some w) :
    windowTxn t s = claimedTxn w t s := by
  rw [windowTxn, h]

/-- Settles O10: these outcomes are tested before any that charges the master or changes the gate. -/
theorem unchargedOutcomesChangeNothing : Obligations.UnchargedOutcomesChangeNothing := by
  intro s t h1 h2 hr ho
  rw [exec_windowCommand h1 h2 hr ho]
  constructor
  · intro hn
    rw [windowTxn, hn]
    rfl
  · intro w hw h
    rw [windowTxn_claimed hw, claimedTxn]
    rcases h with hf | hm | ⟨hc, hz⟩
    · rw [if_pos hf]
      rfl
    · rw [if_pos ((Laws.misaligned_iff t).2 hm), ite_self]
      rfl
    · rw [if_neg ((Laws.crossesEnd_iff _ t h1).not.2 hc), if_pos hz, ite_self, ite_self]
      rfl

end Sys2Proof.WindowTable
end

section
/-! The execution of a record at the head of the queue, and the commands that break no lock (O33, O34, O36, O41). -/

namespace Sys2Proof.WindowTable

-- One proof after the other: the text is compiled as one file, within a limit on memory that each thread draws on.
set_option Elab.async false

open Sys2Proof Sys2Proof.Machine Sys2Proof.Safety

/-! ### The execution of a record -/

theorem entryToExecute_atHead {cmd : Command} {c : ControlEntry} {rest : List Entry} {s : State} (h : AtHead cmd c rest s) :
    entryToExecute cmd s = some c := by
  obtain ⟨he, hc, hp, hg⟩ := h
  unfold entryToExecute
  rw [he]
  refine if_pos ?_
  obtain hg | hg | hg := hg <;> simp [hc, hp, hg, executesRecords]

/-- The RESULT is stored and the record leaves the head (R37, R151). -/
theorem removeHead_storeResult {c : ControlEntry} {rest : List Entry} {x : State} (he : x.pwq.entries = .control c :: rest)
    (status : Status) (detail : Nat) :
    removeHead (storeResult (resultBody c status detail) x) = afterResult c rest status detail x := by
  unfold removeHead
  rw [storeResult_pwq, he]
  simp [storeResult, storeReport, driveLine, entryClaims, afterResult]

theorem executeHead_atHead {cmd : Command} {act : ControlEntry → State → Execution} {c : ControlEntry} {rest left : List Entry}
    {s x : State} {status : Status} {detail : Nat} (h : AtHead cmd c rest s) (ha : act c s = ⟨status, detail, x⟩)
    (he : x.pwq.entries = .control c :: left) :
    executeHead cmd act s = settle (endIdleTenure s.arb.lockHold (leaveDeadHeads (afterResult c left status detail x))) := by
  unfold executeHead
  rw [entryToExecute_atHead h]
  simp only [ha, removeHead_storeResult he]

/-- A command that leaves the queue and the lock hold as they were: the event goes on from its RESULT. -/
theorem executeHead_settlesTo {cmd : Command} {act : ControlEntry → State → Execution} {c : ControlEntry} {rest : List Entry}
    {s x : State} {status : Status} {detail : Nat} (h : AtHead cmd c rest s) (ha : act c s = ⟨status, detail, x⟩)
    (he : x.pwq = s.pwq) (hl : x.arb.lockHold = s.arb.lockHold) :
    SettlesTo (afterResult c rest status detail x) (executeHead cmd act s) := by
  rw [executeHead_atHead h ha (by rw [he, h.entries])]
  refine settle_noIdleTenure _ _ ?_
  cases hs : s.arb.lockHold with
  | false => exact .inl rfl
  | true => exact .inr (.inl (hl.trans hs))

/-! ### Operands (R185) -/

theorem field_eq (w : Word) (low width : Nat) : field w low width = (w.extractLsb' low width).toNat := by
  rw [BitVec.extractLsb'_toNat, Nat.shiftRight_eq_div_pow, field]

theorem operandWindow_none {c : ControlEntry} (h : 32 ≤ field (operand c 1) 0 8) : operandWindow c = none :=
  dif_neg (Nat.not_lt.2 h)

theorem operandWindow_some {c : ControlEntry} {w : WindowId} (h : field (operand c 1) 0 8 = w.val) :
    operandWindow c = some w := by
  unfold operandWindow
  rw [dif_pos (by rw [h]; exact w.isLt)]
  exact congrArg some (Fin.ext h)

theorem policyOfCode_none {n : Nat} (h : 2 ≤ n) : policyOfCode n = none := by
  unfold policyOfCode
  rw [if_neg (by omega), if_neg (by omega)]

theorem cardBase_toNat (w : Word) : (BitVec.ofNat 28 (field w 0 28)).toNat = field w 0 28 := by
  rw [BitVec.toNat_ofNat, Nat.mod_eq_of_lt (field_lt _ _ _)]

/-! ### Illegal operands -/

/-- The operands of LOAD WINDOW that name no legal window entry (R3, R152). -/
def LoadIllegal (c : ControlEntry) : Prop :=
  32 ≤ field (operand c 1) 0 8 ∨ field (operand c 1) 8 5 < 12 ∨ 26 < field (operand c 1) 8 5 ∨
    (operand c 2).toNat % 2 ^ field (operand c 1) 8 5 ≠ 0 ∨ field (operand c 3) 0 28 % 2 ^ field (operand c 1) 8 5 ≠ 0 ∨
    2 ^ 28 < field (operand c 3) 0 28 + 2 ^ field (operand c 1) 8 5 ∨ field (operand c 1) 16 2 = 3 ∨
    2 ≤ field (operand c 1) 19 2

theorem geometryLegal_iff (size : Nat) (trunkBase : TrunkAddr) (cardBase : CardAddr) :
    geometryLegal size trunkBase cardBase = true ↔ 12 ≤ size ∧ size ≤ 26 ∧ trunkBase.toNat % 2 ^ size = 0 ∧
      cardBase.toNat % 2 ^ size = 0 ∧ cardBase.toNat + 2 ^ size ≤ 2 ^ 28 := by
  unfold geometryLegal windowSize
  simp only [Bool.and_eq_true, decide_eq_true_eq, and_assoc]

theorem loadOperands_none {c : ControlEntry} (h : LoadIllegal c) : loadOperands c = none := by
  unfold loadOperands
  split
  · next w port policy hw hport hpolicy =>
    refine if_neg fun hg => ?_
    rw [geometryLegal_iff, cardBase_toNat] at hg
    obtain ⟨h12, h26, htrunk, hcard, hfits⟩ := hg
    rcases h with h | h | h | h | h | h | h | h
    · rw [operandWindow_none h] at hw; cases hw
    · omega
    · omega
    · exact h htrunk
    · exact h hcard
    · omega
    · rw [h] at hport; cases hport
    · rw [policyOfCode_none h] at hpolicy; cases hpolicy
  · rfl

theorem doLoadWindow_illegal {c : ControlEntry} (s : State) (h : LoadIllegal c) : doLoadWindow c s = noChange .badOperand s := by
  rw [doLoadWindow, loadOperands_none h]

theorem doRetireWindow_illegal {c : ControlEntry} (s : State) (h : 32 ≤ field (operand c 1) 0 8) :
    doRetireWindow c s = noChange .badOperand s := by
  rw [doRetireWindow, operandWindow_none h]

theorem doModifyWindow_illegal {c : ControlEntry} (s : State)
    (h : 32 ≤ field (operand c 1) 0 8 ∨ 2 ≤ field (operand c 1) 19 2) : doModifyWindow c s = noChange .badOperand s := by
  unfold doModifyWindow
  split
  · next w policy hw hpolicy =>
    rcases h with h | h
    · rw [operandWindow_none h] at hw; cases hw
    · rw [policyOfCode_none h] at hpolicy; cases hpolicy
  · rfl

theorem doThawWindow_illegal {c : ControlEntry} (s : State) (h : 32 ≤ field (operand c 1) 0 8) :
    doThawWindow c s = noChange .badOperand s := by
  rw [doThawWindow, operandWindow_none h]

theorem doSetMaster_illegal {c : ControlEntry} (s : State) (h : 16 ≤ field (operand c 1) 0 8 ∨
    2 ≤ field (operand c 1) 8 2 ∨ 30 < field (operand c 2) 0 8 ∨ 8 < field (operand c 2) 8 8) :
    doSetMaster c s = noChange .badOperand s := by
  have hn : masterOperands c = none := by
    unfold masterOperands
    split
    · next m admission hm hadmission =>
      refine if_neg fun hl => ?_
      simp only [Bool.and_eq_true, decide_eq_true_eq] at hl
      rcases h with h | h | h | h
      · rw [operandMaster, dif_neg (by omega)] at hm; cases hm
      · rw [admissionOfCode, if_neg (by omega), if_neg (by omega)] at hadmission; cases hadmission
      · omega
      · omega
    · rfl
  rw [doSetMaster, hn]

theorem doSetTimers_illegal {c : ControlEntry} (s : State) (h : field (operand c 1) 0 16 < 8 ∨
    4096 < field (operand c 1) 0 16 ∨ field (operand c 1) 16 16 < 4 ∨ 1024 < field (operand c 1) 16 16 ∨
    field (operand c 2) 0 16 < 1 ∨ 255 < field (operand c 2) 0 16 ∨ 1023 < field (operand c 2) 16 16) :
    doSetTimers c s = noChange .badOperand s := by
  refine if_neg fun hl => ?_
  simp only [Bool.and_eq_true, decide_eq_true_eq] at hl
  omega

theorem doSetArbitration_illegal {c : ControlEntry} (s : State) (h : 4 < field (operand c 1) 0 3 ∨
    field (operand c 1) 8 8 < 8 ∨ 30 < field (operand c 1) 8 8) : doSetArbitration c s = noChange .badOperand s := by
  unfold doSetArbitration
  simp only
  split
  · rfl
  · next policy hpolicy =>
    refine if_neg fun hl => ?_
    simp only [Bool.and_eq_true, decide_eq_true_eq] at hl
    rcases h with h | h | h
    · rw [parkPolicyOfCode, if_neg (by omega), if_neg (by omega), if_neg (by omega), if_neg (by omega),
        if_neg (by omega)] at hpolicy
      cases hpolicy
    · omega
    · omega

theorem executeHead_unchanged {cmd : Command} {act : ControlEntry → State → Execution} {c : ControlEntry} {rest : List Entry}
    {s : State} {status : Status} (h : AtHead cmd c rest s) (ha : act c s = noChange status s) :
    SettlesTo (afterResult c rest status 0 s) (executeHead cmd act s) :=
  executeHead_settlesTo h ha rfl rfl

/-- Settles O33: the operands of each command are tested before its object. -/
theorem badOperandsChangeNothing : Obligations.BadOperandsChangeNothing := by
  intro s c rest hx
  obtain ⟨cmd, tag, operands, writer⟩ := c
  simp only [← field_eq]
  cases cmd with
  | loadWindow => exact fun h => ⟨_, rfl, executeHead_unchanged hx (doLoadWindow_illegal s h)⟩
  | retireWindow => exact fun h => ⟨_, rfl, executeHead_unchanged hx (doRetireWindow_illegal s h)⟩
  | modifyWindow => exact fun h => ⟨_, rfl, executeHead_unchanged hx (doModifyWindow_illegal s h)⟩
  | thawWindow => exact fun h => ⟨_, rfl, executeHead_unchanged hx (doThawWindow_illegal s h)⟩
  | setMaster => exact fun h => ⟨_, rfl, executeHead_unchanged hx (doSetMaster_illegal s h)⟩
  | setTimers => exact fun h => ⟨_, rfl, executeHead_unchanged hx (doSetTimers_illegal s h)⟩
  | setArbitration => exact fun h => ⟨_, rfl, executeHead_unchanged hx (doSetArbitration_illegal s h)⟩
  | enable => exact False.elim
  | quiesce => exact False.elim
  | fence => exact False.elim

/-! ### FENCE -/

/-- With an access in flight the card bus does nothing more in the event. -/
theorem settle_busy {s : State} (h : s.cbc.access.isSome = true) : settle s = eventOver (headsGone s) := by
  rw [settle, leaveDeadHeads_eq, settleBus_moves_to _ _ (.busy _ (by rw [headsGone_cbc]; exact h)), finishEvent_eq]

theorem settlesTo_busy {s t : State} (ht : SettlesTo s t) (h : s.cbc.access.isSome = true) : t = eventOver (headsGone s) :=
  ht.whole _ (.busy _ (by rw [headsGone_cbc]; exact h))

/-- Settles O41: the record changes nothing, and the queue is one entry longer than what stands behind it. -/
theorem fenceReportsTheQueueLength : Obligations.FenceReportsTheQueueLength := by
  intro s c rest hx
  have hl : queueLength s - 1 = rest.length := by rw [queueLength, hx.entries]; rfl
  have ht : SettlesTo (afterResult c rest .ok rest.length s) (executeHead .fence doFence s) :=
    executeHead_settlesTo hx (by rw [doFence, hl]) rfl rfl
  exact ⟨⟨_, rfl, ht⟩, fun ha => congrArg Host.Outcome.next (settlesTo_busy ht ha)⟩

/-! ### The window commands -/

theorem flagBit_eq (w : Word) (i : Nat) : flagBit w i = w.getLsbD i := by
  rw [BitVec.getLsbD, Nat.testBit_eq_decide_div_mod_eq, flagBit, field, Nat.pow_one]

theorem ofNat_field (w : Word) (low width : Nat) : BitVec.ofNat width (field w low width) = w.extractLsb' low width := by
  rw [field_eq, BitVec.ofNat_toNat, BitVec.setWidth_eq]

theorem policyOfCode_of_mem {n : Nat} {policy : ErrorPolicy}
    (h : (n, policy) ∈ [(0, ErrorPolicy.continues), (1, .freezes)]) : policyOfCode n = some policy := by
  simp only [List.mem_cons, Prod.mk.injEq, List.not_mem_nil, or_false] at h
  rcases h with ⟨rfl, rfl⟩ | ⟨rfl, rfl⟩ <;> rfl

theorem portWidthOfCode_of_mem {n : Nat} {port : PortWidth}
    (h : (n, port) ∈ [(0, PortWidth.bits8), (1, .bits16), (2, .bits32)]) : portWidthOfCode n = some port := by
  simp only [List.mem_cons, Prod.mk.injEq, List.not_mem_nil, or_false] at h
  rcases h with ⟨rfl, rfl⟩ | ⟨rfl, rfl⟩ | ⟨rfl, rfl⟩ <;> rfl

/-- Settles O34: legal operands give the window entry that LOAD WINDOW writes over a FREE one. -/
theorem loadWindowFillsAFreeWindow : Obligations.LoadWindowFillsAFreeWindow := by
  intro s c rest a b d e w port policy hx hc size cardBase hw h12 h26 htrunk hcard hfits hport hpolicy
  have h1 : operand c 1 = a := by rw [operand, hc]; rfl
  have h2 : operand c 2 = b := by rw [operand, hc]; rfl
  have h3 : operand c 3 = d := by rw [operand, hc]; rfl
  have h4 : operand c 4 = e := by rw [operand, hc]; rfl
  have ho : loadOperands c = some ⟨w, b, size, cardBase, port, a.getLsbD 18, policy, e.extractLsb' 0 16,
      e.extractLsb' 16 16⟩ := by
    unfold loadOperands
    rw [operandWindow_some (w := w) (by rw [h1, field_eq, hw]), h1, h2, h3, h4, field_eq a 16, portWidthOfCode_of_mem hport,
      field_eq a 19, policyOfCode_of_mem hpolicy, ofNat_field, field_eq a 8, flagBit_eq, readMaskOf, writeMaskOf, ofNat_field,
      ofNat_field]
    exact if_pos ((geometryLegal_iff _ _ _).2 ⟨h12, h26, htrunk, hcard, hfits⟩)
  constructor
  · intro hf
    refine ⟨_, rfl, executeHead_settlesTo hx ?_ rfl rfl⟩
    simp only [doLoadWindow, ho]
    exact if_pos hf
  · intro hf
    refine ⟨_, rfl, executeHead_unchanged hx ?_⟩
    simp only [doLoadWindow, ho]
    exact if_neg hf

/-- Settles O36: each command writes the fields it names in the state that allows it. -/
theorem modifyAndThawChangeAWindow : Obligations.ModifyAndThawChangeAWindow := by
  intro s c rest a w hw
  constructor
  · intro b policy hx hc hpolicy
    have h1 : operand c 1 = a := by rw [operand, hc]; rfl
    have h2 : operand c 2 = b := by rw [operand, hc]; rfl
    have hp : policyOfCode (field (operand c 1) 19 2) = some policy := by
      rw [h1, field_eq]; exact policyOfCode_of_mem hpolicy
    have ho : operandWindow c = some w := operandWindow_some (by rw [h1, field_eq, hw])
    constructor
    · intro hl
      refine ⟨_, rfl, executeHead_settlesTo hx ?_ rfl rfl⟩
      simp only [doModifyWindow, ho, hp]
      rw [if_pos hl, h1, h2, flagBit_eq, readMaskOf, writeMaskOf, ofNat_field, ofNat_field]
    · intro hl
      refine ⟨_, rfl, executeHead_unchanged hx ?_⟩
      simp only [doModifyWindow, ho, hp]
      exact if_neg hl
  · intro hx hc
    have ho : operandWindow c = some w := operandWindow_some (by rw [operand, hc, field_eq]; exact hw)
    refine ⟨fun hf hz => ?_, fun hf hz => ?_, fun hf => ?_⟩
    · refine ⟨_, rfl, executeHead_settlesTo hx ?_ rfl rfl⟩
      simp only [doThawWindow, ho]
      rw [if_neg hf, if_pos hz]
    · refine ⟨_, rfl, executeHead_unchanged hx ?_⟩
      simp only [doThawWindow, ho]
      rw [if_neg hf, if_neg (by rw [hz]; decide)]
    · refine ⟨_, rfl, executeHead_unchanged hx ?_⟩
      simp only [doThawWindow, ho]
      exact if_pos hf

end Sys2Proof.WindowTable
end

section
/-! A break of the lock in the closed form of the statements, and the commands that withdraw a window's or a master's work
(R84; O35, O37). -/

namespace Sys2Proof.WindowTable

-- One proof after the other: the text is compiled as one file, within a limit on memory that each thread draws on.
set_option Elab.async false

open Sys2Proof Sys2Proof.Machine Sys2Proof.Safety

/-! ### A break of the lock (R84) -/

/-- Slots picked from one slot alone leave the table as that slot's turn does. -/
theorem slotsLeft_single {freed marked : SlotId → Bool} (i : SlotId) (hf : ∀ j, freed j = true → j = i)
    (hm : ∀ j, marked j = true → j = i) (s : State) :
    slotsLeft freed marked [i] s = slotsLeft freed marked (List.finRange 8) s := by
  have hin (p : SlotId → Bool) (hp : ∀ j, p j = true → j = i) (j : SlotId) :
      (decide (j ∈ [i]) && p j) = (decide (j ∈ List.finRange 8) && p j) := by
    cases h : p j with
    | false => simp
    | true => simp [hp j h]
  have hcount (q : SlotId → Bool) : [i].countP (fun j => freed j && q j) =
      (List.finRange 8).countP fun j => freed j && q j := by
    have hone : ∀ i : SlotId, (List.finRange 8).countP (fun j => decide (j = i)) = 1 := by decide
    rw [List.countP_singleton]
    cases h : freed i && q i with
    | false =>
      refine (List.countP_eq_zero.2 fun j _ hj => ?_).symm
      have hji : j = i := hf j (Bool.and_eq_true _ _ ▸ hj).1
      rw [hji, h] at hj
      cases hj
    | true =>
      rw [if_pos rfl, ← hone i]
      refine List.countP_congr fun j _ => ?_
      constructor
      · intro hj
        rw [of_decide_eq_true hj]
        exact h
      · intro hj
        exact decide_eq_true (hf j (Bool.and_eq_true _ _ ▸ hj).1)
  exact withSlots_congr (fun j => by rw [ofFn_get, ofFn_get, hin freed hf, hin marked hm])
    (List.filter_congr fun j _ => by rw [hin freed hf]) (fun m => by rw [ofFn_get, ofFn_get, hcount])
    (fun w => by rw [ofFn_get, ofFn_get, hcount])

theorem withdrawSlot_turn {freed marked : SlotId → Bool} {i : SlotId} {s : State}
    (hf : freed i = (decide (s.slots[i].state ≠ .free) && decide (s.slots[i].state ≠ .fetching)))
    (hm : marked i = decide (s.slots[i].state = .fetching)) : withdrawSlot i s = slotTurn freed marked i s := by
  unfold slotTurn withdrawSlot
  rw [hf, hm]
  by_cases hg : s.slots[i].state = .fetching
  · rw [if_pos hg, hg]
    rfl
  · rw [if_neg hg]
    by_cases hfree : s.slots[i].state = .free
    · rw [hfree, freeSlot, if_pos hfree]
      rfl
    · rw [freeSlot_eq i s hfree, if_pos (by rw [decide_eq_true hfree, decide_eq_true hg]; rfl)]

/-- Slots none of which is picked stay as they are. -/
theorem slotsLeft_none {freed marked : SlotId → Bool} (hf : ∀ j, freed j = false) (hm : ∀ j, marked j = false)
    (l : List SlotId) (s : State) : slotsLeft freed marked l s = s := by
  obtain rfl : freed = fun _ => false := funext hf
  obtain rfl : marked = fun _ => false := funext hm
  exact withSlots_congr (u := s.slots) (b := s.ageOrder) (n := s.masters) (x := s.windows)
    (fun i => by simp [slotLeft]) (by simp) (fun m => by simp) (fun w => by simp)

theorem withdrawLockedSlot_eq (o : Option SlotId) (s : State) :
    withdrawLockedSlot o s = slotsWithdrawn (fun i => o = some i) s := by
  rw [slotsWithdrawn_eq]
  cases o with
  | none => exact (slotsLeft_none (fun j => by simp [freedBy]) (fun j => by simp) _ s).symm
  | some i =>
    rw [← slotsLeft_single i (fun j hj => ?_) (fun j hj => ?_), ← slotTurn_eq]
    · exact withdrawSlot_turn (by simp [freedBy]) (by simp)
    · simp only [freedBy, Bool.and_eq_true, decide_eq_true_eq] at hj
      exact (Option.some.inj hj.1.1).symm
    · simp only [Bool.and_eq_true, decide_eq_true_eq] at hj
      exact (Option.some.inj hj.1).symm

theorem markedVoid_eq (e : Entry) : markedVoid e = voided e := by
  cases e with
  | control c => rfl
  | data d =>
    obtain ⟨m, w, n, a, u, b, p, q, v⟩ := d
    cases q <;> cases v <;> rfl

theorem voidable_iff (e : Entry) : voidable e = true ↔ voided e ≠ e := by
  cases e with
  | control c => simp [voidable, voided]
  | data d =>
    obtain ⟨m, w, n, a, u, b, p, q, v⟩ := d
    cases q <;> cases v <;> simp [voidable, voided]

theorem notBegun_eq (s : State) : notBegun s = s.pwq.entries.drop (if inDrain s then 1 else 0) := by
  unfold notBegun
  cases inDrain s <;> rfl

theorem voidCount_eq (s : State) :
    voidCount s = (s.pwq.entries.drop (if inDrain s then 1 else 0)).countP fun e => voided e ≠ e := by
  rw [voidCount, notBegun_eq]
  exact List.countP_congr fun e _ => by rw [voidable_iff]; simp

theorem markVoid_eq (s : State) : markVoid s =
    { s with pwq.entries := s.pwq.entries.take (if inDrain s then 1 else 0) ++
        (s.pwq.entries.drop (if inDrain s then 1 else 0)).map voided } := by
  have h : markedVoid = voided := funext markedVoid_eq
  rw [markVoid, notBegun_eq, h]
  cases inDrain s <;> rfl

theorem holdDropped_pwq (s : State) : (holdDropped s).pwq = s.pwq := by unfold holdDropped; split <;> rfl

theorem holdDropped_cbc (s : State) : (holdDropped s).cbc = s.cbc := by unfold holdDropped; split <;> rfl

/-- The hold on the card bus goes with the lock that is OWNED (R84, step 2). -/
theorem releaseHold_clearLock {s : State} (h : LockHoldsBus s) :
    (if s.lock.state = .owned then releaseHold (clearLock s) else clearLock s) = clearLock (holdDropped s) := by
  have hr : releaseHold (clearLock s) = clearLock (holdDropped s) := by
    unfold releaseHold holdDropped
    rw [clearLock_arb]
    by_cases hl : s.arb.lockHold = true
    · rw [if_pos hl, if_pos hl]; rfl
    · rw [if_neg hl, if_neg hl]
  by_cases ho : s.lock.state = .owned
  · rw [if_pos ho, hr]
  · rw [if_neg ho, holdDropped, if_neg fun hl => ho (h.1.1 hl)]

theorem breakCode_eq_four (c : BreakCause) : breakCode c = 4 ↔ c = .reset := by cases c <;> decide

theorem slotsWithdrawn_cbc (p : SlotId → Bool) (s : State) : (slotsWithdrawn p s).cbc = s.cbc := by
  simp only [slotsWithdrawn]
theorem slotsWithdrawn_pwq (p : SlotId → Bool) (s : State) : (slotsWithdrawn p s).pwq = s.pwq := by
  simp only [slotsWithdrawn]
theorem slotsWithdrawn_arb (p : SlotId → Bool) (s : State) : (slotsWithdrawn p s).arb = s.arb := by
  simp only [slotsWithdrawn]

theorem slotsWithdrawn_clearLock (p : SlotId → Bool) (s : State) :
    slotsWithdrawn p (clearLock s) = clearLock (slotsWithdrawn p s) := by
  have hf : freedBy p (clearLock s) = freedBy p s := funext fun _ => by unfold freedBy; rw [clearLock_slots]
  rw [slotsWithdrawn_eq, slotsWithdrawn_eq, hf]
  simp only [clearLock_slots]
  rfl

/-- What is left of a break once its lock has gone and the slot it named is withdrawn (R84, steps 4 to 6). -/
theorem breakDone_of_withdrawn (c : BreakCause) {s x : State} (hq : x.pwq = s.pwq)
    (ha : x.cbc.access = s.cbc.access) :
    offerReport (lockBrokenBody c s.lock (voidCount (slotsWithdrawn (fun i => s.lock.slot = some i) (clearLock x))))
        (noteBreak c s.lock (markVoid (slotsWithdrawn (fun i => s.lock.slot = some i) (clearLock x)))) =
      breakDone (breakCode c) s x := by
  unfold breakDone
  rw [slotsWithdrawn_clearLock]
  have hy : (slotsWithdrawn (fun i => s.lock.slot = some i) x).pwq = s.pwq := by rw [slotsWithdrawn_pwq, hq]
  have hd : inDrain (clearLock (slotsWithdrawn (fun i => s.lock.slot = some i) x)) = inDrain s :=
    inDrain_of_eq (by rw [clearLock_cbc, slotsWithdrawn_cbc, ha])
  generalize slotsWithdrawn (fun i => s.lock.slot = some i) x = y at hy hd
  rw [offerReport_eq_offered, voidCount_eq, markVoid_eq, hd, clearLock_pwq, hy, ← hy]
  dsimp only
  congr 1
  rw [noteBreak]
  cases s.lock.owner with
  | none => rfl
  | some m =>
    by_cases hc : c = .reset
    · simp only [if_pos hc, if_pos ((breakCode_eq_four c).2 hc)]
      rfl
    · simp only [if_neg hc, if_neg ((breakCode_eq_four c).not.2 hc)]
      rfl

/-- A break does to a standing lock what the statements say, where the hold on the card bus is the lock's (R84). -/
theorem breakLock_eq (c : BreakCause) {s : State} (h : LockHoldsBus s) :
    breakLock c s = lockBrokenInTenure (breakCode c) s := by
  unfold breakLock lockBrokenInTenure
  by_cases hf : s.lock.state = .free
  · rw [if_neg (by simp [lockStands, hf]), if_pos hf]
  · rw [if_pos (by simpa [lockStands] using hf), if_neg hf]
    dsimp only
    rw [releaseHold_clearLock h, withdrawLockedSlot_eq]
    exact breakDone_of_withdrawn c (holdDropped_pwq s) (congrArg _ (holdDropped_cbc s))

/-! ### What a break leaves -/

@[simp] theorem offered_slots (b : ReportBody) (s : State) : (offered b s).slots = s.slots := by
  rw [← offerReport_eq_offered]; simp

@[simp] theorem offered_masters (b : ReportBody) (s : State) : (offered b s).masters = s.masters := by
  rw [← offerReport_eq_offered]; simp

@[simp] theorem offered_windows_eq (b : ReportBody) (s : State) : (offered b s).windows = s.windows := by
  rw [← offerReport_eq_offered]; simp

@[simp] theorem offered_pwq (b : ReportBody) (s : State) : (offered b s).pwq = s.pwq := by
  rw [← offerReport_eq_offered]; simp

@[simp] theorem offered_cbc (b : ReportBody) (s : State) : (offered b s).cbc = s.cbc := by
  rw [← offerReport_eq_offered]; simp

@[simp] theorem offered_arb (b : ReportBody) (s : State) : (offered b s).arb = s.arb := by
  rw [← offerReport_eq_offered]; simp

/-- The lock is broken where `stands` says that it is to be. -/
def brokenWhere (stands : Bool) (code : Nat) (x : State) : State := if stands then lockBrokenInTenure code x else x

/-- The tables and the head of the queue after the withdrawal of the slots in `p` by a break. -/
structure TablesAfter (p : SlotId → Bool) (x y : State) : Prop where
  slots : ∀ i : SlotId, y.slots[i] = slotLeft (freedBy p x i) (p i && x.slots[i].state = .fetching) x.slots[i]
  refs : ∀ w : WindowId, y.windows[w].refCount =
    x.windows[w].refCount - (List.finRange 8).countP fun i => freedBy p x i && x.slots[i].window = w
  states : ∀ w : WindowId, y.windows[w].state = x.windows[w].state
  reads : ∀ m : MasterId, y.masters[m].outReads =
    x.masters[m].outReads - (List.finRange 8).countP fun i => freedBy p x i && x.slots[i].key.master = m
  writes : ∀ m : MasterId, y.masters[m].outWrites = x.masters[m].outWrites

theorem slotsWithdrawn_tables (p : SlotId → Bool) (x : State) : TablesAfter p x (slotsWithdrawn p x) where
  slots i := by rw [slotsWithdrawn_eq, slotsLeft_slots]; simp
  refs w := by simp only [slotsWithdrawn, ofFn_get]
  states w := by simp only [slotsWithdrawn, ofFn_get]
  reads m := by simp only [slotsWithdrawn, ofFn_get]
  writes m := by simp only [slotsWithdrawn, ofFn_get]

theorem slotsWithdrawn_none (s : State) : slotsWithdrawn (fun _ => false) s = s := by
  rw [slotsWithdrawn_eq]
  exact slotsLeft_none (fun _ => by simp [freedBy]) (fun _ => by simp) _ s

/-- The tables after a withdrawal, in a state that differs from it in other fields. -/
theorem TablesAfter.congr {p : SlotId → Bool} {x y z : State} (h : TablesAfter p x y) (hs : z.slots = y.slots)
    (hw : z.windows = y.windows) (hr : ∀ m : MasterId, z.masters[m].outReads = y.masters[m].outReads)
    (ho : ∀ m : MasterId, z.masters[m].outWrites = y.masters[m].outWrites) : TablesAfter p x z where
  slots i := by rw [hs]; exact h.slots i
  refs w := by rw [hw]; exact h.refs w
  states w := by rw [hw]; exact h.states w
  reads m := (hr m).trans (h.reads m)
  writes m := (ho m).trans (h.writes m)

theorem breakDone_tables (code : Nat) (s x : State) : TablesAfter (fun i => s.lock.slot = some i) x (breakDone code s x) := by
  unfold breakDone
  have h := slotsWithdrawn_tables (fun i => s.lock.slot = some i) x
  generalize slotsWithdrawn (fun i => s.lock.slot = some i) x = y at h
  refine h.congr (by simp) (by simp) (fun m => ?_) fun m => ?_
  all_goals
    rw [offered_masters]
    dsimp only
    split
    · split
      · rfl
      · rw [modAt_get]; split <;> rfl
    · rfl

theorem breakDone_entries (code : Nat) (s x : State) : (breakDone code s x).pwq.entries =
    s.pwq.entries.take (if inDrain s then 1 else 0) ++ (s.pwq.entries.drop (if inDrain s then 1 else 0)).map voided := by
  rw [breakDone, offered_pwq]

theorem breakDone_arb (code : Nat) (s x : State) : (breakDone code s x).arb = x.arb := by
  rw [breakDone, offered_arb, slotsWithdrawn_arb]

theorem breakDone_cbc (code : Nat) (s x : State) : (breakDone code s x).cbc = x.cbc := by
  rw [breakDone, offered_cbc, slotsWithdrawn_cbc]

theorem brokenWhere_tables (stands : Bool) (code : Nat) {x : State} (h : stands = true → x.lock.state ≠ .free) :
    TablesAfter (fun i => stands && x.lock.slot = some i) x (brokenWhere stands code x) := by
  unfold brokenWhere
  cases stands with
  | false =>
    have := slotsWithdrawn_tables (fun _ => false) x
    rw [slotsWithdrawn_none] at this
    exact this
  | true =>
    rw [if_pos rfl, lockBrokenInTenure, if_neg (h rfl)]
    have hb := breakDone_tables code x (holdDropped x)
    have hs : (holdDropped x).slots = x.slots := by unfold holdDropped; split <;> rfl
    have hw : (holdDropped x).windows = x.windows := by unfold holdDropped; split <;> rfl
    have hm : (holdDropped x).masters = x.masters := by unfold holdDropped; split <;> rfl
    obtain ⟨h1, h2, h3, h4, h5⟩ := hb
    simp only [freedBy, hs, hw, hm] at h1 h2 h3 h4 h5
    exact ⟨h1, h2, h3, h4, h5⟩

theorem brokenWhere_arb (stands : Bool) (code : Nat) {x : State} (h : stands = true → x.lock.state ≠ .free) :
    (brokenWhere stands code x).arb = if stands then (holdDropped x).arb else x.arb := by
  unfold brokenWhere
  cases stands with
  | false => rfl
  | true => rw [if_pos rfl, if_pos rfl, lockBrokenInTenure, if_neg (h rfl), breakDone_arb]

theorem brokenWhere_cbc (stands : Bool) (code : Nat) (x : State) : (brokenWhere stands code x).cbc = x.cbc := by
  unfold brokenWhere lockBrokenInTenure
  split
  · split
    · rfl
    · rw [breakDone_cbc, holdDropped_cbc]
  · rfl

/-- A record at the head stays there, whether or not the head is in drain; what stands behind it is void where it belongs
to the lock's sequence. -/
theorem brokenWhere_entries (stands : Bool) (code : Nat) {x : State} {c : ControlEntry} {rest : List Entry}
    (h : stands = true → x.lock.state ≠ .free) (he : x.pwq.entries = .control c :: rest) :
    (brokenWhere stands code x).pwq.entries = .control c :: if stands then rest.map voided else rest := by
  unfold brokenWhere
  cases stands with
  | false => exact he
  | true =>
    rw [if_pos rfl, if_pos rfl, lockBrokenInTenure, if_neg (h rfl), breakDone_entries, he]
    cases inDrain x <;> rfl

/-! ### The work withdrawn after a break -/

theorem countP_disjoint {α : Type} (l : List α) {p q r : α → Bool} (h : ∀ a, p a = (q a || r a))
    (hd : ∀ a, q a = true → r a = false) : l.countP p = l.countP q + l.countP r := by
  induction l with
  | nil => rfl
  | cons a l ih =>
    rw [List.countP_cons, List.countP_cons, List.countP_cons, ih, h a]
    cases hq : q a with
    | true => rw [hd a hq]; simp; omega
    | false => cases r a <;> simp; omega

/-- Where every slot that a break withdraws is one of those picked by `k`, the break and the withdrawal of the slots picked
free each of them once (R66, R67). -/
theorem countP_freed {p : SlotId → Bool} {x y : State} (h : TablesAfter p x y) (k : Slot → Bool)
    (hk : ∀ e b, k { e with releaseMark := b } = k e) (hp : ∀ i, p i = true → k x.slots[i] = true) :
    ((List.finRange 8).countP fun i => x.slots[i].state ≠ .free ∧ x.slots[i].state ≠ .fetching ∧ k x.slots[i] = true) =
      ((List.finRange 8).countP fun i => freedBy p x i && k x.slots[i]) +
      (List.finRange 8).countP fun i =>
        freedBy (fun i => y.slots[i].state ≠ .free ∧ k y.slots[i] = true) y i && k y.slots[i] := by
  refine countP_disjoint _ (fun i => ?_) fun i hi => ?_
  · have hy := h.slots i
    cases hf : freedBy p x i with
    | true =>
      rw [hf] at hy
      simp only [freedBy, Bool.and_eq_true, decide_eq_true_eq] at hf
      obtain ⟨⟨hpi, hfree⟩, hfetch⟩ := hf
      simp only [Fin.getElem_fin] at *
      simp [hfree, hfetch, hp i hpi]
    | false =>
      have hsame : y.slots[i].state = x.slots[i].state ∧ k y.slots[i] = k x.slots[i] := by
        rw [hy, hf]
        unfold slotLeft
        split
        · next hfalse => cases hfalse
        · split
          · exact ⟨rfl, hk _ _⟩
          · exact ⟨rfl, rfl⟩
      simp only [freedBy, hsame.1, hsame.2]
      generalize x.slots[i].state = state
      generalize k x.slots[i] = picked
      cases picked <;> simp
  · have hfree : y.slots[i].state = .free := by
      rw [Bool.and_eq_true] at hi
      rw [h.slots i, hi.1]
      rfl
    simp only [freedBy, hfree]
    simp

theorem withdrawn_refs {p : SlotId → Bool} {x y : State} (h : TablesAfter p x y) (w : WindowId)
    (hp : ∀ i, p i = true → x.slots[i].window = w) :
    (slotsWithdrawn (fun i => y.slots[i].state ≠ .free ∧ y.slots[i].window = w) y).windows[w].refCount =
      x.windows[w].refCount - (List.finRange 8).countP fun i =>
        x.slots[i].state ≠ .free ∧ x.slots[i].state ≠ .fetching ∧ x.slots[i].window = w := by
  have hc := countP_freed h (fun e => e.window = w) (fun _ _ => rfl) fun i hi => decide_eq_true (hp i hi)
  simp only [decide_eq_true_eq] at hc
  rw [(slotsWithdrawn_tables _ y).refs, h.refs, Nat.sub_sub, hc]

theorem withdrawn_reads {p : SlotId → Bool} {x y : State} (h : TablesAfter p x y) (m : MasterId)
    (hp : ∀ i, p i = true → x.slots[i].key.master = m) :
    (slotsWithdrawn (fun i => y.slots[i].state ≠ .free ∧ y.slots[i].key.master = m) y).masters[m].outReads =
      x.masters[m].outReads - (List.finRange 8).countP fun i =>
        x.slots[i].state ≠ .free ∧ x.slots[i].state ≠ .fetching ∧ x.slots[i].key.master = m := by
  have hc := countP_freed h (fun e => e.key.master = m) (fun _ _ => rfl) fun i hi => decide_eq_true (hp i hi)
  simp only [decide_eq_true_eq] at hc
  rw [(slotsWithdrawn_tables _ y).reads, h.reads, Nat.sub_sub, hc]

theorem freedCount_eq (p : Slot → Bool) (s : State) : freedCount p s =
    (List.finRange 8).countP fun i => p s.slots[i] && s.slots[i].state != .fetching := countTable_eq _ _

theorem markedCount_eq (p : Slot → Bool) (s : State) : markedCount p s =
    (List.finRange 8).countP fun i => p s.slots[i] && s.slots[i].state = .fetching := countTable_eq _ _

/-! ### The end of an execution that breaks a lock -/

theorem quiesceEnded_windowsFreed_bus (s : State) : (quiesceEnded (windowsFreed s)).arb = s.arb ∧
    (quiesceEnded (windowsFreed s)).cbc = s.cbc ∧ (quiesceEnded (windowsFreed s)).pwq = s.pwq := by
  have ha := freeDrainedWindows_alone s
  rw [← testQuiesce_eq, ← freeDrainedWindows_eq, testQuiesce_arb, testQuiesce_cbc, testQuiesce_pwq]
  exact ⟨ha.arb, ha.cbc, ha.pwq⟩

/-- A command that breaks the lock where `stands` says so: a tenure that the gate held idle under the lock ends after the
record has left the head, and in every other case the event goes on from its RESULT (R126, R131). -/
theorem executeHead_breaks {cmd : Command} {act : ControlEntry → State → Execution} {c : ControlEntry} {rest : List Entry}
    {s x v : State} {stands : Bool} {code detail : Nat} (h : AtHead cmd c rest s) (hb : LockHoldsBus s) (ht : TenureLegal s)
    (hx : x.lock = s.lock ∧ x.arb = s.arb ∧ x.cbc = s.cbc ∧ x.pwq = s.pwq) (hst : stands = true → s.lock.state ≠ .free)
    (hv : v.arb = (brokenWhere stands code x).arb ∧ v.cbc = (brokenWhere stands code x).cbc ∧
      v.pwq = (brokenWhere stands code x).pwq)
    (ha : act c s = ⟨.ok, detail, quiesceEnded (windowsFreed v)⟩) :
    (stands = true ∧ s.lock.state = .owned ∧ s.cbc.access = none →
      AccessEndsTo (afterResult c (if stands then rest.map voided else rest) .ok detail (quiesceEnded (windowsFreed v)))
        (executeHead cmd act s)) ∧
    (¬(stands = true ∧ s.lock.state = .owned ∧ s.cbc.access = none) →
      SettlesTo (afterResult c (if stands then rest.map voided else rest) .ok detail (quiesceEnded (windowsFreed v)))
        (executeHead cmd act s)) := by
  obtain ⟨hxl, hxa, hxc, hxq⟩ := hx
  have hst' : stands = true → x.lock.state ≠ .free := by rwa [hxl]
  obtain ⟨hva, hvc, hvq⟩ := hv
  obtain ⟨hqa, hqc, hqq⟩ := quiesceEnded_windowsFreed_bus v
  rw [hva, brokenWhere_arb stands code hst'] at hqa
  rw [hvc, brokenWhere_cbc, hxc] at hqc
  rw [hvq] at hqq
  rw [executeHead_atHead h ha (by rw [hqq]; exact brokenWhere_entries stands code hst' (by rw [hxq]; exact h.entries))]
  generalize quiesceEnded (windowsFreed v) = u at hqa hqc
  constructor
  · rintro ⟨hs, ho, hacc⟩
    have hl : s.arb.lockHold = true := hb.1.2 ho
    rw [if_pos hs, holdDropped, if_pos (by rw [hxa]; exact hl)] at hqa
    rw [hl]
    refine settle_idleTenureEnds _ (by exact congrArg Arbiter.lockHold hqa) ?_ ?_ (.inl (congrArg Arbiter.state hqa))
    · exact (congrArg Controller.access hqc).trans hacc
    · exact (congrArg Controller.tenure hqc).trans (ht.1.2 (.inr (hb.2.1.1 hl)))
  · intro hn
    refine settle_noIdleTenure _ _ ?_
    cases hl : s.arb.lockHold with
    | false => exact .inl rfl
    | true =>
      have ho := hb.1.1 hl
      cases hs : stands with
      | true =>
        refine .inr (.inr ?_)
        have hacc : s.cbc.access ≠ none := fun hacc => hn ⟨hs, ho, hacc⟩
        exact (congrArg (fun q : Controller => q.access.isSome) hqc).trans (Option.isSome_iff_ne_none.2 hacc)
      | false =>
        rw [hs, if_neg nofun, hxa] at hqa
        exact .inr (.inl ((congrArg Arbiter.lockHold hqa).trans hl))

/-! ### RETIRE WINDOW -/

theorem bne_eq_not_decide {α : Type} [DecidableEq α] (a b : α) : (a != b) = !decide (a = b) := rfl

/-- The state in which the lock that stands on a window to be retired is broken (R17, step 2). -/
def retireBroken (w : WindowId) (tag : Tag) (s : State) : State :=
  brokenWhere (s.lock.state ≠ .free ∧ s.lock.window = some w) 1 (drainWindow w tag s)

/-- The state in which the slots that name it are withdrawn then (R17, step 3). -/
def retireWithdrawn (w : WindowId) (tag : Tag) (s : State) : State :=
  slotsWithdrawn (fun i => (retireBroken w tag s).slots[i].state ≠ .free ∧ (retireBroken w tag s).slots[i].window = w)
    (retireBroken w tag s)

/-- The slots that name the window and can be freed at once (R67). -/
def retireFreed (w : WindowId) (s : State) : Nat :=
  (List.finRange 8).countP fun i => s.slots[i].state ≠ .free ∧ s.slots[i].state ≠ .fetching ∧ s.slots[i].window = w

theorem retireLive_eq {s : State} (w : WindowId) (tag : Tag) (hb : LockHoldsBus s) :
    retireLive w tag s = freeAtOnce w (retireWithdrawn w tag s) := by
  have hbreak : breakIfOnWindow w (drainWindow w tag s) = retireBroken w tag s := by
    unfold breakIfOnWindow retireBroken brokenWhere
    have hl : lockedWindow (drainWindow w tag s) w = decide (s.lock.state ≠ .free ∧ s.lock.window = some w) := by
      rw [Bool.decide_and, decide_not]
      rfl
    rw [hl, breakLock_eq .retired (s := drainWindow w tag s) hb]
    rfl
  rw [retireLive, hbreak, withdrawSlots_eq, retireWithdrawn]
  refine congrArg (freeAtOnce w) (congrArg (slotsWithdrawn · _) (funext fun i => ?_))
  simp [slotNames, bne_eq_not_decide]

theorem retireBroken_tables (w : WindowId) (tag : Tag) (s : State) :
    TablesAfter (fun i => decide (s.lock.state ≠ .free ∧ s.lock.window = some w) && s.lock.slot = some i)
      (drainWindow w tag s) (retireBroken w tag s) :=
  brokenWhere_tables (x := drainWindow w tag s) _ 1 fun h => (of_decide_eq_true h).1

theorem retireWithdrawn_refCount {s : State} (w : WindowId) (tag : Tag) (hn : LockNamesSlot s) :
    (retireWithdrawn w tag s).windows[w].refCount = s.windows[w].refCount - retireFreed w s := by
  refine (withdrawn_refs (retireBroken_tables w tag s) w fun i hi => ?_).trans ?_
  · simp only [Bool.and_eq_true, decide_eq_true_eq] at hi
    obtain ⟨⟨-, hl⟩, hi⟩ := hi
    obtain ⟨-, -, hwin, -⟩ := hn i hi
    exact (Option.some.inj (hl.symm.trans hwin)).symm
  · exact congrArg (· - retireFreed w s) (modAt_get_proj s.windows w w _ Window.refCount fun _ => rfl)

theorem retireWithdrawn_draining (w : WindowId) (tag : Tag) (s : State) :
    (retireWithdrawn w tag s).windows[w].state = .draining := by
  rw [retireWithdrawn, (slotsWithdrawn_tables _ _).states, (retireBroken_tables w tag s).states]
  exact congrArg Window.state (modAt_get_self s.windows w _)

theorem freedCount_slotNames (w : WindowId) (s : State) : freedCount (slotNames w) s =
    (List.finRange 8).countP fun i =>
      s.slots[i].state ≠ .free ∧ s.slots[i].state ≠ .fetching ∧ s.slots[i].window = w := by
  rw [freedCount_eq]
  exact List.countP_congr fun i _ => by simp [slotNames, and_assoc, and_comm, and_left_comm]

theorem markedCount_slotNames (w : WindowId) (s : State) : markedCount (slotNames w) s =
    (List.finRange 8).countP fun i => s.slots[i].state = .fetching ∧ s.slots[i].window = w := by
  rw [markedCount_eq]
  refine List.countP_congr fun i _ => ?_
  have hne : s.slots[i].state = .fetching → s.slots[i].state ≠ .free := fun h => by rw [h]; nofun
  simp only [Fin.getElem_fin] at *
  simp only [slotNames, Bool.and_eq_true, bne_iff_ne, decide_eq_true_eq]
  constructor
  · rintro ⟨⟨-, hw⟩, hf⟩; exact ⟨hf, hw⟩
  · rintro ⟨hf, hw⟩; exact ⟨⟨hne hf, hw⟩, hf⟩

/-- The bit of the detail that says whether the window became FREE, where its count says so (R153). -/
theorem freeAtOnce_bit {w : WindowId} {s : State} (h : s.windows[w].state = .draining) :
    2 ^ 8 * bit ((freeAtOnce w s).windows[w].state = .free) = if s.windows[w].refCount = 0 then 256 else 0 := by
  unfold freeAtOnce
  by_cases hr : s.windows[w].refCount = 0
  · rw [if_pos hr, if_pos hr, modAt_get_self]
    rfl
  · rw [if_neg hr, if_neg hr, h]
    rfl

theorem freeAtOnce_bus (w : WindowId) (s : State) :
    (freeAtOnce w s).arb = s.arb ∧ (freeAtOnce w s).cbc = s.cbc ∧ (freeAtOnce w s).pwq = s.pwq := by
  unfold freeAtOnce
  split <;> exact ⟨rfl, rfl, rfl⟩

theorem retireWithdrawn_bus (w : WindowId) (tag : Tag) (s : State) :
    (retireWithdrawn w tag s).arb = (retireBroken w tag s).arb ∧
    (retireWithdrawn w tag s).cbc = (retireBroken w tag s).cbc ∧
    (retireWithdrawn w tag s).pwq = (retireBroken w tag s).pwq := by
  unfold retireWithdrawn
  exact ⟨slotsWithdrawn_arb _ _, slotsWithdrawn_cbc _ _, slotsWithdrawn_pwq _ _⟩

theorem retired_bus (w : WindowId) (tag : Tag) (s : State) :
    (freeAtOnce w (retireWithdrawn w tag s)).arb = (retireBroken w tag s).arb ∧
    (freeAtOnce w (retireWithdrawn w tag s)).cbc = (retireBroken w tag s).cbc ∧
    (freeAtOnce w (retireWithdrawn w tag s)).pwq = (retireBroken w tag s).pwq := by
  obtain ⟨h1, h2, h3⟩ := freeAtOnce_bus w (retireWithdrawn w tag s)
  obtain ⟨k1, k2, k3⟩ := retireWithdrawn_bus w tag s
  exact ⟨h1.trans k1, h2.trans k2, h3.trans k3⟩

theorem freeAtOnce_refCount (w : WindowId) (s : State) : (freeAtOnce w s).windows[w].refCount = s.windows[w].refCount := by
  unfold freeAtOnce
  split
  · rw [modAt_get_self]; rfl
  · rfl

theorem doRetireWindow_live {c : ControlEntry} {s : State} {w : WindowId} (ho : operandWindow c = some w)
    (hlive : s.windows[w].state = .live) (hb : LockHoldsBus s) (hn : LockNamesSlot s) : doRetireWindow c s =
      ⟨.ok, retireFreed w s +
          16 * ((List.finRange 8).countP fun i => s.slots[i].state = .fetching ∧ s.slots[i].window = w) +
          (if s.windows[w].refCount - retireFreed w s = 0 then 256 else 0),
        quiesceEnded (windowsFreed (freeAtOnce w (retireWithdrawn w c.tag s)))⟩ := by
  simp only [doRetireWindow, ho]
  rw [if_pos hlive, retireLive_eq w c.tag hb, testQuiesce_eq, freeDrainedWindows_eq, freedCount_slotNames,
    markedCount_slotNames, freeAtOnce_bit (retireWithdrawn_draining w c.tag s), retireWithdrawn_refCount w c.tag hn]
  rfl

/-- Settles O35: the break and the withdrawal free each slot that names the window once, so the window is FREE at once
exactly where nothing else names it. -/
theorem retireWindowDrainsOrFrees : Obligations.RetireWindowDrainsOrFrees := by
  intro s c rest a w hx hc hw
  have ho : operandWindow c = some w := operandWindow_some (by rw [operand, hc, field_eq]; exact hw)
  constructor
  · intro hlive hn hb ht
    have hends := executeHead_breaks (x := drainWindow w c.tag s)
      (stands := decide (s.lock.state ≠ .free ∧ s.lock.window = some w)) (code := 1) hx hb ht ⟨rfl, rfl, rfl, rfl⟩
      (fun h => (of_decide_eq_true h).1) (retired_bus w c.tag s) (doRetireWindow_live ho hlive hb hn)
    have href := freeAtOnce_refCount w (retireWithdrawn w c.tag s)
    rw [retireWithdrawn_refCount w c.tag hn] at href
    unfold freeAtOnce at hends href
    rw [retireWithdrawn_refCount w c.tag hn] at hends href
    exact ⟨_, rfl, hends.1, hends.2, href⟩
  · intro hlive
    refine ⟨_, rfl, executeHead_unchanged hx ?_⟩
    simp only [doRetireWindow, ho]
    exact if_neg hlive

/-! ### SET MASTER -/

theorem operandMaster_some {c : ControlEntry} {m : MasterId} (h : field (operand c 1) 0 8 = m.val) :
    operandMaster c = some m := by
  unfold operandMaster
  rw [dif_pos (by rw [h]; exact m.isLt)]
  exact congrArg some (Fin.ext h)

theorem admissionCode_eq (x : Admission) : admissionCode x = if x = .barred then 1 else 0 := by cases x <;> rfl

/-- The state in which the record has been written (R104). -/
def masterWritten (o : MasterOperands) (s : State) : State :=
  { s with masters := modAt s.masters o.master (writtenMaster o) }

/-- The state in which the lock that a barred master owns is broken then (R105). -/
def barredBroken (o : MasterOperands) (s : State) : State :=
  brokenWhere (s.lock.state ≠ .free ∧ s.lock.owner = some o.master) 3 (masterWritten o s)

/-- The state in which the slots of the barred master are withdrawn then (R105). -/
def barredWithdrawn (o : MasterOperands) (s : State) : State :=
  slotsWithdrawn
    (fun i => (barredBroken o s).slots[i].state ≠ .free ∧ (barredBroken o s).slots[i].key.master = o.master)
    (barredBroken o s)

theorem withdrawMaster_eq {o : MasterOperands} {s : State} (hb : LockHoldsBus s) :
    withdrawMaster o.master (masterWritten o s) = barredWithdrawn o s := by
  have hbreak : breakIfOwner o.master (masterWritten o s) = barredBroken o s := by
    unfold breakIfOwner barredBroken brokenWhere
    have hl : (lockStands (masterWritten o s) && decide ((masterWritten o s).lock.owner = some o.master)) =
        decide (s.lock.state ≠ .free ∧ s.lock.owner = some o.master) := by
      rw [Bool.decide_and, decide_not]
      rfl
    rw [hl, breakLock_eq .master (s := masterWritten o s) hb]
    rfl
  rw [withdrawMaster, hbreak, withdrawSlots_eq, barredWithdrawn]
  refine congrArg (slotsWithdrawn · _) (funext fun i => ?_)
  simp [slotOf, bne_eq_not_decide]

theorem barredBroken_tables (o : MasterOperands) (s : State) :
    TablesAfter (fun i => decide (s.lock.state ≠ .free ∧ s.lock.owner = some o.master) && s.lock.slot = some i)
      (masterWritten o s) (barredBroken o s) :=
  brokenWhere_tables (x := masterWritten o s) _ 3 fun h => (of_decide_eq_true h).1

theorem barredWithdrawn_reads {s : State} (o : MasterOperands) (hn : LockNamesSlot s) :
    (barredWithdrawn o s).masters[o.master].outReads = s.masters[o.master].outReads -
      (List.finRange 8).countP fun i =>
        s.slots[i].state ≠ .free ∧ s.slots[i].state ≠ .fetching ∧ s.slots[i].key.master = o.master := by
  refine (withdrawn_reads (barredBroken_tables o s) o.master fun i hi => ?_).trans ?_
  · simp only [Bool.and_eq_true, decide_eq_true_eq] at hi
    obtain ⟨⟨-, hl⟩, hi⟩ := hi
    obtain ⟨-, howner, -⟩ := hn i hi
    exact (Option.some.inj (hl.symm.trans howner)).symm
  · exact congrArg (· - _) (modAt_get_proj s.masters o.master o.master _ Master.outReads fun _ => rfl)

theorem barredWithdrawn_writes (o : MasterOperands) (s : State) :
    (barredWithdrawn o s).masters[o.master].outWrites = s.masters[o.master].outWrites := by
  rw [barredWithdrawn, (slotsWithdrawn_tables _ _).writes, (barredBroken_tables o s).writes]
  exact modAt_get_proj s.masters o.master o.master _ Master.outWrites fun _ => rfl

theorem barredWithdrawn_bus (o : MasterOperands) (s : State) :
    (barredWithdrawn o s).arb = (barredBroken o s).arb ∧ (barredWithdrawn o s).cbc = (barredBroken o s).cbc ∧
    (barredWithdrawn o s).pwq = (barredBroken o s).pwq := by
  unfold barredWithdrawn
  exact ⟨slotsWithdrawn_arb _ _, slotsWithdrawn_cbc _ _, slotsWithdrawn_pwq _ _⟩

theorem freedCount_slotOf (m : MasterId) (s : State) : freedCount (slotOf m) s =
    (List.finRange 8).countP fun i =>
      s.slots[i].state ≠ .free ∧ s.slots[i].state ≠ .fetching ∧ s.slots[i].key.master = m := by
  rw [freedCount_eq]
  exact List.countP_congr fun i _ => by simp [slotOf, and_assoc, and_comm, and_left_comm]

theorem markedCount_slotOf (m : MasterId) (s : State) : markedCount (slotOf m) s =
    (List.finRange 8).countP fun i => s.slots[i].state = .fetching ∧ s.slots[i].key.master = m := by
  rw [markedCount_eq]
  refine List.countP_congr fun i _ => ?_
  have hne : s.slots[i].state = .fetching → s.slots[i].state ≠ .free := fun h => by rw [h]; nofun
  simp only [Fin.getElem_fin] at *
  simp only [slotOf, Bool.and_eq_true, bne_iff_ne, decide_eq_true_eq]
  constructor
  · rintro ⟨⟨-, hm⟩, hf⟩; exact ⟨hf, hm⟩
  · rintro ⟨hf, hm⟩; exact ⟨⟨hne hf, hm⟩, hf⟩

theorem doSetMaster_opened {c : ControlEntry} {s : State} {o : MasterOperands} (ho : masterOperands c = some o)
    (ha : o.admission = .opened) : doSetMaster c s =
      ⟨.ok, o.master.val + 256 * (if s.masters[o.master].admission = .barred then 1 else 0), masterWritten o s⟩ := by
  simp only [doSetMaster, ho, ha]
  rw [admissionCode_eq]
  rfl

theorem doSetMaster_barred {c : ControlEntry} {s : State} {o : MasterOperands} (ho : masterOperands c = some o)
    (ha : o.admission = .barred) (hb : LockHoldsBus s) : doSetMaster c s =
      ⟨.ok, o.master.val + 256 * (if s.masters[o.master].admission = .barred then 1 else 0) +
          65536 * ((List.finRange 8).countP fun i =>
            s.slots[i].state ≠ .free ∧ s.slots[i].state ≠ .fetching ∧ s.slots[i].key.master = o.master) +
          1048576 * ((List.finRange 8).countP fun i => s.slots[i].state = .fetching ∧ s.slots[i].key.master = o.master),
        quiesceEnded (windowsFreed (barredWithdrawn o s))⟩ := by
  simp only [doSetMaster, ho, ha]
  rw [admissionCode_eq, freedCount_slotOf, markedCount_slotOf, testQuiesce_eq, freeDrainedWindows_eq, ← withdrawMaster_eq hb]
  rfl

/-- Settles O37: what RETIRE WINDOW does to the slots and the lock of a window, SET MASTER does to those of a barred
master. -/
theorem setMasterWritesTheRecord : Obligations.SetMasterWritesTheRecord := by
  intro s c rest a b m hx hc hm hcredit hread
  have h1 : operand c 1 = a := by rw [operand, hc]; rfl
  have h2 : operand c 2 = b := by rw [operand, hc]; rfl
  have ho (admission : Admission) (hadm : admissionOfCode (a.extractLsb' 8 2).toNat = some admission) :
      masterOperands c = some ⟨m, admission, a.getLsbD 10, (b.extractLsb' 0 8).toNat, (b.extractLsb' 8 8).toNat,
        (b.extractLsb' 16 8).toNat⟩ := by
    unfold masterOperands
    rw [operandMaster_some (m := m) (by rw [h1, field_eq, hm]), h1, h2, field_eq a, hadm, flagBit_eq, field_eq, field_eq,
      field_eq]
    exact if_pos (by rw [decide_eq_true hcredit, decide_eq_true hread]; rfl)
  constructor
  · intro hcode
    have hx' := executeHead_settlesTo hx (doSetMaster_opened (s := s) (ho .opened (by rw [hcode]; rfl)) rfl) rfl rfl
    exact ⟨_, rfl, hx'⟩
  · intro hcode hn hb ht
    have ho := ho .barred (by rw [hcode]; rfl)
    generalize hop : (⟨m, .barred, a.getLsbD 10, (b.extractLsb' 0 8).toNat, (b.extractLsb' 8 8).toNat,
        (b.extractLsb' 16 8).toNat⟩ : MasterOperands) = o at ho
    have hends := executeHead_breaks (x := masterWritten o s)
      (stands := decide (s.lock.state ≠ .free ∧ s.lock.owner = some o.master)) (code := 3) hx hb ht ⟨rfl, rfl, rfl, rfl⟩
      (fun h => (of_decide_eq_true h).1) (barredWithdrawn_bus o s) (doSetMaster_barred ho (by rw [← hop]) hb)
    have hreads := barredWithdrawn_reads o hn
    have hwrites := barredWithdrawn_writes o s
    subst hop
    exact ⟨_, rfl, hends.1, hends.2, hreads, hwrites⟩

end Sys2Proof.WindowTable
end

section
/-! The expiries of the hold and overstay timers, and the transactions that are accepted (O48, O15, O16). -/

namespace Sys2Proof.WindowTable

-- One proof after the other: the text is compiled as one file, within a limit on memory that each thread draws on.
set_option Elab.async false

open Sys2Proof Sys2Proof.Machine Sys2Proof.Safety

/-! ### An event that leaves the head of the queue as it was -/

/-- A control entry at the head has asked for a place. -/
def HeadAsked (s : State) : Prop := ∀ c rest, s.pwq.entries = .control c :: rest → s.rq.space ≠ .none

theorem HeadAsked.of_eq {s t : State} (h : HeadAsked s) (hq : t.pwq = s.pwq) (hr : t.rq.space = s.rq.space) :
    HeadAsked t := fun c rest he => by rw [hr]; exact h c rest (by rw [← hq, he])

theorem headAsked_of_settled {s : State} (h : HeadSettled s) : HeadAsked s := fun c rest he => by
  unfold HeadSettled at h
  rw [he] at h
  exact h

theorem headStays_of_settled {s : State} (h : HeadSettled s) : HeadStays s := by
  rw [headStays_iff]
  by_contra hn
  push Not at hn
  obtain ⟨hd, e, rest, he, hl⟩ := hn
  unfold HeadSettled at h
  rw [he] at h
  cases e with
  | control c => exact hl rfl
  | data d =>
    rcases h.1 with h | ⟨hv, hf⟩
    · exact hd h
    · exact hl (by rw [leavesAtOnce, hv]; exact hf)

theorem askForPlace_asked {s : State} (h : HeadAsked s) : askForPlace s = s := by
  unfold askForPlace
  split
  · next c rest he => rw [if_neg (h c rest he)]
  · rfl

theorem eventOver_asked {s : State} (h : HeadAsked s) : eventOver s = quiesceEnded (windowsFreed s) := by
  have ha := freeDrainedWindows_alone s
  rw [← finishEvent_eq, finishEvent, testQuiesce_eq, freeDrainedWindows_eq]
  refine askForPlace_asked (h.of_eq ?_ ?_)
  · rw [← testQuiesce_eq, testQuiesce_pwq, ← freeDrainedWindows_eq, ha.pwq]
  · rw [← testQuiesce_eq, testQuiesce_rq_space, ← freeDrainedWindows_eq, ha.space]

theorem settle_busy_settled {s : State} (ha : s.cbc.access.isSome = true) (hs : HeadStays s) (hr : HeadAsked s) :
    settle s = quiesceEnded (windowsFreed s) := by
  rw [settle_busy ha, headsGone_none s hs, eventOver_asked hr]

/-! ### The hold timers -/

theorem slotExpires_due {i : SlotId} {s : State} {timer : Timer} (h : s.slots[i].hold = some timer)
    (hd : Due s.timebase timer) : slotExpires i s = holdExpires i s := by
  refine if_pos ?_
  rw [h]
  exact (Scope.expired_iff _ _).2 hd

/-- Nothing is left to do at the head of the queue within an event. -/
def HeadDone (s : State) : Prop := HeadStays s ∧ HeadAsked s

theorem headDone_of_settled {s : State} (h : HeadSettled s) : HeadDone s := ⟨headStays_of_settled h, headAsked_of_settled h⟩

theorem slotFreed_head {i : SlotId} {s : State} (hs : HeadDone s) : HeadDone (slotFreed i s) := by
  obtain ⟨hstays, hasked⟩ := hs
  refine ⟨hstays.of_eq rfl (fun w h => ?_) fun h => h, hasked.of_eq rfl rfl⟩
  rw [← h]
  exact (modAt_get_proj s.windows s.slots[i].window w (fun e => { e with refCount := e.refCount - 1 }) Window.frozen
    fun _ => rfl).symm

theorem offered_head {b : ReportBody} {s : State} (hs : HeadDone s) : HeadDone (offered b s) := by
  obtain ⟨hstays, hasked⟩ := hs
  refine ⟨hstays.of_eq (by rw [offered_pwq]) (fun w h => by rwa [offered_windows_eq] at h) fun h => ?_,
    hasked.of_eq (offered_pwq b s) ?_⟩
  · rwa [inDrain_of_eq (s := s) (by rw [offered_cbc])]
  · rw [← offerReport_eq_offered, offerReport_rq_space]

/-- A slot that its timer frees, in the state that the report, where there is one, has left. -/
theorem slotFreed_settles {i : SlotId} {s x : State} (hx : x.slots[i].state ≠ .free) (ha : x.cbc = s.cbc)
    (hh : HeadDone s → HeadDone x) (he : slotExpires i s = settle (freeSlot i x)) :
    (∃ t, exec (.holdTimerExpiry i) s = .next t ∧ SettlesTo (slotFreed i x) t) ∧
      (s.cbc.access.isSome = true → HeadSettled s →
        exec (.holdTimerExpiry i) s = .next (quiesceEnded (windowsFreed (slotFreed i x)))) := by
  rw [freeSlot_eq i x hx] at he
  refine ⟨⟨_, congrArg Host.Outcome.next he, settle_settlesTo _⟩, fun hb hs => ?_⟩
  obtain ⟨hstays, hasked⟩ := slotFreed_head (i := i) (hh (headDone_of_settled hs))
  refine congrArg Host.Outcome.next (he.trans (settle_busy_settled ?_ hstays hasked))
  rw [← ha] at hb
  exact hb

/-! ### The overstay timer -/

theorem residentOwner_eq {s : State} {p : Port} {inTenure : Bool}
    (h : s.arb.state = .tenure (.port p) ∨ s.arb.state = .locked (.port p) inTenure) : residentOwner s = some p := by
  unfold residentOwner
  rcases h with h | h <;> rw [h]

/-- Settles O48: a slot leaves by its timer as it does by a return, and an overstay timer ends with its report. -/
theorem holdAndOverstayTimersExpire : Obligations.HoldAndOverstayTimersExpire := by
  constructor
  · intro s i timer ht hd
    have hx := slotExpires_due ht hd
    unfold holdExpires at hx
    refine ⟨fun h => ?_, fun h => ?_, fun h => ?_⟩
    · rw [h] at hx
      refine slotFreed_settles ?_ (offered_cbc _ _) offered_head ?_
      · rw [offered_slots, h]; nofun
      · rw [hx, offerReport_eq_offered, readAbandonedBody, h]
        rfl
    · rw [h] at hx
      refine slotFreed_settles ?_ (offered_cbc _ _) offered_head ?_
      · rw [offered_slots, h]; nofun
      · rw [hx, offerReport_eq_offered, readAbandonedBody, h]
        rfl
    · rw [h] at hx
      exact slotFreed_settles (by rw [h]; nofun) rfl id hx
  · intro s timer p inTenure ht hd hp
    have hx : overstayExpires s = offerReport (overstayBody p timer) { s with arb.overstay := none } := by
      simp only [overstayExpires, ht, residentOwner_eq hp, (Scope.expired_iff _ _).2 hd, if_true]
    refine congrArg Host.Outcome.next (hx.trans ?_)
    rw [offerReport_eq_offered]
    cases p <;> rfl

/-! ### Check codes (R96) -/

theorem countP_odd {α : Type} (p : α → Bool) (l : List α) :
    decide (l.countP p % 2 = 1) = l.foldr (fun a odd => p a ^^ odd) false := by
  induction l with
  | nil => rfl
  | cons a l ih =>
    rw [List.foldr_cons, ← ih, List.countP_cons]
    cases p a with
    | false => simp
    | true => rcases Nat.mod_two_eq_zero_or_one (l.countP p) with h | h <;> simp [Nat.add_mod, h]

/-- The bits of a lane's byte are the lane's bits of the word. -/
theorem laneByte_get (w : Word) (lane k : Nat) (h : k < 8) : (laneByte w lane).getLsbD k = w.getLsbD (8 * lane + k) := by
  rw [laneByte, BitVec.getLsbD_extractLsb', decide_eq_true h, Bool.true_and]

theorem oddOnes_laneByte (w : Word) (lane : Nat) : oddOnes (laneByte w lane) =
    decide ((List.range 8).countP (fun k => w.getLsbD (8 * lane + k)) % 2 = 1) := by
  have hb (k : Nat) (h : k < 8) := laneByte_get w lane k h
  rw [countP_odd, oddOnes, hb 0 (by decide), hb 1 (by decide), hb 2 (by decide), hb 3 (by decide), hb 4 (by decide),
    hb 5 (by decide), hb 6 (by decide), hb 7 (by decide)]
  simp only [Bool.xor_assoc, Bool.xor_false, show List.range 8 = [0, 1, 2, 3, 4, 5, 6, 7] from rfl, List.foldr_cons,
    List.foldr_nil]

theorem checkCode_get (w : Word) (lane : Nat) (h : lane < 4) :
    (checkCode w).getLsbD lane = !oddOnes (laneByte w lane) := by
  unfold checkCode
  simp only [BitVec.getLsbD_append]
  interval_cases lane <;> simp

theorem codeAgrees_iff (w : Word) (code : Lanes) : codeAgrees w code = true ↔ CodeAgrees w code := by
  rw [codeAgrees, decide_eq_true_iff, BitVec.eq_of_getLsbD_eq_iff]
  refine forall₂_congr fun lane h => ?_
  rw [checkCode_get w lane h, oddOnes_laneByte]
  generalize (List.range 8).countP (fun k => w.getLsbD (8 * lane + k)) = ones
  cases code.getLsbD lane <;> rcases Nat.mod_two_eq_zero_or_one ones with h | h <;> simp [Nat.add_mod, h]

theorem beatAgrees_iff (b : Beat) : beatAgrees b = true ↔ CodeAgrees b.data b.code := codeAgrees_iff _ _

/-! ### Transactions that reach the last step (R92) -/

theorem claimedTxn_passing {s : State} {w : WindowId} {t : Txn} (h : PassesToGate s w t) (hg : GatePasses s w t)
    (hl : LockStepPasses s w t) : claimedTxn w t s = lastStep w t (noteTaken t s) := by
  obtain ⟨⟨⟨h1, -⟩, -, -, -⟩, hf, ha, hw, hz, hadm, hr⟩ := h
  unfold claimedTxn
  rw [if_neg hf, if_neg ((Laws.misaligned_iff t).not.2 ha), if_neg ((Laws.crossesEnd_iff _ t h1).not.2 hw),
    if_neg (by rw [hz]; decide), if_neg (by rw [hadm]; decide), if_neg ((Laws.rightsFail_iff s w t).not.2 hr),
    (Laws.gatePasses_iff s w t).2 hg, Laws.lockAndLastStep_of_passes s w t hl]
  rfl

theorem exec_passing {s : State} {w : WindowId} {t : Txn} (h : PassesToGate s w t) (hg : GatePasses s w t)
    (hl : LockStepPasses s w t) : exec (windowCommand t) s = .next (lastStep w t (noteTaken t s)) := by
  rw [exec_windowCommand h.beats.1 h.beats.2 h.notReset h.outside, windowTxn_claimed h.claimed, claimedTxn_passing h hg hl]

/-! ### Writes -/

/-- Settles O15: a write is aligned, so it carries no OPEN, and its entry is the transaction's. -/
theorem acceptedWriteJoinsTheQueue : Obligations.AcceptedWriteJoinsTheQueue := by
  intro s w m a u k beats t hp hg hl hcodes hcredit hdata hqueue
  have hk : k ≠ .openLock := fun hk => hp.aligned (.inr hk)
  have hnote : noteTaken t s = s := if_neg fun h => hk h.1
  have hgood : disagreeing beats = [] := (disagreeing_nil_iff beats).2 fun b hb => (beatAgrees_iff b).2 (hcodes b hb)
  have hroom : hasCreditAndRoom s m = true := by
    unfold hasCreditAndRoom
    rw [decide_eq_true hcredit]
    simp [Config.dataPlaces, Config.queuePlaces, hdata, hqueue]
  have hx := exec_passing hp hg hl
  rw [hnote] at hx
  refine ⟨settle (noteClosing t (appendData (entryOf s w t beats) s)), hx.trans (congrArg Host.Outcome.next ?_), ?_⟩
  · change writeStep w t beats s = _
    rw [writeStep, hgood]
    exact if_pos hroom
  · have he : noteClosing t (appendData (entryOf s w t beats) s) = { appendData (entryOf s w t beats) s with
        lock.closing := if k = .closeLock then true else s.lock.closing } := by
      cases k <;> rfl
    rw [he]
    have hs := settle_settlesTo { appendData (entryOf s w t beats) s with
        lock.closing := if k = .closeLock then true else s.lock.closing }
    cases k <;> exact hs

/-! ### Reads -/

theorem modAt_modAt {n : Nat} {α : Type} (t : Vector α n) (i : Fin n) (f g : α → α) :
    modAt (modAt t i f) i g = modAt t i (g ∘ f) := by
  refine table_ext fun j => ?_
  rw [modAt_get, modAt_get, modAt_get]
  split <;> rfl

theorem noteTaken_gsc (t : Txn) (s : State) : (noteTaken t s).gsc = s.gsc := by unfold noteTaken; split <;> rfl
theorem noteTaken_slots (t : Txn) (s : State) : (noteTaken t s).slots = s.slots := by unfold noteTaken; split <;> rfl
theorem noteTaken_lock (t : Txn) (s : State) : (noteTaken t s).lock = s.lock := by unfold noteTaken; split <;> rfl

theorem noteTaken_master {β : Type} (t : Txn) (s : State) (m : MasterId) (g : Master → β)
    (h : ∀ e : Master, g { e with note := none } = g e) : g (noteTaken t s).masters[m] = g s.masters[m] := by
  unfold noteTaken
  split
  · exact modAt_get_proj s.masters t.master m (fun e => { e with note := none }) g h
  · rfl

theorem matchingSlot_of_eq {s x : State} (t : Txn) (h : x.slots = s.slots) : matchingSlot x t = matchingSlot s t := by
  unfold matchingSlot
  rw [h]

theorem freeSlotId_some {s : State} {i : SlotId} (h : s.slots[i].state = .free) (hlow : ∀ j < i, s.slots[j].state ≠ .free) :
    freeSlotId s = some i :=
  (finRange_find?_eq_some _ i).2 ⟨decide_eq_true h, fun j hj => decide_eq_false (hlow j hj)⟩

/-- Settles O16: the slot is set up in the state that the lock step leaves, in which an OPEN has cleared the note. -/
theorem recordedReadWaitsBehindTheQueue : Obligations.RecordedReadWaitsBehindTheQueue := by
  intro s w m a u k n i t hp hg hl hopen hmatch hlimit hfree hlow
  have hx := exec_passing hp (.inl hg) hl
  have hallowed : newRead w t (noteTaken t s) = answer .retry (settle (allocateSlot i w t (noteTaken t s))) := by
    have hlock : (t.lock != .openLock || !lockStands (noteTaken t s)) = true := by
      unfold lockStands
      rw [noteTaken_lock]
      cases hk : k with
      | openLock => simp [t, hk, hopen hk]
      | noLock => simp [t, hk]
      | holdLock => simp [t, hk]
      | closeLock => simp [t, hk]
    unfold newRead
    rw [noteTaken_gsc, hlock, noteTaken_master t s _ Master.outReads fun _ => rfl,
      noteTaken_master t s _ Master.readLimit fun _ => rfl, if_pos (by simp [hg, t]; exact hlimit)]
    rw [freeSlotId_some (s := noteTaken t s) (i := i) (by rw [noteTaken_slots]; exact hfree)
      (by rw [noteTaken_slots]; exact hlow)]
  have hanswer : lastStep w t (noteTaken t s) = answer .retry (settle (allocateSlot i w t (noteTaken t s))) := by
    change readStep w t (noteTaken t s) = _
    rw [readStep, matchingSlot_of_eq t (noteTaken_slots t s), hmatch, hallowed]
  refine ⟨settle (allocateSlot i w t (noteTaken t s)), hx.trans (congrArg Host.Outcome.next hanswer), ?_⟩
  have hs := settle_settlesTo (allocateSlot i w t (noteTaken t s))
  generalize settle (allocateSlot i w t (noteTaken t s)) = v at hs ⊢
  cases k with
  | openLock =>
    have hn : noteTaken t s = { s with masters := modAt s.masters m fun e => { e with note := none } } :=
      if_pos ⟨rfl, hopen rfl⟩
    have ha : allocateSlot i w t (noteTaken t s) = { allocateSlot i w t s with
        masters := modAt s.masters m fun e => { e with outReads := e.outReads + 1, note := none } } := by
      rw [hn]
      simp only [allocateSlot, openLockOn, raiseRef, raiseReads, modAt_modAt, t, if_true]
      rfl
    rw [ha] at hs
    exact hs
  | noLock => exact hs
  | holdLock => exact hs
  | closeLock => exact hs

end Sys2Proof.WindowTable
end

section
/-! A drain that is cut off or stopped (O44). -/

namespace Sys2Proof.WindowTable

-- One proof after the other: the text is compiled as one file, within a limit on memory that each thread draws on.
set_option Elab.async false

open Sys2Proof Sys2Proof.Machine Sys2Proof.Safety

/-! ### The end of a drain (R36, R37, R114) -/

theorem clearAccess_removeHead {d : DataEntry} {rest : List Entry} {x : State} (he : x.pwq.entries = .data d :: rest) :
    clearAccess (removeHead x) = entryGone d x := by
  rw [removeHead_eq d rest x he]
  unfold entryGone clearAccess withQueue
  rw [he, mapTable_eq]
  simp only [lowerAhead_eq]
  rfl

/-- The state that the lock unit leaves at the end of a drain that is dropped (R36, R38, R82). -/
def droppedClosed (d : DataEntry) (s : State) : State :=
  closeTaken d (madeStale d { s with pwq.dropped := s.pwq.dropped + 1 })

theorem countDropped_closeTaken (d : DataEntry) (s : State) :
    countDropped (closeTaken d (madeStale d s)) = droppedClosed d s := by
  unfold droppedClosed countDropped closeTaken madeStale
  dsimp only
  split <;> rfl

theorem closeTaken_windows (d : DataEntry) (s : State) : (closeTaken d s).windows = s.windows := by
  unfold closeTaken; split <;> rfl

theorem closeTaken_cbc (d : DataEntry) (s : State) : (closeTaken d s).cbc = s.cbc := by
  unfold closeTaken; split <;> rfl

theorem closeTaken_pwq (d : DataEntry) (s : State) : (closeTaken d s).pwq = s.pwq := by
  unfold closeTaken; split <;> rfl

theorem droppedClosed_windows (d : DataEntry) (s : State) : (droppedClosed d s).windows = s.windows := by
  rw [droppedClosed, closeTaken_windows]; rfl

theorem droppedClosed_cbc (d : DataEntry) (s : State) : (droppedClosed d s).cbc = s.cbc := by
  rw [droppedClosed, closeTaken_cbc]; rfl

theorem droppedClosed_entries (d : DataEntry) (s : State) : (droppedClosed d s).pwq.entries = s.pwq.entries := by
  rw [droppedClosed, closeTaken_pwq]; rfl

/-- The arbiter's record of the gate's tenure. -/
def GateOwns (s : State) : Prop := s.arb.state = .tenure .gate ∨ s.arb.state = .locked .gate true

/-- The end of a lock takes its hold on the card bus with it, and the gate's tenure goes on (R82, R131). -/
theorem closeTaken_bus {d : DataEntry} {s : State} (hb : LockHoldsBus s) (hg : GateOwns s) :
    LockHoldsBus (closeTaken d s) ∧ GateOwns (closeTaken d s) := by
  unfold closeTaken
  split
  · exact ⟨⟨by simp [Lock.powerOn], by simp, by simp⟩, .inl rfl⟩
  · exact ⟨hb, hg⟩

theorem holdDropped_owns {s : State} (h : GateOwns s) : GateOwns (holdDropped s) := by
  unfold holdDropped
  split
  · exact .inl rfl
  · exact h

/-- A drain that ends otherwise than by a failed check, in the state that its consequences leave. -/
theorem endDrain_ends {o : DrainOutcome} (ho : o ≠ .checkFailed) {s x : State} {d : DataEntry} {rest left : List Entry}
    (he : s.pwq.entries = .data d :: rest) (hb : LockHoldsBus s)
    (hx : drainConsequences o d (closeTaken d (madeStale d s)) = x) (hxe : x.pwq.entries = .data d :: left)
    (ht : x.cbc.tenure = true) (hg : GateOwns x) : AccessEndsTo (entryGone d x) (settle (endDrain o s)) := by
  have hd : endDrain o s = settleTenure (leaveDeadHeads (entryGone d x)) := by
    have hclose : closeLock d (madeStale d s) = closeTaken d (madeStale d s) := closeLock_eq d _ hb.1.2
    unfold endDrain
    rw [he]
    dsimp only
    unfold drainEnded drainStaleness
    rw [if_neg ho, if_neg ho, markStale_eq, hclose, hx, clearAccess_removeHead hxe]
  rw [hd]
  exact settle_accessEndsTo _ ht hg

/-! ### An error freezes the window (R19, R39) -/

theorem holdGone_inAccess {s : State} (ha : s.cbc.access.isSome = true) : holdGone s = holdDropped s :=
  if_neg fun h => by rw [ha] at h; cases h.2

theorem lockBroken_inAccess (code : Nat) {s : State} (ha : s.cbc.access.isSome = true) :
    lockBroken code s = lockBrokenInTenure code s := by
  rw [lockBrokenInTenure, lockBroken, holdGone_inAccess ha]

theorem access_of_inDrain {s : State} (hd : inDrain s = true) : s.cbc.access.isSome = true := by
  unfold inDrain at hd
  cases h : s.cbc.access with
  | none => rw [h] at hd; cases hd
  | some a => rfl

/-- In a drain a break of the lock leaves the head of the queue and the tenure to the access in flight (R40, R131). -/
theorem lockBroken_inDrain {code : Nat} {s : State} {e : Entry} {rest : List Entry} (hd : inDrain s = true)
    (he : s.pwq.entries = e :: rest) (hg : GateOwns s) :
    (∃ left, (lockBroken code s).pwq.entries = e :: left) ∧ (lockBroken code s).cbc = s.cbc ∧
      GateOwns (lockBroken code s) := by
  rw [lockBroken_inAccess code (access_of_inDrain hd)]
  unfold lockBrokenInTenure
  split
  · exact ⟨⟨rest, he⟩, rfl, hg⟩
  · refine ⟨⟨rest.map voided, ?_⟩, by rw [breakDone_cbc, holdDropped_cbc], ?_⟩
    · rw [breakDone_entries, he, hd]
      rfl
    · unfold GateOwns
      rw [breakDone_arb]
      exact holdDropped_owns hg

/-- The state in which an error on a drain has frozen its window, with the report, and broken the lock that then still
stands on it (R19, R39). -/
def afterError (d : DataEntry) (addr : CardAddr) (code : Nat) (s : State) : State :=
  let frozen :=
    offered ⟨.windowFrozen, none, none, some d.master, some d.window, some (addr.setWidth 32), BitVec.ofNat 32 (256 * code)⟩
      { s with windows := modAt s.windows d.window fun e => { e with frozen := true } }
  if d.names = true ∧ s.windows[d.window].policy = .freezes ∧ s.windows[d.window].frozen = false then
    (if s.lock.window = some d.window then lockBroken 2 frozen else frozen)
  else s

theorem freezeOnError_eq (d : DataEntry) (kind : ErrorKind) (addr : CardAddr) {s : State} (hb : LockHoldsBus s)
    (hd : inDrain s = true) : freezeOnError d kind addr s = afterError d addr (errorCode kind) s := by
  unfold freezeOnError afterError
  dsimp only
  by_cases hc : d.names = true ∧ s.windows[d.window].policy = .freezes ∧ s.windows[d.window].frozen = false
  · rw [if_pos hc, if_pos (by simpa [and_assoc] using hc), offerReport_eq_offered, windowFrozenBody, reportBody]
    have hl (b : ReportBody) (x : State) : (offered b x).lock = x.lock := by rw [← offerReport_eq_offered, offerReport_lock]
    generalize hf : offered _ { s with windows := modAt s.windows d.window fun e => { e with frozen := true } } = y
    have hy : y.lock = s.lock ∧ y.arb = s.arb ∧ y.cbc = s.cbc := by
      rw [← hf, hl, offered_arb, offered_cbc]
      exact ⟨rfl, rfl, rfl⟩
    obtain ⟨hyl, hya, hyc⟩ := hy
    have hyb : LockHoldsBus y := by
      unfold LockHoldsBus
      rw [hyl, hya]
      exact hb
    have hya : y.cbc.access.isSome = true := by rw [hyc]; exact access_of_inDrain hd
    have hbreak : breakLock .frozen y = lockBroken 2 y := by
      rw [breakLock_eq .frozen hyb, lockBroken_inAccess _ hya]
      rfl
    rw [hbreak, lockedWindow, lockStands, hyl]
    by_cases hfree : s.lock.state = .free
    · have hid : lockBroken 2 y = y := if_pos (by rw [hyl, hfree])
      rw [hid, ite_self, ite_self]
    · by_cases hw : s.lock.window = some d.window <;> simp [hfree, hw]
  · rw [if_neg hc, if_neg (by simpa [and_assoc] using hc)]

theorem afterError_inDrain {d : DataEntry} {addr : CardAddr} {code : Nat} {s : State} {e : Entry} {rest : List Entry}
    (hd : inDrain s = true) (he : s.pwq.entries = e :: rest) (hg : GateOwns s) :
    (∃ left, (afterError d addr code s).pwq.entries = e :: left) ∧ (afterError d addr code s).cbc = s.cbc ∧
      GateOwns (afterError d addr code s) := by
  unfold afterError
  dsimp only
  split
  · generalize hf : offered _ { s with windows := modAt s.windows d.window fun e => { e with frozen := true } } = y
    have hye : y.pwq.entries = e :: rest := by rw [← hf, offered_pwq]; exact he
    have hyc : y.cbc = s.cbc := by rw [← hf, offered_cbc]
    have hyg : GateOwns y := by
      unfold GateOwns
      rw [← hf, offered_arb]
      exact hg
    split
    · rw [← hyc]
      exact lockBroken_inDrain (by rw [inDrain_of_eq (s := s) (by rw [hyc]), hd]) hye hyg
    · exact ⟨⟨rest, hye⟩, hyc, hyg⟩
  · exact ⟨⟨rest, he⟩, rfl, hg⟩

/-! ### Drains that are dropped -/

section

variable {s : State} {a : Access} {p : PieceOp} {d : DataEntry} {rest : List Entry} {n : Nat}

theorem gateOwns_of_access (ht : TenureLegal s) (ha : s.cbc.access = some a) : s.cbc.tenure = true ∧ GateOwns s := by
  have := ht.2.1 (by rw [ha]; rfl)
  exact ⟨this, ht.1.1 this⟩

theorem inDrain_of_draining (h : Draining s a p d rest n) : inDrain s = true := by
  unfold inDrain
  rw [h.access]
  exact decide_eq_true h.kind

theorem droppedClosed_bus (hb : LockHoldsBus s) (hg : GateOwns s) :
    LockHoldsBus (droppedClosed d s) ∧ GateOwns (droppedClosed d s) :=
  closeTaken_bus (s := madeStale d { s with pwq.dropped := s.pwq.dropped + 1 }) hb hg

/-- The state in which the drain that was cut off is reported (R115). -/
def lostReported (d : DataEntry) (a : Access) (addr : CardAddr) (code : Nat) (s : State) : State :=
  offered ⟨.writeLost, none, none, some d.master, some d.window, some (addr.setWidth 32),
    BitVec.ofNat 32 (a.bytes + 256 * code)⟩ (droppedClosed d s)

theorem cutOff_consequences (h : Draining s a p d rest n) (hb : LockHoldsBus s) (hg : GateOwns s) (kind : ErrorKind)
    (addr : CardAddr) : drainConsequences (.cutOff kind addr) d (closeTaken d (madeStale d s)) =
      afterError d addr (errorCode kind) (lostReported d a addr (errorCode kind) s) := by
  have hbytes : bytesPerformed (closeTaken d (madeStale d s)) = a.bytes := by
    unfold bytesPerformed
    rw [closeTaken_cbc, show (madeStale d s).cbc = s.cbc from rfl, h.access]
  have hlost : LockHoldsBus (lostReported d a addr (errorCode kind) s) := by
    unfold LockHoldsBus lostReported
    rw [offered_arb, ← offerReport_eq_offered, offerReport_lock]
    exact (droppedClosed_bus hb hg).1
  have hdrain : inDrain (lostReported d a addr (errorCode kind) s) = true := by
    rw [inDrain_of_eq (s := s) (by rw [lostReported, offered_cbc, droppedClosed_cbc]), inDrain_of_draining h]
  rw [← freezeOnError_eq d kind addr hlost hdrain, drainConsequences, hbytes, countDropped_closeTaken,
    offerReport_eq_offered]
  rfl

/-- A drain that an error cuts off (R36, R114). -/
theorem cutOff_ends (h : Draining s a p d rest n) (ht : TenureLegal s) (hb : LockHoldsBus s) (kind : ErrorKind)
    (addr : CardAddr) :
    AccessEndsTo (entryGone d (afterError d addr (errorCode kind) (lostReported d a addr (errorCode kind) s)))
      (settle (endDrain (.cutOff kind addr) s)) := by
  obtain ⟨htenure, hg⟩ := gateOwns_of_access ht h.access
  have hlg : GateOwns (lostReported d a addr (errorCode kind) s) := by
    unfold GateOwns lostReported
    rw [offered_arb]
    exact (droppedClosed_bus hb hg).2
  have hlc : (lostReported d a addr (errorCode kind) s).cbc = s.cbc := by
    rw [lostReported, offered_cbc, droppedClosed_cbc]
  have hle : (lostReported d a addr (errorCode kind) s).pwq.entries = .data d :: rest := by
    rw [lostReported, offered_pwq, droppedClosed_entries, h.head]
  obtain ⟨⟨left, hxe⟩, hxc, hxg⟩ := afterError_inDrain (d := d) (addr := addr) (code := errorCode kind)
    (by rw [inDrain_of_eq (s := s) (by rw [hlc]), inDrain_of_draining h]) hle hlg
  exact endDrain_ends (o := .cutOff kind addr) (by simp) h.head hb (cutOff_consequences h hb hg kind addr)
    hxe (by rw [hxc, hlc, htenure]) hxg

/-- A drain that its stop mark ends (R36, R124): the end reads nothing of the access. -/
theorem stopped_ends (he : s.pwq.entries = .data d :: rest) (ht : s.cbc.tenure = true) (hg : GateOwns s)
    (hb : LockHoldsBus s) (x : Option Access) :
    AccessEndsTo (entryGone d (droppedClosed d s)) (settle (endDrain .stopped { s with cbc.access := x })) := by
  have hx : entryGone d (droppedClosed d { s with cbc.access := x }) = entryGone d (droppedClosed d s) := by
    unfold entryGone droppedClosed closeTaken madeStale
    dsimp only
    split <;> rfl
  rw [← hx]
  exact endDrain_ends (s := { s with cbc.access := x }) (o := .stopped) (by simp) he hb (countDropped_closeTaken d _)
    (by rw [droppedClosed_entries]; exact he) (by rw [droppedClosed_cbc]; exact ht)
    (droppedClosed_bus (s := { s with cbc.access := x }) hb hg).2

end

/-- Settles O44: an error cuts the drain off where it stands, and the stop mark ends it after its piece. -/
theorem aCutOffDrainIsReported : Obligations.ACutOffDrainIsReported := by
  intro s a p d rest n h ht hb closed
  have hout : outstanding s = some (a, p) := (Scope.outstanding_eq_some s a p).2 ⟨h.access, h.op⟩
  constructor
  · intro command code hcommand address lost frozen ended
    have hended : ended = afterError d p.op.addr code lost := by
      have hw : lost.windows[d.window] = s.windows[d.window] := by
        change (offered _ (droppedClosed d s)).windows[d.window] = _
        rw [offered_windows_eq, droppedClosed_windows]
      have hl : lost.lock = closed.lock := by
        change (offered _ closed).lock = _
        rw [← offerReport_eq_offered, offerReport_lock]
      exact if_congr (by rw [hw]) (if_congr (by rw [hl]) rfl rfl) rfl
    rw [hended]
    rcases hcommand with ⟨rfl, rfl⟩ | ⟨rfl, rfl, hdue⟩
    · refine ⟨settle (endDrain (.cutOff .targetError p.op.addr) s), ?_, cutOff_ends h ht hb .targetError p.op.addr⟩
      change execPieceEnd .targetError s = _
      simp only [execPieceEnd, hout, pieceFailed, h.kind]
    · refine ⟨settle (endDrain (.cutOff .noResponse p.op.addr) s), ?_, cutOff_ends h ht hb .noResponse p.op.addr⟩
      change Host.Outcome.next (responseExpires s) = _
      simp only [responseExpires, hout, (Scope.expired_iff _ _).2 hdue, if_true, pieceFailed, h.kind]
  · intro hstop hlast data
    have hmore : piecesAfter { a with bytes := a.bytes + laneCount p.op.enables, op := none } ≠ 0 := by
      unfold LastPiece at hlast
      unfold piecesAfter pieceTotal
      dsimp only
      omega
    have hacked : pieceAcked a p data s = endDrain .stopped
        { s with cbc.access := some { a with bytes := a.bytes + laneCount p.op.enables, op := none } } := by
      have hkind : pieceAcked a p data s = drainPieceAcked a p s := by rw [pieceAcked, h.kind]
      exact hkind.trans ((if_neg hmore).trans (if_pos hstop))
    obtain ⟨htenure, hg⟩ := gateOwns_of_access ht h.access
    refine ⟨_, ?_, stopped_ends h.head htenure hg hb
      (some { a with bytes := a.bytes + laneCount p.op.enables, op := none })⟩
    change execPieceEnd (.ack data) s = _
    simp only [execPieceEnd, hout, hacked]
    rw [afterPiece_ended (endDrain_access _ _)]

end Sys2Proof.WindowTable
end

section
/-! What a fault and the resets make of the whole gate: a break of the lock with the end of a tenure held idle, and the
gate emptied (R46, R84, R131, R147, R178). -/

namespace Sys2Proof.WindowTable

-- One proof after the other: the text is compiled as one file, within a limit on memory that each thread draws on.
set_option Elab.async false

open Sys2Proof Sys2Proof.Machine Sys2Proof.Safety

/-! ### A tenure that ends with no candidate -/

/-- The state with another controller and another arbiter. -/
def withBus (c : Controller) (a : Arbiter) (s : State) : State := { s with cbc := c, arb := a }

/-- The arbiter after a decision that does not count the gate. -/
def arbAfter (s : State) : Arbiter := (tenureEnded false s).arb

theorem decision_arbOnly (s : State) (h : s.cbc.request = false) : decision s = { s with arb := (decision s).arb } := by
  have hc := decision_cbc s h
  unfold decision at hc ⊢
  cases hw : winner s with
  | none => rfl
  | some r =>
    rw [hw] at hc
    cases r with
    | gate => exact congrArg (withBus · (grantTo .gate s).arb s) hc
    | port p => rfl

theorem tenureEnded_eq (s : State) :
    tenureEnded false s = withBus { s.cbc with tenure := false, request := false } (arbAfter s) s := by
  unfold arbAfter tenureEnded
  rw [decision_arbOnly _ rfl]
  rfl

theorem winner_congr {s t : State} (hs : s.cbc.request = false) (ht : t.cbc.request = false) (ha : t.arb = s.arb)
    (hl : t.lines = s.lines) : winner t = winner s := by
  have hr : requesting t = requesting s := by
    funext r
    cases r with
    | gate => exact ht.trans hs.symm
    | port p => unfold requesting; rw [ha, hl]
  unfold winner urgent
  rw [hs, ht, hr, ha]
  rfl

theorem decision_arb_congr {s t : State} (hw : winner t = winner s) (ha : t.arb = s.arb) (hl : t.lines = s.lines)
    (hb : t.timebase = s.timebase) (hu : t.cu = s.cu) : (decision t).arb = (decision s).arb := by
  unfold decision
  rw [hw]
  cases winner s with
  | none => simp only [park, parkTarget, policyTarget, ha]
  | some r =>
    cases r with
    | gate => simp only [grantTo, ha]
    | port p => simp only [grantTo, overstayTimer, startTimer, ha, hl, hb, hu]

/-- A decision that does not count the gate reads the arbiter, the lines, the timebase and the tenure limit alone. -/
theorem arbAfter_congr {s t : State} (ha : t.arb = s.arb) (hl : t.lines = s.lines) (hb : t.timebase = s.timebase)
    (hu : t.cu = s.cu) : arbAfter t = arbAfter s :=
  decision_arb_congr (s := { s with cbc.tenure := false, cbc.request := false })
    (t := { t with cbc.tenure := false, cbc.request := false }) (winner_congr rfl rfl ha hl) ha hl hb hu

theorem offered_withBus (b : ReportBody) (c : Controller) (a : Arbiter) (s : State) :
    offered b (withBus c a s) = withBus c a (offered b s) := by
  unfold offered
  have hp : heldPlaces (withBus c a s) = heldPlaces s := rfl
  rw [hp]
  by_cases h : s.rq.reports.length + heldPlaces s < 16
  · rw [if_pos h]
    exact if_pos h
  · rw [if_neg h]
    exact if_neg h

theorem slotsWithdrawn_withBus (p : SlotId → Bool) (c : Controller) (a : Arbiter) (s : State) :
    slotsWithdrawn p (withBus c a s) = withBus c a (slotsWithdrawn p s) := by
  have hf : freedBy p (withBus c a s) = freedBy p s := funext fun _ => rfl
  rw [slotsWithdrawn_eq, slotsWithdrawn_eq, hf]
  rfl

theorem breakDone_withBus (code : Nat) (s x : State) (c : Controller) (a : Arbiter) :
    breakDone code s (withBus c a x) = withBus c a (breakDone code s x) := by
  unfold breakDone
  rw [slotsWithdrawn_withBus, ← offered_withBus]
  rfl

/-! ### A break of the lock with the end of an idle tenure -/

theorem breakDone_outside (code : Nat) (s x : State) : (breakDone code s x).lines = x.lines ∧
    (breakDone code s x).timebase = x.timebase ∧ (breakDone code s x).cu = x.cu := by
  unfold breakDone
  rw [← offerReport_eq_offered]
  simp [slotsWithdrawn]

theorem holdDropped_lockHold (s : State) : (holdDropped s).arb.lockHold = false := by
  unfold holdDropped
  split
  · rfl
  · next h => exact eq_false_of_ne_true h

/-- Where the gate held its tenure idle under the lock hold that a break ends, the tenure ends with it (R84, R131). -/
theorem breakDone_idle (code : Nat) {s : State} (hl : s.arb.lockHold = true)
    (hn : ¬Candidate (breakDone code s (holdDropped s))) :
    endTenure (breakDone code s (holdDropped s)) = breakDone code s (tenureEnded false (holdDropped s)) := by
  have harb : (holdDropped s).arb.state = .tenure .gate := by rw [holdDropped, if_pos hl]
  obtain ⟨hlines, htime, hcu⟩ := breakDone_outside code s (holdDropped s)
  rw [endTenure_idle _ hn (.inl (by rw [breakDone_arb, harb])), tenureEnded_eq, tenureEnded_eq (holdDropped s),
    breakDone_withBus, breakDone_cbc, arbAfter_congr (breakDone_arb _ _ _) hlines htime hcu]

/-- A standing lock's break, with the end of a tenure that the gate held idle under its hold (R84, R131). -/
theorem breakEnds (c : BreakCause) {s : State} (hb : LockHoldsBus s)
    (hn : s.cbc.access = none → s.arb.lockHold = true → ¬Candidate (lockBrokenInTenure (breakCode c) s)) :
    endIdleTenure s.arb.lockHold (releaseHold (breakLock c s)) = lockBroken (breakCode c) s := by
  have hrelease (x : State) (h : x.arb.lockHold = false) : releaseHold x = x := if_neg (by rw [h]; nofun)
  rw [breakLock_eq c hb]
  unfold lockBrokenInTenure lockBroken at *
  by_cases hf : s.lock.state = .free
  · have hl : s.arb.lockHold = false := by
      cases h : s.arb.lockHold with
      | false => rfl
      | true => rw [hb.1.mp h] at hf; cases hf
    rw [if_pos hf, if_pos hf, hrelease s hl, hl]
    rfl
  · rw [if_neg hf] at hn ⊢
    have hl : (breakDone (breakCode c) s (holdDropped s)).arb.lockHold = false := by rw [breakDone_arb, holdDropped_lockHold]
    rw [if_neg hf, hrelease _ hl]
    unfold endIdleTenure holdGone
    rw [hl, breakDone_cbc, holdDropped_cbc]
    by_cases hi : s.arb.lockHold = true ∧ s.cbc.access.isSome = false
    · have ⟨hh, ha⟩ := hi
      have hnone : s.cbc.access = none := Option.isSome_eq_false_iff.mp ha |> Option.isNone_iff_eq_none.mp
      rw [if_pos hi, if_pos (by rw [hh, hnone]; rfl), breakDone_idle _ hh (hn hnone hh)]
    · rw [if_neg hi, if_neg]
      intro h
      simp only [Bool.and_eq_true, Bool.not_false, and_true, Option.isNone_iff_eq_none] at h
      exact hi ⟨h.1, by rw [h.2]; rfl⟩

end Sys2Proof.WindowTable
end

section
/-! The gate brought down by a failed buffer check or a gate reset: everything in it is stopped and emptied (R46, R70, R84,
R124, R147, R178). -/

namespace Sys2Proof.WindowTable

-- One proof after the other: the text is compiled as one file, within a limit on memory that each thread draws on.
set_option Elab.async false

open Sys2Proof Sys2Proof.Machine Sys2Proof.Safety

/-! ### No candidate -/

/-- With every slot FREE the gate has a candidate only at the head of the queue. -/
theorem noCandidate_of_free {s : State} (hs : ∀ i : SlotId, s.slots[i].state = .free) (ho : ∀ d, ¬Offers s d) :
    ¬Candidate s := by
  rintro (⟨i, hi, -⟩ | ⟨d, hd⟩)
  · have := hi.1
    rw [hs i] at this
    cases this
  · exact ho d hd

theorem noCandidate_of_emptied {s : State} (hs : ∀ i : SlotId, s.slots[i].state = .free) (he : s.pwq.entries = []) :
    ¬Candidate s :=
  noCandidate_of_free hs fun d ⟨rest, h, _⟩ => by rw [he] at h; cases h

/-- With every slot FREE a break withdraws none. -/
theorem breakDone_slots_free (code : Nat) (s : State) {x : State} (hx : ∀ i : SlotId, x.slots[i].state = .free) (i : SlotId) :
    (breakDone code s x).slots[i].state = .free := by
  rw [(breakDone_tables code s x).slots i]
  unfold slotLeft
  split
  · rfl
  · split
    · exact hx i
    · exact hx i

theorem holdDropped_slots (s : State) : (holdDropped s).slots = s.slots := by unfold holdDropped; split <;> rfl

theorem lockBrokenInTenure_slots_free (code : Nat) {s : State} (hs : ∀ i : SlotId, s.slots[i].state = .free) (i : SlotId) :
    (lockBrokenInTenure code s).slots[i].state = .free := by
  unfold lockBrokenInTenure
  split
  · exact hs i
  · exact breakDone_slots_free code s (by rw [holdDropped_slots]; exact hs) i

theorem lockBrokenInTenure_emptied (code : Nat) {s : State} (hs : s.pwq.entries = []) :
    (lockBrokenInTenure code s).pwq.entries = [] := by
  unfold lockBrokenInTenure
  split
  · exact hs
  · rw [breakDone_entries, hs]; simp

/-! ### The gate emptied -/

/-- The gate in another state of its controller, with the access in flight stopped and a fetch detached (R124). -/
def stoppedTo (gate : GateController) (s : State) : State :=
  { s with gsc := gate, cbc.access := s.cbc.access.map fun a => { a with stop := true, slot := none } }

/-- The gate in another state of its controller, stopped, with the queue emptied and every slot FREE (R46, R70). -/
def emptiedTo (gate : GateController) (s : State) : State := slotsCleared (queueEmptied (stoppedTo gate s))

theorem freeAllSlots_emptyQueue (gate : GateController) (s : State) :
    freeAllSlots (emptyQueue (markStop { s with gsc := gate })) = emptiedTo gate s := by
  rw [freeAllSlots_eq, emptyQueue_eq]
  rfl

theorem inDrain_stoppedTo (gate : GateController) (s : State) : inDrain (stoppedTo gate s) = inDrain s := by
  unfold inDrain stoppedTo
  cases s.cbc.access <;> rfl

theorem removedEntries_eq (s : State) : removedEntries s = s.pwq.entries.drop (if inDrain s then 1 else 0) := notBegun_eq s

theorem emptiedTo_bus (gate : GateController) (s : State) : (emptiedTo gate s).arb = s.arb ∧
    (emptiedTo gate s).lock = s.lock ∧ (emptiedTo gate s).cbc = (stoppedTo gate s).cbc := by
  simp only [emptiedTo, slotsCleared, queueEmptied, stoppedTo, and_self]

theorem emptiedTo_entries (gate : GateController) (s : State) :
    (emptiedTo gate s).pwq.entries = s.pwq.entries.take (if inDrain s then 1 else 0) := by
  simp only [emptiedTo, slotsCleared, queueEmptied, inDrain_stoppedTo]
  rfl

theorem emptiedTo_free (gate : GateController) (s : State) (i : SlotId) : (emptiedTo gate s).slots[i].state = .free :=
  slotsCleared_free _ i

theorem emptiedTo_noDrain (gate : GateController) {s : State} (h : (emptiedTo gate s).cbc.access = none) :
    s.cbc.access = none ∧ (emptiedTo gate s).pwq.entries = [] := by
  have ha : s.cbc.access = none := by
    rw [(emptiedTo_bus gate s).2.2] at h
    exact Option.map_eq_none_iff.mp h
  refine ⟨ha, ?_⟩
  rw [emptiedTo_entries, inDrain, ha]
  rfl

/-- The lock's break in a gate brought down, with the end of a tenure held idle (R84, R131). -/
theorem emptiedTo_breakEnds (c : BreakCause) (gate : GateController) {s : State} (hb : LockHoldsBus s) :
    endIdleTenure s.arb.lockHold (releaseHold (breakLock c (emptiedTo gate s))) =
      lockBroken (breakCode c) (emptiedTo gate s) := by
  obtain ⟨ha, hl, -⟩ := emptiedTo_bus gate s
  rw [← congrArg Arbiter.lockHold ha]
  refine breakEnds c (by unfold LockHoldsBus; rw [ha, hl]; exact hb) fun h _ => ?_
  exact noCandidate_of_emptied (lockBrokenInTenure_slots_free _ (emptiedTo_free gate s))
    (lockBrokenInTenure_emptied _ (emptiedTo_noDrain gate h).2)

/-! ### A failed buffer check (R178) -/

theorem gateFaulted_eq (cause : FaultCause) (code : Nat) (s : State) : gateFaulted cause code s =
    offered
      ⟨.fault, none, none, none, none, none,
        BitVec.ofNat 32 (code + 256 * (s.pwq.entries.drop (if inDrain s then 1 else 0)).countP isData +
          65536 * (s.pwq.entries.drop (if inDrain s then 1 else 0)).countP fun e => !isData e)⟩
      (lockBroken 5 (emptiedTo ⟨.faulted, cause, none⟩ s)) := rfl

/-- A fault of the gate does what the statements say, before the windows that it brings to 0 are freed (R178). -/
theorem faultGate_eq (cause : FaultCause) {s : State} (hb : LockHoldsBus s) :
    faultGate cause s = windowsFreed (gateFaulted cause (causeCode cause) s) := by
  have hin : inDrain (markStop (becomeFaulted cause s)) = inDrain s := inDrain_stoppedTo ⟨.faulted, cause, none⟩ s
  have hends : endIdleTenure s.arb.lockHold
      (releaseHold (breakLock .fault (emptiedTo ⟨.faulted, cause, none⟩ s))) =
      lockBroken 5 (emptiedTo ⟨.faulted, cause, none⟩ s) := emptiedTo_breakEnds .fault _ hb
  unfold becomeFaulted at hin
  unfold faultGate removedData removedControl becomeFaulted
  dsimp only
  rw [freeAllSlots_emptyQueue, markStop_arb, hends, gateFaulted_eq, removedEntries_eq, hin, freeDrainedWindows_eq,
    offerReport_eq_offered, faultBody, reportBody]
  rfl

end Sys2Proof.WindowTable
end

section
/-! A check that fails at a drain: the entry is dropped and the gate faulted, and nothing is left to do in the event but
what the statement says (R43, R111, R118, R120, R178). -/

namespace Sys2Proof.WindowTable

-- One proof after the other: the text is compiled as one file, within a limit on memory that each thread draws on.
set_option Elab.async false

open Sys2Proof Sys2Proof.Machine Sys2Proof.Safety

/-! ### What a break leaves of the gate -/

theorem holdDropped_eq (s : State) : holdDropped s = withBus s.cbc (holdDropped s).arb s := by
  unfold holdDropped; split <;> rfl

theorem holdGone_eq (s : State) : holdGone s = withBus (holdGone s).cbc (holdGone s).arb s := by
  unfold holdGone
  split
  · rw [tenureEnded_eq, holdDropped_eq]; rfl
  · rw [holdDropped_eq]; rfl

theorem breakDone_record (code : Nat) (s x : State) : (breakDone code s x).gsc = x.gsc ∧
    (breakDone code s x).rq.space = x.rq.space := by
  unfold breakDone
  rw [← offerReport_eq_offered]
  simp [slotsWithdrawn]

theorem lockBroken_record (code : Nat) (s : State) : (lockBroken code s).gsc = s.gsc ∧
    (lockBroken code s).rq.space = s.rq.space := by
  unfold lockBroken
  split
  · exact ⟨rfl, rfl⟩
  · rw [holdGone_eq]
    exact breakDone_record code s _

theorem lockBroken_slots_free (code : Nat) {s : State} (hs : ∀ i : SlotId, s.slots[i].state = .free) (i : SlotId) :
    (lockBroken code s).slots[i].state = .free := by
  unfold lockBroken
  split
  · exact hs i
  · exact breakDone_slots_free code s (by rw [holdGone_eq]; exact hs) i

theorem lockBroken_emptied (code : Nat) {s : State} (hs : s.pwq.entries = []) : (lockBroken code s).pwq.entries = [] := by
  unfold lockBroken
  split
  · exact hs
  · rw [breakDone_entries, hs]; simp

/-- A break takes its hold on the card bus with it. -/
theorem lockBroken_bus (code : Nat) {s : State} (hb : LockHoldsBus s) :
    (lockBroken code s).cbc = (holdGone s).cbc ∧ (lockBroken code s).arb = (holdGone s).arb := by
  unfold lockBroken
  split
  · next hf =>
    have hl : s.arb.lockHold = false := by
      cases h : s.arb.lockHold with
      | false => rfl
      | true => rw [hb.1.mp h] at hf; cases hf
    have hd : holdDropped s = s := if_neg (by rw [hl]; nofun)
    have hg : holdGone s = s := (if_neg fun h => by rw [hl] at h; cases h.1).trans hd
    rw [hg]
    exact ⟨rfl, rfl⟩
  · exact ⟨breakDone_cbc _ _ _, breakDone_arb _ _ _⟩

/-- The gate holds no lock hold, and its tenure, where it has one, is an ordinary one (R131). -/
def TenureOrNone (s : State) : Prop :=
  s.arb.lockHold = false ∧ ((s.cbc.tenure = true ∧ s.arb.state = .tenure .gate) ∨ (s.cbc.tenure = false ∧ s.cbc.request = false))

theorem holdGone_tenureOrNone {s : State} (hb : LockHoldsBus s) (ht : s.cbc.tenure = true) (hg : GateOwns s) :
    TenureOrNone (holdGone s) := by
  have hd : TenureOrNone (holdDropped s) := by
    refine ⟨holdDropped_lockHold s, .inl ⟨by rw [holdDropped_cbc, ht], ?_⟩⟩
    unfold holdDropped
    split
    · rfl
    · next hl => exact hg.resolve_right fun h => hl (hb.2.1.mpr h)
  unfold holdGone
  split
  · refine ⟨?_, .inr ⟨by rw [tenureEnded_eq]; rfl, by rw [tenureEnded_eq]; rfl⟩⟩
    unfold tenureEnded
    rw [decision_arb_lockHold]
    exact holdDropped_lockHold s
  · exact hd

/-! ### The end of a tenure without a candidate, and the windows that an event frees -/

/-- The gate's tenure, where it has one, has ended without a request (R118). -/
def tenureGivenUp (s : State) : State := if s.cbc.tenure = true then tenureEnded false s else s

theorem windowsFreed_withBus (c : Controller) (a : Arbiter) (s : State) :
    windowsFreed (withBus c a s) = withBus c a (windowsFreed s) := by
  have hoffers (bs : List ReportBody) (x : State) : offerAll bs (withBus c a x) = withBus c a (offerAll bs x) := by
    induction bs generalizing x with
    | nil => rfl
    | cons b bs ih =>
      change offerAll bs (offered b (withBus c a x)) = _
      rw [offered_withBus, ih]
      rfl
  have hw : (withBus c a s).windows = s.windows := rfl
  unfold windowsFreed
  rw [← hoffers, hw]
  rfl

theorem windowsFreed_alone (s : State) : WindowsAlone s (windowsFreed s) := by
  rw [← freeDrainedWindows_eq]
  exact freeDrainedWindows_alone s

theorem windowsFreed_cu (s : State) : (windowsFreed s).cu = s.cu ∧ (windowsFreed s).lines = s.lines ∧
    (windowsFreed s).timebase = s.timebase := by
  rw [← freeDrainedWindows_eq]
  have h := freeDrainedWindows_kept s
  exact ⟨h.cu, h.lines, h.timebase⟩

theorem tenureEnded_windowsFreed (s : State) : tenureEnded false (windowsFreed s) = windowsFreed (tenureEnded false s) := by
  obtain ⟨hcu, hlines, htime⟩ := windowsFreed_cu s
  have ha := windowsFreed_alone s
  rw [tenureEnded_eq, tenureEnded_eq s, windowsFreed_withBus, ha.cbc, arbAfter_congr ha.arb hlines htime hcu]

/-- A gate with nothing in it: no access, an empty queue that asks for no place, every slot FREE, and no lock hold. -/
structure Standstill (s : State) : Prop where
  access : s.cbc.access = none
  entries : s.pwq.entries = []
  space : s.rq.space = .none
  slots : ∀ i : SlotId, s.slots[i].state = .free
  notQuiescing : s.gsc.state ≠ .quiescing
  bus : TenureOrNone s

namespace Standstill

variable {s : State}

theorem noCandidate (h : Standstill s) : ¬Candidate s := noCandidate_of_emptied h.slots h.entries

theorem givenUp (h : Standstill s) : Standstill (tenureGivenUp s) ∧ (tenureGivenUp s).cbc.tenure = false ∧
    (tenureGivenUp s).cbc.request = false := by
  unfold tenureGivenUp
  split
  · have hl : (tenureEnded false s).arb.lockHold = false := by
      unfold tenureEnded
      rw [decision_arb_lockHold]
      exact h.bus.1
    rw [tenureEnded_eq] at hl ⊢
    exact ⟨⟨h.access, h.entries, h.space, h.slots, h.notQuiescing, hl, .inr ⟨rfl, rfl⟩⟩, rfl, rfl⟩
  · next ht =>
    obtain ⟨htenure, hrequest⟩ := h.bus.2.resolve_left fun hc => ht hc.1
    exact ⟨h, htenure, hrequest⟩

theorem windowsFreed (h : Standstill s) : Standstill (windowsFreed s) := by
  have ha := windowsFreed_alone s
  refine ⟨by rw [ha.cbc]; exact h.access, by rw [ha.pwq]; exact h.entries, by rw [ha.space]; exact h.space,
    by rw [ha.slots]; exact h.slots, by rw [ha.gsc]; exact h.notQuiescing, ?_⟩
  unfold TenureOrNone
  rw [ha.arb, ha.cbc]
  exact h.bus

/-- The tenure ends, since nothing keeps it (R118). -/
theorem settleTenure (h : Standstill s) : settleTenure s = tenureGivenUp s := by
  unfold Machine.settleTenure tenureGivenUp
  rw [h.bus.1, Bool.false_or]
  cases ht : s.cbc.tenure with
  | false => rfl
  | true =>
    obtain ⟨-, hstate⟩ := h.bus.2.resolve_right fun hc => by rw [ht] at hc; cases hc.1
    exact endTenure_idle s h.noCandidate (.inl hstate)

/-- The event ends with the tenure's end and the windows freed. -/
theorem settledTo (h : Standstill s) :
    Machine.settleTenure (Safety.windowsFreed s) = Safety.windowsFreed (tenureGivenUp s) := by
  rw [h.windowsFreed.settleTenure]
  unfold tenureGivenUp
  rw [(windowsFreed_alone s).cbc]
  split
  · exact tenureEnded_windowsFreed s
  · rfl

theorem settled (h : Standstill s) :
    Settled (Safety.windowsFreed (tenureGivenUp s)) ∧ BusQuiet (Safety.windowsFreed (tenureGivenUp s)) := by
  obtain ⟨hg, htenure, hrequest⟩ := h.givenUp
  have hf := hg.windowsFreed
  have ha := windowsFreed_alone (tenureGivenUp s)
  refine ⟨⟨?_, ?_, fun hq => hf.notQuiescing hq.1⟩, .inr ⟨(hasCandidate_eq_false _).2 hf.noCandidate, .inl ?_⟩⟩
  · have he := hf.entries
    unfold HeadSettled
    rw [he]
    exact hf.space
  · rw [← freeDrainedWindows_eq]
    exact freeDrainedWindows_draining _
  · rw [ha.cbc]
    exact ⟨hrequest, htenure⟩

end Standstill

theorem emptiedTo_record (gate : GateController) (s : State) : (emptiedTo gate s).gsc = gate ∧
    (emptiedTo gate s).rq.space = .none := by
  simp only [emptiedTo, slotsCleared, queueEmptied, stoppedTo, and_self]

/-- A fault in the gate's tenure with no access in flight leaves nothing in the gate (R46, R70, R178). -/
theorem gateFaulted_standstill (cause : FaultCause) (code : Nat) {s : State} (hb : LockHoldsBus s) (ht : s.cbc.tenure = true)
    (hg : GateOwns s) (ha : s.cbc.access = none) : Standstill (gateFaulted cause code s) := by
  rw [gateFaulted_eq]
  obtain ⟨harb, hlock, hcbc⟩ := emptiedTo_bus ⟨.faulted, cause, none⟩ s
  obtain ⟨hgsc, hspace⟩ := emptiedTo_record ⟨.faulted, cause, none⟩ s
  have hfree := emptiedTo_free ⟨.faulted, cause, none⟩ s
  have hnone : (emptiedTo ⟨.faulted, cause, none⟩ s).cbc.access = none := by
    rw [hcbc]
    exact Option.map_eq_none_iff.mpr ha
  have hempty := (emptiedTo_noDrain _ hnone).2
  have hxb : LockHoldsBus (emptiedTo ⟨.faulted, cause, none⟩ s) := by unfold LockHoldsBus; rw [harb, hlock]; exact hb
  have hxg : GateOwns (emptiedTo ⟨.faulted, cause, none⟩ s) := by unfold GateOwns; rw [harb]; exact hg
  have hxt : (emptiedTo ⟨.faulted, cause, none⟩ s).cbc.tenure = true := by rw [hcbc]; exact ht
  generalize emptiedTo ⟨.faulted, cause, none⟩ s = x at *
  obtain ⟨hxc, hxa⟩ := lockBroken_bus 5 hxb
  obtain ⟨hxr, hxs⟩ := lockBroken_record 5 x
  have hgone : (holdGone x).cbc.access = none := by
    unfold holdGone
    split
    · rw [tenureEnded_eq, holdDropped_cbc]; exact hnone
    · rw [holdDropped_cbc]; exact hnone
  refine ⟨?_, ?_, ?_, ?_, ?_, ?_⟩
  · rw [offered_cbc, hxc, hgone]
  · rw [offered_pwq, lockBroken_emptied 5 hempty]
  · rw [← offerReport_eq_offered, offerReport_rq_space, hxs, hspace]
  · rw [offered_slots]
    exact lockBroken_slots_free 5 hfree
  · rw [← offerReport_eq_offered, offerReport_gsc, hxr, hgsc]
    simp
  · unfold TenureOrNone
    rw [offered_cbc, offered_arb, hxc, hxa]
    exact holdGone_tenureOrNone hxb hxt hxg

end Sys2Proof.WindowTable
end

section
/-! A beat that fails its check ends the drain and faults the gate (R43, R111, R120, R178). -/

namespace Sys2Proof.WindowTable

-- One proof after the other: the text is compiled as one file, within a limit on memory that each thread draws on.
set_option Elab.async false

open Sys2Proof Sys2Proof.Machine Sys2Proof.Safety

/-! ### The failing beat is reached -/

/-- The check of a beat comes before its first piece: with no piece to perform on the way, a damaged beat ends the take-up
(R111, R120). -/
theorem takeUp_checkFailed (a : Access) (d : DataEntry) (i : Nat) (b : Beat) (hb : d.beats[i]? = some b)
    (hbad : beatAgrees b = false) (hbeats : a.beats = d.beats.length) :
    ∀ (remaining n : Nat), n + remaining = pieceTotal a → n ≤ i * piecesPerBeat a.unit a.portWidth →
      (∀ j, n ≤ j → j < i * piecesPerBeat a.unit a.portWidth → drainLanes a d j = 0) →
      (∀ (j : Nat) (x : Beat), n ≤ j * piecesPerBeat a.unit a.portWidth → j < i → d.beats[j]? = some x →
        beatAgrees x = true) → takeUp a d.beats remaining = .checkFailed := by
  have hi : i < d.beats.length := (List.getElem?_eq_some_iff.mp hb).1
  have hpos : 0 < piecesPerBeat a.unit a.portWidth := by cases a.unit <;> cases a.portWidth <;> decide
  have htotal : pieceTotal a = d.beats.length * piecesPerBeat a.unit a.portWidth := by rw [pieceTotal, hbeats]
  have hunder : i * piecesPerBeat a.unit a.portWidth < pieceTotal a := by
    rw [htotal]; exact Nat.mul_lt_mul_of_pos_right hi hpos
  intro remaining
  induction remaining with
  | zero => intro n hn hle; omega
  | succ r ih =>
    intro n hn hle hskip hcheck
    have hplace : pieceTotal a - (r + 1) = n := by omega
    unfold takeUp
    simp only [hplace]
    rcases Nat.eq_or_lt_of_le hle with heq | hlt
    · rw [heq, Nat.mul_div_cancel _ hpos, hb]
      dsimp only
      rw [if_pos (by simp [hbad])]
    · have hdiv : n / piecesPerBeat a.unit a.portWidth < i := Nat.div_lt_of_lt_mul (by rwa [Nat.mul_comm])
      have hx : d.beats[n / piecesPerBeat a.unit a.portWidth]? =
          some d.beats[n / piecesPerBeat a.unit a.portWidth] := List.getElem?_eq_getElem (hdiv.trans hi)
      have hlanes := hskip n (Nat.le_refl n) hlt
      unfold drainLanes at hlanes
      dsimp only at hlanes
      rw [hx] at hlanes ⊢
      dsimp only
      rw [if_neg, if_pos (by exact hlanes)]
      · exact ih (n + 1) (by omega) hlt (fun j hj => hskip j (by omega)) fun j x hj => hcheck j x (by omega)
      · intro hc
        rw [Bool.and_eq_true, decide_eq_true_eq] at hc
        have hfirst : n / piecesPerBeat a.unit a.portWidth * piecesPerBeat a.unit a.portWidth = n :=
          Nat.div_mul_cancel (Nat.dvd_of_mod_eq_zero hc.1)
        rw [hcheck _ _ (by rw [hfirst]) hdiv hx] at hc
        cases hc.2

/-! ### The end of the drain -/

/-- The entry of a drain that ends check failed has left the queue as dropped, and the lock of a CLOSE drain is taken (R36,
R43, R82). -/
def checkFailed (d : DataEntry) (s : State) : State :=
  entryGone d (closeTaken d { s with pwq.dropped := s.pwq.dropped + 1 })

/-- What a failed check makes of the gate within its event (R118, R120, R178). -/
def checkFaulted (d : DataEntry) (s : State) : State :=
  windowsFreed (tenureGivenUp (gateFaulted .queueCheck 1 (checkFailed d s)))

theorem checkFailed_access (d : DataEntry) (s : State) (x : Option Access) :
    checkFailed d { s with cbc.access := x } = checkFailed d s := by
  unfold checkFailed entryGone closeTaken
  dsimp only
  split <;> rfl

section

variable {d : DataEntry} {rest : List Entry} {s : State}

theorem checkFailed_bus (hb : LockHoldsBus s) (hg : GateOwns s) : LockHoldsBus (checkFailed d s) ∧ GateOwns (checkFailed d s) :=
  closeTaken_bus (s := { s with pwq.dropped := s.pwq.dropped + 1 }) hb hg

theorem checkFailed_tenure (d : DataEntry) (s : State) : (checkFailed d s).cbc.tenure = s.cbc.tenure := by
  unfold checkFailed entryGone closeTaken
  dsimp only
  split <;> rfl

theorem checkFailed_standstill (ht : s.cbc.tenure = true) (hb : LockHoldsBus s) (hg : GateOwns s) :
    Standstill (gateFaulted .queueCheck 1 (checkFailed d s)) :=
  have hbus := checkFailed_bus hb hg
  gateFaulted_standstill .queueCheck 1 hbus.1 (by rw [checkFailed_tenure, ht]) hbus.2 rfl

theorem endDrain_checkFailed (he : s.pwq.entries = .data d :: rest) (ht : s.cbc.tenure = true) (hb : LockHoldsBus s)
    (hg : GateOwns s) : endDrain .checkFailed s = checkFaulted d s := by
  have hgone : clearAccess (removeHead (countDropped (closeTaken d s))) = checkFailed d s := by
    have hcount : countDropped (closeTaken d s) = closeTaken d { s with pwq.dropped := s.pwq.dropped + 1 } := by
      unfold countDropped closeTaken
      dsimp only
      split <;> rfl
    rw [hcount, clearAccess_removeHead (by rw [closeTaken_pwq]; exact he)]
    rfl
  have hended : drainEnded .checkFailed d s = windowsFreed (gateFaulted .queueCheck 1 (checkFailed d s)) := by
    unfold drainEnded drainStaleness drainConsequences
    rw [if_pos rfl, if_pos rfl, closeLock_eq d s hb.1.mpr]
    dsimp only
    rw [hgone, faultGate_eq .queueCheck (checkFailed_bus hb hg).1]
    rfl
  unfold endDrain
  rw [he]
  dsimp only
  rw [hended, (checkFailed_standstill ht hb hg).settledTo]
  rfl

theorem settle_checkFaulted (ht : s.cbc.tenure = true) (hb : LockHoldsBus s) (hg : GateOwns s) :
    settle (checkFaulted d s) = checkFaulted d s :=
  have h := (checkFailed_standstill (d := d) ht hb hg).settled
  settle_quiet _ h.1 h.2

theorem checkFaulted_standstill (ht : s.cbc.tenure = true) (hb : LockHoldsBus s) (hg : GateOwns s) :
    Standstill (checkFaulted d s) :=
  have h := (checkFailed_standstill (d := d) ht hb hg).givenUp.1
  h.windowsFreed

/-- The controller finds nothing to do in a gate that a failed check has emptied (R116). -/
theorem runBus_checkFaulted {n : Nat} (ht : s.cbc.tenure = true) (hb : LockHoldsBus s) (hg : GateOwns s) :
    runBus n (checkFaulted d s) = checkFaulted d s := by
  have h := checkFailed_standstill (d := d) ht hb hg
  obtain ⟨-, htenure, hrequest⟩ := h.givenUp
  have hf : Standstill (checkFaulted d s) := checkFaulted_standstill ht hb hg
  have hcbc : (checkFaulted d s).cbc = _ := (windowsFreed_alone _).cbc
  rw [← congrArg Controller.tenure hcbc] at htenure
  rw [← congrArg Controller.request hcbc] at hrequest
  cases n with
  | zero => rfl
  | succ n =>
    unfold runBus
    rw [if_neg (by rw [hf.access]; nofun), if_neg (by rw [htenure]; nofun),
      reviewRequest_quiet _ ((hasCandidate_eq_false _).2 hf.noCandidate) hrequest htenure]
    exact if_neg (by rw [htenure]; nofun)

end

/-! ### A drain whose beat 0 fails its check at the start -/

/-- With no lock OWNED the start of a drain leaves the lock as it is (R81). -/
theorem drainBegins_unlocked (d : DataEntry) {s : State} (h : s.lock.state ≠ .owned) : drainBegins d s = s := by
  unfold drainBegins lockTimerDue stopLockTimer
  rw [if_neg (by simp [h]), if_neg (by simp [h])]

theorem checkFailed_unlocked (d : DataEntry) {s : State} (h : s.lock.state ≠ .owned) :
    checkFailed d s = entryGone d { s with pwq.dropped := s.pwq.dropped + 1 } :=
  congrArg (entryGone d) (if_neg fun hc => h hc.2.1)

theorem startDrain_checkFailed {d : DataEntry} {rest : List Entry} {b : Beat} {s : State}
    (he : s.pwq.entries = .data d :: rest) (ht : s.cbc.tenure = true) (hb : LockHoldsBus s) (hg : s.arb.state = .tenure .gate)
    (hd : d.beats[0]? = some b) (hbad : beatAgrees b = false) : startDrain d s = checkFaulted d s := by
  have hfree : s.lock.state ≠ .owned := fun h => by
    have := hb.2.1.mp (hb.1.mpr h)
    rw [hg] at this
    cases this
  have htake : takeUp (drainRecord d) d.beats (pieceTotal (drainRecord d)) = .checkFailed :=
    takeUp_checkFailed (drainRecord d) d 0 b hd hbad rfl _ 0 (Nat.zero_add _) (Nat.zero_le _)
      (fun j _ hj => by rw [Nat.zero_mul] at hj; exact absurd hj (Nat.not_lt_zero j))
      fun j _ _ hj => absurd hj (Nat.not_lt_zero j)
  have hend := endDrain_checkFailed (s := { s with cbc.access := some (drainRecord d) }) he ht hb (.inl hg)
  unfold startDrain continueDrain
  rw [htake, drainBegins_unlocked d (s := { s with cbc.access := some (drainRecord d) }) hfree]
  dsimp only
  rw [hend]
  exact congrArg (fun x => windowsFreed (tenureGivenUp (gateFaulted .queueCheck 1 x))) (checkFailed_access d s _)

/-- The bus is given to a queued drain whose beat 0 is damaged: nothing but the fault is left of the event. -/
theorem settle_offeredCheckFailed {d : DataEntry} {b : Beat} {s : State} (ho : Offers s d) (hn : NoSlot s)
    (ha : s.cbc.access = none) (ht : s.cbc.tenure = true) (hb : LockHoldsBus s) (hg : s.arb.state = .tenure .gate)
    (hd : d.beats[0]? = some b) (hbad : beatAgrees b = false) : settle s = checkFaulted d s := by
  have hoffered := (offeredHead_some s d).mpr ho
  obtain ⟨rest, he, hin, hvoid, hfrozen⟩ := ho
  have hstays : headsGone s = s := headsGone_none s <| (headStays_iff s).mpr <| .inr fun e r hr => by
    rw [he] at hr
    cases hr
    cases hnames : d.names with
    | false => simp [leavesAtOnce, hvoid, hnames]
    | true =>
      have hf : s.windows[d.window].frozen = false := eq_false_of_ne_true fun hf => hfrozen ⟨hnames, hf⟩
      simp only [leavesAtOnce, hvoid, hnames, hf, Bool.and_false, Bool.or_false]
  have hsettled : Settled (checkFaulted d s) := (checkFailed_standstill (d := d) ht hb (.inl hg)).settled.1
  have hrun (n : Nat) : runBus (n + 2) s = checkFaulted d s := by
    unfold runBus
    rw [if_neg (by rw [ha]; nofun), if_pos ht, (oldestEligible_none s).mpr hn, hoffered]
    dsimp only
    rw [startDrain_checkFailed he ht hb hg hd hbad, runBus_checkFaulted ht hb (.inl hg)]
  rw [settle, leaveDeadHeads_eq, hstays, settleBus, busFuel, hrun, finishEvent_settled _ hsettled]

/-- Settles O20: a failed check drops the entry, and the fault that it is leaves nothing in the gate to go on with. -/
theorem queueCheckFaultsTheGate : Obligations.QueueCheckFaultsTheGate := by
  refine ⟨?_, ?_⟩
  · intro s a p d rest n i b data h hstop ht hb per hlt hbeat hbad hskip hcheck
    have hout : outstanding s = some (a, p) := (Scope.outstanding_eq_some s a p).2 ⟨h.access, h.op⟩
    obtain ⟨htenure, hg⟩ := gateOwns_of_access ht h.access
    have hi : i < d.beats.length := (List.getElem?_eq_some_iff.mp hbeat).1
    have hunder : i * per < d.beats.length * per :=
      Nat.mul_lt_mul_of_pos_right hi (by change 0 < piecesPerBeat _ _; cases a.unit <;> cases a.portWidth <;> decide)
    let next : Access := { a with bytes := a.bytes + laneCount p.op.enables, op := none }
    have hafter : n + 1 + piecesAfter next = pieceTotal next := by
      have : pieceTotal next = d.beats.length * per := congrArg (· * per) h.beats
      have hn : piecesAfter next = pieceTotal next - (n + 1) := by rw [h.place]; rfl
      omega
    have htake : takeUp next d.beats (piecesAfter next) = .checkFailed :=
      takeUp_checkFailed next d i b hbeat (eq_false_of_ne_true fun hx => hbad ((beatAgrees_iff b).mp hx)) h.beats _ (n + 1)
        hafter hlt (fun j hj => hskip j hj) fun j x hj hji hx => (beatAgrees_iff x).mpr (hcheck j x hj hji hx)
    have hacked : pieceAcked a p data s = checkFaulted d s := by
      have hmore : piecesAfter next ≠ 0 := fun h0 => by rw [h0] at htake; cases htake
      have hkind : pieceAcked a p data s = drainPieceAcked a p s := by rw [pieceAcked, h.kind]
      have hgoes : drainPieceAcked a p s = continueDrain next d (piecesAfter next) { s with cbc.access := some next } := by
        refine (if_neg hmore).trans ((if_neg (by rw [hstop]; nofun)).trans ?_)
        dsimp only
        rw [h.head]
      rw [hkind, hgoes, continueDrain, htake]
      dsimp only
      rw [endDrain_checkFailed (s := { s with cbc.access := some next }) h.head htenure hb hg]
      exact congrArg (fun x => windowsFreed (tenureGivenUp (gateFaulted .queueCheck 1 x))) (checkFailed_access d s _)
    change execPieceEnd (.ack data) s = _
    simp only [execPieceEnd, hout, hacked]
    rw [afterPiece_ended (checkFaulted_standstill htenure hb hg).access, settle_checkFaulted htenure hb hg]
    rfl
  · intro s p d b hstate hreq hb ht hslot ho hbeat hbad decided hwins
    have hl : s.arb.lockHold = false := eq_false_of_ne_true fun h => by
      have := hb.2.1.mp h
      rw [hstate] at this
      cases this
    have htenure : s.cbc.tenure = false := eq_false_of_ne_true fun h => by
      have := ht.1.mp h
      rw [hstate] at this
      simp at this
    have ha : s.cbc.access = none := Option.not_isSome_iff_eq_none.mp fun h => by
      rw [ht.2.1 h] at htenure
      cases htenure
    have hgb : LockHoldsBus (granted .gate decided) :=
      ⟨hb.1, ⟨fun h => absurd (hl.symm.trans h) (by simp), by simp [granted]⟩, by simp [granted]⟩
    have hends : residentTenureEnds p (setRequestLine p false s) = settle (granted .gate decided) := by
      have : (setRequestLine p false s).arb.state = .tenure (.port p) := hstate
      unfold residentTenureEnds
      rw [this]
      exact (if_pos rfl).trans (congrArg settle (decision_wins decided .gate hwins))
    change Host.Outcome.next (if portOf s.lines.request p = true then residentTenureEnds p (setRequestLine p false s) else s) = _
    rw [if_pos hreq]
    have hsettle : settle (granted .gate decided) = checkFaulted d (granted .gate decided) :=
      settle_offeredCheckFailed ho hslot ha rfl hgb rfl hbeat (eq_false_of_ne_true fun hx => hbad ((beatAgrees_iff b).mp hx))
    have hfree : s.lock.state ≠ .owned := fun h => by
      rw [hb.1.mpr h] at hl
      cases hl
    rw [hends, hsettle, checkFaulted, checkFailed_unlocked d (s := granted .gate decided) hfree]
    rfl

end Sys2Proof.WindowTable
end

section
/-! The rest of an event in a gate whose slots are all FREE, with no lock and no hold on the card bus: it takes none of them
up again (R70, R87, R131). -/

namespace Sys2Proof.WindowTable

-- One proof after the other: the text is compiled as one file, within a limit on memory that each thread draws on.
set_option Elab.async false

open Sys2Proof Sys2Proof.Machine Sys2Proof.Safety

/-! ### The internal work of a stripped gate -/

/-- Every slot is FREE, no lock stands, and the gate has no hold on the card bus. -/
structure Stripped (s : State) : Prop where
  slots : ∀ i : SlotId, s.slots[i].state = .free
  lock : s.lock.state = .free
  hold : s.arb.lockHold = false

theorem Stripped.congr {s t : State} (h : Stripped s) (hs : t.slots = s.slots) (hl : t.lock = s.lock)
    (ha : t.arb = s.arb) : Stripped t :=
  ⟨by rw [hs]; exact h.slots, by rw [hl]; exact h.lock, by rw [ha]; exact h.hold⟩

/-- What the gate's internal work makes of a stripped gate: it stays stripped, and the masters' notes, a service line that
attention keeps off, and but for a failed check of the queue the gate's state stay as they were. -/
structure StrippedTo (s t : State) : Prop where
  stripped : Stripped t
  lock : s.lock = Lock.powerOn → t.lock = Lock.powerOn
  notes : ∀ m : MasterId, t.masters[m].note = s.masters[m].note
  line : s.cu.attention = false → s.ti.serviceLine = false → t.ti.serviceLine = false
  gate : t.gsc = s.gsc ∨ s.gsc.state = .quiescing ∨ t.gsc = ⟨.faulted, .queueCheck, none⟩

theorem StrippedTo.refl {s : State} (h : Stripped s) : StrippedTo s s :=
  ⟨h, id, fun _ => rfl, fun _ => id, .inl rfl⟩

theorem StrippedTo.trans {s t u : State} (hk : Kept s t) (h : StrippedTo s t) (k : StrippedTo t u) : StrippedTo s u where
  stripped := k.stripped
  lock := fun hl => k.lock (h.lock hl)
  notes := fun m => (k.notes m).trans (h.notes m)
  line := fun ha hl => k.line (by rw [hk.cu]; exact ha) (h.line ha hl)
  gate := by
    rcases k.gate with hg | hq | hf
    · rw [hg]; exact h.gate
    · rcases h.gate with hg | hq' | hf
      · exact .inr (.inl (by rw [← hg]; exact hq))
      · exact .inr (.inl hq')
      · rw [hf] at hq; cases hq
    · exact .inr (.inr hf)

/-- A step that leaves the slots, the lock, the hold, the notes and the gate's state as they were. -/
theorem StrippedTo.of_same {s t : State} (h : Stripped s) (hs : ∀ i : SlotId, t.slots[i].state = s.slots[i].state := by simp)
    (hl : t.lock = s.lock := by simp) (hh : t.arb.lockHold = s.arb.lockHold := by simp)
    (hn : ∀ m : MasterId, t.masters[m].note = s.masters[m].note := by simp)
    (hline : t.ti.serviceLine = s.ti.serviceLine ∨ t.ti.serviceLine = s.cu.attention := by simp)
    (hg : t.gsc = s.gsc := by simp) : StrippedTo s t where
  stripped := ⟨fun i => (hs i).trans (h.slots i), by rw [hl]; exact h.lock, hh.trans h.hold⟩
  lock := hl.trans
  notes := hn
  line := fun ha hf => hline.elim (·.trans hf) (·.trans ha)
  gate := .inl hg

theorem offerReport_line (b : ReportBody) (s : State) :
    (offerReport b s).ti.serviceLine = s.ti.serviceLine ∨ (offerReport b s).ti.serviceLine = s.cu.attention := by
  rw [offerReport_eq_offered]
  unfold offered
  split
  · exact .inr rfl
  · exact .inl rfl

theorem removeHead_note (s : State) (m : MasterId) : (removeHead s).masters[m].note = s.masters[m].note := by
  unfold removeHead
  split
  · rfl
  · rw [entryClaims_eq]
    simp only [claimsReturned, ofFn_get]

theorem removeHead_outside (s : State) : (removeHead s).lock = s.lock ∧ (removeHead s).arb = s.arb ∧
    (removeHead s).ti = s.ti ∧ (removeHead s).gsc = s.gsc := by
  unfold removeHead
  split
  · exact ⟨rfl, rfl, rfl, rfl⟩
  · simp

theorem removeHead_slot (s : State) (i : SlotId) : (removeHead s).slots[i].state = s.slots[i].state := by
  unfold removeHead
  split
  · rfl
  · rw [entryClaims_eq]
    exact (congrArg Slot.state (mapTable_get _ _ i)).trans (lowerAhead_claims _).1

theorem Act.stripped {s t : State} (ha : Act s t) (h : Stripped s) : StrippedTo s t := by
  have hfree : ∀ {p : Prop} {i : SlotId}, s.slots[i].state ≠ .free → p := fun hi => absurd (h.slots _) hi
  cases ha with
  | reports b => exact .of_same h (hline := offerReport_line b s)
  | drops => exact .of_same h
  | performs => exact .of_same h
  | discards w => exact .of_same h
  | leaves _ =>
    obtain ⟨hl, hh, ht, hg⟩ := removeHead_outside s
    exact .of_same h (removeHead_slot s) hl (by rw [hh]) (removeHead_note s) (.inl (by rw [ht])) hg
  | frees w =>
    unfold freeIfDrained
    split
    · exact .of_same h (hline := offerReport_line _ { s with windows := modAt s.windows w freedWindow })
    · exact .refl h
  | freesSlot i => rw [freeSlot, if_pos (h.slots i)]; exact .refl h
  | changesSlot i f hi _ _ _ => exact hfree hi
  | makesStale a n =>
    refine .of_same h fun i => ?_
    have hf := (staleSlot_claims a n s.slots[i]).1.mpr (h.slots i)
    rw [h.slots i]
    exact (congrArg Slot.state (mapTable_get _ _ i)).trans hf
  | voids => exact .of_same h
  | empties =>
    rw [emptyQueue_eq]
    exact .of_same h (hs := by simp [queueEmptied]) (hl := by simp [queueEmptied]) (hh := by simp [queueEmptied])
      (hn := by simp [queueEmptied]) (hline := by simp [queueEmptied]) (hg := by simp [queueEmptied])
  | breaks c hst => simp [lockStands, h.lock] at hst
  | clearsLock => exact ⟨⟨h.slots, rfl, h.hold⟩, fun _ => rfl, fun _ => rfl, fun _ => id, .inl rfl⟩
  | stopsTimer d => rw [stopLockTimer, if_neg (by simp [h.lock])]; exact .refl h
  | owns hp => rw [h.lock] at hp; cases hp
  | releases => rw [releaseHold, if_neg (by rw [h.hold]; nofun)]; exact .refl h
  | endsTenure => exact .of_same h
  | reviews => exact .of_same h
  | accesses a => exact .of_same h
  | chooses => exact .of_same h
  | freezes d rest _ _ => exact .of_same h
  | faults => exact ⟨⟨h.slots, h.lock, h.hold⟩, id, fun _ => rfl, fun _ => id, .inr (.inr rfl)⟩
  | quiesces =>
    unfold testQuiesce
    split
    · next hq =>
      simp only [Bool.and_eq_true, decide_eq_true_eq] at hq
      refine ⟨⟨by simpa using h.slots, by simpa using h.lock, by simpa using h.hold⟩, by simp, by simp, ?_, .inr (.inl hq.1)⟩
      intro ha hl
      exact (offerReport_line _ { s with gsc.state := .standby, gsc.quiesceTag := none }).elim (·.trans hl) (·.trans ha)
    · exact .refl h
  | asks => exact .of_same h

theorem Work.kept {s t : State} (h : Work s t) : Kept s t := by
  induction h with
  | refl => exact kept_refl s
  | tail _ ha ih => exact kept_trans ih ha.kept

theorem Work.stripped {s t : State} (hw : Work s t) (h : Stripped s) : StrippedTo s t := by
  induction hw with
  | refl => exact .refl h
  | tail hw ha ih => exact ih.trans (Work.kept hw) (ha.stripped ih.stripped)

/-! ### The end of an event in which the queue offers nothing -/

/-- The gate's state stays, and every window stays as it is but for the claims that it loses. -/
structure Steady (s t : State) : Prop where
  gate : t.gsc = s.gsc
  windows : ∀ w : WindowId, Lowered s.windows[w] t.windows[w]

theorem Steady.trans {s t u : State} (h : Steady s t) (k : Steady t u) : Steady s u :=
  ⟨k.gate.trans h.gate, fun w => (h.windows w).trans (k.windows w)⟩

theorem Steady.of_eq {s t : State} (hg : t.gsc = s.gsc) (hw : t.windows = s.windows) : Steady s t :=
  ⟨hg, lowered_of_eq hw⟩

/-- The head of the queue is in drain, or is no data entry. -/
def HeadQuiet (s : State) : Prop := inDrain s = true ∨ ¬HeadIsData s

theorem HeadQuiet.stays {s : State} (h : HeadQuiet s) : HeadStays s := by
  refine (headStays_iff s).mpr (h.imp_right fun hn e rest he => ?_)
  cases e with
  | data d => exact absurd ⟨d, rest, he⟩ hn
  | control c => rfl

theorem leaveDeadHeads_quiet {s : State} (h : HeadQuiet s) : leaveDeadHeads s = s := by
  rw [leaveDeadHeads_eq]
  exact headsGone_none s h.stays

/-- The arbiter after the end of a tenure of the gate that leaves no request. -/
def arbEnded (s : State) : Arbiter :=
  match s.arb.state with
  | .tenure .gate => arbAfter s
  | .locked .gate _ => arbAfter s
  | _ => s.arb

/-- The gate has ended a tenure that it held, and requests nothing. -/
def busEnded (s : State) : State :=
  withBus { s.cbc with tenure := false, request := false } (if s.cbc.tenure = true then arbEnded s else s.arb) s

theorem endTenure_eq {s : State} (h : ¬Candidate s) :
    endTenure s = withBus { s.cbc with tenure := false, request := false } (arbEnded s) s := by
  unfold endTenure gateTenureEnds arbEnded
  rw [(hasCandidate_eq_false s).2 h]
  cases hs : s.arb.state with
  | stopped => rfl
  | parked r => rfl
  | tenure r =>
    cases r with
    | gate => exact tenureEnded_eq s
    | port p => rfl
  | locked r inTenure =>
    cases r with
    | gate => exact tenureEnded_eq s
    | port p => rfl

theorem noCandidate_of_stripped {s : State} (hs : Stripped s) (hd : ¬HeadIsData s) : ¬Candidate s :=
  noCandidate_of_free hs.slots fun _ ⟨rest, he, _⟩ => hd ⟨_, rest, he⟩

/-- A stripped gate with no data at the head of its queue starts no access: at most its tenure ends (R116, R118). -/
theorem runBus_quietHead (n : Nat) {s : State} (hs : Stripped s) (ha : s.cbc.access = none) (hd : ¬HeadIsData s) :
    runBus (n + 2) s = busEnded s := by
  have hc := noCandidate_of_stripped hs hd
  cases ht : s.cbc.tenure with
  | false =>
    rw [runBus_idle (n + 1) s ha ht hc, busEnded, ht]
    change withBus { s.cbc with request := false } s.arb s = withBus { s.cbc with tenure := false, request := false } s.arb s
    rw [← ht]
  | true =>
    obtain ⟨hn, ho⟩ := noCandidate s hc
    have hstep : runBus (n + 2) s = runBus (n + 1) (endTenure s) := by
      rw [runBus, if_neg (by rw [ha]; nofun), if_pos ht, hn, ho]
      exact if_neg (by rw [hs.hold]; nofun)
    have hidle : ¬Candidate (endTenure s) :=
      noCandidate_of_stripped ((Act.endsTenure s).stripped hs).stripped fun h =>
        hd (headIsData_congr (s := endTenure s) (t := s) (by simp) h)
    rw [hstep, busEnded, ht]
    rw [endTenure_eq hc] at hidle ⊢
    exact runBus_idle n (withBus _ (arbEnded s) s) ha rfl hidle

theorem settleBus_quietHead {s : State} (hs : Stripped s) (hq : HeadQuiet s) :
    settleBus s = if s.cbc.access.isSome = true then s else busEnded s := by
  split
  · next ha => exact runBus_busy _ s ha
  · next ha =>
    have hnone := Option.not_isSome_iff_eq_none.mp ha
    refine runBus_quietHead _ hs hnone (hq.resolve_left fun hd => ?_)
    rw [inDrain, hnone] at hd
    cases hd

theorem finishEvent_gsc {s : State} (h : s.gsc.state ≠ .quiescing) : (finishEvent s).gsc = s.gsc := by
  have ha := freeDrainedWindows_alone s
  unfold finishEvent
  rw [askForPlace_gsc, testQuiesce_open _ (fun hq => h (by rw [ha.gsc] at hq; exact hq.1)), ha.gsc]

/-- The rest of the event with a quiet head: the gate's state stays, and of the windows those that nothing names are
freed. -/
theorem settle_quietHead {s : State} (hs : Stripped s) (hq : HeadQuiet s) (hg : s.gsc.state ≠ .quiescing) :
    (settle s).gsc = s.gsc ∧ (settle s).windows = (freeDrainedWindows s).windows := by
  rw [settle, leaveDeadHeads_quiet hq, settleBus_quietHead hs hq]
  split
  · exact ⟨finishEvent_gsc hg, finishEvent_windows s⟩
  · unfold busEnded
    generalize (if s.cbc.tenure = true then arbEnded s else s.arb) = a
    refine ⟨finishEvent_gsc (s := withBus _ a s) hg, ?_⟩
    rw [finishEvent_windows, freeDrainedWindows_eq, windowsFreed_withBus, freeDrainedWindows_eq]
    rfl

/-- Windows that the event has freed already are not freed again at its end. -/
theorem settle_windowsFreed {s : State} (hs : Stripped s) (hq : HeadQuiet s) : settle (windowsFreed s) = settle s := by
  have hw := windowsFreed_alone s
  have hs' : Stripped (windowsFreed s) := hs.congr hw.slots hw.lock hw.arb
  have hq' : HeadQuiet (windowsFreed s) := hq.imp (by rw [inDrain_of_eq (congrArg _ hw.cbc)]; exact id)
    fun h hd => h (headIsData_congr (s := windowsFreed s) (t := s) (congrArg _ hw.pwq.symm) hd)
  have hover (x : State) : finishEvent (windowsFreed x) = finishEvent x := by
    unfold finishEvent
    rw [← freeDrainedWindows_eq, freeDrainedWindows_named _ (freeDrainedWindows_draining x)]
  have hended : busEnded (windowsFreed s) = windowsFreed (busEnded s) := by
    have hafter : arbAfter (windowsFreed s) = arbAfter s := by
      obtain ⟨hcu, hlines, htime⟩ := windowsFreed_cu s
      exact arbAfter_congr hw.arb hlines htime hcu
    unfold busEnded arbEnded
    rw [windowsFreed_withBus, hw.cbc, hw.arb, hafter]
  rw [settle, settle, leaveDeadHeads_quiet hq, leaveDeadHeads_quiet hq', settleBus_quietHead hs hq,
    settleBus_quietHead hs' hq', hw.cbc, hended]
  split
  · exact hover s
  · exact hover (busEnded s)

/-! ### The end of an access that carries the stop mark (R124) -/

/-- A gate whose queue holds at most the entry in drain, with a fetch in flight detached from its slot. -/
structure Quelled (s : State) : Prop where
  detached : ∀ a, s.cbc.access = some a → a.kind = .fetch → a.slot = none
  alone : s.pwq.entries.length ≤ if inDrain s then 1 else 0

theorem Quelled.headQuiet {s : State} (h : Quelled s) : HeadQuiet s := by
  cases hd : inDrain s with
  | true => exact .inl hd
  | false =>
    have ha := h.alone
    rw [hd] at ha
    refine .inr fun ⟨d, rest, he⟩ => ?_
    rw [he] at ha
    exact Nat.not_succ_le_zero _ ha

theorem clearAccess_steady (s : State) : Steady s (clearAccess s) := .of_eq rfl rfl

theorem settleTenure_steady (s : State) : Steady s (settleTenure s) := .of_eq (by simp) (by simp)

theorem settleTenure_headIsData {s : State} (h : ¬HeadIsData s) : ¬HeadIsData (settleTenure s) :=
  fun hd => h (headIsData_congr (s := settleTenure s) (t := s) (by simp) hd)

/-- A stopped drain ends, and nothing is behind it. -/
theorem endDrain_quelled {o : DrainOutcome} (ho : o = .performed ∨ o = .stopped) {s : State}
    (h : s.pwq.entries.length ≤ 1) : Steady s (endDrain o s) ∧ ¬HeadIsData (endDrain o s) := by
  unfold endDrain
  split
  · next d rest he =>
    have hrest : rest = [] := List.eq_nil_of_length_eq_zero (by rw [he, List.length_cons] at h; omega)
    have hgone (x : State) (hx : x.pwq.entries = s.pwq.entries) : ¬HeadIsData (clearAccess (removeHead x)) := by
      rintro ⟨d', rest', h'⟩
      rw [clearAccess_pwq, removeHead_entries, hx, he, hrest] at h'
      cases h'
    have hremove (x : State) : Steady x (clearAccess (removeHead x)) :=
      ⟨(removeHead_outside x).2.2.2, removeHead_lowered x⟩
    have hended : Steady s (drainEnded o d s) ∧ ¬HeadIsData (drainEnded o d s) := by
      unfold drainEnded
      dsimp only
      rw [if_neg (by rintro rfl; simp at ho)]
      have hx : Steady s (drainConsequences o d (closeLock d (drainStaleness o d s))) ∧
          (drainConsequences o d (closeLock d (drainStaleness o d s))).pwq.entries = s.pwq.entries := by
        have hstale : Steady s (drainStaleness o d s) ∧ (drainStaleness o d s).pwq.entries = s.pwq.entries := by
          unfold drainStaleness
          split
          · exact ⟨.of_eq rfl rfl, rfl⟩
          · exact ⟨.of_eq (by simp) (by simp), by simp⟩
        have hclose : Steady s (closeLock d (drainStaleness o d s)) :=
          hstale.1.trans (.of_eq (by simp) (by simp))
        obtain rfl | rfl := ho
        · exact ⟨hclose.trans (.of_eq (by simp [drainConsequences]) (by simp [drainConsequences])),
            by simp [drainConsequences, hstale.2]⟩
        · exact ⟨hclose.trans (.of_eq (by simp [drainConsequences]) (by simp [drainConsequences])),
            by simp [drainConsequences, hstale.2]⟩
      rw [leaveDeadHeads_quiet (.inr (hgone _ hx.2))]
      exact ⟨hx.1.trans (hremove _), hgone _ hx.2⟩
    exact ⟨hended.1.trans (settleTenure_steady _), settleTenure_headIsData hended.2⟩
  · next hn =>
    have hc : ¬HeadIsData (clearAccess s) := fun ⟨d, rest, he⟩ => hn d rest he
    exact ⟨(clearAccess_steady s).trans (settleTenure_steady _), settleTenure_headIsData hc⟩

/-- The access that a fault or a reset has stopped ends at once where it has no operation outstanding (R124). -/
theorem endStoppedAccess_quelled {s : State} (h : Quelled s) :
    Steady s (endStoppedAccess s) ∧ HeadQuiet (endStoppedAccess s) := by
  have hsame : Steady s s ∧ HeadQuiet s := ⟨.of_eq rfl rfl, h.headQuiet⟩
  unfold endStoppedAccess
  split
  · next a ha =>
    split
    · split
      · next hk =>
        have hd : inDrain s = true := by rw [inDrain, ha]; exact decide_eq_true hk
        have hone : s.pwq.entries.length ≤ 1 := by have := h.alone; rwa [hd] at this
        have hend := endDrain_quelled (o := if pieceTotal a ≤ a.beat * piecesPerBeat a.unit a.portWidth + a.piece then
          .performed else .stopped) (by split <;> simp) hone
        exact ⟨hend.1, .inr hend.2⟩
      · next hk =>
        have hc : ¬HeadIsData (clearAccess s) := fun hx => by
          have hd : inDrain s = false := by rw [inDrain, ha]; exact decide_eq_false (by rw [hk]; nofun)
          exact (h.headQuiet.resolve_left (by rw [hd]; nofun)) hx
        unfold endFetch
        rw [h.detached a ha hk]
        dsimp only
        rw [leaveDeadHeads_quiet (.inr hc)]
        exact ⟨(clearAccess_steady s).trans (settleTenure_steady _), .inr (settleTenure_headIsData hc)⟩
    · exact hsame
  · exact hsame

theorem endStoppedAccess_moves {s : State} (h : ∀ a, s.cbc.access = some a → a.kind = .fetch → a.slot = none) :
    MovesOn s (endStoppedAccess s) := by
  unfold endStoppedAccess
  split
  · next a ha =>
    split
    · split
      · exact endDrain_moves _ s (by split <;> simp)
      · next hk =>
        unfold endFetch
        rw [h a ha hk]
        exact moves_trans (moves_trans (clearAccess_moves s) (leaveDeadHeads_moves _)) (settleTenure_moves _)
    · exact moves_refl s
  · exact moves_refl s

/-- What is left of the event after a fault or a gate reset has emptied the gate: its state stays, and the windows change
only where they lose claims or are freed. -/
theorem settle_quelled {s : State} (hs : Stripped s) (h : Quelled s) (hg : s.gsc.state ≠ .quiescing) :
    (settle (endStoppedAccess s)).gsc = s.gsc ∧
      ∃ x, Steady s x ∧ (settle (endStoppedAccess s)).windows = (freeDrainedWindows x).windows := by
  obtain ⟨hsteady, hquiet⟩ := endStoppedAccess_quelled h
  obtain ⟨hgsc, hwindows⟩ := settle_quietHead ((endStoppedAccess_work s).stripped hs).stripped hquiet
    (by rw [hsteady.gate]; exact hg)
  exact ⟨hgsc.trans hsteady.gate, _, hsteady, hwindows⟩

end Sys2Proof.WindowTable
end

section
/-! A fault and a gate reset bring the gate down whatever its state was before (R46, R70, R87, R124), and a READY slot with a
damaged word is such a fault (R51, R121, R178). -/

namespace Sys2Proof.WindowTable

-- One proof after the other: the text is compiled as one file, within a limit on memory that each thread draws on.
set_option Elab.async false

open Sys2Proof Sys2Proof.Machine Sys2Proof.Safety

/-! ### The end of the lock -/

/-- A standing lock is broken, a hold on the card bus is given up, and a tenure held idle ends (R84, R87, R131, R136). -/
def lockEnded (held : Bool) (c : BreakCause) (s : State) : State := endIdleTenure held (releaseHold (breakLock c s))

section

variable {held : Bool} {c : BreakCause} {s : State}

theorem lockEnded_stripped (hs : ∀ i : SlotId, s.slots[i].state = .free) : Stripped (lockEnded held c s) where
  slots := by
    unfold lockEnded
    rw [endIdleTenure_slots, releaseHold_slots, breakLock_slots_free c hs]
    exact hs
  lock := by
    unfold lockEnded
    rw [endIdleTenure_lock, releaseHold_lock]
    cases h : lockStands s with
    | true => rw [Scope.breakLock_lock c s h]; rfl
    | false =>
      rw [breakLock, if_neg (by rw [h]; nofun)]
      simpa [lockStands] using h
  hold := by
    unfold lockEnded
    rw [endIdleTenure_arb_lockHold]
    unfold releaseHold
    split
    · rfl
    · next h => exact eq_false_of_ne_true h

theorem lockEnded_lock (h : LockRecordLegal s) : (lockEnded held c s).lock = Lock.powerOn := by
  unfold lockEnded
  rw [endIdleTenure_lock, releaseHold_lock, Scope.breakLock_free c h]

theorem lockEnded_length : (lockEnded held c s).pwq.entries.length = s.pwq.entries.length := by
  unfold lockEnded
  rw [endIdleTenure_pwq, releaseHold_pwq, breakLock_length]

theorem lockEnded_access : (lockEnded held c s).cbc.access = s.cbc.access := by
  unfold lockEnded
  rw [endIdleTenure_cbc_access, releaseHold_cbc_access, Scope.breakLock_cbc]

theorem breakLock_gsc : (breakLock c s).gsc = s.gsc := by
  unfold breakLock
  split
  · dsimp only
    split <;> simp
  · rfl

theorem lockEnded_gsc : (lockEnded held c s).gsc = s.gsc := by
  unfold lockEnded
  rw [endIdleTenure_gsc, releaseHold_gsc, breakLock_gsc]

theorem lockEnded_kept : Kept s (lockEnded held c s) :=
  kept_trans (kept_trans (breakLock_kept c s) (releaseHold_kept _)) (endIdleTenure_kept held _)

end

/-! ### The gate brought down -/

/-- The gate brought down to a state of its controller, with its lock broken for a cause. -/
def broughtDown (gate : GateController) (c : BreakCause) (s : State) : State :=
  lockEnded s.arb.lockHold c (emptiedTo gate s)

section

variable {gate : GateController} {c : BreakCause} {s : State}

theorem broughtDown_stripped : Stripped (broughtDown gate c s) := lockEnded_stripped (emptiedTo_free gate s)

theorem broughtDown_access : (broughtDown gate c s).cbc.access =
    s.cbc.access.map fun a => { a with stop := true, slot := none } := by
  unfold broughtDown
  rw [lockEnded_access, (emptiedTo_bus gate s).2.2]
  rfl

theorem inDrain_broughtDown : inDrain (broughtDown gate c s) = inDrain s := by
  unfold inDrain
  rw [broughtDown_access]
  cases s.cbc.access <;> rfl

theorem broughtDown_length : (broughtDown gate c s).pwq.entries.length ≤ if inDrain s then 1 else 0 := by
  unfold broughtDown
  rw [lockEnded_length, emptiedTo_entries]
  exact List.length_take_le _ _

theorem broughtDown_quelled : Quelled (broughtDown gate c s) where
  detached a ha _ := by
    rw [broughtDown_access] at ha
    obtain ⟨b, -, rfl⟩ := Option.map_eq_some_iff.mp ha
    rfl
  alone := by
    rw [inDrain_broughtDown]
    exact broughtDown_length

theorem broughtDown_gsc : (broughtDown gate c s).gsc = gate := by
  unfold broughtDown
  rw [lockEnded_gsc, (emptiedTo_record gate s).1]

theorem broughtDown_lock (h : LockRecordLegal s) : (broughtDown gate c s).lock = Lock.powerOn :=
  lockEnded_lock (by unfold LockRecordLegal; rw [(emptiedTo_bus gate s).2.1]; exact h)

theorem emptiedTo_kept (gate : GateController) (s : State) : Kept s (emptiedTo gate s) := by
  rw [← freeAllSlots_emptyQueue]
  have hg : Kept s { s with gsc := gate } := by constructor <;> simp
  exact kept_trans (kept_trans (kept_trans hg (markStop_kept _)) (emptyQueue_kept _)) (freeAllSlots_kept _)

theorem broughtDown_kept : Kept s (broughtDown gate c s) := kept_trans (emptiedTo_kept gate s) lockEnded_kept

/-- The reports of a gate brought down: at most LOCK BROKEN is added (R84). -/
theorem broughtDown_reports : ∃ before, before.length ≤ 1 ∧ (broughtDown gate c s).rq.reports = s.rq.reports ++ before := by
  have he : (emptiedTo gate s).rq.reports = s.rq.reports := by simp only [emptiedTo, slotsCleared, queueEmptied, stoppedTo]
  unfold broughtDown lockEnded
  rw [endIdleTenure_rq, releaseHold_rq]
  unfold breakLock
  split
  · dsimp only
    rw [offerReport_eq_offered]
    have hr (x : State) (hx : x.rq = (emptiedTo gate s).rq) (b : ReportBody) :
        ∃ before, before.length ≤ 1 ∧ (offered b x).rq.reports = s.rq.reports ++ before := by
      unfold offered
      split
      · exact ⟨[_], Nat.le_refl 1, by rw [hx, he]⟩
      · exact ⟨[], Nat.zero_le 1, by dsimp only; rw [hx, he, List.append_nil]⟩
    refine hr _ ?_ _
    split <;> simp
  · exact ⟨[], Nat.zero_le 1, by rw [he, List.append_nil]⟩

end

/-! ### What an event leaves that has brought the gate down -/

/-- What holds of a gate that was brought down, at the end of the event. -/
structure DownAtEnd (s y v : State) : Prop where
  gate : v.gsc = y.gsc
  slots : ∀ i : SlotId, v.slots[i].state = .free
  lock : v.lock.state = .free
  powerOn : y.lock = Lock.powerOn → v.lock = Lock.powerOn
  hold : v.arb.lockHold = false
  length : v.pwq.entries.length ≤ if inDrain s then 1 else 0
  notes : ∀ m : MasterId, v.masters[m].note = y.masters[m].note
  line : y.cu.attention = false → y.ti.serviceLine = false → v.ti.serviceLine = false
  kept : Kept y v
  reports : ∃ more, v.rq.reports = y.rq.reports ++ more

theorem settle_down {s y : State} (hs : Stripped y) (hq : Quelled y) (hd : inDrain y = inDrain s)
    (hg : y.gsc.state ≠ .quiescing) : DownAtEnd s y (settle (endStoppedAccess y)) := by
  have hw : Work y (settle (endStoppedAccess y)) := (endStoppedAccess_work y).trans (settle_work _)
  obtain ⟨hstripped, hlock, hnotes, hline, -⟩ := hw.stripped hs
  have hm := moves_trans (endStoppedAccess_moves hq.detached) (settle_moves (endStoppedAccess y))
  exact ⟨(settle_quelled hs hq hg).1, hstripped.slots, hstripped.lock, hlock, hstripped.hold,
    hm.queue.trans (by rw [← hd]; exact hq.alone), hnotes, hline, hw.kept, hm.reports⟩

/-! ### A failed buffer check -/

/-- The stop mark of a reset or a fault ends no access that has its operation outstanding (R124). -/
theorem endStoppedAccess_outstanding {s : State} (h : ∀ a, s.cbc.access = some a → a.op.isSome = true) :
    endStoppedAccess s = s := by
  unfold endStoppedAccess
  split
  · next a ha =>
    refine if_neg ?_
    have hop := h a ha
    cases ho : a.op with
    | none => rw [ho] at hop; cases hop
    | some p => simp
  · rfl

theorem faultGate_down (cause : FaultCause) (s : State) : ∃ b, faultGate cause s =
    freeDrainedWindows (offerReport b (broughtDown ⟨.faulted, cause, none⟩ .fault s)) := by
  refine ⟨faultBody cause (removedData (markStop (becomeFaulted cause s)))
    (removedControl (markStop (becomeFaulted cause s))), ?_⟩
  unfold faultGate broughtDown lockEnded
  rw [← freeAllSlots_emptyQueue]
  rfl

theorem faultGate_facts (cause : FaultCause) (s : State) : Stripped (faultGate cause s) ∧ Quelled (faultGate cause s) ∧
    inDrain (faultGate cause s) = inDrain s ∧ (faultGate cause s).gsc = ⟨.faulted, cause, none⟩ ∧
    (LockRecordLegal s → (faultGate cause s).lock = Lock.powerOn) := by
  obtain ⟨b, hb⟩ := faultGate_down cause s
  rw [hb]
  have ha := freeDrainedWindows_alone (offerReport b (broughtDown ⟨.faulted, cause, none⟩ .fault s))
  have hs := broughtDown_stripped (gate := ⟨.faulted, cause, none⟩) (c := .fault) (s := s)
  have hq := broughtDown_quelled (gate := ⟨.faulted, cause, none⟩) (c := .fault) (s := s)
  have hcbc := ha.cbc.trans (offerReport_cbc b _)
  have hin := inDrain_of_eq (congrArg Controller.access hcbc)
  refine ⟨hs.congr (ha.slots.trans (offerReport_slots _ _)) (ha.lock.trans (offerReport_lock _ _))
    (ha.arb.trans (offerReport_arb _ _)), ⟨?_, ?_⟩, hin.trans inDrain_broughtDown, ?_, fun h => ?_⟩
  · rw [hcbc]; exact hq.detached
  · rw [hin, ha.pwq, offerReport_pwq]; exact hq.alone
  · rw [ha.gsc, offerReport_gsc, broughtDown_gsc]
  · rw [ha.lock, offerReport_lock, broughtDown_lock h]

/-- The event goes on from the fault, in which no operation of the gate is outstanding that the stop mark would end. -/
theorem settle_faultGate (cause : FaultCause) {s : State} (hb : LockHoldsBus s) (ht : TenureLegal s) :
    SettlesTo (gateFaulted cause (causeCode cause) s) (settle (endStoppedAccess (faultGate cause s))) := by
  have heq := faultGate_eq cause hb
  obtain ⟨hs, hq, -⟩ := faultGate_facts cause s
  have hstop : endStoppedAccess (faultGate cause s) = faultGate cause s := by
    obtain ⟨b, hd⟩ := faultGate_down cause s
    refine endStoppedAccess_outstanding fun a ha => ?_
    rw [hd, (freeDrainedWindows_alone _).cbc, offerReport_cbc, broughtDown_access] at ha
    obtain ⟨a, hacc, rfl⟩ := Option.map_eq_some_iff.mp ha
    exact ht.2.2 a hacc
  have ha := windowsFreed_alone (gateFaulted cause (causeCode cause) s)
  rw [hstop]
  rw [heq] at hs hq ⊢
  rw [settle_windowsFreed]
  · exact settle_settlesTo _
  · exact hs.congr ha.slots.symm ha.lock.symm ha.arb.symm
  · refine hq.headQuiet.imp (by rw [inDrain_of_eq (congrArg _ ha.cbc)]; exact id) fun h hd => h ?_
    exact headIsData_congr (congrArg _ ha.pwq) hd

theorem returnTo_damaged {i : SlotId} {s : State} {words : List CheckedWord} (hr : s.slots[i].state = .ready)
    (hd : s.slots[i].data = some words) (hbad : words.all wordAgrees = false) :
    returnTo i s = answer .refuse (settle (endStoppedAccess (faultGate .slotCheck s))) := by
  have hwords : slotWords s.slots[i] = words := by rw [slotWords, hd]; rfl
  unfold returnTo
  rw [hr]
  dsimp only
  unfold returnReady
  dsimp only
  rw [hwords, if_neg (by rw [hbad]; nofun)]

theorem noteTaken_outside (t : Txn) (s : State) : (noteTaken t s).arb = s.arb ∧ (noteTaken t s).cbc = s.cbc ∧
    (noteTaken t s).rq = s.rq := by
  unfold noteTaken
  split
  · exact ⟨rfl, rfl, rfl⟩
  · exact ⟨rfl, rfl, rfl⟩

/-- Settles O19: the slot's damaged word brings the gate down, whatever its state was. -/
theorem damagedSlotFaultsTheGate : Obligations.DamagedSlotFaultsTheGate := by
  intro s w m a u k n i words t hp hg hl hmatch hready hdata hbad
  have hx := exec_passing hp hg hl
  have hslot : (noteTaken t s).slots = s.slots := noteTaken_slots t s
  have hdamaged : words.all wordAgrees = false := by
    obtain ⟨c, hc, hcode⟩ := hbad
    exact List.all_eq_false.mpr ⟨c, hc, fun h => hcode ((codeAgrees_iff c.word c.code).mp h)⟩
  have hanswer : lastStep w t (noteTaken t s) =
      answer .refuse (settle (endStoppedAccess (faultGate .slotCheck (noteTaken t s)))) := by
    change readStep w t (noteTaken t s) = _
    rw [readStep, matchingSlot_of_eq t hslot, hmatch]
    dsimp only
    exact returnTo_damaged (by rw [hslot]; exact hready) (by rw [hslot]; exact hdata) hdamaged
  obtain ⟨harb, hcbc, hrq⟩ := noteTaken_outside t s
  obtain ⟨hs, hq, hin, hgsc, hlock⟩ := faultGate_facts .slotCheck (noteTaken t s)
  have hdown := settle_down hs hq rfl (by rw [hgsc]; simp)
  have hk : Kept s (settle (endStoppedAccess (faultGate .slotCheck (noteTaken t s)))) := by
    have hnote : Kept s (noteTaken t s) := by
      unfold noteTaken
      split
      · exact kept_modMaster t.master (fun e => { e with note := none }) (fun _ => rfl) s
      · exact kept_refl s
    exact kept_trans (kept_trans hnote (faultGate_kept _ _)) hdown.kept
  obtain ⟨first, hfirst⟩ := (faultGate_moves .slotCheck (noteTaken t s)).reports
  obtain ⟨more, hmore⟩ := hdown.reports
  refine ⟨_, hx.trans (congrArg Host.Outcome.next hanswer), ?_, hdown.gate.trans hgsc, hdown.slots, hdown.lock, ?_, hdown.hold,
    ?_, hk.cu, hk.accepted, ⟨first ++ more, ?_⟩, hk.windows, hk.masters⟩
  · intro hb ht
    refine settle_faultGate .slotCheck ?_ ?_
    · unfold LockHoldsBus; rw [harb, noteTaken_lock]; exact hb
    · unfold TenureLegal; rw [harb, hcbc]; exact ht
  · exact fun h => hdown.powerOn (hlock (by unfold LockRecordLegal; rw [noteTaken_lock]; exact h))
  · refine hdown.length.trans (Nat.le_of_eq ?_)
    rw [hin, inDrain_of_eq (congrArg _ hcbc)]
  · rw [hmore, hfirst, hrq, List.append_assoc]

end Sys2Proof.WindowTable
end

section
/-! A gate reset: KEEP leaves the configuration, CLEAR writes the defaults (R46, R70, R76, R87, R137, R147, R171). -/

namespace Sys2Proof.WindowTable

-- One proof after the other: the text is compiled as one file, within a limit on memory that each thread draws on.
set_option Elab.async false

open Sys2Proof Sys2Proof.Machine Sys2Proof.Safety

/-! ### CLEAR -/

/-- `t` differs from `s` at most in the grant, the gate's tenure and the choices taken. -/
def GrantAlone (s t : State) : Prop :=
  ∃ (state : ArbState) (pointer : Requester) (overstay : Option Timer) (tenure : Bool) (count : Nat),
    t = { s with
      arb.state := state, arb.pointer := pointer, arb.overstay := overstay, cbc.tenure := tenure, freeCount := count }

/-- All that new arbitration settings can change beyond themselves (R132). -/
theorem settingsTakeEffect_shape (before : PortSet) (s : State) : GrantAlone s (settingsTakeEffect before s) := by
  have hsame : GrantAlone s s := ⟨_, _, _, _, _, rfl⟩
  have hdecision : GrantAlone s (decision s) := by
    obtain ⟨st, p, o, te, h⟩ := decision_shape s
    exact ⟨st, p, o, te, s.freeCount, h⟩
  unfold settingsTakeEffect
  split
  · exact hdecision
  · split
    · exact hsame
    · split
      · exact ⟨_, _, _, _, _, rfl⟩
      · exact hdecision
  · split
    · unfold heedHoldByChoice
      split
      · exact ⟨_, _, _, _, _, rfl⟩
      · exact ⟨_, _, _, _, _, rfl⟩
    · exact hsame
  · exact hsame

/-- CLEAR: the configuration is cleared, the settings take effect, and the control unit's record is the default but for the
manager (R107, R132, R137, R147, R162). -/
theorem clearConfiguration_eq (s : State) : clearConfiguration s =
    { settingsTakeEffect s.arb.enabled (configurationCleared s) with
      cu := { ControlUnit.powerOn with manager := s.cu.manager }, ti.serviceLine := false } := by
  have hcleared : { { clearWindows s with masters := mapTable (clearWindows s).masters defaultMaster } with
      arb.policy := .last, arb.highWater := Config.highWaterDefault, arb.enabled := ⟨true, true, true⟩ } =
      configurationCleared s := by
    have hentries : s.pwq.entries.map unnamed = s.pwq.entries.map fun
        | .data d => .data { d with names := false }
        | .control c => .control c := List.map_congr_left fun e _ => by cases e <;> rfl
    unfold clearWindows configurationCleared
    rw [hentries]
    rfl
  have hsettings : writeSettings .last Config.highWaterDefault ⟨true, true, true⟩
      { clearWindows s with masters := mapTable (clearWindows s).masters defaultMaster } =
      settingsTakeEffect s.arb.enabled (configurationCleared s) := by
    unfold writeSettings
    rw [hcleared]
    rfl
  unfold clearConfiguration
  dsimp only
  rw [hsettings]
  obtain ⟨st, p, o, te, n, h⟩ := settingsTakeEffect_shape s.arb.enabled (configurationCleared s)
  rw [h]
  rfl

/-! ### The gate emptied by a reset -/

/-- What a gate reset has made of the gate before its notice. -/
def resetDone (clear : Bool) (s : State) : State :=
  if clear then clearConfiguration (clearNotes (broughtDown ⟨.standby, .none, none⟩ .reset s))
  else clearNotes (broughtDown ⟨.standby, .none, none⟩ .reset s)

theorem resetKept_def (s : State) : resetDone false s = clearNotes (broughtDown ⟨.standby, .none, none⟩ .reset s) :=
  if_neg nofun

theorem gateReset_eq (clear : Bool) (s : State) : gateReset clear s =
    settle (endStoppedAccess (offerReport (gateNotice (if clear then 4 else 3) s) (resetDone clear s))) := by
  have hin : inDrain (markStop { s with gsc := ⟨.standby, .none, none⟩ }) = inDrain s :=
    inDrain_stoppedTo ⟨.standby, .none, none⟩ s
  have hnotice : resetNoticeBody (if clear then .gateClear else .gateKeep)
      (removedData (markStop { s with gsc := ⟨.standby, .none, none⟩ }))
      (removedControl (markStop { s with gsc := ⟨.standby, .none, none⟩ })) = gateNotice (if clear then 4 else 3) s := by
    unfold removedData removedControl
    rw [removedEntries_eq, hin]
    cases clear <;> rfl
  unfold gateReset
  dsimp only
  rw [hnotice, freeAllSlots_emptyQueue]
  cases clear <;> rfl

theorem breakLock_space (c : BreakCause) (s : State) : (breakLock c s).rq.space = s.rq.space := by
  unfold breakLock
  split
  · dsimp only
    split <;> simp
  · rfl

theorem broughtDown_space {gate : GateController} {c : BreakCause} {s : State} :
    (broughtDown gate c s).rq.space = .none := by
  unfold broughtDown lockEnded
  rw [endIdleTenure_rq, releaseHold_rq, breakLock_space, (emptiedTo_record gate s).2]

/-- What holds of the gate that a reset has emptied, whatever its state was. -/
structure ResetFacts (s x : State) : Prop where
  stripped : Stripped x
  quelled : Quelled x
  drain : inDrain x = inDrain s
  gate : x.gsc = ⟨.standby, .none, none⟩
  lock : LockRecordLegal s → x.lock = Lock.powerOn
  notes : ∀ m : MasterId, x.masters[m].note = none
  accepted : x.pwq.accepted = s.pwq.accepted
  manager : x.cu.manager = s.cu.manager
  lines : x.lines = s.lines
  timebase : x.timebase = s.timebase
  reports : ∃ before, before.length ≤ 1 ∧ x.rq.reports = s.rq.reports ++ before
  space : x.rq.space = .none

theorem resetKept_facts (s : State) : ResetFacts s (resetDone false s) := by
  have hs := broughtDown_stripped (gate := ⟨.standby, .none, none⟩) (c := .reset) (s := s)
  have hq := broughtDown_quelled (gate := ⟨.standby, .none, none⟩) (c := .reset) (s := s)
  have hk := broughtDown_kept (gate := ⟨.standby, .none, none⟩) (c := .reset) (s := s)
  have hin := inDrain_broughtDown (gate := ⟨.standby, .none, none⟩) (c := .reset) (s := s)
  have hg := broughtDown_gsc (gate := ⟨.standby, .none, none⟩) (c := .reset) (s := s)
  have hl := broughtDown_lock (gate := ⟨.standby, .none, none⟩) (c := .reset) (s := s)
  have hr := broughtDown_reports (gate := ⟨.standby, .none, none⟩) (c := .reset) (s := s)
  have hspace := broughtDown_space (gate := ⟨.standby, .none, none⟩) (c := .reset) (s := s)
  rw [resetKept_def]
  generalize broughtDown ⟨.standby, .none, none⟩ .reset s = x at *
  have hnote (m : MasterId) : (clearNotes x).masters[m].note = none := by
    rw [clearNotes]
    dsimp only
    rw [mapTable_get]
  have hd : inDrain (clearNotes x) = inDrain x := inDrain_of_eq (by rw [clearNotes_cbc])
  constructor
  case stripped => exact hs.congr (clearNotes_slots x) (clearNotes_lock x) (clearNotes_arb x)
  case quelled => exact ⟨by rw [clearNotes_cbc]; exact hq.detached, by rw [hd, clearNotes_pwq]; exact hq.alone⟩
  case drain => rw [hd, hin]
  case gate => rw [clearNotes_gsc, hg]
  case lock => rw [clearNotes_lock]; exact hl
  case notes => exact hnote
  case accepted => rw [clearNotes_pwq]; exact hk.accepted
  case manager => rw [clearNotes_cu, hk.cu]
  case lines => rw [clearNotes_lines, hk.lines]
  case timebase => rw [clearNotes_timebase, hk.timebase]
  case reports => rw [clearNotes_rq]; exact hr
  case space => rw [clearNotes_rq]; exact hspace

/-- The clearing of the configuration writes the two tables, the names of the queued entries and the settings alone. -/
theorem configurationCleared_frame (s : State) : (configurationCleared s).slots = s.slots ∧
    (configurationCleared s).lock = s.lock ∧ (configurationCleared s).cbc = s.cbc ∧ (configurationCleared s).gsc = s.gsc ∧
    (configurationCleared s).rq = s.rq ∧ (configurationCleared s).lines = s.lines ∧
    (configurationCleared s).timebase = s.timebase := by
  simp only [configurationCleared, and_self]

theorem configurationCleared_queue (s : State) : (configurationCleared s).pwq.entries.length = s.pwq.entries.length ∧
    (configurationCleared s).pwq.accepted = s.pwq.accepted := by
  simp only [configurationCleared, List.length_map, and_self]

theorem configurationCleared_arb (s : State) : (configurationCleared s).arb =
    { s.arb with policy := .last, highWater := 24, enabled := ⟨true, true, true⟩ } := by
  simp only [configurationCleared]

theorem configurationCleared_tables (s : State) :
    (∀ w : WindowId, (configurationCleared s).windows[w] = Window.powerOn) ∧
    (∀ m : MasterId, masterConfig (configurationCleared s).masters[m] = (.opened, 4, 2, 0, 0) ∧
      (configurationCleared s).masters[m].note = s.masters[m].note) := by
  unfold configurationCleared
  dsimp only
  exact ⟨fun w => by simp, fun m => by rw [mapTable_get]; exact ⟨rfl, rfl⟩⟩

theorem resetCleared_eq (s : State) : resetDone true s =
    { settingsTakeEffect (resetDone false s).arb.enabled (configurationCleared (resetDone false s)) with
      cu := { ControlUnit.powerOn with manager := (resetDone false s).cu.manager }, ti.serviceLine := false } :=
  (if_pos rfl).trans (clearConfiguration_eq _)

theorem resetCleared_facts (s : State) : ResetFacts s (resetDone true s) := by
  obtain ⟨hs, hq, hd, hg, hl, hn, ha, hm, hli, ht, hr, hsp⟩ := resetKept_facts s
  rw [resetCleared_eq]
  generalize resetDone false s = x at *
  obtain ⟨hslots, hlock, hcbc, hgsc, hrq, hlines, htime⟩ := configurationCleared_frame x
  obtain ⟨hlength, haccepted⟩ := configurationCleared_queue x
  have harb := configurationCleared_arb x
  have hnotes := (configurationCleared_tables x).2
  have hdrain : inDrain (configurationCleared x) = inDrain x := inDrain_of_eq (congrArg _ hcbc)
  generalize configurationCleared x = y at *
  obtain ⟨st, p, o, te, n, h⟩ := settingsTakeEffect_shape x.arb.enabled y
  rw [h]
  constructor
  case stripped => exact ⟨by rw [hslots]; exact hs.slots, by rw [hlock]; exact hs.lock, by rw [harb]; exact hs.hold⟩
  case quelled =>
    exact ⟨by dsimp only; rw [hcbc]; exact hq.detached,
      hlength.le.trans (hq.alone.trans (by rw [← hdrain]; exact Nat.le_refl _))⟩
  case drain => exact hdrain.trans hd
  case gate => exact hgsc.trans hg
  case lock => exact fun hr => hlock.trans (hl hr)
  case notes => exact fun m => (hnotes m).2.trans (hn m)
  case accepted => exact haccepted.trans ha
  case manager => exact hm
  case lines => exact hlines.trans hli
  case timebase => exact htime.trans ht
  case reports => dsimp only; rw [hrq]; exact hr
  case space => dsimp only; rw [hrq]; exact hsp

theorem resetDone_facts (clear : Bool) (s : State) : ResetFacts s (resetDone clear s) := by
  cases clear with
  | false => exact resetKept_facts s
  | true => exact resetCleared_facts s

/-! ### The notice and the rest of the event -/

/-- The RESET NOTICE finds a place where two were free before, since LOCK BROKEN takes one at most (R166, R171). -/
theorem ResetFacts.notice {s x : State} (h : ResetFacts s x) (b : ReportBody) (hfree : s.rq.reports.length + 2 ≤ 16) :
    ∃ before n k, (offerReport b x).rq.reports = s.rq.reports ++ before ++ [⟨n, k, b⟩] := by
  obtain ⟨before, hone, hr⟩ := h.reports
  have hheld : heldPlaces x = 0 := by unfold heldPlaces; rw [h.space]; rfl
  refine ⟨before, x.rq.nextSeq, x.rq.suppressed, ?_⟩
  rw [offerReport_eq_offered, offered, if_pos]
  · exact congrArg (· ++ _) hr
  · rw [hheld, hr, List.length_append]
    omega

theorem Stripped.offered {s : State} (h : Stripped s) (b : ReportBody) : Stripped (offerReport b s) :=
  h.congr (offerReport_slots b s) (offerReport_lock b s) (offerReport_arb b s)

theorem inDrain_offered (b : ReportBody) (s : State) : inDrain (offerReport b s) = inDrain s :=
  inDrain_of_eq (congrArg _ (offerReport_cbc b s))

theorem Quelled.offered {s : State} (h : Quelled s) (b : ReportBody) : Quelled (offerReport b s) :=
  ⟨by rw [offerReport_cbc]; exact h.detached, by rw [inDrain_offered, offerReport_pwq]; exact h.alone⟩

theorem gateReset_down (clear : Bool) (s : State) :
    DownAtEnd s (offerReport (gateNotice (if clear then 4 else 3) s) (resetDone clear s)) (gateReset clear s) := by
  have h := resetDone_facts clear s
  rw [gateReset_eq]
  exact settle_down (h.stripped.offered _) (h.quelled.offered _) ((inDrain_offered _ _).trans h.drain)
    (by rw [offerReport_gsc, h.gate]; simp)

end Sys2Proof.WindowTable
end

section
/-! RESET GATE (R146, R147): what the reset leaves, in every state and in a lawful one. -/

namespace Sys2Proof.WindowTable

-- One proof after the other: the text is compiled as one file, within a limit on memory that each thread draws on.
set_option Elab.async false

open Sys2Proof Sys2Proof.Machine Sys2Proof.Safety

/-! ### A resident that owns the grant -/

/-- The arbiter's record of a resident's ownership. -/
def ResidentOwns (s : State) (p : Port) : Prop :=
  s.arb.state = .tenure (.port p) ∨ ∃ inTenure, s.arb.state = .locked (.port p) inTenure

theorem requestArrives_resident {s : State} {p : Port} (h : ResidentOwns s p) : requestArrives .gate s = s := by
  unfold requestArrives
  obtain h | ⟨inTenure, h⟩ := h
  · rw [h]
  · rw [h]
    exact if_neg (by simp)

/-- While a resident owns the grant the gate at most raises its request, and the arbiter does nothing (R126). -/
theorem settle_resident {s : State} {p : Port} (ha : s.cbc.access = none) (ht : s.cbc.tenure = false) (h : ResidentOwns s p) :
    (settle s).arb = s.arb := by
  have hreview {x : State} (hx : x.cbc.tenure = false) (ho : ResidentOwns x p) :
      (reviewRequest x).arb = x.arb ∧ (reviewRequest x).cbc.tenure = false := by
    unfold reviewRequest
    rw [if_neg (by rw [hx]; nofun)]
    split
    · split
      · exact ⟨rfl, hx⟩
      · rw [requestArrives_resident (s := { x with cbc.request := true }) ho]
        exact ⟨rfl, hx⟩
    · exact ⟨rfl, hx⟩
  have hrun (n : Nat) {x : State} (hxa : x.cbc.access = none) (hx : x.cbc.tenure = false) (ho : ResidentOwns x p) :
      (runBus n x).arb = x.arb := by
    obtain ⟨harb, htenure⟩ := hreview hx ho
    cases n with
    | zero => rfl
    | succ n =>
      unfold runBus
      rw [if_neg (by rw [hxa]; nofun), if_neg (by rw [hx]; nofun)]
      dsimp only
      rw [if_neg (by rw [htenure]; nofun)]
      exact harb
  have hover (x : State) : (finishEvent x).arb = x.arb := by
    unfold finishEvent
    rw [askForPlace_arb, testQuiesce_arb, (freeDrainedWindows_alone x).arb]
  rw [settle, hover, settleBus, leaveDeadHeads_eq, hrun]
  · exact headsGone_arb s
  · rw [headsGone_cbc]; exact ha
  · rw [headsGone_cbc]; exact ht
  · unfold ResidentOwns
    rw [headsGone_arb]
    exact h

/-- While a resident owns the grant the gate holds nothing of the bus (R109, R127, R131). -/
theorem resident_bus {s : State} {p : Port} (h : ResidentOwns s p) (hb : LockHoldsBus s) (ht : TenureLegal s) :
    s.arb.lockHold = false ∧ s.cbc.tenure = false ∧ s.cbc.access = none := by
  have htenure : s.cbc.tenure = false := eq_false_of_ne_true fun hx => by
    obtain h | ⟨inTenure, h⟩ := h <;> have := ht.1.mp hx <;> rw [h] at this <;> simp at this
  refine ⟨eq_false_of_ne_true fun hx => ?_, htenure, Option.not_isSome_iff_eq_none.mp fun hx => ?_⟩
  · obtain h | ⟨inTenure, h⟩ := h <;> have := hb.2.1.mp hx <;> rw [h] at this <;> simp at this
  · rw [ht.2.1 hx] at htenure
    cases htenure

/-! ### In a state that meets the laws of the bus -/

theorem resetDone_access (clear : Bool) (s : State) : (resetDone clear s).cbc.access =
    s.cbc.access.map fun a => { a with stop := true, slot := none } := by
  have hkept : (resetDone false s).cbc.access = s.cbc.access.map fun a => { a with stop := true, slot := none } := by
      rw [resetKept_def, clearNotes_cbc, broughtDown_access]
  cases clear with
  | false => exact hkept
  | true =>
    rw [resetCleared_eq, ← hkept]
    generalize resetDone false s = x
    have hcbc := (configurationCleared_frame x).2.2.1
    generalize configurationCleared x = y at *
    obtain ⟨st, p, o, te, n, h⟩ := settingsTakeEffect_shape x.arb.enabled y
    rw [h, ← hcbc]

theorem gateReset_settlesTo (clear : Bool) {s : State} (ht : TenureLegal s) :
    SettlesTo (offered (gateNotice (if clear then 4 else 3) s) (resetDone clear s)) (gateReset clear s) := by
  rw [gateReset_eq, endStoppedAccess_outstanding, ← offerReport_eq_offered]
  · exact settle_settlesTo _
  · intro a ha
    rw [offerReport_cbc, resetDone_access] at ha
    obtain ⟨b, hb, rfl⟩ := Option.map_eq_some_iff.mp ha
    exact ht.2.2 b hb

theorem broughtDown_reset {gate : GateController} {s : State} (hb : LockHoldsBus s) :
    broughtDown gate .reset s = lockBroken 4 (emptiedTo gate s) := emptiedTo_breakEnds .reset gate hb

theorem resetKept_eq {s : State} (hb : LockHoldsBus s) : resetDone false s = gateEmptied s := by
  rw [resetKept_def, broughtDown_reset hb]
  rfl

theorem resetKept_resident {s : State} {p : Port} (h : ResidentOwns s p) (hb : LockHoldsBus s) (ht : TenureLegal s) :
    (resetDone false s).arb = s.arb ∧ (resetDone false s).cbc.tenure = false := by
  obtain ⟨hl, htenure, -⟩ := resident_bus h hb ht
  obtain ⟨harb, hlock, hcbc⟩ := emptiedTo_bus ⟨.standby, .none, none⟩ s
  obtain ⟨hxc, hxa⟩ := lockBroken_bus 4 (s := emptiedTo ⟨.standby, .none, none⟩ s)
    (by unfold LockHoldsBus; rw [harb, hlock]; exact hb)
  have hgone : holdGone (emptiedTo ⟨.standby, .none, none⟩ s) = emptiedTo ⟨.standby, .none, none⟩ s := by
    have hx : (emptiedTo ⟨.standby, .none, none⟩ s).arb.lockHold = false := by rw [harb, hl]
    exact (if_neg fun hc => by rw [hx] at hc; cases hc.1).trans (if_neg (by rw [hx]; nofun))
  rw [resetKept_def, clearNotes_arb, clearNotes_cbc, broughtDown_reset hb, hxa, hxc, hgone, harb, hcbc]
  exact ⟨rfl, htenure⟩

/-! ### What KEEP and CLEAR leave of the configuration -/

theorem clearNotes_kept (s : State) : Kept s (clearNotes s) := by
  constructor <;> simp
  intro m
  rw [clearNotes]
  dsimp only
  rw [← Fin.getElem_fin, mapTable_get]
  rfl

theorem resetKept_kept (s : State) : Kept s (resetDone false s) := by
  rw [resetKept_def]
  exact kept_trans broughtDown_kept (clearNotes_kept _)

/-- The defaults that CLEAR writes (R23, R107, R137, R162). -/
structure Defaults (manager : Option MasterId) (s : State) : Prop where
  cu : s.cu = { ControlUnit.powerOn with manager := manager }
  line : s.ti.serviceLine = false
  policy : s.arb.policy = .last
  highWater : s.arb.highWater = 24
  enabled : s.arb.enabled = ⟨true, true, true⟩
  windows : ∀ w : WindowId, s.windows[w] = Window.powerOn
  masters : ∀ m : MasterId, masterConfig s.masters[m] = (.opened, 4, 2, 0, 0)

theorem resetCleared_defaults (s : State) : Defaults s.cu.manager (resetDone true s) := by
  have hm := (resetKept_facts s).manager
  rw [resetCleared_eq, ← hm]
  generalize resetDone false s = x
  have harb := configurationCleared_arb x
  obtain ⟨hw, hmasters⟩ := configurationCleared_tables x
  generalize configurationCleared x = y at *
  obtain ⟨st, p, o, te, n, h⟩ := settingsTakeEffect_shape x.arb.enabled y
  rw [h]
  constructor
  case cu => rfl
  case line => rfl
  case policy => dsimp only; rw [harb]
  case highWater => dsimp only; rw [harb]
  case enabled => dsimp only; rw [harb]
  case windows => exact hw
  case masters => exact fun m => (hmasters m).1

theorem powerOn_of_lowered {e : Window} (h : Lowered Window.powerOn e) (hc : windowConfig e = windowConfig Window.powerOn) :
    e = Window.powerOn := by
  obtain ⟨hstate, hfrozen, htag, hdiscards, hrefs⟩ := h
  simp only [windowConfig, Prod.mk.injEq] at hc
  obtain ⟨h1, h2, h3, h4, h5, h6, h7, h8⟩ := hc
  have hr : e.refCount = 0 := Nat.le_zero.mp hrefs
  cases e
  simp only at *
  subst_vars
  rfl

/-- The windows stay at their defaults: the end of the event can only lower claims, and finds none. -/
theorem gateReset_windows (s : State) (w : WindowId) : (gateReset true s).windows[w] = Window.powerOn := by
  have hf := resetDone_facts true s
  have hd := resetCleared_defaults s
  have hk := (gateReset_down true s).kept.windows w
  rw [gateReset_eq] at hk ⊢
  have hx : ∀ w : WindowId, (offerReport (gateNotice (if true then 4 else 3) s) (resetDone true s)).windows[w] =
      Window.powerOn := fun w => by rw [offerReport_windows]; exact hd.windows w
  obtain ⟨-, x, hsteady, hwindows⟩ := settle_quelled (hf.stripped.offered (gateNotice (if true then 4 else 3) s))
    (hf.quelled.offered _) (by rw [offerReport_gsc, hf.gate]; simp)
  have hlow := hsteady.windows w
  rw [hx w] at hlow hk
  have hget : (settle (endStoppedAccess (offerReport (gateNotice (if true then 4 else 3) s) (resetDone true s)))).windows[w] =
      x.windows[w] := by
    rw [hwindows, freeDrainedWindows_get, if_neg]
    unfold drained
    rw [hlow.state]
    simp [Window.powerOn]
  rw [hget] at hk ⊢
  exact powerOn_of_lowered hlow hk

theorem settingsTakeEffect_resident (before : PortSet) {s : State} {p : Port} (h : ResidentOwns s p)
    (he : portOf s.arb.enabled p = true) : ResidentOwns (settingsTakeEffect before s) p ∧
      (settingsTakeEffect before s).arb.pointer = s.arb.pointer ∧
      (settingsTakeEffect before s).arb.overstay = s.arb.overstay ∧ (settingsTakeEffect before s).cbc = s.cbc := by
  have hsame : ResidentOwns s p ∧ s.arb.pointer = s.arb.pointer ∧ s.arb.overstay = s.arb.overstay ∧ s.cbc = s.cbc :=
    ⟨h, rfl, rfl, rfl⟩
  have h' := h
  unfold settingsTakeEffect
  obtain h' | ⟨inTenure, h'⟩ := h'
  · rw [h']
    dsimp only
    split
    · unfold heedHoldByChoice
      split
      · exact ⟨.inl h', rfl, rfl, rfl⟩
      · exact ⟨.inr ⟨true, rfl⟩, rfl, rfl, rfl⟩
    · exact hsame
  · rw [h']
    dsimp only
    rw [if_pos he]
    exact hsame

/-- A resident that owns the grant keeps it through the reset, with the pointer and its overstay timer (R137). -/
theorem resetDone_resident (clear : Bool) {s : State} {p : Port} (h : ResidentOwns s p) (hb : LockHoldsBus s)
    (ht : TenureLegal s) : ResidentOwns (resetDone clear s) p ∧ (resetDone clear s).arb.pointer = s.arb.pointer ∧
      (resetDone clear s).arb.overstay = s.arb.overstay ∧ (resetDone clear s).cbc.tenure = false := by
  obtain ⟨harb, htenure⟩ := resetKept_resident h hb ht
  cases clear with
  | false => unfold ResidentOwns; rw [harb]; exact ⟨h, rfl, rfl, htenure⟩
  | true =>
    rw [resetCleared_eq, ← harb]
    have ho : ResidentOwns (resetDone false s) p := by unfold ResidentOwns; rw [harb]; exact h
    generalize resetDone false s = x at *
    have hyarb := configurationCleared_arb x
    have hycbc := (configurationCleared_frame x).2.2.1
    generalize configurationCleared x = y at *
    obtain ⟨hyo, hpointer, hoverstay, hcbc⟩ := settingsTakeEffect_resident (s := y) (p := p) x.arb.enabled
      (by unfold ResidentOwns; rw [hyarb]; exact ho) (by rw [hyarb]; cases p <;> rfl)
    refine ⟨hyo, ?_, ?_, ?_⟩
    · dsimp only; rw [hpointer, hyarb]
    · dsimp only; rw [hoverstay, hyarb]
    · dsimp only; rw [hcbc, hycbc]; exact htenure

theorem gateReset_resident (clear : Bool) {s : State} {p : Port} (h : ResidentOwns s p) (hb : LockHoldsBus s)
    (ht : TenureLegal s) : (gateReset clear s).arb = (resetDone clear s).arb := by
  obtain ⟨-, -, hnone⟩ := resident_bus h hb ht
  obtain ⟨ho, -, -, htenure⟩ := resetDone_resident clear h hb ht
  have ha : (offerReport (gateNotice (if clear then 4 else 3) s) (resetDone clear s)).cbc.access = none := by
    rw [offerReport_cbc, resetDone_access, hnone]
    rfl
  rw [gateReset_eq, endStoppedAccess_outstanding (fun a hx => by rw [ha] at hx; cases hx), settle_resident (p := p) ha,
    offerReport_arb]
  · rw [offerReport_cbc, htenure]
  · unfold ResidentOwns
    rw [offerReport_arb]
    exact ho

/-! ### The command -/

/-- RESET GATE is served for every master while no manager is set, and for the manager (R140, R146). -/
theorem exec_resetGate_served {s : State} {m : MasterId} {d : CheckedWord} (h : s.gsc.state ≠ .reset)
    (hd : wordAgrees d = true) (hm : s.cu.manager = none ∨ s.cu.manager = some m) :
    exec (.resetGate m d) s = .next (resetGateWord d.word s) := by
  have hserved : refusedOp s m (.resetGate d.word) = false := by
    unfold refusedOp refusedInFault managerOnly resetGateBarred
    obtain hm | hm := hm <;> rw [hm] <;> simp
  rw [exec_resetGate s m d h hd, serveOp, hserved]
  rfl

theorem resetGateWord_reset {data : Word} (h : data = 0 ∨ data = 1) (s : State) :
    resetGateWord data s = answer (.done []) (gateReset (decide (data = 1)) s) := by
  unfold resetGateWord
  obtain rfl | rfl := h <;> rfl

theorem gateReset_notice (clear : Bool) {s : State} (hfree : s.rq.reports.length + 2 ≤ 16) :
    ∃ before after n x, (gateReset clear s).rq.reports =
      s.rq.reports ++ before ++ [⟨n, x, gateNotice (if clear then 4 else 3) s⟩] ++ after := by
  obtain ⟨before, n, x, hnotice⟩ := (resetDone_facts clear s).notice (gateNotice (if clear then 4 else 3) s) hfree
  obtain ⟨after, hafter⟩ := (gateReset_down clear s).reports
  exact ⟨before, after, n, x, by rw [hafter, hnotice]⟩

/-- In a state that meets the laws of the bus, CLEAR's settings act on the arbiter's present state (R132, R137). -/
theorem gateReset_cleared {s : State} (hb : LockHoldsBus s) :
    resetDone true s = { settingsTakeEffect s.arb.enabled (configurationCleared (gateEmptied s)) with
      cu := { ControlUnit.powerOn with manager := s.cu.manager }, ti.serviceLine := false } := by
  have hk := resetKept_kept s
  rw [resetCleared_eq, hk.enabled, hk.cu, resetKept_eq hb]

/-- Settles O28: the gate is emptied whatever its state was, and the rest of the event takes nothing up again. -/
theorem resetGateKeepsOrClears : Obligations.ResetGateKeepsOrClears := by
  intro s m d hne hd hm
  have hexec := exec_resetGate_served hne hd hm
  refine ⟨fun h0 h1 => hexec.trans (by rw [resetGateWord, if_neg h0, if_neg h1]; rfl), ?_⟩
  intro hword removed
  rw [resetGateWord_reset hword] at hexec
  have hremoved : removed = s.pwq.entries.drop (if inDrain s then 1 else 0) := removedEntries_eq s
  have hkeep : d.word = 0 → decide (d.word = 1) = false := fun h => by rw [h]; rfl
  have hclear : d.word = 1 → decide (d.word = 1) = true := fun h => by rw [h]; rfl
  have hcode : (if d.word = 0 then 3 else 4) = if decide (d.word = 1) = true then 4 else 3 := by
    obtain h | h := hword <;> rw [h] <;> rfl
  generalize decide (d.word = 1) = clear at hexec hkeep hclear hcode
  have hf := resetDone_facts clear s
  have hdown := gateReset_down clear s
  have hnotice := fun hfree => gateReset_notice clear (s := s) hfree
  have hwindows := gateReset_windows s
  have hsettles := fun ht : TenureLegal s => gateReset_settlesTo clear ht
  have hresident := fun p (h : ResidentOwns s p) (hb : LockHoldsBus s) (ht : TenureLegal s) => gateReset_resident clear h hb ht
  have hcleared : clear = true → ∀ w : WindowId, (gateReset clear s).windows[w] = Window.powerOn := fun h => by
    rw [h]; exact hwindows
  clear hwindows
  generalize gateReset clear s = v at *
  refine ⟨_, hexec, rfl, hdown.gate.trans ((offerReport_gsc _ _).trans hf.gate), hdown.slots, hdown.lock,
    fun h => hdown.powerOn ((offerReport_lock _ _).trans (hf.lock h)), hdown.hold, hdown.length, fun k => ?_,
    hdown.kept.accepted.trans (by rw [offerReport_pwq, hf.accepted]),
    (congrArg ControlUnit.manager hdown.kept.cu).trans (by rw [offerReport_cu, hf.manager]),
    hdown.kept.lines.trans ((offerReport_lines _ _).trans hf.lines),
    hdown.kept.timebase.trans ((offerReport_timebase _ _).trans hf.timebase), fun hfree => ?_, fun h => ?_, fun h => ?_,
    fun hb ht => ⟨v, rfl, fun h => ?_, fun h => ?_, fun p ho => ?_⟩⟩
  · exact (hdown.notes k).trans (by rw [offerReport_masters, hf.notes])
  · rw [hcode, hremoved]
    exact hnotice hfree
  · obtain rfl := hkeep h
    have hk : Kept s v := kept_trans (kept_trans (resetKept_kept s) (offerReport_kept _ _)) hdown.kept
    exact ⟨hk.cu, hk.policy, hk.highWater, hk.enabled, hk.windows, hk.masters⟩
  · obtain rfl := hclear h
    have hdef := resetCleared_defaults s
    have hk := hdown.kept
    have hcu : (offerReport (gateNotice 4 s) (resetDone true s)).cu = _ := (offerReport_cu _ _).trans hdef.cu
    have hline : (offerReport (gateNotice 4 s) (resetDone true s)).ti.serviceLine = false :=
      (offerReport_line _ _).elim (·.trans hdef.line) (·.trans (by rw [hdef.cu]; rfl))
    refine ⟨hk.cu.trans hcu, hdown.line (congrArg ControlUnit.attention hcu) hline, hk.policy.trans ?_, hk.highWater.trans ?_,
      hk.enabled.trans ?_, hcleared rfl, fun k => (hk.masters k).trans ?_⟩
    · rw [offerReport_arb, hdef.policy]
    · rw [offerReport_arb, hdef.highWater]
    · rw [offerReport_arb, hdef.enabled]
    · rw [offerReport_masters]; exact hdef.masters k
  · obtain rfl := hkeep h
    rw [← resetKept_eq hb]
    exact hsettles ht
  · obtain rfl := hclear h
    refine ⟨_, settingsTakeEffect_taken _ _, ?_⟩
    have hs := hsettles ht
    rw [gateReset_cleared hb] at hs
    exact hs
  · have harb := hresident p ho hb ht
    obtain ⟨howns, hpointer, hoverstay, -⟩ := resetDone_resident clear ho hb ht
    unfold ResidentOwns at howns
    rw [← harb] at hpointer hoverstay howns
    refine ⟨fun h => ?_, hpointer, hoverstay, howns⟩
    obtain rfl := hkeep h
    exact harb.trans (resetKept_resident ho hb ht).1

end Sys2Proof.WindowTable
end

section
/-! A trunk reset keeps the queue and drops the slots, the lock, the notes and the manager (R24, R45, R70, R76, R87, R108,
R123, R136, R162, R171, R180). -/

namespace Sys2Proof.WindowTable

-- One proof after the other: the text is compiled as one file, within a limit on memory that each thread draws on.
set_option Elab.async false

open Sys2Proof Sys2Proof.Machine Sys2Proof.Safety

/-! ### The gate after the reset, before its notice -/

/-- The gate's state changes first, and a fetch in flight is detached and stopped (R123, R180, R181). -/
def trunkStopped (s : State) : State := detachFetch { s with gsc := trunkResetState s.gsc }

/-- The slots, the lock and the notes are gone (R70, R76, R87). -/
def trunkBroken (s : State) : State :=
  clearNotes (lockEnded s.arb.lockHold .reset (slotsCleared (trunkStopped s)))

/-- The RESET NOTICE of a trunk reset (R171, R186). -/
def trunkNotice : ReportBody := ⟨.resetNotice, none, none, none, none, none, 2⟩

/-- What a trunk reset has made of the gate before the rest of its event (R162, R171). -/
def trunkDone (s : State) : State := offerReport trunkNotice (dropManager (trunkBroken s))

theorem trunkReset_eq (s : State) : trunkReset s = settle (endStoppedAccess (trunkDone s)) := by
  have hslots : freeAllSlots (trunkStopped s) = slotsCleared (trunkStopped s) := freeAllSlots_eq _
  unfold trunkDone trunkBroken lockEnded
  rw [← hslots]
  rfl

/-- Clearing the slots leaves the rest of the gate as it is. -/
theorem slotsCleared_frame (s : State) : (slotsCleared s).lock = s.lock ∧ (slotsCleared s).arb = s.arb ∧
    (slotsCleared s).cbc = s.cbc ∧ (slotsCleared s).pwq = s.pwq ∧ (slotsCleared s).gsc = s.gsc ∧ (slotsCleared s).rq = s.rq := by
  simp only [slotsCleared, and_self]

theorem slotsCleared_frozen (s : State) (w : WindowId) : (slotsCleared s).windows[w].frozen = s.windows[w].frozen := by
  simp only [slotsCleared, ofFn_get]

theorem slotsCleared_kept (s : State) : Kept s (slotsCleared s) := by
  rw [← freeAllSlots_eq]
  exact freeAllSlots_kept s

theorem trunkStopped_kept (s : State) : Kept s (trunkStopped s) := by
  have hg : Kept s { s with gsc := trunkResetState s.gsc } := by constructor <;> simp
  exact kept_trans hg (detachFetch_kept _)

theorem trunkBroken_kept (s : State) : Kept s (trunkBroken s) :=
  kept_trans (kept_trans (kept_trans (trunkStopped_kept s) (slotsCleared_kept _)) lockEnded_kept) (clearNotes_kept _)

theorem trunkBroken_stripped (s : State) : Stripped (trunkBroken s) := by
  have h := lockEnded_stripped (held := s.arb.lockHold) (c := .reset) (slotsCleared_free (trunkStopped s))
  unfold trunkBroken
  exact h.congr (clearNotes_slots _) (clearNotes_lock _) (clearNotes_arb _)

theorem trunkBroken_note (s : State) (m : MasterId) : (trunkBroken s).masters[m].note = none := by
  unfold trunkBroken
  rw [clearNotes]
  dsimp only
  rw [mapTable_get]

theorem trunkBroken_lock {s : State} (h : LockRecordLegal s) : (trunkBroken s).lock = Lock.powerOn := by
  unfold trunkBroken
  rw [clearNotes_lock, lockEnded_lock]
  unfold LockRecordLegal
  rw [(slotsCleared_frame _).1]
  exact h

theorem trunkBroken_gsc (s : State) : (trunkBroken s).gsc = trunkResetState s.gsc := by
  unfold trunkBroken
  rw [clearNotes_gsc, lockEnded_gsc, (slotsCleared_frame _).2.2.2.2.1]
  rfl

theorem trunkBroken_access (s : State) : (trunkBroken s).cbc.access =
    s.cbc.access.map fun a => if a.kind = .fetch then stopped a else a := by
  unfold trunkBroken
  rw [clearNotes_cbc, lockEnded_access, (slotsCleared_frame _).2.2.1]
  rfl

theorem trunkBroken_reports (s : State) : ∃ more, (trunkBroken s).rq.reports = s.rq.reports ++ more := by
  obtain ⟨more, h⟩ := (breakLock_moves .reset (slotsCleared (trunkStopped s))).reports
  refine ⟨more, ?_⟩
  unfold trunkBroken lockEnded
  rw [clearNotes_rq, endIdleTenure_rq, releaseHold_rq, h, (slotsCleared_frame _).2.2.2.2.2]
  rfl

/-- With no lock standing there is nothing to break (R83). -/
theorem trunkBroken_unlocked {s : State} (h : s.lock.state = .free) : trunkBroken s =
    clearNotes (endIdleTenure s.arb.lockHold (releaseHold (slotsCleared (trunkStopped s)))) := by
  have hstands : lockStands (slotsCleared (trunkStopped s)) = false := by
    unfold lockStands
    rw [(slotsCleared_frame _).1]
    exact bne_eq_false_iff_eq.mpr h
  unfold trunkBroken lockEnded
  rw [breakLock, if_neg (by rw [hstands]; nofun)]

theorem trunkBroken_pwq {s : State} (h : s.lock.state = .free) : (trunkBroken s).pwq = s.pwq := by
  rw [trunkBroken_unlocked h, clearNotes_pwq, endIdleTenure_pwq, releaseHold_pwq, (slotsCleared_frame _).2.2.2.1]
  rfl

theorem trunkBroken_frozen {s : State} (h : s.lock.state = .free) (w : WindowId) :
    (trunkBroken s).windows[w].frozen = s.windows[w].frozen := by
  rw [trunkBroken_unlocked h, clearNotes_windows, endIdleTenure_windows, releaseHold_windows, slotsCleared_frozen]
  rfl

theorem trunkBroken_length (s : State) : (trunkBroken s).pwq.entries.length = s.pwq.entries.length := by
  unfold trunkBroken
  rw [clearNotes_pwq, lockEnded_length, (slotsCleared_frame _).2.2.2.1]
  rfl

/-! ### The notice -/

/-- The control unit's record after a trunk reset: no manager, and attention off (R162). -/
theorem dropManager_eq (s : State) : dropManager s =
    { s with cu := { s.cu with manager := none, attention := false }, ti.serviceLine := false } := rfl

/-- The control unit's record and the notice are all that follows the end of the lock. -/
theorem trunkDone_frame (s : State) : (trunkDone s).slots = (trunkBroken s).slots ∧ (trunkDone s).lock = (trunkBroken s).lock ∧
    (trunkDone s).cbc = (trunkBroken s).cbc ∧ (trunkDone s).arb = (trunkBroken s).arb ∧
    (trunkDone s).pwq = (trunkBroken s).pwq ∧ (trunkDone s).gsc = (trunkBroken s).gsc ∧
    (trunkDone s).windows = (trunkBroken s).windows ∧ (trunkDone s).masters = (trunkBroken s).masters := by
  unfold trunkDone
  simp [dropManager]

theorem trunkDone_outside (s : State) : (trunkDone s).timebase = s.timebase ∧ (trunkDone s).lines = s.lines ∧
    (trunkDone s).pending = s.pending ∧ (trunkDone s).ti.slotNumber = s.ti.slotNumber := by
  have hk := trunkBroken_kept s
  unfold trunkDone
  rw [← hk.timebase, ← hk.lines, ← hk.pending, ← hk.slotNumber]
  simp [dropManager]

theorem trunkDone_cu (s : State) : (trunkDone s).cu = { s.cu with manager := none, attention := false } := by
  unfold trunkDone
  rw [offerReport_cu, dropManager_eq, (trunkBroken_kept s).cu]

theorem trunkDone_line (s : State) : (trunkDone s).ti.serviceLine = false :=
  (offerReport_line trunkNotice (dropManager (trunkBroken s))).elim id id

theorem trunkDone_reports (s : State) : ∃ more, (trunkDone s).rq.reports = s.rq.reports ++ more := by
  obtain ⟨more, h⟩ := trunkBroken_reports s
  obtain ⟨notice, hn⟩ := (offerReport_moves trunkNotice (dropManager (trunkBroken s))).reports
  exact ⟨more ++ notice, hn.trans (by rw [← List.append_assoc, ← h]; rfl)⟩

theorem trunkDone_stripped (s : State) : Stripped (trunkDone s) := by
  obtain ⟨hslots, hlock, -, harb, -⟩ := trunkDone_frame s
  exact (trunkBroken_stripped s).congr hslots hlock harb

theorem trunkDone_gsc (s : State) : (trunkDone s).gsc = trunkResetState s.gsc := by
  rw [(trunkDone_frame s).2.2.2.2.2.1, trunkBroken_gsc]

theorem trunkDone_access (s : State) : (trunkDone s).cbc.access =
    s.cbc.access.map fun a => if a.kind = .fetch then stopped a else a := by
  rw [(trunkDone_frame s).2.2.1, trunkBroken_access]

theorem inDrain_trunkDone (s : State) : inDrain (trunkDone s) = inDrain s := by
  unfold inDrain
  rw [trunkDone_access]
  cases s.cbc.access with
  | none => rfl
  | some a =>
    dsimp only [Option.map_some]
    split <;> rfl

/-- A fetch that the reset has detached names no slot (R123). -/
theorem trunkDone_detached {s : State} {a : Access} (h : (trunkDone s).cbc.access = some a) (hk : a.kind = .fetch) :
    a.slot = none := by
  rw [trunkDone_access] at h
  obtain ⟨b, -, rfl⟩ := Option.map_eq_some_iff.mp h
  by_cases hb : b.kind = .fetch
  · rw [if_pos hb]; rfl
  · rw [if_neg hb] at hk
    exact absurd hk hb

/-- An operation outstanding outlives the reset (R123). -/
theorem trunkDone_outstanding {s : State} (h : ∀ a, s.cbc.access = some a → a.op.isSome = true) :
    endStoppedAccess (trunkDone s) = trunkDone s := by
  refine endStoppedAccess_outstanding fun a ha => ?_
  rw [trunkDone_access] at ha
  obtain ⟨b, hb, rfl⟩ := Option.map_eq_some_iff.mp ha
  split
  · exact h b hb
  · exact h b hb

theorem trunkResetState_eq {g : GateController} (h : g.state ≠ .reset) : trunkResetState g =
    match g.state with
    | .faulted => { g with quiesceTag := none }
    | _ => ⟨.standby, .none, none⟩ := by
  unfold trunkResetState
  cases hs : g.state with
  | reset => exact absurd hs h
  | standby => rfl
  | enabled => rfl
  | quiescing => rfl
  | faulted => rfl

theorem trunkResetState_notQuiescing (g : GateController) : (trunkResetState g).state ≠ .quiescing := by
  unfold trunkResetState
  split <;> simp_all

/-! ### The rest of the event -/

/-- With an operation outstanding the card bus does nothing more in the event. -/
theorem settle_trunkDone_busy {s : State} {a : Access} (ha : s.cbc.access = some a) (ho : a.op.isSome = true) :
    trunkReset s = eventOver (headsGone (trunkDone s)) := by
  have hstop : endStoppedAccess (trunkDone s) = trunkDone s := trunkDone_outstanding fun b hb => by
    rw [ha] at hb
    cases hb
    exact ho
  rw [trunkReset_eq, hstop]
  exact settle_busy (by rw [trunkDone_access, ha]; rfl)

theorem eventOver_pwq (s : State) : (eventOver s).pwq = s.pwq := by
  rw [← finishEvent_eq]
  unfold finishEvent
  rw [askForPlace_pwq, testQuiesce_pwq, (freeDrainedWindows_alone s).pwq]

/-- A queue whose head is dealt with stays as it is (R45). -/
theorem trunkReset_pwq {s : State} {a : Access} (ha : s.cbc.access = some a) (ho : a.op.isSome = true)
    (hl : s.lock.state = .free) (hh : HeadSettled s) : (trunkReset s).pwq = s.pwq := by
  obtain ⟨-, -, -, -, hpwq, -, hwindows, -⟩ := trunkDone_frame s
  have hq : (trunkDone s).pwq = s.pwq := hpwq.trans (trunkBroken_pwq hl)
  have hstays : HeadStays (trunkDone s) := (headStays_of_settled hh).of_eq (by rw [hq])
    (fun w h => by rw [hwindows, trunkBroken_frozen hl] at h; exact h) fun h => by rw [inDrain_trunkDone]; exact h
  rw [settle_trunkDone_busy ha ho, headsGone_none _ hstays, eventOver_pwq, hq]

/-- A FAULTED gate keeps its cause where no drain can start in the event. -/
theorem trunkReset_gsc {s : State} (h : s.pwq.entries = [] ∨ ∃ a, s.cbc.access = some a ∧ a.op.isSome = true) :
    (trunkReset s).gsc = trunkResetState s.gsc := by
  have hg : (trunkDone s).gsc.state ≠ .quiescing := by rw [trunkDone_gsc]; exact trunkResetState_notQuiescing _
  obtain he | ⟨a, ha, ho⟩ := h
  · have hq : Quelled (trunkDone s) := by
      refine ⟨fun a ha hk => trunkDone_detached ha hk, ?_⟩
      rw [(trunkDone_frame s).2.2.2.2.1, trunkBroken_length, he]
      exact Nat.zero_le _
    rw [trunkReset_eq, (settle_quelled (trunkDone_stripped s) hq hg).1, trunkDone_gsc]
  · rw [settle_trunkDone_busy ha ho, ← finishEvent_eq, finishEvent_gsc (by rw [headsGone_gsc]; exact hg), headsGone_gsc,
      trunkDone_gsc]

end Sys2Proof.WindowTable
end

section
/-! A trunk reset in a lawful state, and the statement about it (R87, R180). -/

namespace Sys2Proof.WindowTable

-- One proof after the other: the text is compiled as one file, within a limit on memory that each thread draws on.
set_option Elab.async false

open Sys2Proof Sys2Proof.Machine Sys2Proof.Safety

/-! ### A break leaves the queue no new head to offer -/

theorem voided_data {e : Entry} {d : DataEntry} (h : voided e = .data d) (hv : d.void = false) : e = .data d := by
  cases e with
  | control c => cases h
  | data x =>
    have hd : { x with void := x.void || decide (x.seq ≠ .none) } = d := by simpa [voided] using h
    have hvoid : (x.void || decide (x.seq ≠ .none)) = false := by rw [← hv, ← hd]
    rw [Bool.or_eq_false_iff] at hvoid
    have hsame : (x.void || decide (x.seq ≠ .none)) = x.void := by rw [hvoid.1, hvoid.2]; rfl
    rw [← hd, hsame]

theorem breakDone_frozen (code : Nat) (s x : State) (w : WindowId) :
    (breakDone code s x).windows[w].frozen = x.windows[w].frozen := by
  unfold breakDone
  rw [offered_windows_eq]
  simp only [slotsWithdrawn, ofFn_get]

/-- A break marks entries void and offers none (R40). -/
theorem lockBrokenInTenure_offers (code : Nat) {s : State} {d : DataEntry} (h : Offers (lockBrokenInTenure code s) d) :
    Offers s d := by
  unfold lockBrokenInTenure at h
  split at h
  · exact h
  · obtain ⟨rest, he, hin, hv, hf⟩ := h
    have hd : inDrain s = false := by
      rw [← hin]
      exact inDrain_of_eq (by rw [breakDone_cbc, holdDropped_cbc])
    rw [breakDone_entries, hd] at he
    rw [breakDone_frozen, holdDropped_eq] at hf
    cases hs : s.pwq.entries with
    | nil => rw [hs] at he; cases he
    | cons e tail =>
      rw [hs] at he
      exact ⟨tail, by rw [hs, voided_data (List.cons.inj he).1 hv], hd, hv, hf⟩

theorem slotsCleared_offers {s : State} {d : DataEntry} (h : Offers (slotsCleared s) d) : Offers s d := by
  obtain ⟨rest, he, hin, hv, hf⟩ := h
  obtain ⟨-, -, hcbc, hpwq, -⟩ := slotsCleared_frame s
  rw [slotsCleared_frozen] at hf
  exact ⟨rest, by rw [← hpwq]; exact he, by rw [← hin]; exact (inDrain_of_eq (congrArg _ hcbc)).symm, hv, hf⟩

/-! ### In a lawful state -/

/-- The reset's break ends a tenure held idle, which had no candidate and gets none (R118, R131, R136). -/
theorem trunkBroken_eq {s : State} (hb : LockHoldsBus s) (ht : TenureLegal s) (hi : IdleTenureHeld s) :
    trunkBroken s = clearNotes (lockBroken 4 (slotsCleared (trunkStopped s))) := by
  obtain ⟨hlock, harb, hcbc, -⟩ := slotsCleared_frame (trunkStopped s)
  have harb' : (slotsCleared (trunkStopped s)).arb = s.arb := harb
  have hbus : LockHoldsBus (slotsCleared (trunkStopped s)) := by unfold LockHoldsBus; rw [harb', hlock]; exact hb
  have hends := breakEnds .reset hbus fun ha hl => by
    rw [harb'] at hl
    have hnone : s.cbc.access = none := by
      rw [hcbc] at ha
      exact Option.map_eq_none_iff.mp ha
    have hidle := (hi hnone (ht.1.mpr (.inr (hb.2.1.mp hl)))).2
    refine noCandidate_of_free (lockBrokenInTenure_slots_free _ (slotsCleared_free _)) fun d hd => ?_
    have ho : Offers (trunkStopped s) d := slotsCleared_offers (lockBrokenInTenure_offers _ hd)
    have hos : Offers s d := by
      obtain ⟨rest, he, -, hv, hf⟩ := ho
      exact ⟨rest, he, by unfold inDrain; rw [hnone], hv, hf⟩
    exact (hasCandidate_eq_false s).mp hidle (.inr ⟨d, hos⟩)
  rw [harb'] at hends
  exact congrArg clearNotes hends

/-- While a resident owns the grant a trunk reset leaves the arbiter alone (R136). -/
theorem trunkReset_resident {s : State} {p : Port} (h : ResidentOwns s p) (hb : LockHoldsBus s) (ht : TenureLegal s) :
    (trunkReset s).arb = s.arb := by
  obtain ⟨hl, htenure, hnone⟩ := resident_bus h hb ht
  have hi : IdleTenureHeld s := fun _ hx => by rw [htenure] at hx; cases hx
  obtain ⟨hlock, harb, hcbc, -⟩ := slotsCleared_frame (trunkStopped s)
  have harb' : (slotsCleared (trunkStopped s)).arb = s.arb := harb
  obtain ⟨hxc, hxa⟩ := lockBroken_bus 4 (s := slotsCleared (trunkStopped s))
    (by unfold LockHoldsBus; rw [harb', hlock]; exact hb)
  have hgone : holdGone (slotsCleared (trunkStopped s)) = slotsCleared (trunkStopped s) := by
    have hx : (slotsCleared (trunkStopped s)).arb.lockHold = false := by rw [harb', hl]
    exact (if_neg fun hc => by rw [hx] at hc; cases hc.1).trans (if_neg (by rw [hx]; nofun))
  obtain ⟨-, -, hdc, hda, -⟩ := trunkDone_frame s
  have hda' : (trunkDone s).arb = s.arb := by
    rw [hda, trunkBroken_eq hb ht hi, clearNotes_arb, hxa, hgone, harb']
  have hda'' : (trunkDone s).cbc.tenure = false := by
    rw [hdc, trunkBroken_eq hb ht hi, clearNotes_cbc, hxc, hgone, hcbc]
    exact htenure
  rw [trunkReset_eq, trunkDone_outstanding (fun a ha => by rw [hnone] at ha; cases ha),
    settle_resident (p := p) (by rw [trunkDone_access, hnone]; rfl) hda'' (by unfold ResidentOwns; rw [hda']; exact h), hda']

theorem trunkResetState_faulted {g : GateController} (h : g.state = .faulted) :
    trunkResetState g = { g with quiesceTag := none } := by
  unfold trunkResetState
  rw [h]

theorem trunkResetState_standby {g : GateController} (hr : g.state ≠ .reset) (hf : g.state ≠ .faulted) :
    trunkResetState g = ⟨.standby, .none, none⟩ := by
  unfold trunkResetState
  cases hs : g.state with
  | reset => exact absurd hs hr
  | standby => rfl
  | enabled => rfl
  | quiescing => rfl
  | faulted => exact absurd hs hf

/-- Settles O8: the reset drops what it drops in every state; the queue goes on as the laws of the bus let it. -/
theorem trunkResetKeepsTheQueueAndDropsTheRest : Obligations.TrunkResetKeepsTheQueueAndDropsTheRest := by
  intro s hne gate detached broken
  have hgate : trunkResetState s.gsc = gate := trunkResetState_eq hne
  have hexec : exec .trunkReset s = .next (trunkReset s) := by
    change Host.Outcome.next (if s.gsc.state = .reset then s else trunkReset s) = _
    rw [if_neg hne]
  have hw : Work (trunkDone s) (trunkReset s) := by
    rw [trunkReset_eq]
    exact (endStoppedAccess_work _).trans (settle_work _)
  have hk := Work.kept hw
  have hb := trunkBroken_kept s
  obtain ⟨hstripped, hlock, hnotes, hline, hgsc⟩ := hw.stripped (trunkDone_stripped s)
  obtain ⟨-, hdlock, -, hdarb, hdpwq, -, hdwindows, hdmasters⟩ := trunkDone_frame s
  obtain ⟨htime, hlines, hpending, hslot⟩ := trunkDone_outside s
  have hreports : ∃ more, (trunkReset s).rq.reports = s.rq.reports ++ more := by
    obtain ⟨first, hfirst⟩ := trunkDone_reports s
    obtain ⟨more, hmore⟩ := (moves_trans (endStoppedAccess_moves fun a ha hk => trunkDone_detached ha hk)
      (settle_moves (endStoppedAccess (trunkDone s)))).reports
    exact ⟨first ++ more, by rw [trunkReset_eq, hmore, hfirst, List.append_assoc]⟩
  have hends : (trunkReset s).gsc = gate ∨ (trunkReset s).gsc = ⟨.faulted, .queueCheck, none⟩ := by
    rw [trunkDone_gsc, hgate] at hgsc
    refine hgsc.imp_right fun h => h.resolve_left ?_
    rw [← hgate]
    exact trunkResetState_notQuiescing _
  refine ⟨_, hexec, fun hbus ht hi => ?_, hk.cu.trans (trunkDone_cu s), hline (by rw [trunkDone_cu]) (trunkDone_line s),
    hstripped.slots, hstripped.lock, fun h => hlock (hdlock.trans (trunkBroken_lock h)), hstripped.hold, fun m => ⟨?_, ?_⟩,
    fun w => ?_, ?_, hreports, fun a ha ho hl hh => trunkReset_pwq ha ho hl hh, fun p ho hbus ht => trunkReset_resident ho hbus ht,
    hk.policy.trans ?_, hk.highWater.trans ?_, hk.enabled.trans ?_, hk.timebase.trans htime, hk.slotNumber.trans hslot,
    hk.lines.trans hlines, hk.pending.trans hpending, fun hf => ?_, fun hf => ?_⟩
  · have hstopped : trunkStopped s = { s with gsc := gate, cbc.access := s.cbc.access.map detached } := by
      rw [← hgate]
      rfl
    have hdone : trunkDone s = offered trunkNotice
        { broken with
          masters := mapTable broken.masters fun e => { e with note := none }
          cu := { s.cu with manager := none, attention := false }
          ti.serviceLine := false } := by
      have heq : trunkBroken s = clearNotes broken := by rw [trunkBroken_eq hbus ht hi, hstopped]
      have hcu : broken.cu = s.cu := by rw [← hb.cu, heq, clearNotes_cu]
      rw [trunkDone, offerReport_eq_offered, dropManager_eq, heq, clearNotes_cu, hcu]
      rfl
    have hsettles := settle_settlesTo (trunkDone s)
    rw [trunkReset_eq, trunkDone_outstanding ht.2.2]
    rw [hdone] at hsettles ⊢
    exact hsettles
  · rw [hnotes, hdmasters, trunkBroken_note]
  · rw [hk.masters, hdmasters, hb.masters]
  · rw [hk.windows, hdwindows, hb.windows]
  · rw [hk.accepted, hdpwq, hb.accepted]
  · rw [hdarb, hb.policy]
  · rw [hdarb, hb.highWater]
  · rw [hdarb, hb.enabled]
  · have hg : gate = { s.gsc with quiesceTag := none } := hgate.symm.trans (trunkResetState_faulted hf)
    rw [hg] at hends
    refine ⟨?_, ?_, fun h => by rw [trunkReset_gsc h, trunkResetState_faulted hf]⟩
    · exact hends.elim (fun h => (congrArg GateController.state h).trans hf) (congrArg GateController.state)
    · exact hends.elim (congrArg GateController.quiesceTag) (congrArg GateController.quiesceTag)
  · have hg : gate = ⟨.standby, .none, none⟩ := hgate.symm.trans (trunkResetState_standby hne hf)
    rwa [hg] at hends

end Sys2Proof.WindowTable
end

section
/-! The balance of the posted write queue's counters (R41) through the gate's internal work. -/

namespace Sys2Proof.PostedWrites

-- One proof after the other: the text is compiled as one file, within a limit on memory that each thread draws on.
set_option Elab.async false

open Sys2Proof Sys2Proof.Machine Sys2Proof.Safety

/-! ### The balance -/

/-- Which of the entries are data entries, head first. -/
def kinds (q : WriteQueue) : List Bool := q.entries.map isData

/-- By how much the accepted counter is ahead of the performed and the dropped counter and the data count (R41). -/
def balance (q : WriteQueue) : BitVec 32 :=
  q.accepted - (q.performed + q.dropped + BitVec.ofNat 32 ((kinds q).count true))

theorem count_kinds (l : List Entry) : (l.map isData).count true = l.countP isData := by
  rw [List.count, List.countP_map]
  exact List.countP_congr fun e _ => by simp

theorem countersAgree_iff (s : State) : CountersAgree s ↔ balance s.pwq = 0 := by
  rw [CountersAgree, balance, dataCount, kinds, count_kinds, sub_eq_zero]

theorem balance_of_kinds {q r : WriteQueue} (ha : r.accepted = q.accepted) (hp : r.performed = q.performed)
    (hd : r.dropped = q.dropped) (hk : kinds r = kinds q) : balance r = balance q := by
  rw [balance, balance, ha, hp, hd, hk]

theorem kinds_of_entries {q : WriteQueue} {e : Entry} {rest : List Entry} (h : q.entries = e :: rest) :
    kinds q = isData e :: rest.map isData := by rw [kinds, h]; rfl

/-! ### Entries that leave -/

theorem removeHead_pwq (s : State) : (removeHead s).pwq = { s.pwq with entries := s.pwq.entries.tail } := by
  unfold removeHead
  split
  · next he => rw [he, List.tail_nil, ← he]
  · next e rest he => rw [entryClaims_pwq, he]; rfl

/-- A data entry that leaves the head puts the accepted counter ahead by one; a control entry does not (R37, R41). -/
theorem removeHead_balance {s : State} {b : Bool} {l : List Bool} (h : kinds s.pwq = b :: l) :
    balance (removeHead s).pwq = balance s.pwq + if b then 1 else 0 := by
  have ht : kinds (removeHead s).pwq = l := by
    rw [removeHead_pwq, kinds, List.map_tail, show s.pwq.entries.map isData = b :: l from h, List.tail_cons]
  rw [balance, balance, ht, h, removeHead_pwq]
  cases b with
  | true =>
    rw [List.count_cons_self, BitVec.ofNat_add, if_pos rfl]
    bv_omega
  | false => rw [List.count_cons_of_ne (by decide), if_neg (by decide), add_zero]

theorem countDropped_balance (s : State) : balance (countDropped s).pwq = balance s.pwq - 1 := by
  unfold balance countDropped kinds
  bv_omega

theorem countPerformed_balance (s : State) : balance (countPerformed s).pwq = balance s.pwq - 1 := by
  unfold balance countPerformed kinds
  bv_omega

/-- A data entry that is counted as dropped and leaves the head leaves the balance as it was. -/
theorem dropHead_balance {s : State} {d : DataEntry} {rest : List Entry} (he : s.pwq.entries = .data d :: rest) :
    balance (removeHead (countDropped s)).pwq = balance s.pwq := by
  have hk : kinds (countDropped s).pwq = true :: rest.map isData := kinds_of_entries he
  rw [removeHead_balance hk, countDropped_balance, if_pos rfl, BitVec.sub_add_cancel]

theorem dropDeadHeads_balance (n : Nat) (s : State) : balance (dropDeadHeads n s).pwq = balance s.pwq := by
  induction n generalizing s with
  | zero => rfl
  | succ n ih =>
    unfold dropDeadHeads
    split
    · next d rest he =>
      split
      · rfl
      · split
        · rw [ih, dropHead_balance he]
        · split
          · rw [ih, dropHead_balance (s := countDiscard d.window s) he, countDiscard_pwq]
          · rfl
    · rfl

@[simp] theorem leaveDeadHeads_balance (s : State) : balance (leaveDeadHeads s).pwq = balance s.pwq :=
  dropDeadHeads_balance _ s

/-- The entries removed at once count as dropped, as many of them as are data entries (R46). -/
@[simp] theorem emptyQueue_balance (s : State) : balance (emptyQueue s).pwq = balance s.pwq := by
  rw [WindowTable.emptyQueue_eq]
  unfold queueEmptied balance kinds
  dsimp only
  generalize (if inDrain s = true then 1 else 0) = n
  conv_rhs => rw [← List.take_append_drop n s.pwq.entries, List.map_append, List.count_append, BitVec.ofNat_add]
  rw [count_kinds (s.pwq.entries.drop n)]
  bv_omega

@[simp] theorem freeDrainedWindows_pwq (s : State) : (freeDrainedWindows s).pwq = s.pwq :=
  (WindowTable.freeDrainedWindows_alone s).pwq

theorem finishEvent_pwq (s : State) : (finishEvent s).pwq = s.pwq := by
  rw [finishEvent, askForPlace_pwq, testQuiesce_pwq, freeDrainedWindows_pwq]

/-! ### Breaks of the lock -/

/-- Queue `r` counts as queue `q` does: the same counters, and data and control entries in the same places. -/
structure SameCount (q r : WriteQueue) : Prop where
  accepted : r.accepted = q.accepted
  performed : r.performed = q.performed
  dropped : r.dropped = q.dropped
  kinds : kinds r = kinds q

theorem SameCount.of_eq {q r : WriteQueue} (h : r = q) : SameCount q r := by subst h; exact ⟨rfl, rfl, rfl, rfl⟩

theorem SameCount.trans {q r u : WriteQueue} (h : SameCount q r) (k : SameCount r u) : SameCount q u :=
  ⟨k.accepted.trans h.accepted, k.performed.trans h.performed, k.dropped.trans h.dropped, k.kinds.trans h.kinds⟩

theorem SameCount.balance {q r : WriteQueue} (h : SameCount q r) : balance r = balance q :=
  balance_of_kinds h.accepted h.performed h.dropped h.kinds

/-- A sequence entry that is made void stays a data entry (R40). -/
theorem markVoid_count (s : State) : SameCount s.pwq (markVoid s).pwq := by
  have hv (l : List Entry) : (l.map voided).map isData = l.map isData := by
    rw [List.map_map]
    exact List.map_congr_left fun e _ => by cases e <;> rfl
  rw [WindowTable.markVoid_eq]
  refine ⟨rfl, rfl, rfl, ?_⟩
  unfold PostedWrites.kinds
  rw [List.map_append, hv, ← List.map_append, List.take_append_drop]

theorem breakLock_count (c : BreakCause) (s : State) : SameCount s.pwq (breakLock c s).pwq := by
  unfold breakLock
  split
  · dsimp only
    rw [offerReport_pwq, noteBreak_pwq]
    refine (SameCount.of_eq ?_).trans (markVoid_count _)
    rw [withdrawLockedSlot_pwq]
    split <;> simp
  · exact .of_eq rfl

@[simp] theorem breakLock_balance (c : BreakCause) (s : State) : balance (breakLock c s).pwq = balance s.pwq :=
  (breakLock_count c s).balance

theorem drainBegins_count (d : DataEntry) (s : State) : SameCount s.pwq (drainBegins d s).pwq := by
  unfold drainBegins raceCloseTimer
  split
  · split
    · exact .of_eq (by simp)
    · exact breakLock_count _ (takeChoice s)
  · exact .of_eq (by simp)

theorem freezeOnError_count (d : DataEntry) (k : ErrorKind) (a : CardAddr) (s : State) :
    SameCount s.pwq (freezeOnError d k a s).pwq := by
  unfold freezeOnError
  dsimp only
  split
  · split
    · exact (SameCount.of_eq (by simp)).trans (breakLock_count _ _)
    · exact .of_eq (by simp)
  · exact .of_eq rfl

/-- A failed buffer check empties the queue, and what is dropped is counted (R46, R178). -/
@[simp] theorem faultGate_balance (c : FaultCause) (s : State) : balance (faultGate c s).pwq = balance s.pwq := by
  simp [faultGate, WindowTable.freeAllSlots_pwq]

/-! ### Accesses -/

/-- The counter of a drain's outcome rises by one, before its entry leaves (R36, R41). -/
theorem drainConsequences_balance (o : DrainOutcome) (d : DataEntry) (s : State) :
    balance (drainConsequences o d s).pwq = balance s.pwq - 1 ∧ kinds (drainConsequences o d s).pwq = kinds s.pwq := by
  cases o with
  | performed => exact ⟨countPerformed_balance s, rfl⟩
  | stopped => exact ⟨countDropped_balance s, rfl⟩
  | checkFailed => exact ⟨countDropped_balance s, rfl⟩
  | cutOff k a =>
    have hf := freezeOnError_count d k a (offerReport (writeLostBody d k a (bytesPerformed s)) (countDropped s))
    rw [offerReport_pwq] at hf
    exact ⟨hf.balance.trans (countDropped_balance s), hf.kinds⟩

theorem drainStaleness_pwq (o : DrainOutcome) (d : DataEntry) (s : State) : (drainStaleness o d s).pwq = s.pwq := by
  unfold drainStaleness; split <;> simp

/-- A drain ends with its entry counted and gone (R36, R37, R41). -/
theorem drainEnded_balance (o : DrainOutcome) (d : DataEntry) {rest : List Entry} {s : State}
    (he : s.pwq.entries = .data d :: rest) : balance (drainEnded o d s).pwq = balance s.pwq := by
  obtain ⟨hb, hk⟩ := drainConsequences_balance o d (closeLock d (drainStaleness o d s))
  rw [closeLock_pwq, drainStaleness_pwq] at hb hk
  have hgone := removeHead_balance (hk.trans (kinds_of_entries he))
  unfold drainEnded
  dsimp only
  split <;> simp [hgone, hb, isData]

@[simp] theorem endDrain_balance (o : DrainOutcome) (s : State) : balance (endDrain o s).pwq = balance s.pwq := by
  unfold endDrain
  split
  · next d rest he => rw [settleTenure_pwq, drainEnded_balance o d he]
  · simp

@[simp] theorem continueDrain_balance (a : Access) (d : DataEntry) (n : Nat) (s : State) :
    balance (continueDrain a d n s).pwq = balance s.pwq := by
  unfold continueDrain
  split
  · rfl
  · exact endDrain_balance _ s
  · exact endDrain_balance _ s

theorem startDrain_balance (d : DataEntry) (s : State) : balance (startDrain d s).pwq = balance s.pwq := by
  rw [startDrain, continueDrain_balance, (drainBegins_count d _).balance]

theorem runBus_balance (n : Nat) (s : State) : balance (runBus n s).pwq = balance s.pwq := by
  induction n generalizing s with
  | zero => rfl
  | succ n ih =>
    unfold runBus
    split
    · rfl
    · split
      · split
        · rfl
        · rw [ih, startDrain_balance]
        · split
          · rfl
          · rw [ih, endTenure_pwq]
      · dsimp only
        split
        · rw [ih, reviewRequest_pwq]
        · rw [reviewRequest_pwq]

/-- What an event ends with leaves the balance as it was. -/
@[simp] theorem settle_balance (s : State) : balance (settle s).pwq = balance s.pwq := by
  rw [settle, finishEvent_pwq, settleBus, runBus_balance, leaveDeadHeads_balance]

theorem fetchOutcome_count (o : FetchOutcome) (i : SlotId) (ws : List Word) (s : State) :
    SameCount s.pwq (fetchOutcome o i ws s).pwq := by
  unfold fetchOutcome
  split
  · split
    · exact .of_eq (by simp)
    · cases o with
      | success =>
        dsimp only
        unfold fetchSucceeds
        dsimp only
        split
        · split
          · exact .of_eq rfl
          · exact .of_eq rfl
        · exact .of_eq rfl
      | failed k a =>
        dsimp only
        unfold fetchFails
        dsimp only
        split
        · exact (SameCount.of_eq (by simp)).trans (markVoid_count _)
        · exact .of_eq (by simp)
  · exact .of_eq rfl

@[simp] theorem endFetch_balance (o : FetchOutcome) (a : Access) (s : State) :
    balance (endFetch o a s).pwq = balance s.pwq := by
  unfold endFetch
  cases a.slot with
  | none => simp
  | some i => simpa using (fetchOutcome_count o i a.gathered s).balance

@[simp] theorem pieceFailed_balance (a : Access) (p : PieceOp) (k : ErrorKind) (s : State) :
    balance (pieceFailed a p k s).pwq = balance s.pwq := by
  unfold pieceFailed
  cases a.kind <;> simp

@[simp] theorem pieceAcked_balance (a : Access) (p : PieceOp) (data : Word) (s : State) :
    balance (pieceAcked a p data s).pwq = balance s.pwq := by
  unfold pieceAcked
  cases a.kind with
  | drain =>
    dsimp only
    unfold drainPieceAcked
    dsimp only
    split
    · simp
    · split
      · simp
      · split <;> simp
  | fetch =>
    dsimp only
    unfold fetchPieceAcked
    dsimp only
    split
    · simp
    · rfl

@[simp] theorem endStoppedAccess_balance (s : State) : balance (endStoppedAccess s).pwq = balance s.pwq := by
  unfold endStoppedAccess
  split
  · next a _ =>
    split
    · cases a.kind <;> simp
    · rfl
  · rfl

end Sys2Proof.PostedWrites
end

section
/-! Every command keeps the posted write queue's counters in balance (R41): O53. -/

namespace Sys2Proof.PostedWrites

-- One proof after the other: the text is compiled as one file, within a limit on memory that each thread draws on.
set_option Elab.async false

open Sys2Proof Sys2Proof.Machine Sys2Proof.Safety

/-! ### Window transactions -/

/-- An accepted write is counted as it joins the queue (R30, R41). -/
@[simp] theorem appendData_balance (d : DataEntry) (s : State) : balance (appendData d s).pwq = balance s.pwq := by
  simp only [appendData, raiseRef_pwq, raiseWrites_pwq, balance, kinds, List.map_append, List.count_append,
    BitVec.ofNat_add]
  simp [isData]
  bv_omega

@[simp] theorem appendControl_balance (c : ControlEntry) (s : State) :
    balance (appendControl c s).pwq = balance s.pwq := by
  simp only [appendControl, balance, kinds, List.map_append, List.count_append]
  rfl

@[simp] theorem chargeViolation_pwq (c : ViolationCause) (w : WindowId) (t : Txn) (s : State) :
    (chargeViolation c w t s).pwq = s.pwq := by
  have ht (x : State) : (applyThreshold c w t x).pwq = x.pwq := by
    unfold applyThreshold; split <;> simp
  unfold chargeViolation
  dsimp only
  rw [ht]
  split <;> simp [countViolation]

@[simp] theorem clearNoteIf_pwq (clear : Bool) (m : MasterId) (s : State) : (clearNoteIf clear m s).pwq = s.pwq := by
  cases clear <;> rfl

theorem writeStep_balance (w : WindowId) (t : Txn) (beats : List Beat) (s : State) :
    balance (writeStep w t beats s).pwq = balance s.pwq := by
  have hn (x : State) : (noteClosing t x).pwq = x.pwq := by unfold noteClosing; split <;> rfl
  unfold writeStep
  split
  · simp
  · split
    · simp [hn]
    · simp

theorem returnTo_balance (i : SlotId) (s : State) : balance (returnTo i s).pwq = balance s.pwq := by
  unfold returnTo
  split
  · unfold returnReady collectSlot
    dsimp only
    split
    · split <;> simp
    · simp
  · simp
  · unfold returnStale restartSlot
    split <;> simp
  · simp

theorem newRead_balance (w : WindowId) (t : Txn) (s : State) : balance (newRead w t s).pwq = balance s.pwq := by
  have ha (i : SlotId) : (allocateSlot i w t s).pwq = s.pwq := by
    unfold allocateSlot openLockOn; split <;> rfl
  unfold newRead
  split
  · split <;> simp [ha]
  · simp

theorem lastStep_balance (w : WindowId) (t : Txn) (s : State) : balance (lastStep w t s).pwq = balance s.pwq := by
  unfold lastStep
  split
  · unfold readStep
    split
    · exact returnTo_balance _ s
    · exact newRead_balance w t s
  · exact writeStep_balance w t _ s

theorem claimedTxn_balance (w : WindowId) (t : Txn) (s : State) : balance (claimedTxn w t s).pwq = balance s.pwq := by
  have hl : balance (lockAndLastStep w t s).pwq = balance s.pwq := by
    unfold lockAndLastStep
    split <;> simp [lastStep_balance]
  unfold claimedTxn
  split_ifs <;> simp [hl]

/-! ### Resets -/

theorem clearWindows_balance (s : State) : balance (clearWindows s).pwq = balance s.pwq := by
  refine balance_of_kinds rfl rfl rfl ?_
  unfold clearWindows kinds
  dsimp only
  rw [List.map_map]
  exact List.map_congr_left fun e _ => by cases e <;> rfl

@[simp] theorem settingsTakeEffect_pwq (before : PortSet) (s : State) : (settingsTakeEffect before s).pwq = s.pwq := by
  unfold settingsTakeEffect heedHoldByChoice
  split
  · simp
  · split
    · rfl
    · split <;> simp
  · split
    · split <;> rfl
    · rfl
  · rfl

@[simp] theorem clearConfiguration_balance (s : State) : balance (clearConfiguration s).pwq = balance s.pwq := by
  simp [clearConfiguration, defaultControl, writeSettings, clearWindows_balance]

@[simp] theorem gateReset_balance (clear : Bool) (s : State) : balance (gateReset clear s).pwq = balance s.pwq := by
  cases clear <;> simp [gateReset, WindowTable.freeAllSlots_pwq]

theorem trunkReset_balance (s : State) : balance (trunkReset s).pwq = balance s.pwq := by
  simp [trunkReset, dropManager, WindowTable.freeAllSlots_pwq]

theorem takeArrivals_pwq (s : State) : (takeArrivals s).pwq = s.pwq := by
  have hf (l : List Port) (x : State) : (l.foldl takeArrival x).pwq = x.pwq := by
    induction l generalizing x with
    | nil => rfl
    | cons p l ih => rw [List.foldl_cons, ih, takeArrival, requestArrives_pwq, setRequestLine_pwq]
  unfold takeArrivals
  dsimp only
  split
  · rw [hf]
  · rw [takeChoice_pwq, hf]

theorem leaveReset_pwq (lines : BitVec 4) (kind : ResetKind) (data control : Nat) (s : State) :
    (leaveReset lines kind data control s).pwq = s.pwq := by
  unfold leaveReset
  rw [takeArrivals_pwq, offerReport_pwq]

theorem releasePowerOn_pwq (lines : BitVec 4) (s : State) : (releasePowerOn lines s).pwq = s.pwq := by
  unfold releasePowerOn
  split
  · rfl
  · rw [leaveReset_pwq]

theorem releaseCard_pwq (lines : BitVec 4) (s : State) : (releaseCard lines s).pwq = s.pwq := by
  unfold releaseCard
  split
  · rfl
  · rw [leaveReset_pwq]

/-! ### The control region -/

theorem operate_balance (m : MasterId) (op : ControlOp) (s : State) : balance (operate m op s).pwq = balance s.pwq := by
  cases op with
  | claim data =>
    change balance (claimRole m data s).pwq = _
    unfold claimRole
    split
    · simp
    · split
      · simp
      · split <;> simp
  | release data =>
    change balance (releaseReport data s).pwq = _
    unfold releaseReport removeReport
    split
    · simp
    · split <;> simp
  | attention data =>
    change balance (setAttention data s).pwq = _
    unfold setAttention
    split_ifs <;> simp
  | resetGate data =>
    change balance (resetGateWord data s).pwq = _
    unfold resetGateWord
    split_ifs <;> simp
  | intake words =>
    change balance (takeRecord m words s).pwq = _
    unfold takeRecord
    split
    · simp
    · split <;> simp
  | _ => rfl

theorem trunkTxn_balance (t : Txn) (s : State) : balance (trunkTxn t s).pwq = balance s.pwq := by
  have hc : balance (controlTxn t s).pwq = balance s.pwq := by
    unfold controlTxn refuseDamaged serveOp
    split
    · simp
    · split
      · simp
      · split
        · simp
        · exact operate_balance _ _ s
  unfold trunkTxn windowTxn
  split
  · simp
  · split
    · exact hc
    · split
      · simp
      · exact claimedTxn_balance _ t s

/-! ### Ordered commands -/

theorem withdrawSlots_pwq (p : Slot → Bool) (s : State) : (withdrawSlots p s).pwq = s.pwq := by
  rw [WindowTable.withdrawSlots_eq, WindowTable.slotsWithdrawn_pwq]

/-- A record that is executed and leaves the head is counted nowhere, where its command leaves the entries in their
places (R37, R41). -/
theorem executeHead_balance (cmd : Command) (act : ControlEntry → State → Execution) (s : State)
    (h : ∀ c, SameCount s.pwq (act c s).state.pwq) : balance (executeHead cmd act s).pwq = balance s.pwq := by
  unfold executeHead
  split
  · rfl
  · next c hc =>
    have hk : ∃ l, kinds s.pwq = false :: l := by
      unfold entryToExecute at hc
      split at hc
      · next c' rest he => exact ⟨_, kinds_of_entries he⟩
      · cases hc
    obtain ⟨l, hk⟩ := hk
    have hr := removeHead_balance (s := storeResult (resultBody c (act c s).status (act c s).detail) (act c s).state)
      (((h c).kinds).trans hk)
    simpa [(h c).balance] using hr

theorem doRetireWindow_count (c : ControlEntry) (s : State) : SameCount s.pwq (doRetireWindow c s).state.pwq := by
  have hb (w : WindowId) (x : State) : SameCount x.pwq (breakIfOnWindow w x).pwq := by
    unfold breakIfOnWindow
    split
    · exact breakLock_count _ x
    · exact .of_eq rfl
  have hf (w : WindowId) (x : State) : (freeAtOnce w x).pwq = x.pwq := by unfold freeAtOnce; split <;> rfl
  unfold doRetireWindow
  split
  · exact .of_eq rfl
  · next w _ =>
    split
    · dsimp only
      rw [testQuiesce_pwq, freeDrainedWindows_pwq, retireLive, hf, withdrawSlots_pwq]
      exact hb w (drainWindow w c.tag s)
    · exact .of_eq rfl

theorem doSetMaster_count (c : ControlEntry) (s : State) : SameCount s.pwq (doSetMaster c s).state.pwq := by
  have hb (m : MasterId) (x : State) : SameCount x.pwq (breakIfOwner m x).pwq := by
    unfold breakIfOwner
    split
    · exact breakLock_count _ x
    · exact .of_eq rfl
  unfold doSetMaster
  split
  · exact .of_eq rfl
  · next o _ =>
    dsimp only
    split
    · exact .of_eq rfl
    · dsimp only
      rw [testQuiesce_pwq, freeDrainedWindows_pwq, withdrawMaster, withdrawSlots_pwq]
      exact hb o.master { s with masters := modAt s.masters o.master (writtenMaster o) }

theorem doLoadWindow_pwq (c : ControlEntry) (s : State) : (doLoadWindow c s).state.pwq = s.pwq := by
  unfold doLoadWindow
  split
  · rfl
  · split <;> rfl

theorem doModifyWindow_pwq (c : ControlEntry) (s : State) : (doModifyWindow c s).state.pwq = s.pwq := by
  unfold doModifyWindow
  split
  · split <;> rfl
  · rfl

theorem doThawWindow_pwq (c : ControlEntry) (s : State) : (doThawWindow c s).state.pwq = s.pwq := by
  unfold doThawWindow
  split
  · rfl
  · split_ifs <;> rfl

theorem doSetTimers_pwq (c : ControlEntry) (s : State) : (doSetTimers c s).state.pwq = s.pwq := by
  unfold doSetTimers
  dsimp only
  split <;> rfl

theorem doSetArbitration_pwq (c : ControlEntry) (s : State) : (doSetArbitration c s).state.pwq = s.pwq := by
  unfold doSetArbitration writeSettings
  dsimp only
  split
  · rfl
  · split
    · simp
    · rfl

theorem doEnable_pwq (c : ControlEntry) (s : State) : (doEnable c s).state.pwq = s.pwq := by
  unfold doEnable; split <;> rfl

theorem doQuiesce_pwq (c : ControlEntry) (s : State) : (doQuiesce c s).state.pwq = s.pwq := by
  unfold doQuiesce
  split
  · split <;> rfl
  · rfl

/-! ### Pieces, timers and residents -/

theorem next_balance {s t u : State} (h : balance u.pwq = balance s.pwq)
    (hx : (.next u : Host.Outcome State Machine.Fault Refusal) = .next t) : balance t.pwq = balance s.pwq := by
  injection hx with hx
  rw [← hx, h]

theorem pieceEnd_balance {r : TargetAnswer} {s t : State} (h : execPieceEnd r s = .next t) :
    balance t.pwq = balance s.pwq := by
  unfold execPieceEnd at h
  split at h
  · refine next_balance ?_ h
    unfold afterPiece
    split <;> simp
  · exact next_balance (by simp) h
  · exact next_balance rfl h

theorem responseExpires_balance (s : State) : balance (responseExpires s).pwq = balance s.pwq := by
  unfold responseExpires
  split
  · split <;> simp
  · rfl

theorem slotExpires_balance (i : SlotId) (s : State) : balance (slotExpires i s).pwq = balance s.pwq := by
  unfold slotExpires holdExpires
  split
  · split <;> simp
  · rfl

theorem lockExpires_balance (s : State) : balance (lockExpires s).pwq = balance s.pwq := by
  unfold lockExpires
  split <;> simp

theorem overstayExpires_pwq (s : State) : (overstayExpires s).pwq = s.pwq := by
  unfold overstayExpires
  split
  · split <;> simp
  · rfl

theorem expireDue_balance (s : State) : balance (expireDue s).pwq = balance s.pwq := by
  have hf (l : List SlotId) (x : State) :
      balance (l.foldl (fun s i => slotExpires i s) x).pwq = balance x.pwq := by
    induction l generalizing x with
    | nil => rfl
    | cons i l ih => rw [List.foldl_cons, ih, slotExpires_balance]
  rw [expireDue, overstayExpires_pwq, hf, lockExpires_balance, responseExpires_balance]

theorem timebase_balance (s : State) (now : Time) :
    balance ({ s with timebase := now } : State).pwq = balance s.pwq := rfl

theorem requestRaise_balance {p : Port} {s t : State} (h : execResidentRequestRaise p s = .next t) :
    balance t.pwq = balance s.pwq := by
  unfold execResidentRequestRaise at h
  split at h
  · cases h; rfl
  · cases h
    split <;> simp

theorem residentTenureEnds_balance (p : Port) (s : State) :
    balance (residentTenureEnds p s).pwq = balance s.pwq := by
  unfold residentTenureEnds
  split
  · split <;> simp
  · split <;> rfl
  · rfl

theorem holdReleased_balance (p : Port) (s : State) : balance (holdReleased p s).pwq = balance s.pwq := by
  unfold holdReleased
  split
  · split
    · split <;> simp
    · rfl
  · rfl

theorem holdTaken_pwq (p : Port) (s : State) : (holdTaken p s).pwq = s.pwq := by
  unfold holdTaken; split <;> rfl

/-! ### Every command -/

/-- An empty queue whose counters are all 0 is in balance (R44). -/
theorem balance_powerOn : balance WriteQueue.powerOn = 0 := by decide

theorem ite_balance {s t u : State} {c : Prop} [Decidable c] (h : balance t.pwq = balance s.pwq)
    (k : balance u.pwq = balance s.pwq) : balance (if c then t else u).pwq = balance s.pwq := by
  split
  · exact h
  · exact k

theorem takeTxn_balance {t : Txn} {s u : State} (h : takeTxn t s = .next u) : balance u.pwq = balance s.pwq := by
  unfold takeTxn at h
  split at h
  · cases h; exact trunkTxn_balance t s
  · cases h

/-- The commands that assert a reset, which empties the queue with its counters. -/
def Asserts : Instr → Prop
  | .powerOnResetAssert _ => True
  | .cardResetAssert _ => True
  | _ => False

/-- Every command but the assertion of a reset leaves the balance as it was. -/
theorem exec_balance {c : Instr} {s t : State} (hx : exec c s = .next t) (hc : ¬Asserts c) :
    balance t.pwq = balance s.pwq := by
  cases c with
  | powerOnResetAssert l => exact absurd trivial hc
  | cardResetAssert l => exact absurd trivial hc
  | timebaseTick =>
    refine next_balance (ite_balance (timebase_balance s 0) ?_) hx
    rw [timebase_balance, expireDue_balance]
  | powerOnResetRelease l => exact next_balance (ite_balance (by rw [releasePowerOn_pwq]) rfl) hx
  | cardResetRelease l => exact next_balance (ite_balance (by rw [releaseCard_pwq]) rfl) hx
  | trunkReset => exact next_balance (ite_balance rfl (trunkReset_balance s)) hx
  | windowWrite m a u k b => exact takeTxn_balance hx
  | windowRead m a u k b => exact takeTxn_balance hx
  | controlIntake m ws => exact takeTxn_balance hx
  | controlRegionRefused t => exact takeTxn_balance hx
  | identity m => exact next_balance (trunkTxn_balance _ s) hx
  | status m => exact next_balance (trunkTxn_balance _ s) hx
  | counts m => exact next_balance (trunkTxn_balance _ s) hx
  | reportHead m => exact next_balance (trunkTxn_balance _ s) hx
  | windowReadback m w => exact next_balance (trunkTxn_balance _ s) hx
  | masterReadback m k => exact next_balance (trunkTxn_balance _ s) hx
  | claim m d => exact next_balance (trunkTxn_balance _ s) hx
  | relinquish m d => exact next_balance (trunkTxn_balance _ s) hx
  | release m d => exact next_balance (trunkTxn_balance _ s) hx
  | attention m d => exact next_balance (trunkTxn_balance _ s) hx
  | resetGate m d => exact next_balance (trunkTxn_balance _ s) hx
  | loadWindow => exact next_balance (executeHead_balance _ _ s fun c => .of_eq (doLoadWindow_pwq c s)) hx
  | retireWindow => exact next_balance (executeHead_balance _ _ s fun c => doRetireWindow_count c s) hx
  | modifyWindow => exact next_balance (executeHead_balance _ _ s fun c => .of_eq (doModifyWindow_pwq c s)) hx
  | thawWindow => exact next_balance (executeHead_balance _ _ s fun c => .of_eq (doThawWindow_pwq c s)) hx
  | setMaster => exact next_balance (executeHead_balance _ _ s fun c => doSetMaster_count c s) hx
  | setTimers => exact next_balance (executeHead_balance _ _ s fun c => .of_eq (doSetTimers_pwq c s)) hx
  | setArbitration => exact next_balance (executeHead_balance _ _ s fun c => .of_eq (doSetArbitration_pwq c s)) hx
  | enable => exact next_balance (executeHead_balance _ _ s fun c => .of_eq (doEnable_pwq c s)) hx
  | quiesce => exact next_balance (executeHead_balance _ _ s fun c => .of_eq (doQuiesce_pwq c s)) hx
  | fence => exact next_balance (executeHead_balance _ _ s fun _ => .of_eq rfl) hx
  | pieceEnd r => exact pieceEnd_balance hx
  | noResponse => exact next_balance (responseExpires_balance s) hx
  | holdTimerExpiry i => exact next_balance (slotExpires_balance i s) hx
  | lockHoldTimerExpiry => exact next_balance (lockExpires_balance s) hx
  | overstayTimerExpiry => exact next_balance (by rw [overstayExpires_pwq]) hx
  | residentRequestRaise p => exact requestRaise_balance hx
  | residentRequestDrop p =>
    exact next_balance (ite_balance (by rw [residentTenureEnds_balance, setRequestLine_pwq]) rfl) hx
  | residentHoldRaise p => exact next_balance (ite_balance rfl (by rw [holdTaken_pwq, setHoldLine_pwq])) hx
  | residentHoldDrop p => exact next_balance (ite_balance (by rw [holdReleased_balance, setHoldLine_pwq]) rfl) hx
  | residentWriteObserved p a z => exact next_balance (ite_balance (by rw [markStale_pwq]) rfl) hx

theorem exec_countersAgree {c : Instr} {s t : State} (h : balance s.pwq = 0) (hx : exec c s = .next t) :
    balance t.pwq = 0 := by
  by_cases hc : Asserts c
  · cases c with
    | powerOnResetAssert l =>
      cases hx
      split
      · exact h
      · exact balance_powerOn
    | cardResetAssert l =>
      cases hx
      split
      · exact h
      · exact balance_powerOn
    | _ => exact absurd hc id
  · rw [exec_balance hx hc, h]

/-- Settles O53: each operation that counts a data entry brings it into the queue or takes it out, so an event leaves
the balance of the counters as it was, and the assertion of a reset sets it to 0. -/
theorem countersAgreeAfterEveryEvent : Obligations.CountersAgreeAfterEveryEvent := by
  intro s t h hx
  rw [countersAgree_iff] at h ⊢
  unfold step at hx
  split at hx
  · cases hx; exact h
  · next rest _ => exact exec_countersAgree (s := { s with pending := rest }) h hx

end Sys2Proof.PostedWrites
end

section
/-! Transactions turned away with RETRY, the intake of records, and rows without their record (O12, O30, O32). -/

namespace Sys2Proof.PostedWrites

-- One proof after the other: the text is compiled as one file, within a limit on memory that each thread draws on.
set_option Elab.async false

open Sys2Proof Sys2Proof.Machine Sys2Proof.Safety

/-! ### Transactions turned away with RETRY -/

/-- A transaction that passes the steps before the gate-state step is decided by it and by the lock step (R95, R73). -/
theorem exec_atGate {s : State} {w : WindowId} {t : Txn} (h : PassesToGate s w t) : exec (windowCommand t) s =
    .next (if gatePasses s w t = true then lockAndLastStep w t s else answer .retry s) := by
  rw [WindowTable.exec_windowCommand h.beats.1 h.beats.2 h.notReset h.outside, WindowTable.windowTxn_claimed h.claimed]
  unfold claimedTxn
  rw [if_neg h.notFaulted, if_neg ((Laws.misaligned_iff t).not.2 h.aligned),
    if_neg ((Laws.crossesEnd_iff _ t h.beats.1).not.2 h.within), if_neg (by rw [h.thawed]; decide),
    if_neg (by rw [h.admitted]; decide), if_neg ((Laws.rightsFail_iff s w t).not.2 h.rights)]
  cases gatePasses s w t <;> rfl

/-- The gate-state step turns a transaction away (R95). -/
theorem gateRetries {s : State} {w : WindowId} {t : Txn} (h : PassesToGate s w t) (hg : ¬GatePasses s w t) :
    exec (windowCommand t) s = .next { s with ti.answer := some .retry } := by
  rw [exec_atGate h, if_neg ((Laws.gatePasses_iff s w t).not.2 hg)]
  rfl

/-- The lock step turns another master's NONE transaction through the locked window away (R73). -/
theorem lockStepRetries {s : State} {w : WindowId} {t : Txn} (h : PassesToGate s w t) (hg : GatePasses s w t)
    (hn : t.lock = .noLock) (hs : s.lock.state ≠ .free) (hw : s.lock.window = some w)
    (ho : s.lock.owner ≠ some t.master) : exec (windowCommand t) s = .next { s with ti.answer := some .retry } := by
  have hl : lockStep s w t = .retry false := by
    unfold lockStep
    rw [hn]
    simp [lockedWindow, lockStands, hs, hw, ho]
  rw [exec_atGate h, if_pos ((Laws.gatePasses_iff s w t).2 hg), lockAndLastStep, hl]
  rfl

/-- A write without credit or room is answered RETRY (R29). -/
theorem writeStep_retries {s : State} {w : WindowId} {t : Txn} {beats : List Beat}
    (hc : ∀ b ∈ beats, CodeAgrees b.data b.code)
    (hr : s.masters[t.master].creditLimit ≤ s.masters[t.master].outWrites ∨ 30 ≤ dataCount s ∨ 32 ≤ queueLength s) :
    writeStep w t beats s = answer .retry s := by
  have hgood : disagreeing beats = [] :=
    (disagreeing_nil_iff beats).2 fun b hb => (WindowTable.beatAgrees_iff b).2 (hc b hb)
  have hroom : hasCreditAndRoom s t.master = false := by
    refine Bool.eq_false_iff.2 fun hc => ?_
    simp only [hasCreditAndRoom, Bool.and_eq_true, decide_eq_true_eq] at hc
    obtain ⟨⟨hcredit, hplaces : dataCount s < 30⟩, hentries : queueLength s < 32⟩ := hc
    omega
  rw [writeStep, hgood, hroom]
  rfl

/-- A return to a slot whose fetch has not ended is answered RETRY (R50). -/
theorem returnTo_pending {s : State} {i : SlotId} (h : s.slots[i].state = .waiting ∨ s.slots[i].state = .fetching) :
    returnTo i s = answer .retry s := by
  unfold returnTo
  obtain h | h := h <;> rw [h]

/-- A new read that cannot be recorded is answered RETRY (R54). -/
theorem newRead_unrecorded {s : State} {w : WindowId} {t : Txn}
    (h : s.gsc.state ≠ .enabled ∨ s.masters[t.master].readLimit ≤ s.masters[t.master].outReads ∨
      ∀ i : SlotId, s.slots[i].state ≠ .free) : newRead w t s = answer .retry s := by
  unfold newRead
  split
  · next hc =>
    simp only [Bool.and_eq_true, decide_eq_true_eq] at hc
    obtain ⟨⟨he, hr⟩, -⟩ := hc
    obtain h | h | h := h
    · exact absurd he h
    · exact absurd hr (Nat.not_lt.2 h)
    · have hn : freeSlotId s = none := List.find?_eq_none.2 fun i _ => by simpa using h i
      rw [hn]
  · rfl

/-- Settles O12: the gate-state step, the lock step and the last step each answer RETRY before they change the state. -/
theorem turnedAwayWithRetryChangesNothing : Obligations.TurnedAwayWithRetryChangesNothing := by
  rintro s w t h (hsb | ⟨hq, hr, ho⟩ | ⟨hg, hn, hs, hw, ho⟩ | ⟨hg, hl, hnote, hlast⟩)
  · exact gateRetries h (by simp [GatePasses, hsb])
  · exact gateRetries h (by simp [GatePasses, hq, hr, ho])
  · exact lockStepRetries h hg hn hs hw ho
  · rw [WindowTable.exec_passing h hg hl, show noteTaken t s = s from if_neg hnote]
    refine congrArg Host.Outcome.next (?_ : lastStep w t s = answer .retry s)
    unfold lastStep
    cases hp : t.payload with
    | write beats =>
      rw [hp] at hlast
      exact writeStep_retries hlast.1 hlast.2
    | read n =>
      rw [hp] at hlast
      dsimp only
      rw [readStep]
      rcases hlast with ⟨i, hi, hst⟩ | ⟨hi, hst⟩
      · rw [hi]
        exact returnTo_pending hst
      · rw [hi]
        exact newRead_unrecorded (hst.imp_left fun hq => by rw [hq]; decide)

/-! ### The intake of records -/

theorem exec_intake_served {s : State} {m : MasterId} {words : List CheckedWord} (h1 : 1 ≤ words.length)
    (h2 : words.length ≤ 16) (hr : s.gsc.state ≠ .reset) (hf : s.gsc.state ≠ .faulted) (hm : s.cu.manager = some m)
    (hc : ∀ c ∈ words, wordAgrees c = true) :
    exec (.controlIntake m words) s = .next (takeRecord m (words.map CheckedWord.word) s) := by
  have hserved : refusedOp s m (.intake (words.map CheckedWord.word)) = false := by
    simp [refusedOp, resetGateBarred, hf, hm]
  rw [exec_intake s m words h1 h2 hr hc, serve_ok hserved]
  rfl

/-- Settles O30: the manager's intake comes to the form test, and a record of good form to the test for room. -/
theorem intakeAppendsRecords : Obligations.IntakeAppendsRecords := by
  intro s m words h1 h2 hr hf hm hc
  have hx := exec_intake_served h1 h2 hr hf hm hc
  rw [takeRecord] at hx
  cases hrec : recordEntry m (words.map CheckedWord.word) with
  | none =>
    rw [hrec] at hx
    exact hx
  | some c =>
    rw [hrec] at hx
    dsimp only at hx ⊢
    refine ⟨fun hfull => ?_, fun hroom => ⟨settle (appendControl c s), ?_, settle_settlesTo (appendControl c s)⟩⟩
    · rw [if_neg (Nat.not_lt.2 hfull : ¬queueLength s < Config.queuePlaces)] at hx
      exact hx
    · exact hx.trans (congrArg Host.Outcome.next (if_pos hroom))

/-! ### Rows without their record -/

theorem exec_commandRow (cmd : Command) (s : State) :
    ∃ act, exec (commandRow cmd) s = .next (executeHead cmd act s) := by
  cases cmd <;> exact ⟨_, rfl⟩

theorem entryToExecute_some {cmd : Command} {c : ControlEntry} {s : State} (h : entryToExecute cmd s = some c) :
    ∃ rest, AtHead cmd c rest s := by
  unfold entryToExecute at h
  split at h
  · next x rest he =>
    split at h
    · next hc =>
      obtain rfl := Option.some.inj h
      simp only [Bool.and_eq_true, decide_eq_true_eq, executesRecords, Bool.or_eq_true, or_assoc] at hc
      obtain ⟨⟨hcmd, hheld⟩, hgate⟩ := hc
      exact ⟨rest, he, hcmd, hheld, hgate⟩
    · cases h
  · cases h

/-- Settles O32: every row of an ordered command looks for its record before it acts. -/
theorem rowsActOnTheirRecordAlone : Obligations.RowsActOnTheirRecordAlone := by
  intro s cmd h
  obtain ⟨act, hx⟩ := exec_commandRow cmd s
  have hn : entryToExecute cmd s = none := Option.eq_none_iff_forall_ne_some.2 fun c hc => by
    obtain ⟨rest, hr⟩ := entryToExecute_some hc
    exact h c rest hr
  rw [hx, executeHead, hn]

end Sys2Proof.PostedWrites
end

section
/-! Decisions of the arbiter, writes of residents, and the expiry of the lock's hold timer (O49, O50, O52). -/

namespace Sys2Proof.PostedWrites

-- One proof after the other: the text is compiled as one file, within a limit on memory that each thread draws on.
set_option Elab.async false

open Sys2Proof Sys2Proof.Machine Sys2Proof.Safety

/-! ### Decisions -/

theorem granted_state (r : Requester) (s : State) (owner : Requester) : (granted r s).arb.state ≠ .parked owner := by
  unfold granted
  split
  · nofun
  · dsimp only
    split <;> nofun

theorem granted_pointer (r : Requester) (s : State) : (granted r s).arb.pointer = r := by cases r <;> rfl

/-- The requester that a decision grants is read off the grant (R128). -/
theorem winner_of_wins {s : State} {r : Requester} (h : Wins s r) : winner s = some r := by
  have hd := decision_wins s r h
  unfold decision at hd
  split at hd
  · next q hq =>
    rw [hq, ← granted_pointer q s, ← granted_eq, hd, granted_pointer]
  · exact absurd (congrArg (fun t : State => t.arb.state) hd).symm (granted_state r s _)

/-- A decision that nothing requests has no winner (R129). -/
theorem winner_of_none {s : State} (h : ∀ r, ¬Requests s r) : winner s = none := by
  have hd := decision_parks s h
  unfold decision at hd
  split at hd
  · next q _ =>
    rw [granted_eq] at hd
    exact absurd (congrArg (fun t : State => t.arb.state) hd) (granted_state q s _)
  · assumption

/-- Settles O50: at most one requester wins, and one does unless nothing requests. -/
theorem decisionsFollowTheRotation : Obligations.DecisionsFollowTheRotation := by
  refine fun s => ⟨fun r => ⟨fun hr => ?_, winner_of_wins⟩, ⟨fun hn r hr => ?_, winner_of_none⟩, decision_wins s,
    decision_parks s⟩
  · rcases wins_or_none s with ⟨q, hq⟩ | hnone
    · rw [winner_of_wins hq] at hr
      rwa [← Option.some.inj hr]
    · rw [winner_of_none hnone] at hr
      cases hr
  · rcases wins_or_none s with ⟨q, hq⟩ | hnone
    · rw [winner_of_wins hq] at hn
      cases hn
    · exact hnone r hr

/-! ### Writes of residents -/

/-- Two ranges of at least one byte each overlap where they share a byte (R38). -/
theorem rangesOverlap_iff {a n b m : Nat} (hn : 0 < n) (hm : 0 < m) : rangesOverlap a n b m = true ↔
    ∃ byte, (a ≤ byte ∧ byte < a + n) ∧ (b ≤ byte ∧ byte < b + m) := by
  simp only [rangesOverlap, Bool.and_eq_true, decide_eq_true_eq]
  constructor
  · intro h
    exact ⟨max a b, by omega, by omega⟩
  · rintro ⟨byte, h1, h2⟩
    omega

theorem residentInTenure_iff (p : Port) (s : State) : residentInTenure p s = true ↔
    s.arb.state = .tenure (.port p) ∨ s.arb.state = .locked (.port p) true := by
  simp [residentInTenure]

/-- Settles O52: a legal slot spans a byte at least, so the test of the ranges says that they share one. -/
theorem residentWritesMakeSlotsStale : Obligations.ResidentWritesMakeSlotsStale := by
  refine fun s p addr size hlegal => ⟨fun hp => ?_, fun h1 h2 => ?_⟩
  · refine ⟨mapTable s.slots (staleSlot addr (unitBytes size)), ?_, fun i => ?_⟩
    · exact congrArg Host.Outcome.next (if_pos ((residentInTenure_iff p s).2 hp))
    · intro e overlaps
      obtain ⟨-, -, -, -, -, ⟨hbeats, -⟩, -⟩ := hlegal i
      have hr : rangesOverlap e.cardAddr.toNat (spanBytes e.key.unit e.key.beats) addr.toNat (unitBytes size) = true ↔
          overlaps :=
        rangesOverlap_iff (Nat.mul_pos hbeats (Laws.unitBytes_pos _)) (Laws.unitBytes_pos size)
      have hc : (e.state = .ready && !e.locked &&
          rangesOverlap e.cardAddr.toNat (spanBytes e.key.unit e.key.beats) addr.toNat (unitBytes size)) = true ↔
            e.state = .ready ∧ e.locked = false ∧ overlaps := by
        simp only [Bool.and_eq_true, decide_eq_true_eq, Bool.not_eq_true', hr, and_assoc]
      rw [mapTable_get]
      exact ⟨fun h => if_pos (hc.2 h), fun h => if_neg (hc.not.2 h)⟩
  · refine congrArg Host.Outcome.next (if_neg ((residentInTenure_iff p s).not.2 ?_))
    exact not_or.2 ⟨h1, h2⟩

/-! ### The expiry of the lock's hold timer -/

/-- Settles O49: the expiry breaks the lock, and where the gate held its tenure idle under the lock, the tenure ends. -/
theorem lockTimeoutBreaksTheLock : Obligations.LockTimeoutBreaksTheLock := by
  intro s timer hhold hdue howned hb ht
  have hlock : s.arb.lockHold = true := hb.1.2 howned
  have hstate : s.arb.state = .locked .gate true := hb.2.1.1 hlock
  have hbreak : breakLock .timeout s = lockBrokenInTenure 0 s := WindowTable.breakLock_eq .timeout hb
  have hbroken : lockBrokenInTenure 0 s = breakDone 0 s (holdDropped s) := if_neg (by rw [howned]; nofun)
  have hx : exec .lockHoldTimerExpiry s =
      .next (settle (endIdleTenure true (leaveDeadHeads (lockBrokenInTenure 0 s)))) := by
    have hd : lockTimerDue s = true := (Scope.lockTimerDue_iff s).2
      ⟨timer, (Scope.running_lock s timer).2 ⟨howned, hhold⟩, hdue⟩
    change Host.Outcome.next (lockExpires s) = _
    rw [lockExpires, if_pos hd, hbreak, hlock]
  have hcbc : (lockBrokenInTenure 0 s).cbc = s.cbc := by
    rw [hbroken, WindowTable.breakDone_cbc, WindowTable.holdDropped_cbc]
  refine ⟨_, hx, fun ha => ?_, fun ha => ?_⟩
  · exact settle_noIdleTenure true _ (.inr (.inr (by rw [hcbc]; exact ha)))
  · have harb : (lockBrokenInTenure 0 s).arb = (holdDropped s).arb := by rw [hbroken, WindowTable.breakDone_arb]
    refine settle_idleTenureEnds _ (by rw [harb, WindowTable.holdDropped_lockHold]) (by rw [hcbc, ha])
      (by rw [hcbc]; exact ht.1.2 (.inr hstate)) ?_
    rw [harb]
    exact WindowTable.holdDropped_owns (.inr hstate)

end Sys2Proof.PostedWrites
end

section
/-! A drain that ends performed after its last piece with an enabled lane (O43). -/

namespace Sys2Proof.PostedWrites

-- One proof after the other: the text is compiled as one file, within a limit on memory that each thread draws on.
set_option Elab.async false

open Sys2Proof Sys2Proof.Machine Sys2Proof.Safety

/-- The pieces of a drain after piece `n` are finished where none of them has an enabled lane and the beats that begin
among them pass their checks (R111, R120). -/
theorem takeUp_finished_after {a : Access} {d : DataEntry} {n : Nat}
    (hskip : ∀ j, n < j → j < pieceTotal a → drainLanes a d j = 0)
    (hcheck : ∀ i x, n < i * piecesPerBeat a.unit a.portWidth → d.beats[i]? = some x → beatAgrees x = true)
    (remaining : Nat) (hle : remaining ≤ pieceTotal a - (n + 1)) : takeUp a d.beats remaining = .finished := by
  induction remaining with
  | zero => rfl
  | succ r ih =>
    unfold takeUp
    dsimp only
    generalize hj : pieceTotal a - (r + 1) = j
    have hn : n < j := by omega
    split
    · rfl
    · next b hb =>
      have hlanes := hskip j hn (by omega)
      simp only [drainLanes, hb, Option.map_some, Option.getD_some] at hlanes
      have hagrees : j % piecesPerBeat a.unit a.portWidth = 0 → beatAgrees b = true := fun h0 =>
        hcheck _ b (by rwa [Nat.div_mul_cancel (Nat.dvd_of_mod_eq_zero h0)]) hb
      rw [if_neg (by simpa using hagrees), if_pos hlanes]
      exact ih (by omega)

/-- A drain that ends performed leaves the queue (R36, R114). -/
theorem performed_ends {s : State} {d : DataEntry} {rest : List Entry} (he : s.pwq.entries = .data d :: rest)
    (ht : s.cbc.tenure = true) (hg : WindowTable.GateOwns s) (hb : LockHoldsBus s) :
    AccessEndsTo (drainPerformed d s) (settle (endDrain .performed s)) := by
  have hcounted : drainConsequences .performed d (closeTaken d (madeStale d s)) =
      closeTaken d (madeStale d { s with pwq.performed := s.pwq.performed + 1 }) := by
    unfold drainConsequences countPerformed closeTaken madeStale
    dsimp only
    split <;> rfl
  refine WindowTable.endDrain_ends (o := .performed) (left := rest) (by decide) he hb hcounted ?_ ?_ ?_
  · rw [WindowTable.closeTaken_pwq]
    exact he
  · rw [WindowTable.closeTaken_cbc]
    exact ht
  · exact (WindowTable.closeTaken_bus (s := madeStale d { s with pwq.performed := s.pwq.performed + 1 }) hb hg).2

/-- Settles O43: after the piece none is left to take up, so the drain ends performed, with its access as it stands. -/
theorem aPerformedDrainLeavesTheQueue : Obligations.APerformedDrainLeavesTheQueue := by
  intro s a p d rest n data h hlast ht hb per hskip hcheck
  obtain ⟨htenure, hg⟩ := WindowTable.gateOwns_of_access ht h.access
  have hout : outstanding s = some (a, p) := (Scope.outstanding_eq_some s a p).2 ⟨h.access, h.op⟩
  have hkind : pieceAcked a p data s = drainPieceAcked a p s := by rw [pieceAcked, h.kind]
  generalize hnext : { a with bytes := a.bytes + laneCount p.op.enables, op := none } = next
  have hacked : drainPieceAcked a p s = endDrain .performed { s with cbc.access := some next } := by
    unfold drainPieceAcked
    rw [hnext]
    by_cases hnone : piecesAfter next = 0
    · exact if_pos hnone
    · have hstop : next.stop = false := by
        rw [← hnext] at hnone ⊢
        refine hlast.resolve_right fun hl => hnone ?_
        unfold LastPiece at hl
        unfold piecesAfter pieceTotal
        dsimp only
        omega
      have hfinished : takeUp next d.beats (piecesAfter next) = .finished := by
        subst hnext
        refine takeUp_finished_after (a := { a with bytes := a.bytes + laneCount p.op.enables, op := none }) (n := n)
          (fun j hj hlt => hskip j hj ?_) hcheck _ ?_
        · rwa [← h.beats]
        · rw [h.place]
          exact Nat.le_refl _
      dsimp only
      rw [if_neg hnone, hstop, if_neg Bool.false_ne_true, h.head]
      dsimp only
      rw [continueDrain, hfinished]
  have hends := performed_ends (s := { s with cbc.access := some next }) h.head htenure hg hb
  rw [drainPerformed_access] at hends
  refine ⟨_, ?_, hends⟩
  change execPieceEnd (.ack data) s = _
  simp only [execPieceEnd, hout, hkind, hacked]
  rw [WindowTable.afterPiece_ended (WindowTable.endDrain_access _ _)]

end Sys2Proof.PostedWrites
end

section
/-! What the start of a drain makes of a state, and that the card bus goes on from there as it would from the state
before (R35, R81, R111, R117). -/

namespace Sys2Proof.PostedWrites

-- One proof after the other: the text is compiled as one file, within a limit on memory that each thread draws on.
set_option Elab.async false

open Sys2Proof Sys2Proof.Machine Sys2Proof.Safety

/-! ### The card bus at rest -/

/-- Once the passes are enough for the card bus to come to rest, one more changes nothing. -/
theorem runBus_succ (n : Nat) : ∀ {s : State}, WindowTable.busMeasure s ≤ n → runBus (n + 1) s = runBus n s := by
  induction n with
  | zero =>
    intro s hn
    unfold WindowTable.busMeasure at hn
    split at hn <;> omega
  | succ n ih =>
    intro s hn
    rw [runBus.eq_2 s (n + 1), runBus.eq_2 s n]
    by_cases ha : s.cbc.access.isSome = true
    · rw [if_pos ha, if_pos ha]
    rw [if_neg ha, if_neg ha]
    by_cases ht : s.cbc.tenure = true
    · rw [if_pos ht, if_pos ht]
      rw [WindowTable.busMeasure, if_pos ht] at hn
      split
      · rfl
      · next d _ hd =>
        obtain hgo | hgo := (WindowTable.startDrain_goes d (WindowTable.offeredHead_headIsData hd)).1
        · rw [runBus_busy _ _ hgo, runBus_busy _ _ hgo]
        · refine ih ?_
          unfold WindowTable.busMeasure
          split <;> omega
      · next hi hd =>
        have hc : hasCandidate s = false := by rw [hasCandidate, hi, hd]; rfl
        obtain ⟨ht', hc'⟩ := WindowTable.endTenure_noCandidate hc
        have ha' : (endTenure s).cbc.access = none := by
          rw [endTenure_cbc_access]; exact Option.not_isSome_iff_eq_none.1 ha
        obtain ⟨m, rfl⟩ : ∃ m, n = m + 1 := ⟨n - 1, by omega⟩
        rw [runBus_idle (m + 1) _ ha' ht' ((hasCandidate_eq_false _).1 hc'),
          runBus_idle m _ ha' ht' ((hasCandidate_eq_false _).1 hc')]
    · rw [if_neg ht, if_neg ht]
      rw [WindowTable.busMeasure, if_neg ht] at hn
      dsimp only
      by_cases hg : (reviewRequest s).cbc.tenure = true
      · rw [if_pos hg, if_pos hg]
        refine ih ?_
        rw [WindowTable.busMeasure, if_pos hg, queueLength, reviewRequest_pwq]
        exact Nat.le_of_succ_le_succ hn
      · rw [if_neg hg, if_neg hg]

theorem runBus_enough {s : State} {n m : Nat} (hn : WindowTable.busMeasure s ≤ n) (hm : n ≤ m) :
    runBus m s = runBus n s := by
  induction m, hm using Nat.le_induction with
  | base => rfl
  | succ m hm ih => rw [runBus_succ m (Nat.le_trans hn hm), ih]

theorem settleBus_of_enough {s : State} {n : Nat} (hn : WindowTable.busMeasure s ≤ n) : settleBus s = runBus n s := by
  have hfuel : WindowTable.busMeasure s ≤ busFuel s := by
    unfold WindowTable.busMeasure busFuel
    split <;> omega
  rcases Nat.le_total n (busFuel s) with h | h
  · exact runBus_enough hn h
  · exact (runBus_enough hfuel h).symm

/-! ### The start of the drain that is offered -/

theorem headStays_of_offers {s : State} {d : DataEntry} (h : Offers s d) : WindowTable.HeadStays s := by
  obtain ⟨rest, he, -, hvoid, hfrozen⟩ := h
  refine (WindowTable.headStays_iff s).2 (.inr fun e r hr => ?_)
  rw [he] at hr
  cases hr
  simpa [leavesAtOnce, hvoid] using hfrozen

/-- In a tenure with no slot to fetch, the event goes on from the start of the drain that is offered (R117). -/
theorem settle_offered {s : State} {d : DataEntry} (ha : s.cbc.access = none) (ht : s.cbc.tenure = true)
    (hn : NoSlot s) (ho : Offers s d) : settle s = settle (startDrain d s) := by
  have hoffered : offeredHead s = some d := (offeredHead_some s d).2 ho
  obtain ⟨hgoes, hstays⟩ := WindowTable.startDrain_goes d (WindowTable.offeredHead_headIsData hoffered)
  have hbus : settleBus s = settleBus (startDrain d s) := by
    rw [settleBus, busFuel, runBus, if_neg (by rw [ha]; nofun), if_pos ht, (oldestEligible_none s).2 hn, hoffered]
    dsimp only
    obtain hgo | hgo := hgoes
    · rw [settleBus, runBus_busy _ _ hgo, runBus_busy _ _ hgo]
    · refine (settleBus_of_enough ?_).symm
      unfold WindowTable.busMeasure
      split <;> omega
  rw [settle, settle, leaveDeadHeads_eq, leaveDeadHeads_eq, headsGone_none s (headStays_of_offers ho),
    headsGone_none _ hstays, hbus]

/-- The state in which the controller has taken the drain of an entry up, before the lock unit is told of it (R35). -/
def accessed (d : DataEntry) (s : State) : State := { s with cbc.access := some (drainRecord d) }

/-- A drain with an enabled lane performs its first piece in the state that its beginning leaves (R111). -/
theorem startDrain_starts {d : DataEntry} {next : Nat} {b : Beat} (h : DrainStarts d next b) (s : State) :
    startDrain d s = drainBegun d next b (drainBegins d (accessed d s)) := by
  have hlanes : drainLanes (drainAccess d) d next = b.enables &&& pieceLanes (pieceAddr d.cardAddr d.unit d.portWidth
      (next / piecesPerBeat d.unit d.portWidth) (next % piecesPerBeat d.unit d.portWidth)) d.unit d.portWidth := by
    simp only [drainLanes, drainAccess, h.beat]; rfl
  have htake := takeUp_perform (drainRecord d) d.beats next b h.beat (pieceTotal (drainRecord d)) 0 (Nat.zero_add _)
    (Nat.zero_le _) h.within (fun j _ hj => h.skipped j hj) (fun hz => h.enabled (hlanes.trans hz))
    (fun i x _ hi hx => h.checked i x hi hx)
  unfold startDrain continueDrain
  rw [htake]
  unfold drainBegun
  rw [hlanes]
  rfl

/-- A drain with no enabled lane ends performed in the state that its beginning leaves (R111). -/
theorem startDrain_finishes {d : DataEntry} (h : DrainSkips d) (s : State) :
    startDrain d s = endDrain .performed (drainBegins d (accessed d s)) := by
  have htake : takeUp (drainRecord d) d.beats (pieceTotal (drainRecord d)) = .finished :=
    takeUp_finished (drainRecord d) d.beats h.skipped h.checked _ (Nat.le_refl _)
  unfold startDrain continueDrain
  rw [htake]
  rfl

/-! ### The lock at the beginning of a drain -/

theorem stopLockTimer_eq (d : DataEntry) (s : State) : stopLockTimer d s = closeBegun d s := by
  unfold stopLockTimer closeBegun
  by_cases h : d.seq = .close ∧ s.lock.state = .owned
  · rw [if_pos (by simpa using h), if_pos h]
  · rw [if_neg (by simpa using h), if_neg h]

theorem closesLate_iff (d : DataEntry) (s : State) : (d.seq = .close && lockTimerDue s) = true ↔ ClosesLate d s := by
  simp [ClosesLate, Scope.lockTimerDue_iff, Scope.running_lock, and_assoc]

/-- A CLOSE drain whose lock's timer is not due stops the timer (R35, R81). -/
theorem drainBegins_inTime {d : DataEntry} {s : State} (h : ¬ClosesLate d s) : drainBegins d s = closeBegun d s := by
  rw [drainBegins, if_neg ((closesLate_iff d s).not.2 h), stopLockTimer_eq]

/-- A CLOSE drain that begins when the lock's timer is due stops it, or the lock is broken first (R81, log 33). -/
theorem drainBegins_late {d : DataEntry} {s : State} (h : ClosesLate d s) (hb : LockHoldsBus s)
    (ha : s.cbc.access.isSome = true) :
    drainBegins d s = closeBegun d (takeChoice s) ∨ drainBegins d s = lockBroken 0 (takeChoice s) := by
  rw [drainBegins, if_pos ((closesLate_iff d s).2 h), raceCloseTimer]
  split
  · exact .inl (stopLockTimer_eq d (takeChoice s))
  · rw [WindowTable.breakLock_eq .timeout (s := takeChoice s) hb,
      WindowTable.lockBroken_inAccess 0 (s := takeChoice s) ha]
    exact .inr rfl

/-! ### A drain that is under way -/

/-- Entry `d` is in drain at the head of the queue, in the gate's tenure. -/
structure UnderWay (d : DataEntry) (s : State) : Prop where
  head : ∃ rest, s.pwq.entries = .data d :: rest
  drain : inDrain s = true
  tenure : s.cbc.tenure = true
  owns : WindowTable.GateOwns s
  bus : LockHoldsBus s

theorem UnderWay.closeBegun {d : DataEntry} {s : State} (h : UnderWay d s) : UnderWay d (closeBegun d s) :=
  ⟨h.head, h.drain, h.tenure, h.owns, h.bus⟩

theorem UnderWay.takeChoice {d : DataEntry} {s : State} (h : UnderWay d s) : UnderWay d (takeChoice s) :=
  ⟨h.head, h.drain, h.tenure, h.owns, h.bus⟩

theorem breakDone_lock (code : Nat) (s x : State) : (breakDone code s x).lock = Lock.powerOn := by
  rw [breakDone, ← offerReport_eq_offered, offerReport_lock]

theorem holdDropped_notLocked {s : State} (hb : LockHoldsBus s) :
    (holdDropped s).arb.lockHold = false ∧ ∀ inTenure, (holdDropped s).arb.state ≠ .locked .gate inTenure := by
  unfold holdDropped
  split
  · exact ⟨rfl, nofun⟩
  · next hl =>
    refine ⟨eq_false_of_ne_true hl, fun inTenure hs => ?_⟩
    cases inTenure with
    | true => exact hl (hb.2.1.2 hs)
    | false => exact hb.2.2 hs

theorem lockBrokenInTenure_bus {code : Nat} {s : State} (hb : LockHoldsBus s) :
    LockHoldsBus (lockBrokenInTenure code s) := by
  unfold lockBrokenInTenure
  split
  · exact hb
  · obtain ⟨hhold, hstate⟩ := holdDropped_notLocked hb
    unfold LockHoldsBus
    rw [WindowTable.breakDone_arb, breakDone_lock, hhold]
    exact ⟨by simp [Lock.powerOn], by simpa using hstate true, hstate false⟩

/-- A break of the lock leaves the drain under way (R40, R131). -/
theorem UnderWay.lockBroken {d : DataEntry} {s : State} (code : Nat) (h : UnderWay d s) :
    UnderWay d (lockBroken code s) := by
  obtain ⟨rest, he⟩ := h.head
  obtain ⟨⟨left, hleft⟩, hcbc, howns⟩ := WindowTable.lockBroken_inDrain (code := code) h.drain he h.owns
  refine ⟨⟨left, hleft⟩, ?_, by rw [hcbc]; exact h.tenure, howns, ?_⟩
  · rw [WindowTable.inDrain_of_eq (s := s) (by rw [hcbc])]
    exact h.drain
  · rw [WindowTable.lockBroken_inAccess code (WindowTable.access_of_inDrain h.drain)]
    exact lockBrokenInTenure_bus h.bus

theorem UnderWay.ends {d : DataEntry} {s : State} (h : UnderWay d s) :
    AccessEndsTo (drainPerformed d s) (settle (endDrain .performed s)) := by
  obtain ⟨rest, he⟩ := h.head
  exact performed_ends he h.tenure h.owns h.bus

end Sys2Proof.PostedWrites
end

section
/-! The choice and start of the next access, at the end of a resident's tenure and in a tenure held idle (O46). -/

namespace Sys2Proof.PostedWrites

-- One proof after the other: the text is compiled as one file, within a limit on memory that each thread draws on.
set_option Elab.async false

open Sys2Proof Sys2Proof.Machine Sys2Proof.Safety

/-! ### The end of an event in which an access begins -/

theorem inDrain_of_noAccess {s : State} (h : s.cbc.access = none) : inDrain s = false := by
  unfold inDrain
  rw [h]

/-- An access that begins leaves nothing to do at the end of the event. -/
theorem settled_of_begun {s t : State} (h : Settled s) (ha : s.cbc.access = none) (he : t.pwq = s.pwq)
    (hw : t.windows = s.windows) (hr : t.rq = s.rq) (hg : t.gsc = s.gsc)
    (hq : quiesceConditions t = true → quiesceConditions s = true) : Settled t := by
  obtain ⟨hhead, hdraining, hquiesce⟩ := h
  refine ⟨?_, by unfold DrainingNamed; rw [hw]; exact hdraining, fun ⟨hstate, hcond⟩ =>
    hquiesce ⟨by rw [← hg]; exact hstate, hq hcond⟩⟩
  unfold HeadSettled at hhead ⊢
  rw [he, hr]
  cases hes : s.pwq.entries with
  | nil => rw [hes] at hhead; exact hhead
  | cons e rest =>
    rw [hes] at hhead
    cases e with
    | control c => exact hhead
    | data d =>
      obtain ⟨hstays, hspace⟩ := hhead
      obtain ⟨hvoid, hthawed⟩ := hstays.resolve_left (by rw [inDrain_of_noAccess ha]; nofun)
      refine ⟨.inr ⟨hvoid, ?_⟩, hspace⟩
      unfold entryFrozen at hthawed ⊢
      rw [hw]
      exact hthawed

theorem quiesceConditions_free {s : State} (h : quiesceConditions s = true) (i : SlotId) :
    s.slots[i].state = .free := by
  simp only [quiesceConditions, Bool.and_eq_true, decide_eq_true_eq] at h
  obtain ⟨⟨-, hslots⟩, -⟩ := h
  rw [slotsInUse, countTable_eq_zero] at hslots
  simpa using hslots i

theorem settle_fetchBegun {s : State} {i : SlotId} (h : Settled s) (ha : s.cbc.access = none)
    (ht : s.cbc.tenure = true) (hi : NextSlot s i) : settle s = fetchBegun i s := by
  have hbegun : Settled (fetchBegun i s) := settled_of_begun h ha rfl rfl rfl rfl fun hq => by
    have hfree : (modAt s.slots i fun e => { e with state := .fetching })[i].state = .free :=
      quiesceConditions_free hq i
    rw [modAt_get_self] at hfree
    cases hfree
  rw [settle, leaveDeadHeads_settled s h, settleBus_moves_to s _ (.fetches s i ha ht hi), finishEvent_settled _ hbegun]

theorem settle_drainBegun (d : DataEntry) (next : Nat) (b : Beat) (s : State) :
    settle (drainBegun d next b s) = eventOver (drainBegun d next b s) := by
  rw [WindowTable.settle_busy rfl, headsGone_none _ (WindowTable.HeadStays.of_inDrain rfl)]

/-! ### The gate wins the decision at the end of a resident's tenure -/

theorem exec_requestDrop_wins {s : State} {p : Port} (hs : s.arb.state = .tenure (.port p))
    (hr : portOf s.lines.request p = true)
    (hw : Wins { s with lines.request := setPort s.lines.request p false } .gate) :
    exec (.residentRequestDrop p) s =
      .next (settle (granted .gate { s with lines.request := setPort s.lines.request p false })) := by
  have hends : residentTenureEnds p (setRequestLine p false s) =
      settle (granted .gate { s with lines.request := setPort s.lines.request p false }) := by
    have hstate : (setRequestLine p false s).arb.state = .tenure (.port p) := hs
    unfold residentTenureEnds
    rw [hstate]
    exact (if_pos rfl).trans (congrArg settle (decision_wins _ .gate hw))
  rw [← hends]
  exact congrArg Host.Outcome.next (if_pos hr)

/-- While a resident is in tenure the gate has no hold, no lock is OWNED, and no access is in flight. -/
theorem residentTenure_free {s : State} {p : Port} (hs : s.arb.state = .tenure (.port p)) (hb : LockHoldsBus s)
    (ht : TenureLegal s) : s.arb.lockHold = false ∧ s.lock.state ≠ .owned ∧ s.cbc.access = none := by
  have hhold : ¬s.arb.lockHold = true := fun h => by
    have := hb.2.1.1 h
    rw [hs] at this
    cases this
  have htenure : ¬s.cbc.tenure = true := fun h => by
    have := ht.1.1 h
    rw [hs] at this
    simp at this
  exact ⟨eq_false_of_ne_true hhold, fun h => hhold (hb.1.2 h),
    Option.not_isSome_iff_eq_none.1 fun h => htenure (ht.2.1 h)⟩

/-! ### A FENCE before the head that is drained next, in a tenure held idle -/

theorem exec_fence_atHead {s : State} {c : ControlEntry} {d : DataEntry} {rest : List Entry}
    (h : AtHead .fence c (.data d :: rest) s) (hb : LockHoldsBus s) (ho : s.lock.state = .owned) :
    exec .fence s = .next (settle (afterResult c (.data d :: rest) .ok (rest.length + 1) s)) := by
  have hdo : doFence c s = ⟨.ok, rest.length + 1, s⟩ := by
    simp [doFence, queueLength, h.entries]
  have hheld : s.arb.lockHold = true := hb.1.2 ho
  change Host.Outcome.next (executeHead .fence doFence s) = _
  rw [WindowTable.executeHead_atHead h hdo h.entries, leaveDeadHeads_eq, endIdleTenure, headsGone_arb,
    if_neg (by simp [afterResult, hheld]), settle_headsGone]

section

variable {s : State} {d : DataEntry} {rest : List Entry}

theorem underWay_accessed (he : s.pwq.entries = .data d :: rest) (ht : s.cbc.tenure = true)
    (hg : WindowTable.GateOwns s) (hb : LockHoldsBus s) : UnderWay d (accessed d s) :=
  ⟨⟨rest, he⟩, rfl, ht, hg, hb⟩

theorem gateOwns_of_owned (hb : LockHoldsBus s) (ht : TenureLegal s) (ho : s.lock.state = .owned) :
    s.cbc.tenure = true ∧ WindowTable.GateOwns s :=
  have hstate := hb.2.1.1 (hb.1.2 ho)
  ⟨ht.1.2 (.inr hstate), .inr hstate⟩

theorem fence_offers (c : ControlEntry) (ha : s.cbc.access = none) (hv : d.void = false)
    (hf : ¬(d.names = true ∧ s.windows[d.window].frozen = true)) :
    Offers (afterResult c (.data d :: rest) .ok (rest.length + 1) s) d :=
  ⟨rest, rfl, inDrain_of_noAccess ha, hv, hf⟩

end

/-- Settles O46: the event goes on from the start of the access that is chosen. -/
theorem theNextAccessIsChosen : Obligations.TheNextAccessIsChosen := by
  refine ⟨?_, ?_, ?_⟩
  · intro s p hs hr hsettled hb ht decided hwins
    obtain ⟨hhold, hfree, ha⟩ := residentTenure_free hs hb ht
    have hx : exec (.residentRequestDrop p) s = .next (settle (granted .gate decided)) :=
      exec_requestDrop_wins hs hr hwins
    have hgranted : Settled (granted .gate decided) := hsettled
    have hbegins (d : DataEntry) :
        drainBegins d (accessed d (granted .gate decided)) = accessed d (granted .gate decided) :=
      WindowTable.drainBegins_unlocked d hfree
    refine ⟨fun i hi => ?_, fun d next b hn ho hd => ?_, fun d hn ho hd => ⟨_, hx, ?_⟩⟩
    · rw [hx, settle_fetchBegun hgranted ha rfl hi]
    · have hbegun : Settled (drainBegun d next b (granted .gate decided)) :=
        settled_of_begun hgranted ha rfl rfl rfl rfl id
      rw [hx, settle_offered (s := granted .gate decided) ha rfl hn ho, startDrain_starts hd, hbegins,
        settle_drainBegun, ← finishEvent_eq]
      exact congrArg Host.Outcome.next (finishEvent_settled _ hbegun)
    · obtain ⟨rest, he, -⟩ := id ho
      have hbus : LockHoldsBus (granted .gate decided) :=
        ⟨hb.1, ⟨fun h => absurd (hhold.symm.trans h) Bool.false_ne_true, nofun⟩, nofun⟩
      have hends := (underWay_accessed (s := granted .gate decided) he rfl (.inl rfl) hbus).ends
      rw [accessed, drainPerformed_access] at hends
      rw [settle_offered (s := granted .gate decided) ha rfl hn ho, startDrain_finishes hd, hbegins]
      exact hends
  · intro s c d rest next b h hb ht ha ho hclose hv hf hd x hn
    obtain ⟨htenure, howns⟩ := gateOwns_of_owned hb ht ho
    have hx : exec .fence s = .next (eventOver (drainBegun d next b (drainBegins d (accessed d x)))) := by
      rw [exec_fence_atHead h hb ho, settle_offered (s := x) ha htenure hn (fence_offers c ha hv hf),
        startDrain_starts hd, settle_drainBegun]
    have hstops (y : State) (hy : y.lock.state = .owned) : closeBegun d y = { y with lock.hold := none } := by
      unfold closeBegun
      rw [if_pos ⟨hclose, hy⟩]
    refine ⟨fun hl => ?_, fun hl => ?_⟩
    · rw [hx, drainBegins_inTime (s := accessed d x) hl, hstops (accessed d x) ho]
      rfl
    · obtain he | he := drainBegins_late (s := accessed d x) hl hb rfl
      · refine .inl ?_
        rw [hx, he, hstops (takeChoice (accessed d x)) ho]
        rfl
      · refine .inr ?_
        rw [hx, he]
        rfl
  · intro s c d rest h hb ht ha ho hv hf hd x hn chosen
    obtain ⟨htenure, howns⟩ := gateOwns_of_owned hb ht ho
    have hx : exec .fence s = .next (settle (endDrain .performed (drainBegins d (accessed d x)))) := by
      rw [exec_fence_atHead h hb ho, settle_offered (s := x) ha htenure hn (fence_offers c ha hv hf),
        startDrain_finishes hd]
    have hway : UnderWay d (accessed d x) := underWay_accessed (rest := rest) rfl htenure howns hb
    refine ⟨_, hx, fun hl => ?_, fun hl => ?_⟩
    · rw [drainBegins_inTime (s := accessed d x) hl, ← drainPerformed_access d (closeBegun d x) (some (drainRecord d))]
      exact hway.closeBegun.ends
    · obtain he | he := drainBegins_late (s := accessed d x) hl hb rfl
      · refine .inl ?_
        rw [he, ← drainPerformed_access d (closeBegun d chosen) (some (drainRecord d))]
        exact hway.takeChoice.closeBegun.ends
      · refine .inr ?_
        rw [he]
        exact (hway.takeChoice.lockBroken 0).ends

end Sys2Proof.PostedWrites
end

section
/-! Reads that return to a slot which has its answer (O17, O18). -/

namespace Sys2Proof.DelayedReads

-- One proof after the other: the text is compiled as one file, within a limit on memory that each thread draws on.
set_option Elab.async false

open Sys2Proof Sys2Proof.Machine Sys2Proof.Safety

/-! ### The read step in the state that the lock step leaves -/

/-- A read that passes every step and matches a slot returns to it (R49, R92). -/
theorem exec_returns {s : State} {w : WindowId} {m : MasterId} {a : TrunkAddr} {u : BeatUnit} {k : LockAttr} {n : Nat}
    {i : SlotId} (hp : PassesToGate s w ⟨m, a, u, k, .read n⟩) (hg : GatePasses s w ⟨m, a, u, k, .read n⟩)
    (hl : LockStepPasses s w ⟨m, a, u, k, .read n⟩) (hm : matchingSlot s ⟨m, a, u, k, .read n⟩ = some i) :
    exec (.windowRead m a u k n) s = .next (returnTo i (noteTaken ⟨m, a, u, k, .read n⟩ s)) := by
  refine (WindowTable.exec_passing hp hg hl).trans (congrArg Host.Outcome.next ?_)
  change readStep w _ _ = _
  rw [readStep, WindowTable.matchingSlot_of_eq _ (WindowTable.noteTaken_slots _ s), hm]

/-! ### What a return makes of its slot -/

theorem returnTo_ready {i : SlotId} {s : State} {words : List CheckedWord} (hr : s.slots[i].state = .ready)
    (hd : s.slots[i].data = some words) (hgood : ∀ c ∈ words, CodeAgrees c.word c.code) :
    returnTo i s = answer (.done words) (settle (collectSlot i s)) := by
  have hwords : slotWords s.slots[i] = words := by rw [slotWords, hd]; rfl
  have hall : words.all wordAgrees = true :=
    List.all_eq_true.2 fun c hc => (WindowTable.codeAgrees_iff c.word c.code).2 (hgood c hc)
  unfold returnTo
  rw [hr]
  dsimp only
  unfold returnReady
  dsimp only
  rw [hwords, if_pos hall]

theorem returnTo_failed {i : SlotId} {s : State} (hf : s.slots[i].state = .failed) :
    returnTo i s = answer .refuse (settle (slotFreed i s)) := by
  rw [← WindowTable.freeSlot_eq i s (by rw [hf]; nofun)]
  unfold returnTo
  rw [hf]

theorem returnTo_stale {i : SlotId} {s : State} (hs : s.slots[i].state = .stale) : returnTo i s = returnStale i s := by
  unfold returnTo
  rw [hs]

theorem returnStale_enabled {i : SlotId} {s : State} (hg : s.gsc.state = .enabled) :
    returnStale i s = answer .retry (settle (restartSlot i s)) := by
  unfold returnStale
  rw [hg]

theorem returnStale_quiescing {i : SlotId} {s : State} (hg : s.gsc.state = .quiescing)
    (hs : s.slots[i].state = .stale) : returnStale i s = answer .retry (settle (slotFreed i s)) := by
  rw [← WindowTable.freeSlot_eq i s (by rw [hs]; nofun)]
  unfold returnStale
  rw [hg]

/-- The slot that is collected leaves the table, and a standing lock that named it names none (R50, R66, R79). -/
theorem collectSlot_eq {i : SlotId} {s : State} (h : s.slots[i].state ≠ .free) : collectSlot i s =
    slotFreed i { s with lock.slot := if lockStands s && s.lock.slot = some i then none else s.lock.slot } := by
  unfold collectSlot
  dsimp only
  split
  · exact WindowTable.freeSlot_eq i _ h
  · exact WindowTable.freeSlot_eq i _ h

/-- The STALE slot waits behind the entries now queued, last in the age order; the note is no part of that (R53). -/
theorem restartSlot_noteTaken (i : SlotId) (t : Txn) (s : State) : restartSlot i (noteTaken t s) =
    { noteTaken t s with
      slots := modAt s.slots i fun e => { e with state := .waiting, data := none, hold := none, ahead := queueLength s }
      ageOrder := s.ageOrder.filter (· != i) ++ [i] } := by
  unfold noteTaken
  split
  · rfl
  · rfl

/-- The note is no part of the collection either (R50, R79). -/
theorem collectSlot_noteTaken {i : SlotId} {s : State} (t : Txn) (h : s.slots[i].state ≠ .free) :
    collectSlot i (noteTaken t s) = slotFreed i { noteTaken t s with
      lock.slot := if lockStands s && s.lock.slot = some i then none else s.lock.slot } := by
  rw [collectSlot_eq (by rw [WindowTable.noteTaken_slots]; exact h)]
  unfold noteTaken
  split
  · rfl
  · rfl

/-- An answer that ends an event with what else belongs to it. -/
theorem exec_answers {c : Instr} {s x y : State} {a : Answer}
    (hx : exec c s = .next (answer a (settle x))) (h : x = y) :
    ∃ v, exec c s = .next { v with ti.answer := some a } ∧ SettlesTo y v :=
  ⟨settle x, hx, h ▸ settle_settlesTo x⟩

/-! ### The statements -/

/-- Settles O17: the note that the lock step takes is no field of a slot, so the slot is read as it stands in `s`. -/
theorem returnsCollectOrRefuse : Obligations.ReturnsCollectOrRefuse := by
  intro s w m a u k n i t hp hg hl hm
  have hslots := WindowTable.noteTaken_slots t s
  have hx := exec_returns hp hg hl hm
  refine ⟨fun words hr hd hgood => ?_, fun hf => ?_⟩
  · exact exec_answers (hx.trans (congrArg _ (returnTo_ready (by rw [hslots, hr]) (by rw [hslots, hd]) hgood)))
      (collectSlot_noteTaken t (by rw [hr]; nofun))
  · exact exec_answers (hx.trans (congrArg _ (returnTo_failed (by rw [hslots, hf])))) rfl

/-- Settles O18: in QUIESCING the return to an answer passes the gate-state step. -/
theorem staleSlotsRestartOrAreFreed : Obligations.StaleSlotsRestartOrAreFreed := by
  intro s w m a u k n i t hp hl hm hs
  have hstale : (noteTaken t s).slots[i].state = .stale := by rw [WindowTable.noteTaken_slots, hs]
  have hgsc := WindowTable.noteTaken_gsc t s
  refine ⟨fun hg => ?_, fun hg => ?_⟩
  · have hx := exec_returns hp (.inl hg) hl hm
    rw [returnTo_stale hstale, returnStale_enabled (by rw [hgsc, hg])] at hx
    exact exec_answers hx (restartSlot_noteTaken i t s)
  · have hx := exec_returns hp (.inr ⟨hg, .inl ⟨⟨n, rfl⟩, i, hm, .inr (.inr hs)⟩⟩) hl hm
    rw [returnTo_stale hstale, returnStale_quiescing (by rw [hgsc, hg]) hstale] at hx
    exact exec_answers hx rfl

end Sys2Proof.DelayedReads
end

section
/-! The end of a fetch in its slot (O45). -/

namespace Sys2Proof.DelayedReads

-- One proof after the other: the text is compiled as one file, within a limit on memory that each thread draws on.
set_option Elab.async false

open Sys2Proof Sys2Proof.Machine Sys2Proof.Safety

/-! ### The pieces that end a fetch (R113, R114) -/

section

variable {s : State} {a : Access} {p : PieceOp}

theorem outstanding_of_fetching (h : Fetching s a p) : outstanding s = some (a, p) :=
  (Scope.outstanding_eq_some s a p).2 ⟨h.access, h.op⟩

theorem inDrain_of_fetching (h : Fetching s a p) : inDrain s = false := by
  unfold inDrain
  rw [h.access]
  exact decide_eq_false (by rw [h.kind]; nofun)

/-- The last piece of a fetch, and any piece of a detached one, ends the fetch with the words gathered (R112, R123,
R124). -/
theorem exec_fetchAcked (h : Fetching s a p) (data : Word) (hend : a.slot = none ∨ LastPiece a) :
    exec (.pieceEnd (.ack data)) s =
      .next (settle (endFetch .success { a with gathered := gatheredWith a p data, op := none } s)) := by
  have hlast : LastPiece a → piecesAfter { a with gathered := gather a p data, op := none } = 0 := by
    unfold LastPiece piecesAfter pieceTotal
    dsimp only
    omega
  have hfetch : pieceAcked a p data s =
      endFetch .success { a with gathered := gatheredWith a p data, op := none } s := by
    have hkind : pieceAcked a p data s = fetchPieceAcked a p data s := by rw [pieceAcked, h.kind]
    exact hkind.trans (if_pos (by simpa using hend.imp_right hlast))
  change execPieceEnd (.ack data) s = _
  simp only [execPieceEnd, outstanding_of_fetching h, hfetch]
  rw [WindowTable.afterPiece_ended (WindowTable.endFetch_access _ _ _)]

theorem exec_fetchTargetError (h : Fetching s a p) :
    exec (.pieceEnd .targetError) s = .next (settle (endFetch (.failed .targetError p.op.addr) a s)) := by
  change execPieceEnd .targetError s = _
  simp only [execPieceEnd, outstanding_of_fetching h, pieceFailed, h.kind]

theorem exec_fetchNoResponse (h : Fetching s a p) (hdue : Due s.timebase p.timer) :
    exec .noResponse s = .next (settle (endFetch (.failed .noResponse p.op.addr) a s)) := by
  change Host.Outcome.next (responseExpires s) = _
  simp only [responseExpires, outstanding_of_fetching h, (Scope.expired_iff _ _).2 hdue, if_true, pieceFailed, h.kind]

/-- The two ways in which a piece of a fetch fails, with the code of each in the report (R113, R186). -/
theorem exec_fetchFailed (h : Fetching s a p) {command : Instr} {code : Nat}
    (hc : (command = .pieceEnd .targetError ∧ code = 0) ∨
      (command = .noResponse ∧ code = 1 ∧ Due s.timebase p.timer)) :
    ∃ kind, errorCode kind = code ∧ exec command s = .next (settle (endFetch (.failed kind p.op.addr) a s)) := by
  obtain ⟨rfl, rfl⟩ | ⟨rfl, rfl, hdue⟩ := hc
  · exact ⟨.targetError, rfl, exec_fetchTargetError h⟩
  · exact ⟨.noResponse, rfl, exec_fetchNoResponse h hdue⟩

end

/-! ### What follows the outcome (R114, R118) -/

section

variable {s x : State} {a : Access} {o : FetchOutcome} {c : Instr}

theorem endFetch_slot {i : SlotId} (h : a.slot = some i) (hx : fetchOutcome o i a.gathered s = x) :
    endFetch o a s = settleTenure (leaveDeadHeads (clearAccess x)) := by
  unfold endFetch
  rw [h]
  dsimp only
  rw [hx]

theorem endFetch_detached (h : a.slot = none) :
    endFetch o a s = settleTenure (leaveDeadHeads (clearAccess s)) := by
  unfold endFetch
  rw [h]

/-- An event that ends the fetch in the state `x` of the slots goes on from there without an access. -/
theorem fetch_ends (hx : exec c s = .next (settle (endFetch o a s)))
    (he : endFetch o a s = settleTenure (leaveDeadHeads (clearAccess x))) (ht : x.cbc.tenure = true)
    (hg : WindowTable.GateOwns x) :
    ∃ t, exec c s = .next t ∧ AccessEndsTo { x with cbc.access := none } t :=
  ⟨_, hx, he ▸ settle_accessEndsTo (clearAccess x) ht hg⟩

end

/-! ### The outcome in the slot (R59, R60, R61) -/

section

variable {s : State} {i : SlotId} {o : FetchOutcome} {ws : List Word}

theorem fetchOutcome_marked (hf : s.slots[i].state = .fetching) (hm : s.slots[i].releaseMark = true) :
    fetchOutcome o i ws s = slotFreed i s := by
  unfold fetchOutcome
  rw [if_pos hf, if_pos hm, WindowTable.freeSlot_eq i s (by rw [hf]; nofun)]

theorem fetchOutcome_unmarked (hf : s.slots[i].state = .fetching) (hm : s.slots[i].releaseMark = false) :
    fetchOutcome .success i ws s = fetchSucceeds i ws s ∧
      ∀ kind addr, fetchOutcome (.failed kind addr) i ws s = fetchFails i kind addr s := by
  constructor
  · rw [fetchOutcome, if_pos hf, if_neg (by rw [hm]; nofun)]
  · intro kind addr
    rw [fetchOutcome, if_pos hf, if_neg (by rw [hm]; nofun)]

theorem fetchSucceeds_ordinary (hl : s.slots[i].locked = false) : fetchSucceeds i ws s =
    { s with slots := modAt s.slots i fun e =>
      { e with state := .ready, data := some (ws.map withCode), hold := some ⟨s.timebase, s.cu.readHold⟩ } } :=
  if_neg (by rw [hl]; nofun)

theorem lockAwaits_iff (s : State) (i : SlotId) :
    lockAwaits s i = true ↔ s.lock.state = .pending ∧ s.lock.slot = some i := by
  unfold lockAwaits
  rw [Bool.and_eq_true, decide_eq_true_iff, decide_eq_true_iff]

/-- The lock that awaits the slot is OWNED and holds the card bus (R59, R77, R131). -/
theorem fetchSucceeds_awaited (hl : s.slots[i].locked = true) (ha : s.lock.state = .pending ∧ s.lock.slot = some i) :
    fetchSucceeds i ws s = { s with
      slots := modAt s.slots i fun e => { e with state := .ready, data := some (ws.map withCode) }
      lock := { s.lock with state := .owned, hold := some ⟨s.timebase, s.cu.lockHold⟩ }
      arb.lockHold := true
      arb.state := .locked .gate true } := by
  rw [fetchSucceeds, if_pos hl]
  exact if_pos ((lockAwaits_iff _ _).2 ha)

/-- The state in which the slot is FAILED with its hold timer running, and READ FAILED has been offered (R60, R186). -/
def failedReported (i : SlotId) (code : Nat) (addr : CardAddr) (s : State) : State :=
  offered
    ⟨.readFailed, none, none, some s.slots[i].key.master, some s.slots[i].window, some (addr.setWidth 32),
      BitVec.ofNat 32 (256 * code + 65536 * i.val)⟩
    { s with slots := modAt s.slots i fun e =>
      { e with state := .failed, data := none, locked := false, hold := some ⟨s.timebase, s.cu.readHold⟩ } }

theorem failedReported_rest (i : SlotId) (code : Nat) (addr : CardAddr) (s : State) :
    (failedReported i code addr s).lock = s.lock ∧ (failedReported i code addr s).cbc = s.cbc ∧
      (failedReported i code addr s).arb = s.arb ∧ (failedReported i code addr s).pwq = s.pwq := by
  unfold failedReported
  rw [← offerReport_eq_offered, offerReport_lock, offerReport_cbc, offerReport_arb, offerReport_pwq]
  exact ⟨rfl, rfl, rfl, rfl⟩

theorem fetchFails_eq (i : SlotId) (kind : ErrorKind) (addr : CardAddr) (s : State) :
    fetchFails i kind addr s =
      if s.lock.state = .pending ∧ s.lock.slot = some i then
        markVoid (clearLock (failedReported i (errorCode kind) addr s))
      else failedReported i (errorCode kind) addr s := by
  have hr := failedReported_rest i (errorCode kind) addr s
  rw [← hr.1]
  unfold fetchFails
  dsimp only
  rw [offerReport_eq_offered]
  exact if_congr (lockAwaits_iff _ _) rfl rfl

/-- In a fetch no drain has begun, so every queued sequence entry becomes void (R40, R78). -/
theorem markVoid_notInDrain {l : List Entry} (h : inDrain s = false) (he : s.pwq.entries = l) :
    markVoid s = { s with pwq.entries := l.map voided } := by
  rw [WindowTable.markVoid_eq, h, he]
  rfl

end

/-! ### The statement -/

section

variable {s : State} {a : Access} {p : PieceOp} {i : SlotId}

/-- A fetch that fails in an unmarked slot ends with the report, and with the lock that awaited the slot (R60, R78). -/
theorem fetchFails_ends (h : Fetching s a p) (ht : TenureLegal s) (hslot : a.slot = some i)
    (hf : s.slots[i].state = .fetching) (hm : s.slots[i].releaseMark = false) {c : Instr} {kind : ErrorKind}
    (hx : exec c s = .next (settle (endFetch (.failed kind p.op.addr) a s))) :
    (¬(s.lock.state = .pending ∧ s.lock.slot = some i) → ∃ t, exec c s = .next t ∧
      AccessEndsTo { failedReported i (errorCode kind) p.op.addr s with cbc.access := none } t) ∧
    (s.lock.state = .pending → s.lock.slot = some i → ∃ t, exec c s = .next t ∧
      AccessEndsTo { failedReported i (errorCode kind) p.op.addr s with
        lock := Lock.powerOn, pwq.entries := s.pwq.entries.map voided, cbc.access := none } t) := by
  obtain ⟨htenure, hg⟩ := WindowTable.gateOwns_of_access ht h.access
  obtain ⟨hlock, hcbc, harb, hpwq⟩ := failedReported_rest i (errorCode kind) p.op.addr s
  have hout := (fetchOutcome_unmarked (ws := a.gathered) hf hm).2 kind p.op.addr
  rw [fetchFails_eq] at hout
  have hg' : WindowTable.GateOwns (failedReported i (errorCode kind) p.op.addr s) := by
    rw [WindowTable.GateOwns, harb]; exact hg
  constructor
  · intro hn
    rw [if_neg hn] at hout
    exact fetch_ends hx (endFetch_slot hslot hout) (by rw [hcbc, htenure]) hg'
  · intro hp hi
    have hd : inDrain (clearLock (failedReported i (errorCode kind) p.op.addr s)) = false := by
      exact (WindowTable.inDrain_of_eq (congrArg _ hcbc)).trans (inDrain_of_fetching h)
    rw [if_pos ⟨hp, hi⟩, markVoid_notInDrain hd (congrArg _ hpwq)] at hout
    exact fetch_ends hx (endFetch_slot hslot hout) (by exact (congrArg _ hcbc).trans htenure) hg'

end

/-- Settles O45: the access that ends is gone, and the tenure is settled from what the outcome makes of the slot. -/
theorem aFetchEndsInItsSlot : Obligations.AFetchEndsInItsSlot := by
  intro s a p h ht becomes
  obtain ⟨htenure, hg⟩ := WindowTable.gateOwns_of_access ht h.access
  refine ⟨fun answer hn => ?_, fun hn hdue => ?_, fun i data hslot hlast hf => ?_,
    fun i command code hslot hf hc => ?_⟩
  · cases answer with
    | ack data => exact fetch_ends (exec_fetchAcked h data (.inl hn)) (endFetch_detached hn) htenure hg
    | targetError => exact fetch_ends (exec_fetchTargetError h) (endFetch_detached hn) htenure hg
  · exact fetch_ends (exec_fetchNoResponse h hdue) (endFetch_detached hn) htenure hg
  · have hx := exec_fetchAcked h data (.inr hlast)
    have ends {x : State} := fun (ho : fetchOutcome .success i (gatheredWith a p data) s = x) =>
      fetch_ends hx (endFetch_slot (i := i) hslot ho)
    refine ⟨fun hm => ends (fetchOutcome_marked hf hm) htenure hg, fun hm hl => ?_, fun hm hl hp hi => ?_⟩
    · exact ends ((fetchOutcome_unmarked hf hm).1.trans (fetchSucceeds_ordinary hl)) htenure hg
    · exact ends ((fetchOutcome_unmarked hf hm).1.trans (fetchSucceeds_awaited hl ⟨hp, hi⟩)) htenure (.inr rfl)
  · obtain ⟨kind, rfl, hx⟩ := exec_fetchFailed h hc
    refine ⟨fun hm => fetch_ends hx (endFetch_slot hslot (fetchOutcome_marked hf hm)) htenure hg, fun hm => ?_,
      fun hm => ?_⟩
    · exact (fetchFails_ends h ht hslot hf hm hx).1
    · exact (fetchFails_ends h ht hslot hf hm hx).2

end Sys2Proof.DelayedReads
end

section
/-! The laws of the slots and of the age order (R47, R48, R88, R94) under the single operations of an event. -/

namespace Sys2Proof.DelayedReads

-- One proof after the other: the text is compiled as one file, within a limit on memory that each thread draws on.
set_option Elab.async false

open Sys2Proof Sys2Proof.Machine Sys2Proof.Safety Sys2Proof.WindowTable

/-! ### One slot (R47) -/

/-- The key of a read of 1 to 16 beats, which no CLOSE read is (R88, R94). -/
def ReadKey (k : SlotKey) : Prop := (1 ≤ k.beats ∧ k.beats ≤ 16) ∧ k.lock ≠ .closeLock

section

variable {e : Slot}

theorem slotLegal_powerOn : SlotLegal Slot.powerOn := by simp [SlotLegal, Slot.powerOn]

theorem slotLegal_waiting_iff (h : e.state = .waiting) :
    SlotLegal e ↔ e.data = none ∧ e.hold = none ∧ e.releaseMark = false ∧ ReadKey e.key := by
  simp [SlotLegal, ReadKey, h]

theorem slotLegal_fetching_iff (h : e.state = .fetching) :
    SlotLegal e ↔ e.data = none ∧ e.hold = none ∧ e.ahead = 0 ∧ ReadKey e.key := by
  simp [SlotLegal, ReadKey, h]

theorem slotLegal_ready_iff (h : e.state = .ready) : SlotLegal e ↔
    e.data.isSome = true ∧ e.hold.isSome = !e.locked ∧ e.ahead = 0 ∧ e.releaseMark = false ∧ ReadKey e.key := by
  simp [SlotLegal, ReadKey, h]

theorem slotLegal_stale_iff (h : e.state = .stale) : SlotLegal e ↔
    e.data.isSome = true ∧ e.hold.isSome = true ∧ e.ahead = 0 ∧ e.releaseMark = false ∧ ReadKey e.key := by
  simp [SlotLegal, ReadKey, h]

theorem slotLegal_failed_iff (h : e.state = .failed) : SlotLegal e ↔
    e.data = none ∧ e.hold.isSome = true ∧ e.ahead = 0 ∧ e.releaseMark = false ∧ ReadKey e.key := by
  simp [SlotLegal, ReadKey, h]

theorem slotLegal_lowerAhead (h : SlotLegal e) : SlotLegal (lowerAhead e) := by
  unfold lowerAhead
  split
  · next hc =>
    simp only [Bool.and_eq_true, decide_eq_true_eq] at hc
    exact (slotLegal_waiting_iff (e := { e with ahead := e.ahead - 1 }) hc.1).2 ((slotLegal_waiting_iff hc.1).1 h)
  · exact h

theorem slotLegal_staleSlot (a : CardAddr) (n : Nat) (h : SlotLegal e) : SlotLegal (staleSlot a n e) := by
  unfold staleSlot
  split
  · next hc =>
    simp only [Bool.and_eq_true, decide_eq_true_eq, Bool.not_eq_true'] at hc
    obtain ⟨⟨hr, hl⟩, -⟩ := hc
    obtain ⟨hd, hh, hrest⟩ := (slotLegal_ready_iff hr).1 h
    exact (slotLegal_stale_iff rfl).2 ⟨hd, by rw [hh, hl]; rfl, hrest⟩
  · exact h

/-- The fetch of a slot that may be fetched (R57, R58). -/
theorem slotLegal_fetching (hw : e.state = .waiting) (ha : e.ahead = 0) (h : SlotLegal e) :
    SlotLegal { e with state := .fetching } := by
  obtain ⟨hd, hh, -, hk⟩ := (slotLegal_waiting_iff hw).1 h
  exact (slotLegal_fetching_iff rfl).2 ⟨hd, hh, ha, hk⟩

theorem slotLegal_marked (hf : e.state = .fetching) (h : SlotLegal e) : SlotLegal { e with releaseMark := true } :=
  (slotLegal_fetching_iff (e := { e with releaseMark := true }) hf).2 ((slotLegal_fetching_iff hf).1 h)

/-- A locked slot whose fetch has succeeded has no timer of its own (R59, R77). -/
theorem slotLegal_readyLocked (hf : e.state = .fetching) (hm : e.releaseMark = false) (hl : e.locked = true)
    (ws : List CheckedWord) (h : SlotLegal e) : SlotLegal { e with state := .ready, data := some ws } := by
  obtain ⟨-, hh, ha, hk⟩ := (slotLegal_fetching_iff hf).1 h
  exact (slotLegal_ready_iff rfl).2 ⟨rfl, by rw [hh, hl]; rfl, ha, hm, hk⟩

theorem slotLegal_readyOrdinary (hf : e.state = .fetching) (hm : e.releaseMark = false) (hl : e.locked = false)
    (ws : List CheckedWord) (timer : Timer) (h : SlotLegal e) :
    SlotLegal { e with state := .ready, data := some ws, hold := some timer } := by
  obtain ⟨-, -, ha, hk⟩ := (slotLegal_fetching_iff hf).1 h
  exact (slotLegal_ready_iff rfl).2 ⟨rfl, by rw [hl]; rfl, ha, hm, hk⟩

theorem slotLegal_failed (hf : e.state = .fetching) (hm : e.releaseMark = false) (timer : Timer) (h : SlotLegal e) :
    SlotLegal { e with state := .failed, data := none, locked := false, hold := some timer } := by
  obtain ⟨-, -, ha, hk⟩ := (slotLegal_fetching_iff hf).1 h
  exact (slotLegal_failed_iff rfl).2 ⟨rfl, rfl, ha, hm, hk⟩

/-- An uncollected locked slot that outlives its lock (R56, R82). -/
theorem slotLegal_unlocked (hr : e.state = .ready) (timer : Timer) (h : SlotLegal e) :
    SlotLegal { e with locked := false, hold := some timer } := by
  obtain ⟨hd, -, hrest⟩ := (slotLegal_ready_iff hr).1 h
  exact (slotLegal_ready_iff (e := { e with locked := false, hold := some timer }) hr).2 ⟨hd, rfl, hrest⟩

/-- A STALE slot that starts again (R53). -/
theorem slotLegal_restarted (hs : e.state = .stale) (n : Nat) (h : SlotLegal e) :
    SlotLegal { e with state := .waiting, data := none, hold := none, ahead := n } := by
  obtain ⟨-, -, -, hrest⟩ := (slotLegal_stale_iff hs).1 h
  exact (slotLegal_waiting_iff rfl).2 ⟨rfl, rfl, hrest⟩

end

/-! ### The slot table (R47) -/

section

variable {s t : State}

theorem slotsLegal_congr (h : t.slots = s.slots) (hs : SlotsLegal s) : SlotsLegal t := by
  unfold SlotsLegal
  rw [h]
  exact hs

theorem modSlot_slotsLegal (i : SlotId) (f : Slot → Slot) (hf : SlotLegal s.slots[i] → SlotLegal (f s.slots[i]))
    (hs : SlotsLegal s) : SlotsLegal (modSlot i f s) := fun j => by
  rw [Scope.modSlot_get]
  split
  · next h => subst h; exact hf (hs i)
  · exact hs j

theorem mapSlots_slotsLegal (f : Slot → Slot) (hf : ∀ e, SlotLegal e → SlotLegal (f e))
    (ht : t.slots = mapTable s.slots f) (hs : SlotsLegal s) : SlotsLegal t := fun i => by
  rw [ht, mapTable_get]
  exact hf _ (hs i)

theorem freeSlot_slotsLegal (i : SlotId) (hs : SlotsLegal s) : SlotsLegal (freeSlot i s) := by
  unfold freeSlot
  split
  · exact hs
  · exact modSlot_slotsLegal i (fun _ => Slot.powerOn) (fun _ => slotLegal_powerOn) hs

theorem withdrawSlot_slotsLegal (i : SlotId) (hs : SlotsLegal s) : SlotsLegal (withdrawSlot i s) := by
  unfold withdrawSlot
  split
  · next hf => exact modSlot_slotsLegal i _ (slotLegal_marked hf) hs
  · exact freeSlot_slotsLegal i hs

theorem removeHead_slots (s : State) :
    (removeHead s).slots = if s.pwq.entries = [] then s.slots else mapTable s.slots lowerAhead := by
  unfold removeHead
  split
  · next h => rw [if_pos h]
  · next h => rw [if_neg (by rw [h]; nofun), entryClaims_slots]

theorem removeHead_slotsLegal (hs : SlotsLegal s) : SlotsLegal (removeHead s) := by
  have h := removeHead_slots s
  split at h
  · exact slotsLegal_congr h hs
  · exact mapSlots_slotsLegal lowerAhead (fun _ => slotLegal_lowerAhead) h hs

/-- A break of the lock leaves of the slots what the withdrawal of the slot that it named leaves (R84). -/
theorem breakLock_table (c : BreakCause) (h : lockStands s = true) :
    ∃ x : State, x.slots = s.slots ∧ x.ageOrder = s.ageOrder ∧
      (breakLock c s).slots = (withdrawLockedSlot s.lock.slot x).slots ∧
      (breakLock c s).ageOrder = (withdrawLockedSlot s.lock.slot x).ageOrder := by
  refine ⟨if s.lock.state = .owned then releaseHold (clearLock s) else clearLock s, by split <;> simp,
    by split <;> simp, ?_, ?_⟩
  · rw [breakLock, if_pos h]; simp
  · rw [breakLock, if_pos h]; simp

theorem breakLock_slotsLegal (c : BreakCause) (hs : SlotsLegal s) : SlotsLegal (breakLock c s) := by
  by_cases h : lockStands s = true
  · obtain ⟨x, hx, -, hb, -⟩ := breakLock_table c h
    refine slotsLegal_congr hb ?_
    have hx : SlotsLegal x := slotsLegal_congr hx hs
    cases s.lock.slot with
    | none => exact hx
    | some i => exact withdrawSlot_slotsLegal i hx
  · rw [breakLock, if_neg h]; exact hs

theorem unlockReadySlot_slotsLegal (slot : Option SlotId) (hs : SlotsLegal s) :
    SlotsLegal (unlockReadySlot slot s) := by
  unfold unlockReadySlot
  split
  · split
    · next hc =>
      simp only [Bool.and_eq_true, decide_eq_true_eq] at hc
      exact modSlot_slotsLegal _ _ (slotLegal_unlocked hc.1 _) hs
    · exact hs
  · exact hs

theorem closeLock_slotsLegal (d : DataEntry) (hs : SlotsLegal s) : SlotsLegal (closeLock d s) := by
  unfold closeLock
  split
  · exact slotsLegal_congr (releaseHold_slots _)
      (unlockReadySlot_slotsLegal s.lock.slot (slotsLegal_congr (t := clearLock s) rfl hs))
  · exact hs

theorem freezeOnError_slotsLegal (d : DataEntry) (k : ErrorKind) (a : CardAddr) (hs : SlotsLegal s) :
    SlotsLegal (freezeOnError d k a s) := by
  unfold freezeOnError
  dsimp only
  split
  · have hx : SlotsLegal (offerReport (windowFrozenBody d k a)
        { s with windows := modAt s.windows d.window fun e => { e with frozen := true } }) :=
      slotsLegal_congr (offerReport_slots _ _) hs
    split
    · exact breakLock_slotsLegal _ hx
    · exact hx
  · exact hs

theorem fetchSucceeds_slotsLegal (i : SlotId) (ws : List Word) (hf : s.slots[i].state = .fetching)
    (hm : s.slots[i].releaseMark = false) (hs : SlotsLegal s) : SlotsLegal (fetchSucceeds i ws s) := by
  unfold fetchSucceeds
  dsimp only
  split
  · next hl =>
    have hx := modSlot_slotsLegal i (fun e => { e with state := .ready, data := some (ws.map withCode) })
      (slotLegal_readyLocked hf hm hl _) hs
    split
    · exact slotsLegal_congr rfl hx
    · exact hx
  · next hl => exact modSlot_slotsLegal i _ (slotLegal_readyOrdinary hf hm (by simpa using hl) _ _) hs

theorem fetchFails_slotsLegal (i : SlotId) (k : ErrorKind) (a : CardAddr) (hf : s.slots[i].state = .fetching)
    (hm : s.slots[i].releaseMark = false) (hs : SlotsLegal s) : SlotsLegal (fetchFails i k a s) := by
  have hx := modSlot_slotsLegal i (fun e => { e with
    state := .failed, data := none, locked := false, hold := some (startTimer s s.cu.readHold) })
    (slotLegal_failed hf hm _) hs
  unfold fetchFails
  dsimp only
  split
  · exact slotsLegal_congr (by simp) hx
  · exact slotsLegal_congr (by simp) hx

theorem fetchOutcome_slotsLegal (o : FetchOutcome) (i : SlotId) (ws : List Word) (hs : SlotsLegal s) :
    SlotsLegal (fetchOutcome o i ws s) := by
  unfold fetchOutcome
  split
  · next hf =>
    split
    · exact freeSlot_slotsLegal i hs
    · next hm =>
      rw [Bool.not_eq_true] at hm
      cases o with
      | success => exact fetchSucceeds_slotsLegal i ws hf hm hs
      | failed k a => exact fetchFails_slotsLegal i k a hf hm hs
  · exact hs

theorem startFetch_slotsLegal (i : SlotId) (he : eligible s i = true) (hs : SlotsLegal s) :
    SlotsLegal (startFetch i s) := by
  simp only [eligible, Bool.and_eq_true, decide_eq_true_eq] at he
  exact modSlot_slotsLegal i _ (slotLegal_fetching he.1 he.2) hs

theorem freeAllSlots_slotsLegal (hs : SlotsLegal s) : SlotsLegal (freeAllSlots s) :=
  Scope.Closed.foldl (P := SlotsLegal) _ (fun _ i => freeSlot_slotsLegal i) _ hs

end

theorem slotsLegal_closed : Scope.Closed SlotsLegal where
  same h := slotsLegal_congr h.slots
  removeHead := removeHead_slotsLegal
  freeIfDrained w := slotsLegal_congr (by unfold freeIfDrained; split <;> simp)
  endTenure _ _ := slotsLegal_congr (by simp)
  reviewRequest := slotsLegal_congr (by simp)
  startFetch i _ _ he := startFetch_slotsLegal i he
  markStale a n := mapSlots_slotsLegal _ (fun _ => slotLegal_staleSlot a n) rfl
  closeLock := closeLock_slotsLegal
  stopLockTimer d := slotsLegal_congr (by simp)
  breakLock := breakLock_slotsLegal
  freezeOnError := freezeOnError_slotsLegal
  fetchOutcome o i ws _ := fetchOutcome_slotsLegal o i ws
  everySlotFreed c hs := slotsLegal_congr (releaseHold_slots _) (breakLock_slotsLegal c (freeAllSlots_slotsLegal hs))
  marked _ _ := slotsLegal_congr rfl

theorem slotsLegal_accessClosed : Scope.AccessClosed SlotsLegal SlotsLegal where
  inner := slotsLegal_closed
  outer := slotsLegal_closed
  relax := id
  pause _ _ := slotsLegal_congr rfl
  clear := slotsLegal_congr rfl
  operate _ _ _ _ := slotsLegal_congr rfl

/-! ### The age order and the keys (R48) -/

/-- The age order holds each slot in use once, and no two slots in use have one key (R48). -/
structure InOrder (s : State) : Prop where
  age : AgeOrderLegal s
  keys : KeysDistinct s

namespace InOrder

variable {s t : State}

/-- The slots in use and their keys are as they were. -/
theorem congr (ha : t.ageOrder = s.ageOrder)
    (hf : ∀ i : SlotId, t.slots[i].state = .free ↔ s.slots[i].state = .free)
    (hk : ∀ i : SlotId, t.slots[i].key = s.slots[i].key) (hs : InOrder s) : InOrder t where
  age := ⟨ha ▸ hs.age.1, fun i => by rw [ha, ne_eq, hf]; exact hs.age.2 i⟩
  keys i j := by rw [ne_eq, hf, ne_eq, hf, hk, hk]; exact hs.keys i j

theorem same (hs : t.slots = s.slots) (ha : t.ageOrder = s.ageOrder) (h : InOrder s) : InOrder t :=
  h.congr ha (fun _ => by rw [hs]) fun _ => by rw [hs]

theorem mapSlots (f : Slot → Slot) (hf : ∀ e, (f e).state = .free ↔ e.state = .free)
    (hk : ∀ e, (f e).key = e.key) (ht : t.slots = mapTable s.slots f) (ha : t.ageOrder = s.ageOrder)
    (h : InOrder s) : InOrder t :=
  h.congr ha (fun i => by rw [ht, mapTable_get, hf]) fun i => by rw [ht, mapTable_get, hk]

theorem modSlot (i : SlotId) (f : Slot → Slot) (hi : s.slots[i].state ≠ .free) (hf : (f s.slots[i]).state ≠ .free)
    (hk : (f s.slots[i]).key = s.slots[i].key) (h : InOrder s) : InOrder (modSlot i f s) := by
  refine InOrder.congr (s := s) rfl (fun j => ?_) (fun j => ?_) h
  · rw [Scope.modSlot_get]
    split
    · next hij => subst hij; exact iff_of_false hf hi
    · exact Iff.rfl
  · rw [Scope.modSlot_get]
    split
    · next hij => subst hij; exact hk
    · rfl

theorem freeSlot (i : SlotId) (h : InOrder s) : InOrder (freeSlot i s) := by
  by_cases hi : s.slots[i].state = .free
  · rw [Machine.freeSlot, if_pos hi]; exact h
  · rw [freeSlot_eq i s hi]
    have hg (j : SlotId) : (slotFreed i s).slots[j] = if i = j then Slot.powerOn else s.slots[j] :=
      modAt_get s.slots i j _
    have hin (j : SlotId) : (slotFreed i s).slots[j].state ≠ .free ↔ s.slots[j].state ≠ .free ∧ j ≠ i := by
      rw [hg]
      by_cases hij : i = j
      · simp [hij, Slot.powerOn]
      · simp [hij, Ne.symm hij]
    refine ⟨⟨h.age.1.filter _, fun j => ?_⟩, fun j k hj hk he => ?_⟩
    · rw [hin, ← h.age.2]
      simp [slotFreed]
    · obtain ⟨hj, hji⟩ := (hin j).1 hj
      obtain ⟨hk, hki⟩ := (hin k).1 hk
      rw [hg, if_neg hji.symm, hg, if_neg hki.symm] at he
      exact h.keys j k hj hk he

/-- A slot that a read takes, with a key that no slot in use has, comes last in the age order (R48, R55). -/
theorem take {i : SlotId} {e : Slot} (hi : s.slots[i].state = .free) (he : e.state ≠ .free)
    (hnew : ∀ j : SlotId, s.slots[j].state ≠ .free → s.slots[j].key ≠ e.key)
    (ht : t.slots = modAt s.slots i fun _ => e) (ha : t.ageOrder = s.ageOrder ++ [i]) (h : InOrder s) : InOrder t := by
  have hg (j : SlotId) : t.slots[j] = if i = j then e else s.slots[j] := by rw [ht, modAt_get]
  have hin (j : SlotId) : t.slots[j].state ≠ .free ↔ s.slots[j].state ≠ .free ∨ j = i := by
    rw [hg]
    by_cases hij : i = j
    · simp [hij, he]
    · simp [hij, Ne.symm hij]
  have hout : i ∉ s.ageOrder := fun hm => (h.age.2 i).1 hm hi
  refine ⟨⟨?_, fun j => ?_⟩, fun j k hj hk hkey => ?_⟩
  · rw [ha, List.nodup_append]
    refine ⟨h.age.1, List.nodup_singleton i, fun a hm b hb hab => hout ?_⟩
    rw [List.mem_singleton] at hb
    rw [← hb, ← hab]
    exact hm
  · rw [hin, ← h.age.2, ha, List.mem_append, List.mem_singleton]
  · rw [hg, hg] at hkey
    by_cases hij : i = j
    · by_cases hik : i = k
      · exact hij.symm.trans hik
      · rw [if_pos hij, if_neg hik] at hkey
        exact absurd hkey.symm (hnew k (((hin k).1 hk).resolve_right (Ne.symm hik)))
    · rw [if_neg hij] at hkey
      have hj := ((hin j).1 hj).resolve_right (Ne.symm hij)
      by_cases hik : i = k
      · rw [if_pos hik] at hkey
        exact absurd hkey (hnew j hj)
      · rw [if_neg hik] at hkey
        exact h.keys j k hj (((hin k).1 hk).resolve_right (Ne.symm hik)) hkey

/-- A slot in use that goes to the end of the age order (R53). -/
theorem moveLast {i : SlotId} (hi : s.slots[i].state ≠ .free) (h : InOrder s) :
    InOrder { s with ageOrder := s.ageOrder.filter (· != i) ++ [i] } := by
  refine ⟨⟨?_, fun j => ?_⟩, h.keys⟩
  · rw [List.nodup_append]
    refine ⟨h.age.1.filter _, List.nodup_singleton i, fun a hm b hb hab => ?_⟩
    rw [List.mem_singleton] at hb
    simp [hab, hb] at hm
  · rw [← h.age.2, List.mem_append, List.mem_singleton, List.mem_filter]
    by_cases hj : j = i
    · subst hj; simpa using (h.age.2 j).2 hi
    · simp [hj]

theorem withdrawSlot (i : SlotId) (h : InOrder s) : InOrder (withdrawSlot i s) := by
  unfold Machine.withdrawSlot
  split
  · next hf => exact h.modSlot i _ (by rw [hf]; nofun) (by dsimp only; rw [hf]; nofun) rfl
  · exact h.freeSlot i

theorem removeHead (h : InOrder s) : InOrder (removeHead s) := by
  have ha : (Machine.removeHead s).ageOrder = s.ageOrder := by unfold Machine.removeHead; split <;> simp
  have hs := removeHead_slots s
  split at hs
  · exact h.same hs ha
  · exact h.mapSlots lowerAhead (fun e => by rw [(lowerAhead_claims e).1]) (fun e => (lowerAhead_claims e).2.1) hs ha

theorem breakLock (c : BreakCause) (h : InOrder s) : InOrder (breakLock c s) := by
  by_cases hl : lockStands s = true
  · obtain ⟨x, hx, hxa, hb, hba⟩ := breakLock_table c hl
    refine InOrder.same hb hba ?_
    have hx : InOrder x := h.same hx hxa
    cases s.lock.slot with
    | none => exact hx
    | some i => exact hx.withdrawSlot i
  · rw [Machine.breakLock, if_neg hl]; exact h

end InOrder

theorem emptyQueue_table (s : State) : (emptyQueue s).slots = s.slots ∧ (emptyQueue s).ageOrder = s.ageOrder := by
  rw [emptyQueue_eq]
  unfold queueEmptied
  exact ⟨rfl, rfl⟩

/-- Every single operation of the gate's internal work keeps the age order and the keys apart. -/
theorem inOrder_act {s t : State} (h : Act s t) (hs : InOrder s) : InOrder t := by
  cases h with
  | freesSlot i => exact hs.freeSlot i
  | changesSlot i f hi hf hk _ => exact hs.modSlot i f hi hf hk
  | makesStale a n =>
    exact hs.mapSlots _ (fun e => (staleSlot_claims a n e).1) (fun e => (staleSlot_claims a n e).2.1) rfl rfl
  | leaves _ => exact hs.removeHead
  | empties => exact hs.same (emptyQueue_table s).1 (emptyQueue_table s).2
  | breaks c _ => exact hs.breakLock c
  | frees w =>
    exact hs.same (by unfold freeIfDrained; split <;> simp) (by unfold freeIfDrained; split <;> simp)
  | owns _ => exact InOrder.same (s := s) rfl rfl hs
  | _ => exact hs.same (by simp) (by simp)

theorem inOrder_work {s t : State} (h : Work s t) (hs : InOrder s) : InOrder t := by
  induction h with
  | refl => exact hs
  | tail _ h ih => exact inOrder_act h ih

end Sys2Proof.DelayedReads
end

section
/-! Every command keeps the laws of the slots and of the age order (R47, R48, R88, R94): O57. -/

namespace Sys2Proof.DelayedReads

-- One proof after the other: the text is compiled as one file, within a limit on memory that each thread draws on.
set_option Elab.async false

open Sys2Proof Sys2Proof.Machine Sys2Proof.Safety Sys2Proof.WindowTable

/-! ### The laws together, and the gate's internal work -/

/-- The laws of the slots, and of the age order and the keys (R47, R48). -/
structure SlotLaws (s : State) : Prop where
  legal : SlotsLegal s
  order : InOrder s

theorem pieceAcked_work (a : Access) (p : PieceOp) (data : Word) (s : State) : Work s (pieceAcked a p data s) := by
  unfold pieceAcked
  split
  · unfold drainPieceAcked
    dsimp only
    refine .trans (Act.accesses s (some { a with bytes := a.bytes + laneCount p.op.enables, op := none })).work ?_
    split
    · exact endDrain_work _ _
    · split
      · exact endDrain_work _ _
      · split
        · exact continueDrain_work _ _ _ _
        · exact endDrain_work _ _
  · unfold fetchPieceAcked
    dsimp only
    split
    · exact endFetch_work _ _ s
    · exact (Act.accesses s _).work

namespace SlotLaws

variable {s t : State}

/-- A change of other blocks alone. -/
theorem same (h : SlotLaws s) (hs : t.slots = s.slots := by simp) (ha : t.ageOrder = s.ageOrder := by simp) :
    SlotLaws t := ⟨slotsLegal_congr hs h.legal, h.order.same hs ha⟩

theorem answered (a : Answer) (h : SlotLaws s) : SlotLaws (answer a s) := h.same rfl rfl

theorem notesCleared (h : SlotLaws s) : SlotLaws (clearNotes s) := h.same rfl rfl

theorem reported (b : ReportBody) (h : SlotLaws s) : SlotLaws (offerReport b s) := h.same

theorem work (h : SlotLaws s) (hw : Work s t) (hl : SlotsLegal s → SlotsLegal t) : SlotLaws t :=
  ⟨hl h.legal, inOrder_work hw h.order⟩

theorem settle (h : SlotLaws s) : SlotLaws (settle s) := h.work (settle_work s) slotsLegal_accessClosed.settle

theorem freeSlot (i : SlotId) (h : SlotLaws s) : SlotLaws (freeSlot i s) :=
  ⟨freeSlot_slotsLegal i h.legal, h.order.freeSlot i⟩

theorem withdrawSlot (i : SlotId) (h : SlotLaws s) : SlotLaws (withdrawSlot i s) :=
  ⟨withdrawSlot_slotsLegal i h.legal, h.order.withdrawSlot i⟩

theorem removeHead (h : SlotLaws s) : SlotLaws (removeHead s) := ⟨removeHead_slotsLegal h.legal, h.order.removeHead⟩

theorem breakLock (c : BreakCause) (h : SlotLaws s) : SlotLaws (breakLock c s) :=
  ⟨breakLock_slotsLegal c h.legal, h.order.breakLock c⟩

theorem leaveDeadHeads (h : SlotLaws s) : SlotLaws (leaveDeadHeads s) :=
  h.work (leaveDeadHeads_work s) slotsLegal_closed.leaveDeadHeads

theorem endIdleTenure (held : Bool) (h : SlotLaws s) : SlotLaws (endIdleTenure held s) :=
  h.work (endIdleTenure_work held s) (slotsLegal_closed.endIdleTenure held)

theorem freeDrainedWindows (h : SlotLaws s) : SlotLaws (freeDrainedWindows s) :=
  h.work (freeDrainedWindows_work s) slotsLegal_closed.freeDrainedWindows

theorem endStoppedAccess (h : SlotLaws s) : SlotLaws (endStoppedAccess s) :=
  h.work (endStoppedAccess_work s) slotsLegal_accessClosed.endStoppedAccess

theorem faultGate (c : FaultCause) (h : SlotLaws s) : SlotLaws (faultGate c s) :=
  ⟨slotsLegal_closed.faultGate c h.legal, inOrder_work (faultGate_work c s) (h.same (t := becomeFaulted c s)).order⟩

theorem pieceAcked {a : Access} (p : PieceOp) (data : Word) (ha : s.cbc.access = some a) (h : SlotLaws s) :
    SlotLaws (pieceAcked a p data s) :=
  h.work (pieceAcked_work a p data s) (slotsLegal_accessClosed.pieceAcked a p data (by rw [ha]; rfl))

theorem pieceFailed {a : Access} (p : PieceOp) (k : ErrorKind) (ha : s.cbc.access = some a) (h : SlotLaws s) :
    SlotLaws (pieceFailed a p k s) :=
  h.work (pieceFailed_work a p k s) (slotsLegal_accessClosed.pieceFailed a p k (by rw [ha]; rfl))

theorem emptyQueue (h : SlotLaws s) : SlotLaws (emptyQueue s) := h.same (emptyQueue_table s).1 (emptyQueue_table s).2

theorem withdrawSlots (p : Slot → Bool) (h : SlotLaws s) : SlotLaws (withdrawSlots p s) :=
  Scope.Closed.foldl (P := SlotLaws) _ (fun x i hx => by
    split
    · exact hx.withdrawSlot i
    · exact hx) _ h

/-- What the execution of a withdrawal ends with (R15, R177). -/
theorem withdrawn (h : SlotLaws s) : SlotLaws (testQuiesce (Machine.freeDrainedWindows s)) :=
  h.freeDrainedWindows.same

/-- Every slot is freed and the lock ended, at a reset or a fault (R70, R87). -/
theorem everySlotFreed (held : Bool) (c : BreakCause) (h : SlotLaws s) :
    SlotLaws (Machine.endIdleTenure held (releaseHold (Machine.breakLock c (freeAllSlots s)))) := by
  have hf : SlotLaws (freeAllSlots s) := Scope.Closed.foldl (P := SlotLaws) _ (fun _ i hx => hx.freeSlot i) _ h
  have hr : SlotLaws (releaseHold (Machine.breakLock c (freeAllSlots s))) := (hf.breakLock c).same
  exact hr.endIdleTenure held

end SlotLaws

/-! ### Window transactions -/

section

variable {s : State}

theorem chargeViolation_slotLaws (c : ViolationCause) (w : WindowId) (t : Txn) (h : SlotLaws s) :
    SlotLaws (chargeViolation c w t s) := by
  have ht {x : State} (hx : SlotLaws x) : SlotLaws (applyThreshold c w t x) := by
    unfold applyThreshold
    split
    · exact hx.same
    · exact hx
  have hv : SlotLaws (countViolation t.master s) := h.same rfl rfl
  unfold chargeViolation
  dsimp only
  split
  · exact ht hv.same
  · exact ht hv

theorem clearNoteIf_slots (clear : Bool) (m : MasterId) (s : State) : (clearNoteIf clear m s).slots = s.slots := by
  cases clear <;> rfl

theorem clearNoteIf_slotLaws (clear : Bool) (m : MasterId) (h : SlotLaws s) : SlotLaws (clearNoteIf clear m s) :=
  h.same (clearNoteIf_slots clear m s) (by cases clear <;> rfl)

theorem writeStep_slotLaws (w : WindowId) (t : Txn) (beats : List Beat) (h : SlotLaws s) :
    SlotLaws (writeStep w t beats s) := by
  have hn {x : State} (hx : SlotLaws x) : SlotLaws (noteClosing t x) :=
    hx.same (by unfold noteClosing; split <;> rfl) (by unfold noteClosing; split <;> rfl)
  unfold writeStep
  split
  · exact h.same
  · split
    · exact (hn (h.same (t := appendData (entryOf s w t beats) s))).settle.answered _
    · exact h.same

theorem returnReady_slotLaws (i : SlotId) (h : SlotLaws s) : SlotLaws (returnReady i s) := by
  unfold returnReady
  dsimp only
  split
  · refine SlotLaws.answered _ (SlotLaws.settle ?_)
    unfold collectSlot
    dsimp only
    split
    · exact (h.same (t := { s with lock.slot := none }) rfl rfl).freeSlot i
    · exact h.freeSlot i
  · exact (h.faultGate _).endStoppedAccess.settle.answered _

theorem restartSlot_slotLaws (i : SlotId) (hi : s.slots[i].state = .stale) (h : SlotLaws s) :
    SlotLaws (restartSlot i s) where
  legal := modSlot_slotsLegal i _ (slotLegal_restarted hi _) (slotsLegal_congr rfl h.legal)
  order := (h.order.moveLast (by rw [hi]; nofun)).modSlot i _ (by dsimp only; rw [hi]; nofun) (by dsimp only; nofun) rfl

theorem returnTo_slotLaws (i : SlotId) (h : SlotLaws s) : SlotLaws (returnTo i s) := by
  unfold returnTo
  split
  · exact returnReady_slotLaws i h
  · exact (h.freeSlot i).settle.answered _
  · next hi =>
    unfold returnStale
    split
    · exact (restartSlot_slotLaws i hi h).settle.answered _
    · exact (h.freeSlot i).settle.answered _
    · exact h.same
  · exact h.same

/-- A read that matches no slot has a key of its own (R49). -/
theorem key_of_noMatch {t : Txn} (hm : matchingSlot s t = none) (j : SlotId) (hj : s.slots[j].state ≠ .free) :
    s.slots[j].key ≠ txnKey t := fun hk => by
  have := List.find?_eq_none.1 hm j (List.mem_finRange j)
  simp only [bne_iff_ne, Bool.and_eq_true, decide_eq_true_eq, not_and] at this
  exact this hj hk

theorem allocateSlot_slotLaws {i : SlotId} {t : Txn} (w : WindowId) (hk : ReadKey (txnKey t))
    (hi : s.slots[i].state = .free) (hm : matchingSlot s t = none) (h : SlotLaws s) :
    SlotLaws (allocateSlot i w t s) := by
  have hnew : SlotLaws { s with
      slots := modAt s.slots i (fun _ => allocatedSlot s w t), ageOrder := s.ageOrder ++ [i] } := by
    refine ⟨?_, h.order.take (e := allocatedSlot s w t) hi (by unfold allocatedSlot; nofun) (key_of_noMatch hm)
      rfl rfl⟩
    exact slotsLegal_congr (s := modSlot i (fun _ => allocatedSlot s w t) s) rfl
      (modSlot_slotsLegal i _ (fun _ => (slotLegal_waiting_iff rfl).2 ⟨rfl, rfl, rfl, hk⟩) h.legal)
  refine hnew.same ?_ ?_
  · unfold allocateSlot openLockOn; split <;> simp
  · unfold allocateSlot openLockOn; split <;> simp

theorem newRead_slotLaws {t : Txn} (w : WindowId) (hk : ReadKey (txnKey t)) (hm : matchingSlot s t = none)
    (h : SlotLaws s) : SlotLaws (newRead w t s) := by
  unfold newRead
  split
  · split
    · next i hi => exact (allocateSlot_slotLaws w hk (freeSlotId_free hi) hm h).settle.answered _
    · exact h.same
  · exact h.same

theorem lastStep_slotLaws {t : Txn} (w : WindowId) (hk : txnDirection t = .read → ReadKey (txnKey t))
    (h : SlotLaws s) : SlotLaws (lastStep w t s) := by
  unfold lastStep
  split
  · next n hn =>
    unfold readStep
    split
    · exact returnTo_slotLaws _ h
    · next hm => exact newRead_slotLaws w (hk (by rw [txnDirection, hn])) hm h
  · exact writeStep_slotLaws w t _ h

theorem claimedTxn_slotLaws {t : Txn} (w : WindowId) (hb : 1 ≤ txnBeats t ∧ txnBeats t ≤ 16) (h : SlotLaws s) :
    SlotLaws (claimedTxn w t s) := by
  have charged (c : ViolationCause) : SlotLaws (answer .refuse (chargeViolation c w t s)) :=
    (chargeViolation_slotLaws c w t h).answered _
  unfold claimedTxn
  split
  · exact h.same
  split
  · exact h.same
  next halign =>
  have hk (hr : txnDirection t = .read) : ReadKey (txnKey t) :=
    ⟨hb, fun hl => halign (by simp [misaligned, hr, show t.lock = .closeLock from hl])⟩
  split
  · exact charged _
  split
  · exact h.same
  split
  · exact charged _
  split
  · exact charged _
  split
  · exact h.same
  · unfold lockAndLastStep
    split
    · exact (clearNoteIf_slotLaws _ _ h).answered _
    · exact (clearNoteIf_slotLaws _ _ h).answered _
    · exact lastStep_slotLaws w hk (clearNoteIf_slotLaws _ _ h)

end

/-! ### Resets -/

section

variable {s : State}

theorem settingsTakeEffect_slotLaws (before : PortSet) (h : SlotLaws s) : SlotLaws (settingsTakeEffect before s) := by
  unfold settingsTakeEffect heedHoldByChoice
  split
  · exact h.same
  · split
    · exact h
    · split
      · exact h.same rfl rfl
      · exact h.same
  · split
    · split
      · exact h.same
      · exact h.same rfl rfl
    · exact h
  · exact h

theorem writeSettings_slotLaws (policy : ParkPolicy) (highWater : Nat) (enabled : PortSet) (h : SlotLaws s) :
    SlotLaws (writeSettings policy highWater enabled s) := by
  refine settingsTakeEffect_slotLaws _ (h.same ?_ ?_)
  · rfl
  · rfl

theorem clearConfiguration_slotLaws (h : SlotLaws s) : SlotLaws (clearConfiguration s) := by
  have hx : SlotLaws { clearWindows s with masters := mapTable (clearWindows s).masters defaultMaster } :=
    h.same rfl rfl
  exact (writeSettings_slotLaws _ _ _ hx).same rfl rfl

theorem gateReset_slotLaws (clear : Bool) (h : SlotLaws s) : SlotLaws (gateReset clear s) := by
  have hx : SlotLaws (markStop { s with gsc := ⟨.standby, .none, none⟩ }) := h.same rfl rfl
  have hf (held : Bool) := (hx.emptyQueue.everySlotFreed held .reset).notesCleared
  unfold gateReset
  dsimp only
  refine SlotLaws.settle (SlotLaws.endStoppedAccess (SlotLaws.reported _ ?_))
  split
  · exact clearConfiguration_slotLaws (hf _)
  · exact hf _

theorem trunkReset_slotLaws (h : SlotLaws s) : SlotLaws (trunkReset s) := by
  have hd : SlotLaws (detachFetch { s with gsc := trunkResetState s.gsc }) := h.same rfl rfl
  have hm {x : State} (hx : SlotLaws x) : SlotLaws (dropManager x) := hx.same rfl rfl
  exact ((hm (hd.everySlotFreed _ .reset).notesCleared).reported _).endStoppedAccess.settle

/-- A table without a slot in use (R69). -/
theorem slotLaws_powerOn (hs : s.slots = Vector.replicate 8 Slot.powerOn) (ha : s.ageOrder = []) : SlotLaws s := by
  have hg (i : SlotId) : s.slots[i] = Slot.powerOn := by rw [hs]; simp
  have hfree (i : SlotId) : s.slots[i].state = .free := by rw [hg]; rfl
  refine ⟨fun i => by rw [hg]; exact slotLegal_powerOn, ⟨by rw [ha]; exact List.nodup_nil, fun i => ?_⟩,
    fun i _ hi => absurd (hfree i) hi⟩
  rw [ha]
  exact iff_of_false (List.not_mem_nil) (not_not.2 (hfree i))

theorem takeArrivals_slotLaws (h : SlotLaws s) : SlotLaws (takeArrivals s) := by
  have arrival (x : State) (p : Port) (hx : SlotLaws x) : SlotLaws (takeArrival x p) :=
    (hx.same (t := setRequestLine p true x)).same (t := requestArrives _ _)
  have chosen {x : State} (hx : SlotLaws x) : SlotLaws (takeChoice x) := hx.same
  have hx : SlotLaws { s with lines.request := ⟨false, false, false⟩ } := h.same rfl rfl
  unfold takeArrivals
  dsimp only
  split
  · exact Scope.Closed.foldl _ arrival _ hx
  · exact chosen (Scope.Closed.foldl (P := SlotLaws) _ arrival _ hx)

theorem leaveReset_slotLaws (lines : BitVec 4) (kind : ResetKind) (data control : Nat) (h : SlotLaws s) :
    SlotLaws (leaveReset lines kind data control s) := by
  refine takeArrivals_slotLaws (SlotLaws.same (s := s) h ?_ ?_)
  · rw [offerReport_slots]
  · rw [offerReport_ageOrder]

theorem releasePowerOn_slotLaws (lines : BitVec 4) (h : SlotLaws s) : SlotLaws (releasePowerOn lines s) := by
  unfold releasePowerOn
  split
  · exact h.same rfl rfl
  · exact leaveReset_slotLaws _ _ _ _ (h.same rfl rfl)

theorem releaseCard_slotLaws (lines : BitVec 4) (h : SlotLaws s) : SlotLaws (releaseCard lines s) := by
  unfold releaseCard
  split
  · exact h.same rfl rfl
  · exact leaveReset_slotLaws _ _ _ _ (h.same rfl rfl)

/-! ### The control region -/

theorem claimRole_slotLaws (m : MasterId) (data : Word) (h : SlotLaws s) : SlotLaws (claimRole m data s) := by
  unfold claimRole
  split
  · exact h.same
  · split
    · exact h.same rfl rfl
    · split
      · exact h.same
      · exact h.same

theorem releaseReport_slotLaws (data : Word) (h : SlotLaws s) : SlotLaws (releaseReport data s) := by
  unfold releaseReport
  split
  · exact h.same
  · split
    · exact h.same rfl rfl
    · exact h.same

theorem setAttention_slotLaws (data : Word) (h : SlotLaws s) : SlotLaws (setAttention data s) := by
  unfold setAttention
  split
  · exact h.same rfl rfl
  · split
    · exact h.same rfl rfl
    · exact h.same

theorem resetGateWord_slotLaws (data : Word) (h : SlotLaws s) : SlotLaws (resetGateWord data s) := by
  unfold resetGateWord
  split
  · exact (gateReset_slotLaws _ h).answered _
  · split
    · exact (gateReset_slotLaws _ h).answered _
    · exact h.same

theorem takeRecord_slotLaws (m : MasterId) (words : List Word) (h : SlotLaws s) : SlotLaws (takeRecord m words s) := by
  unfold takeRecord
  split
  · exact h.same
  · split
    · exact (h.same (t := appendControl _ s)).settle.answered _
    · exact h.same

theorem operate_slotLaws (m : MasterId) (op : ControlOp) (h : SlotLaws s) : SlotLaws (operate m op s) := by
  cases op with
  | claim data => exact claimRole_slotLaws m data h
  | release data => exact releaseReport_slotLaws data h
  | attention data => exact setAttention_slotLaws data h
  | resetGate data => exact resetGateWord_slotLaws data h
  | intake words => exact takeRecord_slotLaws m words h
  | _ => exact h.same rfl rfl

theorem controlTxn_slotLaws (t : Txn) (h : SlotLaws s) : SlotLaws (controlTxn t s) := by
  unfold controlTxn refuseDamaged serveOp
  split
  · exact h.same
  · split
    · exact h.same
    · split
      · exact h.same
      · exact operate_slotLaws _ _ h

theorem trunkTxn_slotLaws (t : Txn) (hb : 1 ≤ txnBeats t ∧ txnBeats t ≤ 16) (h : SlotLaws s) :
    SlotLaws (trunkTxn t s) := by
  unfold trunkTxn windowTxn
  split
  · exact h.same
  · split
    · exact controlTxn_slotLaws t h
    · split
      · exact h.same
      · exact claimedTxn_slotLaws _ hb h

/-! ### Ordered commands -/

theorem executeHead_slotLaws (cmd : Command) (act : ControlEntry → State → Execution)
    (hact : ∀ c, SlotLaws (act c s).state) (h : SlotLaws s) : SlotLaws (executeHead cmd act s) := by
  unfold executeHead
  split
  · exact h
  · next c _ => exact ((((hact c).same (t := storeResult _ _)).removeHead.leaveDeadHeads).endIdleTenure _).settle

end

section

variable {s : State} (c : ControlEntry) (h : SlotLaws s)
include h

theorem doLoadWindow_slotLaws : SlotLaws (doLoadWindow c s).state := by
  unfold doLoadWindow
  split
  · exact h
  · split
    · exact h.same rfl rfl
    · exact h

theorem doRetireWindow_slotLaws : SlotLaws (doRetireWindow c s).state := by
  unfold doRetireWindow
  split
  · exact h
  · next w _ =>
    split
    · dsimp only
      have hd : SlotLaws (drainWindow w c.tag s) := h.same rfl rfl
      have hb : SlotLaws (breakIfOnWindow w (drainWindow w c.tag s)) := by
        unfold breakIfOnWindow
        split
        · exact hd.breakLock _
        · exact hd
      have hf {x : State} (hx : SlotLaws x) : SlotLaws (freeAtOnce w x) := by
        unfold freeAtOnce
        split
        · exact hx.same rfl rfl
        · exact hx
      exact (hf (hb.withdrawSlots _)).withdrawn
    · exact h

theorem doModifyWindow_slotLaws : SlotLaws (doModifyWindow c s).state := by
  unfold doModifyWindow
  split
  · split
    · exact h.same rfl rfl
    · exact h
  · exact h

theorem doThawWindow_slotLaws : SlotLaws (doThawWindow c s).state := by
  unfold doThawWindow
  split
  · exact h
  · split
    · exact h
    · split
      · exact h.same rfl rfl
      · exact h

theorem doSetMaster_slotLaws : SlotLaws (doSetMaster c s).state := by
  unfold doSetMaster
  split
  · exact h
  · next o _ =>
    have hx : SlotLaws { s with masters := modAt s.masters o.master (writtenMaster o) } := h.same rfl rfl
    dsimp only
    split
    · exact hx
    · dsimp only
      have hb {x : State} (hx : SlotLaws x) : SlotLaws (breakIfOwner o.master x) := by
        unfold breakIfOwner
        split
        · exact hx.breakLock _
        · exact hx
      exact ((hb hx).withdrawSlots (slotOf o.master)).withdrawn

theorem doSetTimers_slotLaws : SlotLaws (doSetTimers c s).state := by
  unfold doSetTimers
  dsimp only
  split
  · exact h.same rfl rfl
  · exact h

theorem doSetArbitration_slotLaws : SlotLaws (doSetArbitration c s).state := by
  unfold doSetArbitration
  dsimp only
  split
  · exact h
  · split
    · exact writeSettings_slotLaws _ _ _ h
    · exact h

theorem doEnable_slotLaws : SlotLaws (doEnable c s).state := by
  unfold doEnable
  split
  · exact h.same rfl rfl
  · exact h.same rfl rfl
  · exact h

theorem doQuiesce_slotLaws : SlotLaws (doQuiesce c s).state := by
  unfold doQuiesce
  split
  · split
    · exact h.same rfl rfl
    · exact h.same rfl rfl
  · exact h

end

/-! ### Pieces, timers and residents -/

section

variable {s t : State}

theorem next_slotLaws {x : State} (h : SlotLaws x)
    (hx : (.next x : Host.Outcome State Machine.Fault Refusal) = .next t) :
    SlotLaws t := by
  injection hx with hx
  exact hx ▸ h

theorem pieceEnd_slotLaws (r : TargetAnswer) (hx : execPieceEnd r s = .next t) (h : SlotLaws s) : SlotLaws t := by
  unfold execPieceEnd at hx
  split at hx
  · next a p data ho =>
    have hp := h.pieceAcked p data ((Scope.outstanding_eq_some s a p).1 ho).1
    refine next_slotLaws ?_ hx
    unfold afterPiece
    split
    · exact hp
    · exact hp.settle
  · next a p ho => exact next_slotLaws (h.pieceFailed p _ ((Scope.outstanding_eq_some s a p).1 ho).1).settle hx
  · exact next_slotLaws h hx

theorem responseExpires_slotLaws (h : SlotLaws s) : SlotLaws (responseExpires s) := by
  unfold responseExpires
  split
  · next a p ho =>
    split
    · exact (h.pieceFailed p _ ((Scope.outstanding_eq_some s a p).1 ho).1).settle
    · exact h
  · exact h

theorem slotExpires_slotLaws (i : SlotId) (h : SlotLaws s) : SlotLaws (slotExpires i s) := by
  unfold slotExpires holdExpires
  split
  · split
    · exact ((h.reported _).freeSlot i).settle
    · exact ((h.reported _).freeSlot i).settle
    · exact (h.freeSlot i).settle
    · exact h
  · exact h

theorem lockExpires_slotLaws (h : SlotLaws s) : SlotLaws (lockExpires s) := by
  unfold lockExpires
  split
  · exact ((h.breakLock _).leaveDeadHeads.endIdleTenure _).settle
  · exact h

theorem overstayExpires_slotLaws (h : SlotLaws s) : SlotLaws (overstayExpires s) := by
  unfold overstayExpires
  split
  · split
    · exact (h.same (t := { s with arb.overstay := none }) rfl rfl).same
    · exact h
  · exact h

theorem expireDue_slotLaws (h : SlotLaws s) : SlotLaws (expireDue s) :=
  overstayExpires_slotLaws (Scope.Closed.foldl (P := SlotLaws) _ (fun _ i hx => slotExpires_slotLaws i hx) _
    (lockExpires_slotLaws (responseExpires_slotLaws h)))

theorem timebase_slotLaws (now : Time) (h : SlotLaws s) : SlotLaws { s with timebase := now } := h.same rfl rfl

theorem requestRaise_slotLaws {p : Port} (hx : execResidentRequestRaise p s = .next t) (h : SlotLaws s) :
    SlotLaws t := by
  have hl : SlotLaws (setRequestLine p true s) := h.same
  unfold execResidentRequestRaise at hx
  split at hx
  · cases hx; exact h
  · cases hx
    split
    · exact (hl.same (t := requestArrives _ _)).settle
    · exact hl

theorem residentTenureEnds_slotLaws (p : Port) (h : SlotLaws s) : SlotLaws (residentTenureEnds p s) := by
  unfold residentTenureEnds
  split
  · split
    · exact (h.same (t := decision s)).settle
    · exact h
  · split
    · exact h.same rfl rfl
    · exact h
  · exact h

theorem holdTaken_slotLaws (p : Port) (h : SlotLaws s) : SlotLaws (holdTaken p s) := by
  unfold holdTaken
  split
  · exact h.same rfl rfl
  · exact h

theorem holdReleased_slotLaws (p : Port) (h : SlotLaws s) : SlotLaws (holdReleased p s) := by
  unfold holdReleased
  split
  · split
    · split
      · exact h.same rfl rfl
      · exact (h.same (t := decision s)).settle
    · exact h
  · exact h

theorem markStale_slotLaws (a : CardAddr) (n : Nat) (h : SlotLaws s) : SlotLaws (markStale a n s) :=
  h.work (Act.makesStale s a n).work (slotsLegal_closed.markStale a n)

/-! ### Every command -/

theorem ite_slotLaws {x y : State} {c : Prop} [Decidable c] (h : SlotLaws x) (k : SlotLaws y) :
    SlotLaws (if c then x else y) := by
  split
  · exact h
  · exact k

theorem takeTxn_slotLaws (txn : Txn) (hx : takeTxn txn s = .next t) (h : SlotLaws s) : SlotLaws t := by
  unfold takeTxn at hx
  split at hx
  · next hb =>
    cases hx
    exact trunkTxn_slotLaws txn (by simpa [beatCountLegal] using hb) h
  · cases hx

/-- The reads of the listed operations are short, and their writes have one beat (R139). -/
theorem regionRead_slotLaws {m : MasterId} {offset beats : Nat} (hb : 1 ≤ beats ∧ beats ≤ 16) (h : SlotLaws s) :
    SlotLaws (trunkTxn (regionRead s m offset beats) s) := trunkTxn_slotLaws _ hb h

theorem regionWrite_slotLaws {m : MasterId} {offset : Nat} {d : CheckedWord} (h : SlotLaws s) :
    SlotLaws (trunkTxn (regionWrite s m offset [d]) s) :=
  trunkTxn_slotLaws _ (show 1 ≤ 1 ∧ 1 ≤ 16 by decide) h

theorem exec_slotLaws {c : Instr} (hx : exec c s = .next t) (h : SlotLaws s) : SlotLaws t := by
  cases c with
  | timebaseTick =>
    exact next_slotLaws (ite_slotLaws (timebase_slotLaws _ h) (timebase_slotLaws _ (expireDue_slotLaws h))) hx
  | powerOnResetAssert l => exact next_slotLaws (ite_slotLaws h (slotLaws_powerOn rfl rfl)) hx
  | powerOnResetRelease l => exact next_slotLaws (ite_slotLaws (releasePowerOn_slotLaws l h) h) hx
  | cardResetAssert l => exact next_slotLaws (ite_slotLaws h (slotLaws_powerOn rfl rfl)) hx
  | cardResetRelease l => exact next_slotLaws (ite_slotLaws (releaseCard_slotLaws l h) h) hx
  | trunkReset => exact next_slotLaws (ite_slotLaws h (trunkReset_slotLaws h)) hx
  | windowWrite m a u k b => exact takeTxn_slotLaws _ hx h
  | windowRead m a u k b => exact takeTxn_slotLaws _ hx h
  | controlIntake m ws => exact takeTxn_slotLaws _ hx h
  | controlRegionRefused txn => exact takeTxn_slotLaws _ hx h
  | identity m => exact next_slotLaws (regionRead_slotLaws (by decide) h) hx
  | status m => exact next_slotLaws (regionRead_slotLaws (by decide) h) hx
  | counts m => exact next_slotLaws (regionRead_slotLaws (by decide) h) hx
  | reportHead m => exact next_slotLaws (regionRead_slotLaws (by decide) h) hx
  | windowReadback m w => exact next_slotLaws (regionRead_slotLaws (by decide) h) hx
  | masterReadback m k => exact next_slotLaws (regionRead_slotLaws (by decide) h) hx
  | claim m d => exact next_slotLaws (regionWrite_slotLaws h) hx
  | relinquish m d => exact next_slotLaws (regionWrite_slotLaws h) hx
  | release m d => exact next_slotLaws (regionWrite_slotLaws h) hx
  | attention m d => exact next_slotLaws (regionWrite_slotLaws h) hx
  | resetGate m d => exact next_slotLaws (regionWrite_slotLaws h) hx
  | loadWindow => exact next_slotLaws (executeHead_slotLaws _ _ (fun c => doLoadWindow_slotLaws c h) h) hx
  | retireWindow => exact next_slotLaws (executeHead_slotLaws _ _ (fun c => doRetireWindow_slotLaws c h) h) hx
  | modifyWindow => exact next_slotLaws (executeHead_slotLaws _ _ (fun c => doModifyWindow_slotLaws c h) h) hx
  | thawWindow => exact next_slotLaws (executeHead_slotLaws _ _ (fun c => doThawWindow_slotLaws c h) h) hx
  | setMaster => exact next_slotLaws (executeHead_slotLaws _ _ (fun c => doSetMaster_slotLaws c h) h) hx
  | setTimers => exact next_slotLaws (executeHead_slotLaws _ _ (fun c => doSetTimers_slotLaws c h) h) hx
  | setArbitration => exact next_slotLaws (executeHead_slotLaws _ _ (fun c => doSetArbitration_slotLaws c h) h) hx
  | enable => exact next_slotLaws (executeHead_slotLaws _ _ (fun c => doEnable_slotLaws c h) h) hx
  | quiesce => exact next_slotLaws (executeHead_slotLaws _ _ (fun c => doQuiesce_slotLaws c h) h) hx
  | fence => exact next_slotLaws (executeHead_slotLaws _ _ (fun _ => h) h) hx
  | pieceEnd r => exact pieceEnd_slotLaws r hx h
  | noResponse => exact next_slotLaws (responseExpires_slotLaws h) hx
  | holdTimerExpiry i => exact next_slotLaws (slotExpires_slotLaws i h) hx
  | lockHoldTimerExpiry => exact next_slotLaws (lockExpires_slotLaws h) hx
  | overstayTimerExpiry => exact next_slotLaws (overstayExpires_slotLaws h) hx
  | residentRequestRaise p => exact requestRaise_slotLaws hx h
  | residentRequestDrop p =>
    exact next_slotLaws (ite_slotLaws (residentTenureEnds_slotLaws p (h.same (t := setRequestLine p false s))) h) hx
  | residentHoldRaise p =>
    exact next_slotLaws (ite_slotLaws h (holdTaken_slotLaws p (h.same (t := setHoldLine p true s)))) hx
  | residentHoldDrop p =>
    exact next_slotLaws (ite_slotLaws (holdReleased_slotLaws p (h.same (t := setHoldLine p false s))) h) hx
  | residentWriteObserved p a z => exact next_slotLaws (ite_slotLaws (markStale_slotLaws _ _ h) h) hx

end

/-- Settles O57: each operation that changes a slot leaves it the fields of its new state, and one that brings a slot
into use or out of it moves it in the age order. -/
theorem slotLawsHoldAfterEveryEvent : Obligations.SlotLawsHoldAfterEveryEvent := by
  intro s t hl ha hk hx
  have h : SlotLaws s := ⟨hl, ha, hk⟩
  have ht : SlotLaws t := by
    unfold step at hx
    split at hx
    · exact next_slotLaws h hx
    · next rest _ => exact exec_slotLaws hx (h.same (t := { s with pending := rest }) rfl rfl)
  exact ⟨ht.legal, ht.order.age, ht.order.keys⟩

end Sys2Proof.DelayedReads
end

section
/-! Transactions that the lock step refuses or turns away (R73 to R76): O13. -/

namespace Sys2Proof.LockedSequences

open Sys2Proof Sys2Proof.Machine Sys2Proof.Safety

/-! ### The lock step's table -/

/-- Rows 1 and 2, which HOLD and CLOSE share (R73). -/
theorem lockStep_inSequence (s : State) (w : WindowId) {t : Txn} (h : t.lock = .holdLock ∨ t.lock = .closeLock) :
    lockStep s w t =
      if s.masters[t.master].note = some w then .refuse true
      else if !lockOwnedBy s t.master w || s.lock.closing then .refuse false
      else .pass false := by
  unfold lockStep
  obtain h | h := h <;> rw [h]

theorem lockStep_noted {s : State} {w : WindowId} {t : Txn} (h : t.lock = .holdLock ∨ t.lock = .closeLock)
    (hn : s.masters[t.master].note = some w) : lockStep s w t = .refuse true := by
  rw [lockStep_inSequence s w h, if_pos hn]

theorem lockStep_unowned_or_closing {s : State} {w : WindowId} {t : Txn}
    (h : t.lock = .holdLock ∨ t.lock = .closeLock) (hn : s.masters[t.master].note ≠ some w)
    (hl : ¬OwnsLock s t.master w ∨ s.lock.closing = true) : lockStep s w t = .refuse false := by
  have hbad : (!lockOwnedBy s t.master w || s.lock.closing) = true := by
    rw [Bool.or_eq_true, Bool.not_eq_true', Laws.lockOwnedBy_false_iff]
    exact hl
  rw [lockStep_inSequence s w h, if_neg hn, if_pos hbad]

/-- Row 4 with a lock standing: the OPEN waits until the lock is FREE (R73, R74). -/
theorem lockStep_open_standing {s : State} (w : WindowId) {t : Txn} (h : t.lock = .openLock)
    (hs : s.lock.state ≠ .free) (hr : ¬ReturnsToLocked s t) : lockStep s w t = .retry true := by
  have hstands : lockStands s = true := by simpa [lockStands] using hs
  unfold lockStep
  rw [h]
  dsimp only
  rw [if_neg ((Laws.returnsToLocked_iff s t).not.2 hr), if_pos hstands]

/-! ### Where the lock step decides the transaction -/

/-- Past the gate-state step the lock step decides (R92, steps 10 and 11). -/
theorem exec_atLockStep {s : State} {w : WindowId} {t : Txn} (h : PassesToGate s w t) (hg : GatePasses s w t) :
    exec (windowCommand t) s = .next (lockAndLastStep w t s) := by
  rw [PostedWrites.exec_atGate h, if_pos ((Laws.gatePasses_iff s w t).2 hg)]

theorem lockAndLastStep_refused {s : State} {w : WindowId} {t : Txn} {clear : Bool}
    (h : lockStep s w t = .refuse clear) :
    lockAndLastStep w t s = answer .refuse (clearNoteIf clear t.master s) := by
  rw [lockAndLastStep, h]

theorem lockAndLastStep_retried {s : State} {w : WindowId} {t : Txn} {clear : Bool}
    (h : lockStep s w t = .retry clear) :
    lockAndLastStep w t s = answer .retry (clearNoteIf clear t.master s) := by
  rw [lockAndLastStep, h]

/-! ### An OPEN that the lock step passes with the lock FREE -/

/-- A read returns to a slot whose fetch has not ended, or is new and finds its master's limit reached or no slot FREE
(R50, R54). -/
def NoAnswerOrPlace (s : State) (t : Txn) : Prop :=
  (∃ i, matchingSlot s t = some i ∧ (s.slots[i].state = .waiting ∨ s.slots[i].state = .fetching)) ∨
    (matchingSlot s t = none ∧
      (s.masters[t.master].readLimit ≤ s.masters[t.master].outReads ∨ ∀ i : SlotId, s.slots[i].state ≠ .free))

/-- The note is none of the read step's business (R76). -/
theorem noAnswerOrPlace_noteTaken (s : State) (t : Txn) : NoAnswerOrPlace (noteTaken t s) t ↔ NoAnswerOrPlace s t := by
  unfold NoAnswerOrPlace
  rw [WindowTable.matchingSlot_of_eq t (WindowTable.noteTaken_slots t s), WindowTable.noteTaken_slots,
    WindowTable.noteTaken_master t s _ Master.outReads fun _ => rfl,
    WindowTable.noteTaken_master t s _ Master.readLimit fun _ => rfl]

theorem readStep_turnedAway {s : State} (w : WindowId) {t : Txn} (h : NoAnswerOrPlace s t) :
    readStep w t s = answer .retry s := by
  rw [readStep]
  obtain ⟨i, hi, hpending⟩ | ⟨hi, hfull⟩ := h
  · rw [hi]
    exact PostedWrites.returnTo_pending hpending
  · rw [hi]
    exact PostedWrites.newRead_unrecorded (.inr hfull)

/-- An OPEN that passes the alignment step is a read (R94). -/
theorem lastStep_open {t : Txn} (w : WindowId) (s : State) (ha : ¬Misaligned t) (ho : t.lock = .openLock) :
    lastStep w t s = readStep w t s := by
  unfold lastStep
  cases hp : t.payload with
  | read n => rfl
  | write beats =>
    refine absurd (.inr ?_) ha
    rw [hp]
    exact ho

theorem noteTaken_open {s : State} {t : Txn} (ho : t.lock = .openLock) (hf : s.lock.state = .free) :
    noteTaken t s = { s with masters := modAt s.masters t.master fun e => { e with note := none } } :=
  if_pos ⟨ho, hf⟩

/-- The lock step passes it and clears the note; the read step then turns it away (R74, R76). -/
theorem openRead_turnedAway {s : State} {w : WindowId} {t : Txn} (h : PassesToGate s w t) (hg : GatePasses s w t)
    (ho : t.lock = .openLock) (hf : s.lock.state = .free) (hr : NoAnswerOrPlace s t) :
    exec (windowCommand t) s = .next (answer .retry (noteTaken t s)) := by
  have hl : LockStepPasses s w t := by
    unfold LockStepPasses
    rw [ho]
    exact .inr hf
  rw [WindowTable.exec_passing h hg hl, lastStep_open w _ h.aligned ho,
    readStep_turnedAway w ((noAnswerOrPlace_noteTaken s t).2 hr)]

/-- Settles O13: the lock step's own rows answer before the last step, and an OPEN that it passes with the lock FREE is
turned away by the read step, in the state in which its master's note is cleared. -/
theorem lockStepRefusals : Obligations.LockStepRefusals := by
  intro s w t h hg cleared
  have hx := exec_atLockStep h hg
  refine ⟨fun hk => ⟨fun hnote => ?noted, fun hnote hlock => ?unowned⟩, fun ho hs hr => ?standing,
    fun ho hf hr => ?unrecorded⟩
  case noted =>
    rw [hx, lockAndLastStep_refused (lockStep_noted hk hnote)]
    rfl
  case unowned =>
    rw [hx, lockAndLastStep_refused (lockStep_unowned_or_closing hk hnote hlock)]
    rfl
  case standing =>
    rw [hx, lockAndLastStep_retried (lockStep_open_standing w ho hs hr)]
    rfl
  case unrecorded =>
    rw [openRead_turnedAway h hg ho hf hr, noteTaken_open ho hf]
    rfl

end Sys2Proof.LockedSequences
end

section
/-! The front command, and the trunk in RESET (R88, R92, R93, R175): O1 and O7. -/

namespace Sys2Proof.TrunkMasters

open Sys2Proof Sys2Proof.Machine Sys2Proof.Safety

/-! ### How a transaction reaches the answer selection -/

theorem exec_windowCommand_eq_takeTxn (t : Txn) (s : State) : exec (windowCommand t) s = takeTxn t s := by
  obtain ⟨m, a, u, k, p⟩ := t
  cases p <;> rfl

theorem beatCountLegal_iff (n : Nat) : beatCountLegal n = true ↔ 1 ≤ n ∧ n ≤ 16 := by
  simp [beatCountLegal]

/-- A transaction of 1 to 16 beats is decided by the answer selection (R88, R92). -/
theorem takeTxn_legal {t : Txn} (s : State) (h1 : 1 ≤ txnBeats t) (h2 : txnBeats t ≤ 16) :
    takeTxn t s = .next (trunkTxn t s) :=
  if_pos ((beatCountLegal_iff _).2 ⟨h1, h2⟩)

/-- No other transaction exists (R88, log 21). -/
theorem takeTxn_illFormed {t : Txn} (s : State) (h : txnBeats t = 0 ∨ 16 < txnBeats t) :
    takeTxn t s = .fault .illFormed :=
  if_neg fun hl => by
    obtain ⟨h1, h2⟩ := (beatCountLegal_iff _).1 hl
    omega

@[simp] theorem txnBeats_regionWrite (s : State) (m : MasterId) (offset : Nat) (words : List CheckedWord) :
    txnBeats (regionWrite s m offset words) = words.length :=
  List.length_map _

/-- An intake of 1 to 16 words is the write of a record in the control region (R149). -/
theorem exec_controlIntake_legal {words : List CheckedWord} (m : MasterId) (s : State) (h1 : 1 ≤ words.length)
    (h2 : words.length ≤ 16) : exec (.controlIntake m words) s = .next (trunkTxn (regionWrite s m 0x0400 words) s) :=
  takeTxn_legal s (by rwa [txnBeats_regionWrite]) (by rwa [txnBeats_regionWrite])

/-! ### A step -/

/-- Settles O1: a step looks at the queue alone, and each of the three rows tests the beats before anything else. -/
theorem stepExecutesTheFrontCommand : Obligations.StepExecutesTheFrontCommand := by
  refine ⟨fun s c rest h => ?front, fun s h => ?idle, fun s t m words => ⟨fun h => ⟨?window, ?whole⟩, fun h => ?intake⟩⟩
  case front => rw [step, h]
  case idle => rw [step, h]
  case window => rw [exec_windowCommand_eq_takeTxn, takeTxn_illFormed s h]
  case whole => exact takeTxn_illFormed s h
  case intake => exact takeTxn_illFormed s (by rwa [txnBeats_regionWrite])

/-! ### RESET -/

/-- A command's event is one trunk transaction: the answer selection decides it (R92). -/
def OnTrunk (c : Instr) (s : State) : Prop := ∃ t, exec c s = .next (trunkTxn t s)

/-- RESET is the first test of the answer selection (R92). -/
theorem trunkTxn_reset (t : Txn) {s : State} (h : s.gsc.state = .reset) : trunkTxn t s = answer .unclaimed s := if_pos h

theorem OnTrunk.exec_reset {c : Instr} {s : State} (h : OnTrunk c s) (hr : s.gsc.state = .reset) :
    exec c s = .next { s with ti.answer := some .unclaimed } := by
  obtain ⟨t, ht⟩ := h
  rw [ht, trunkTxn_reset t hr]
  rfl

theorem onTrunk_windowCommand {t : Txn} (s : State) (h1 : 1 ≤ txnBeats t) (h2 : txnBeats t ≤ 16) :
    OnTrunk (windowCommand t) s :=
  ⟨t, (exec_windowCommand_eq_takeTxn t s).trans (takeTxn_legal s h1 h2)⟩

theorem onTrunk_controlRegionRefused {t : Txn} (s : State) (h1 : 1 ≤ txnBeats t) (h2 : txnBeats t ≤ 16) :
    OnTrunk (.controlRegionRefused t) s :=
  ⟨t, takeTxn_legal s h1 h2⟩

/-- Settles O7: every row of the trunk is one transaction of the answer selection, which tests RESET first. -/
theorem resetIsOffTheTrunk : Obligations.ResetIsOffTheTrunk := by
  intro s t m k w d words c hr h1 h2 hw1 hw2 hc
  refine OnTrunk.exec_reset ?_ hr
  simp only [List.mem_cons, List.not_mem_nil, or_false] at hc
  obtain rfl | rfl | rfl | rfl | rfl | rfl | rfl | rfl | rfl | rfl | rfl | rfl | rfl | rfl := hc
  · exact onTrunk_windowCommand s h1 h2
  · exact onTrunk_controlRegionRefused s h1 h2
  iterate 11 exact ⟨_, rfl⟩
  · exact ⟨_, exec_controlIntake_legal m s hw1 hw2⟩

end Sys2Proof.TrunkMasters
end

section
/-! The release of a reset, with the request lines that are raised at it (R91, R135, R175): O6. -/

namespace Sys2Proof.TrunkMasters

open Sys2Proof Sys2Proof.Machine Sys2Proof.Safety

/-! ### Request lines -/

theorem portOf_setPort (ps : PortSet) (p q : Port) (on : Bool) :
    portOf (setPort ps p on) q = if q = p then on else portOf ps q := by
  cases p <;> cases q <;> rfl

theorem portSet_ext {x y : PortSet} (h : ∀ p, portOf x p = portOf y p) : x = y := by
  obtain ⟨a, b, c⟩ := x
  obtain ⟨a', b', c'⟩ := y
  obtain rfl : a = a' := h .a
  obtain rfl : b = b' := h .b
  obtain rfl : c = c' := h .c
  rfl

/-- The lines of a list of ports are raised. -/
def linesRaised (l : List Port) (ps : PortSet) : PortSet := l.foldl (fun ps p => setPort ps p true) ps

theorem portOf_linesRaised (l : List Port) (ps : PortSet) (q : Port) :
    portOf (linesRaised l ps) q = true ↔ q ∈ l ∨ portOf ps q = true := by
  induction l generalizing ps with
  | nil => simp [linesRaised]
  | cons p l ih =>
    have := ih (setPort ps p true)
    rw [linesRaised] at this ⊢
    rw [List.foldl_cons, this, portOf_setPort, List.mem_cons]
    by_cases hq : q = p <;> simp [hq]

/-- No line is raised. -/
def noLines : PortSet := ⟨false, false, false⟩

theorem portOf_noLines (p : Port) : portOf noLines p = false := by cases p <;> rfl

/-- Raising one after the other, from none, the lines that are raised. -/
theorem linesRaised_noLines {l : List Port} {ps : PortSet} (h : ∀ p, p ∈ l ↔ portOf ps p = true) :
    linesRaised l noLines = ps := by
  refine portSet_ext fun p => Bool.eq_iff_iff.2 ?_
  rw [portOf_linesRaised, portOf_noLines, h]
  simp

theorem mem_raisedPorts (ps : PortSet) (p : Port) : p ∈ raisedPorts ps ↔ portOf ps p = true := by
  rw [raisedPorts, List.mem_filter]
  cases p <;> simp

theorem raisedPorts_nodup (ps : PortSet) : (raisedPorts ps).Nodup := List.Nodup.filter _ (by decide)

/-- Bringing a port forward keeps the ports (log 10). -/
theorem mem_broughtForward (k : Nat) (l : List Port) (p : Port) : p ∈ broughtForward k l ↔ p ∈ l := by
  unfold broughtForward
  split
  · next q hq =>
    have hmem : q ∈ l := List.mem_of_getElem? hq
    rw [List.mem_cons, List.mem_filter]
    by_cases h : p = q <;> simp [h, hmem]
  · rfl

/-! ### Arrivals -/

/-- With the grant parked and one line raised, that port is granted the bus, by a decision where the grant was not its
own (R128, R129). -/
theorem takeArrival_parked {s : State} (p : Port) (ha : s.arb = Arbiter.powerOn) (hc : s.cbc.request = false)
    (hl : s.lines.request = noLines) : takeArrival s p = granted (.port p) (setRequestLine p true s) := by
  have hwins : Wins (setRequestLine p true s) (.port p) := by
    have honly : ∀ q, Requests (setRequestLine p true s) q → q = .port p := by
      rintro (_ | q) hq
      · exact absurd hq (by simp [Requests, setRequestLine, hc])
      · have hq : portOf (setPort s.lines.request p true) q = true := hq.2
        rw [hl, portOf_setPort, portOf_noLines] at hq
        exact congrArg Requester.port (by simpa using hq)
    refine ⟨⟨?_, ?_⟩, ?_⟩
    · rw [setRequestLine_arb, ha]
      cases p <;> rfl
    · show portOf (setPort s.lines.request p true) p = true
      rw [portOf_setPort, if_pos rfl]
    · rw [if_neg (by simp [setRequestLine, hc])]
      exact fun q hq => (honly q hq) ▸ Nat.le_refl _
  have hparked : (setRequestLine p true s).arb.state = .parked (.port .a) := by rw [setRequestLine_arb, ha]; rfl
  rw [takeArrival, requestArrives, hparked]
  dsimp only
  split
  · exact granted_eq _ _
  · exact decision_wins _ _ hwins

/-- A requester is in its tenure, in LOCKED or not: another's request waits (R127). -/
def InTenure (s : State) : Prop := (∃ r, s.arb.state = .tenure r) ∨ ∃ r, s.arb.state = .locked r true

theorem granted_inTenure (p : Port) (s : State) : InTenure (granted (.port p) s) := by
  unfold InTenure granted
  dsimp only
  split
  · exact .inr ⟨_, rfl⟩
  · exact .inl ⟨_, rfl⟩

theorem takeArrival_waits {s : State} (p : Port) (h : InTenure s) : takeArrival s p = setRequestLine p true s := by
  rw [takeArrival, requestArrives]
  obtain ⟨r, hr⟩ | ⟨r, hr⟩ := h
  · rw [setRequestLine_arb, hr]
  · rw [setRequestLine_arb, hr]
    simp

theorem foldl_takeArrival_waits (l : List Port) {s : State} (h : InTenure s) :
    l.foldl takeArrival s = { s with lines.request := linesRaised l s.lines.request } := by
  induction l generalizing s with
  | nil => rfl
  | cons p l ih =>
    rw [List.foldl_cons, takeArrival_waits p h, ih (s := setRequestLine p true s) h]
    rfl

/-- The lines raised at the release, taken one after the other: the first is granted, the others wait (R135). -/
theorem foldl_takeArrival {s : State} {first : Port} {rest : List Port} (ha : s.arb = Arbiter.powerOn)
    (hc : s.cbc.request = false) (h : ∀ p, p ∈ first :: rest ↔ portOf s.lines.request p = true) :
    (first :: rest).foldl takeArrival { s with lines.request := noLines } = granted (.port first) s := by
  have hlines : linesRaised rest (setPort noLines first true) = s.lines.request := linesRaised_noLines h
  rw [List.foldl_cons, takeArrival_parked first (s := { s with lines.request := noLines }) ha hc rfl,
    foldl_takeArrival_waits rest (granted_inTenure _ _)]
  exact congrArg (fun ps => { granted (.port first) s with lines.request := ps }) hlines

/-! ### The raised lines at a release -/

theorem takeArrivals_none {s : State} (h : ∀ p, portOf s.lines.request p ≠ true) : takeArrivals s = s := by
  have hraised : raisedPorts s.lines.request = [] :=
    List.eq_nil_iff_forall_not_mem.2 fun p hp => h p ((mem_raisedPorts _ p).1 hp)
  have hlines : noLines = s.lines.request := linesRaised_noLines (l := []) fun p => by simp [h p]
  unfold takeArrivals
  rw [hraised]
  exact congrArg (fun ps => { s with lines.request := ps }) hlines

theorem takeArrivals_one {s : State} {p : Port} (ha : s.arb = Arbiter.powerOn) (hc : s.cbc.request = false)
    (h : ∀ q, portOf s.lines.request q = true ↔ q = p) : takeArrivals s = granted (.port p) s := by
  have hmem : ∀ q, q ∈ [p] ↔ portOf s.lines.request q = true := fun q => List.mem_singleton.trans (h q).symm
  have hraised : raisedPorts s.lines.request = [p] := List.perm_singleton.1 <|
    (List.perm_ext_iff_of_nodup (raisedPorts_nodup _) (List.nodup_singleton p)).2 fun q =>
      (mem_raisedPorts _ q).trans (hmem q).symm
  unfold takeArrivals
  rw [hraised]
  exact foldl_takeArrival ha hc hmem

/-- With several lines raised, one of them is granted, and a free choice has been taken (log 10). -/
theorem takeArrivals_several {s : State} {p q : Port} (ha : s.arb = Arbiter.powerOn) (hc : s.cbc.request = false)
    (hpq : p ≠ q) (hp : portOf s.lines.request p = true) (hq : portOf s.lines.request q = true) :
    ∃ first, portOf s.lines.request first = true ∧
      takeArrivals s = { granted (.port first) s with freeCount := s.freeCount + 1 } := by
  have htwo : 2 ≤ (raisedPorts s.lines.request).length := by
    have hnodup : [p, q].Nodup := by simp [hpq]
    exact (hnodup.subperm (by simp [mem_raisedPorts, hp, hq])).length_le
  have hmem : ∀ r, r ∈ broughtForward (choiceValue s) (raisedPorts s.lines.request) ↔ portOf s.lines.request r = true :=
    fun r => (mem_broughtForward _ _ r).trans (mem_raisedPorts _ r)
  have htaken : takeArrivals s = takeChoice
      ((broughtForward (choiceValue s) (raisedPorts s.lines.request)).foldl takeArrival
        { s with lines.request := noLines }) := if_neg (Nat.not_le.2 htwo)
  generalize broughtForward (choiceValue s) (raisedPorts s.lines.request) = order at hmem htaken
  cases order with
  | nil => exact absurd ((hmem p).2 hp) List.not_mem_nil
  | cons first rest =>
    refine ⟨first, (hmem first).1 List.mem_cons_self, ?_⟩
    rw [htaken, foldl_takeArrival ha hc hmem]
    rfl

/-! ### The release -/

@[simp] theorem released_lines (lines : BitVec 4) (kind data control : Nat) (s : State) :
    (released lines kind data control s).lines = s.lines := by
  rw [released, ← offerReport_eq_offered, offerReport_lines]

@[simp] theorem released_freeCount (lines : BitVec 4) (kind data control : Nat) (s : State) :
    (released lines kind data control s).freeCount = s.freeCount := by
  rw [released, ← offerReport_eq_offered, offerReport_freeCount]

@[simp] theorem released_cbc (lines : BitVec 4) (kind data control : Nat) (s : State) :
    (released lines kind data control s).cbc = s.cbc := by
  rw [released, WindowTable.offered_cbc]

@[simp] theorem released_arb (lines : BitVec 4) (kind data control : Nat) (s : State) :
    (released lines kind data control s).arb = Arbiter.powerOn := by
  rw [released, WindowTable.offered_arb]

theorem leaveReset_eq (lines : BitVec 4) (kind : ResetKind) (data control : Nat) (s : State) :
    leaveReset lines kind data control s = takeArrivals (released lines (resetCode kind) data control s) := by
  rw [leaveReset, offerReport_eq_offered]
  rfl

theorem exec_powerOnResetRelease_last {s : State} (lines : BitVec 4) (hp : s.porAsserted = true)
    (hc : s.cardAsserted = false) : exec (.powerOnResetRelease lines) s =
      .next (takeArrivals (released lines 0 0 0 { s with porAsserted := false })) := by
  simp only [exec, execPowerOnResetRelease, releasePowerOn, hp, hc, if_true, Bool.false_eq_true, if_false,
    leaveReset_eq]
  rfl

theorem exec_cardResetRelease_last {s : State} (lines : BitVec 4) (hp : s.porAsserted = false)
    (hc : s.cardAsserted = true) : exec (.cardResetRelease lines) s =
      .next (takeArrivals (released lines 1 s.rq.cardData s.rq.cardControl { s with cardAsserted := false })) := by
  simp only [exec, execCardResetRelease, releaseCard, hp, hc, if_true, Bool.false_eq_true, if_false, leaveReset_eq]
  rfl

/-- What a command does whose event takes the raised lines in a state with the arbiter at its release values (R135). -/
theorem releases_of_takeArrivals {s x : State} {c : Instr} (hx : exec c s = .next (takeArrivals x))
    (ha : x.arb = Arbiter.powerOn) (hc : x.cbc = s.cbc) (hl : x.lines = s.lines) (hf : x.freeCount = s.freeCount) :
    ((∀ p, ¬portOf s.lines.request p = true) → exec c s = .next x) ∧
    (s.cbc.request = false →
      (∀ p, (∀ q, portOf s.lines.request q = true ↔ q = p) → exec c s = .next (granted (.port p) x)) ∧
      ((∃ p q, p ≠ q ∧ portOf s.lines.request p = true ∧ portOf s.lines.request q = true) →
        ∃ first, portOf s.lines.request first = true ∧
          exec c s = .next { granted (.port first) x with freeCount := s.freeCount + 1 })) := by
  rw [hx, ← hc, ← hl, ← hf]
  refine ⟨fun hnone => ?_, fun hr => ⟨fun p hp => ?_, fun ⟨p, q, hpq, hp, hq⟩ => ?_⟩⟩
  · rw [takeArrivals_none hnone]
  · rw [takeArrivals_one ha hr hp]
  · obtain ⟨first, hfirst, ht⟩ := takeArrivals_several ha hr hpq hp hq
    exact ⟨first, hfirst, congrArg Host.Outcome.next ht⟩

/-- Settles O6: the release of one of two resets lowers its own line alone, and the release of the last one takes the
request lines that are raised, in a state with the arbiter PARKED(A). -/
theorem releaseOfTheLastReset : Obligations.ReleaseOfTheLastReset := by
  refine fun s lines => ⟨fun hp hc => ⟨?power, ?card⟩, fun hp hc => ?lastPower, fun hp hc => ?lastCard⟩
  case power => simp [exec, execPowerOnResetRelease, releasePowerOn, hp, hc]
  case card => simp [exec, execCardResetRelease, releaseCard, hp, hc]
  case lastPower =>
    exact releases_of_takeArrivals (exec_powerOnResetRelease_last lines hp hc) (by simp) (by simp) (by simp) (by simp)
  case lastCard =>
    exact releases_of_takeArrivals (exec_cardResetRelease_last lines hp hc) (by simp) (by simp) (by simp) (by simp)

end Sys2Proof.TrunkMasters
end

section
/-! The charge of a violation (R101, R102): O11. -/

namespace Sys2Proof.TrunkMasters

open Sys2Proof Sys2Proof.Machine Sys2Proof.Safety

/-! ### Reports and the master table -/

/-- A report and a change of the masters do not meet. -/
theorem offered_withMasters (b : ReportBody) (s : State) (ms : Vector Master 16) :
    { offered b s with masters := ms } = offered b { s with masters := ms } :=
  apply_ite (fun x : State => { x with masters := ms }) _ _ _

theorem offerAll_withMasters (bs : List ReportBody) (s : State) (ms : Vector Master 16) :
    { offerAll bs s with masters := ms } = offerAll bs { s with masters := ms } := by
  induction bs generalizing s with
  | nil => rfl
  | cons b bs ih => exact (ih (offered b s)).trans (congrArg (offerAll bs) (offered_withMasters b s ms))

@[simp] theorem offerAll_masters (bs : List ReportBody) (s : State) : (offerAll bs s).masters = s.masters := by
  induction bs generalizing s with
  | nil => rfl
  | cons b bs ih => exact (ih (offered b s)).trans (WindowTable.offered_masters b s)

/-! ### The charge of a violation -/

/-- A master's record with one violation more (R101, step 1). -/
def counted (e : Master) : Master := { e with violations := min 255 (e.violations + 1) }

/-- The report of a first violation (R101, step 2). -/
def firstReports (cause : ViolationCause) (w : WindowId) (t : Txn) (e : Master) : List ReportBody :=
  if e.violations = 0 then [violationBody cause w t] else []

/-- The report of a threshold that is reached (R102). -/
def thresholdReports (cause : ViolationCause) (w : WindowId) (t : Txn) (e : Master) : List ReportBody :=
  if reachesThreshold e then [masterBarredBody cause w t e.violations] else []

/-- A master's record with the threshold applied (R102). -/
def thresholdApplied (e : Master) : Master :=
  { e with admission := if reachesThreshold e then .barred else e.admission }

theorem applyThreshold_eq (cause : ViolationCause) (w : WindowId) (t : Txn) (s : State) :
    applyThreshold cause w t s =
      offerAll (thresholdReports cause w t s.masters[t.master])
        { s with masters := modAt s.masters t.master thresholdApplied } := by
  have hmod : modAt s.masters t.master thresholdApplied =
      s.masters.set t.master.val (thresholdApplied s.masters[t.master]) := rfl
  unfold applyThreshold thresholdReports
  rw [hmod, thresholdApplied]
  split
  · rw [offerReport_eq_offered]
    rfl
  · exact congrArg (fun ms => { s with masters := ms }) (Vector.set_getElem_self _).symm

/-- The charge of a violation: the record counted and then barred where the threshold is reached, and its reports. -/
theorem chargeViolation_eq (cause : ViolationCause) (w : WindowId) (t : Txn) (s : State) :
    chargeViolation cause w t s =
      offerAll (firstReports cause w t s.masters[t.master] ++ thresholdReports cause w t (counted s.masters[t.master]))
        { s with masters := modAt s.masters t.master fun e => thresholdApplied (counted e) } := by
  have hcounted : (countViolation t.master s).masters[t.master] = counted s.masters[t.master] :=
    modAt_get_self s.masters t.master _
  have hfirst : chargeViolation cause w t s =
      applyThreshold cause w t
        (offerAll (firstReports cause w t s.masters[t.master]) (countViolation t.master s)) := by
    unfold chargeViolation firstReports
    dsimp only
    by_cases h : s.masters[t.master].violations = 0
    · rw [if_pos h, if_pos h, offerReport_eq_offered]
      rfl
    · rw [if_neg h, if_neg h]
      rfl
  rw [hfirst, applyThreshold_eq, offerAll_masters, hcounted, offerAll_withMasters, offerAll_append]
  exact congrArg (fun ms => offerAll _ (offerAll _ { s with masters := ms })) (WindowTable.modAt_modAt _ _ _ _)

theorem reachesThreshold_iff (e : Master) : reachesThreshold e = true ↔
    e.barThreshold ≠ 0 ∧ e.barThreshold ≤ e.violations ∧ e.admission = .opened := by
  simp only [reachesThreshold, Bool.and_eq_true, bne_iff_ne, decide_eq_true_eq, and_assoc]

theorem reachesThreshold_counted (e : Master) : reachesThreshold (counted e) =
    decide (e.barThreshold ≠ 0 ∧ e.barThreshold ≤ min 255 (e.violations + 1) ∧ e.admission = .opened) :=
  Bool.eq_iff_iff.2 ((reachesThreshold_iff (counted e)).trans decide_eq_true_iff.symm)

theorem directionCode_txnDirection (t : Txn) : directionCode (txnDirection t) =
    match t.payload with
    | .read _ => 0
    | .write _ => 1 := by
  unfold txnDirection
  cases t.payload <;> rfl

/-- Settles O11: the three steps refuse and charge in turn, each where the steps before it pass; and the charge is the
record's change followed by the two reports. -/
theorem violationsAreCharged : Obligations.ViolationsAreCharged := by
  intro s w t cause h hf ha hc code direction old count bars violation barring
  have hx : exec (windowCommand t) s = .next (answer .refuse (chargeViolation cause w t s)) := by
    have hcross := Laws.crossesEnd_iff s.windows[w] t h.beats.1
    rw [WindowTable.exec_windowCommand h.beats.1 h.beats.2 h.notReset h.outside,
      WindowTable.windowTxn_claimed h.claimed, claimedTxn, if_neg hf, if_neg ((Laws.misaligned_iff t).not.2 ha)]
    cases cause with
    | boundary => rw [if_pos (hcross.2 hc)]
    | barred =>
      obtain ⟨hin, hthawed, hadmission⟩ := hc
      rw [if_neg (hcross.not.2 hin), if_neg (by rw [hthawed]; decide), if_pos hadmission]
    | rights =>
      obtain ⟨hin, hthawed, hadmission, hrights⟩ := hc
      rw [if_neg (hcross.not.2 hin), if_neg (by rw [hthawed]; decide), if_neg (by rw [hadmission]; decide),
        if_pos ((Laws.rightsFail_iff s w t).2 hrights)]
  have hbars : reachesThreshold (counted old) = bars := reachesThreshold_counted old
  have hviolation : violationBody cause w t = violation := by
    unfold violationBody
    rw [directionCode_txnDirection]
    rfl
  have hbarring : masterBarredBody cause w t (counted old).violations = barring := rfl
  rw [hx, chargeViolation_eq, firstReports, thresholdReports, hviolation, hbarring, hbars]
  have hcharged : modAt s.masters t.master (fun e => thresholdApplied (counted e)) =
      modAt s.masters t.master fun e =>
        { e with violations := count, admission := if bars then .barred else e.admission } := by
    rw [← hbars]
    rfl
  rw [hcharged]
  rfl

end Sys2Proof.TrunkMasters
end

section
/-! Writes whose data check fails (R96, R97, R140): O14. -/

namespace Sys2Proof.TrunkMasters

open Sys2Proof Sys2Proof.Machine Sys2Proof.Safety

/-! ### Check codes -/

theorem wordAgrees_iff (c : CheckedWord) : wordAgrees c = true ↔ CodeAgrees c.word c.code :=
  WindowTable.codeAgrees_iff _ _

theorem codeAgrees_checkCode (x : Word) : CodeAgrees x (checkCode x) :=
  (WindowTable.codeAgrees_iff _ _).1 (decide_eq_true rfl)

theorem beatAgrees_eq_false {b : Beat} (h : ¬CodeAgrees b.data b.code) : beatAgrees b = false :=
  Bool.eq_false_iff.2 ((WindowTable.beatAgrees_iff b).not.2 h)

theorem wordAgrees_eq_false {c : CheckedWord} (h : ¬CodeAgrees c.word c.code) : wordAgrees c = false :=
  Bool.eq_false_iff.2 ((wordAgrees_iff c).not.2 h)

/-! ### The DATA CHECK report -/

theorem disagreeing_cons (b : Beat) (beats : List Beat) : disagreeing (b :: beats) =
    (if beatAgrees b then [] else [0]) ++ (disagreeing beats).map (· + 1) := by
  unfold disagreeing
  rw [List.length_cons, List.range_succ_eq_map, List.filter_cons, List.filter_map]
  cases hb : beatAgrees b <;> simp [hb, Function.comp_def]

theorem disagreeing_head? (beats : List Beat) :
    (disagreeing beats).head? = beats.findIdx? fun b => !beatAgrees b := by
  induction beats with
  | nil => rfl
  | cons b beats ih =>
    rw [disagreeing_cons, List.findIdx?_cons, ← ih]
    cases beatAgrees b <;> simp

theorem disagreeing_length (beats : List Beat) :
    (disagreeing beats).length = beats.countP fun b => !beatAgrees b := by
  induction beats with
  | nil => rfl
  | cons b beats ih =>
    rw [disagreeing_cons, List.countP_cons, ← ih]
    cases beatAgrees b <;> simp [Nat.add_comm]

theorem disagreeing_isEmpty {beats : List Beat} (h : ∃ b ∈ beats, beatAgrees b = false) :
    (disagreeing beats).isEmpty = false := by
  refine Bool.eq_false_iff.2 fun he => ?_
  obtain ⟨b, hb, hbad⟩ := h
  rw [(disagreeing_nil_iff beats).1 (List.isEmpty_iff.1 he) b hb] at hbad
  cases hbad

/-- The DATA CHECK report of a damaged write, as the statements give it (R97, R186). -/
def damageReport (m : MasterId) (w : Option WindowId) (a : TrunkAddr) (beats : List Beat) : ReportBody :=
  ⟨.dataCheck, none, none, some m, w, some a, dataCheckDetail beats⟩

theorem dataCheckBody_eq {beats : List Beat} (m : MasterId) (w : Option WindowId) (a : TrunkAddr)
    (h : ∃ b ∈ beats, beatAgrees b = false) : dataCheckBody m w a beats = damageReport m w a beats := by
  have hfirst : (disagreeing beats).headD 0 = beats.findIdx fun b => !beatAgrees b := by
    rw [List.headD_eq_head?_getD, disagreeing_head?, List.findIdx?_eq_some_of_exists (by simpa using h)]
    rfl
  rw [dataCheckBody, hfirst, disagreeing_length]
  rfl

/-! ### Where a damaged write is refused -/

theorem writeStep_damaged {beats : List Beat} (s : State) (w : WindowId) (t : Txn)
    (h : ∃ b ∈ beats, beatAgrees b = false) :
    writeStep w t beats s = answer .refuse (offered (damageReport t.master (some w) t.addr beats) s) := by
  rw [writeStep, disagreeing_isEmpty h, dataCheckBody_eq _ _ _ h, offerReport_eq_offered]
  rfl

theorem refuseDamaged_eq {beats : List Beat} (s : State) (m : MasterId) (a : TrunkAddr)
    (h : ∃ b ∈ beats, beatAgrees b = false) :
    refuseDamaged m a beats s = answer .refuse (offered (damageReport m none a beats) s) := by
  rw [refuseDamaged, dataCheckBody_eq _ _ _ h, offerReport_eq_offered]

/-- A write passes the alignment step with no OPEN, so the lock step clears no note (R94, R76). -/
theorem noteTaken_write {t : Txn} {beats : List Beat} (s : State) (hp : t.payload = .write beats) (ha : ¬Misaligned t) :
    noteTaken t s = s :=
  if_neg fun ⟨ho, _⟩ => ha (.inr (by rw [hp]; exact ho))

theorem exec_windowWrite_damaged {s : State} {w : WindowId} {t : Txn} {beats : List Beat}
    (hw : t.payload = .write beats) (hp : PassesToGate s w t) (hg : GatePasses s w t) (hl : LockStepPasses s w t)
    (h : ∃ b ∈ beats, beatAgrees b = false) : exec (windowCommand t) s =
      .next (answer .refuse (offered (damageReport t.master (some w) t.addr beats) s)) := by
  rw [WindowTable.exec_passing hp hg hl, noteTaken_write s hw hp.aligned, lastStep, hw]
  exact congrArg Host.Outcome.next (writeStep_damaged s w t h)

/-- The data check comes before the shape of the transaction (R140, row 1). -/
theorem controlTxn_damaged {t : Txn} {beats : List Beat} (s : State) (hw : t.payload = .write beats)
    (h : ∃ b ∈ beats, beatAgrees b = false) :
    controlTxn t s = answer .refuse (offered (damageReport t.master none t.addr beats) s) := by
  have hbeats : writtenBeats t = beats := by rw [writtenBeats, hw]
  rw [controlTxn, hbeats, disagreeing_isEmpty h, refuseDamaged_eq s _ _ h]
  rfl

theorem takeTxn_region_damaged {s : State} {t : Txn} {beats : List Beat} (hr : s.gsc.state ≠ .reset)
    (hin : InRegion s t.addr) (hw : t.payload = .write beats) (hlen : beats.length ≤ 16)
    (h : ∃ b ∈ beats, beatAgrees b = false) : takeTxn t s =
      .next (answer .refuse (offered (damageReport t.master none t.addr beats) s)) := by
  have hbeats : txnBeats t = beats.length := by rw [txnBeats, hw]
  have hpos : 1 ≤ beats.length := by
    obtain ⟨b, hb, -⟩ := h
    exact List.length_pos_of_mem hb
  rw [takeTxn_legal s (by rwa [hbeats]) (by rwa [hbeats]), trunkTxn, if_neg hr,
    if_pos ((Laws.inRegion_iff s t.addr).2 hin), controlTxn_damaged s hw h]

/-! ### The listed writes -/

theorem regionBeats_damaged {words : List CheckedWord} (h : ∃ c ∈ words, wordAgrees c = false) :
    ∃ b ∈ regionBeats words, beatAgrees b = false := by
  obtain ⟨c, hc, hbad⟩ := h
  exact ⟨_, List.mem_map_of_mem hc, hbad⟩

theorem regionBase_add (n : BitVec 4) (offset : Nat) : regionBase n + BitVec.ofNat 32 offset =
    BitVec.ofNat 32 (0xFFF00000 + n.toNat * 0x10000 + offset) :=
  (BitVec.ofNat_add ..).symm

/-- A write of a listed operation with a damaged word (R97, R140 row 1). -/
theorem regionWrite_damaged {s : State} {offset : Nat} {words : List CheckedWord} (m : MasterId) (ho : offset < 0x10000)
    (hr : s.gsc.state ≠ .reset) (h : ∃ c ∈ words, wordAgrees c = false) : trunkTxn (regionWrite s m offset words) s =
      answer .refuse (offered (damageReport m none
        (BitVec.ofNat 32 (0xFFF00000 + s.ti.slotNumber.toNat * 0x10000 + offset)) (regionBeats words)) s) := by
  rw [trunkTxn_regionWrite_damaged s m offset words ho hr h, refuseDamaged_eq s m _ (regionBeats_damaged h),
    regionBase_add]

/-- One damaged beat: the first is beat 0, and it is one (R186). -/
theorem dataCheckDetail_single {d : CheckedWord} (h : wordAgrees d = false) :
    dataCheckDetail (regionBeats [d]) = BitVec.ofNat 32 256 := by
  have hcode : codeAgrees d.word d.code = false := h
  simp [dataCheckDetail, regionBeats, beatAgrees, hcode]

/-- Settles O14: the data check is the first test of the write step and of the control region. -/
theorem damagedWritesAreRefused : Obligations.DamagedWritesAreRefused := by
  refine ⟨fun b c x => ⟨WindowTable.beatAgrees_iff b, wordAgrees_iff c, rfl, codeAgrees_checkCode x⟩,
    fun s w t beats hw hp hg hl h => ?window, fun s m hr => ⟨fun d hd => ?immediate, fun words hlen h => ?record⟩,
    fun s t beats hr hin hw hlen h => ?region⟩
  case window =>
    exact exec_windowWrite_damaged hw hp hg hl (h.imp fun b => And.imp_right beatAgrees_eq_false)
  case immediate =>
    have hbad := wordAgrees_eq_false hd
    have hwrite := fun offset ho => regionWrite_damaged (offset := offset) (words := [d]) m ho hr
      ⟨d, List.mem_singleton_self d, hbad⟩
    rw [← dataCheckDetail_single hbad]
    simp only [List.forall_mem_cons, List.not_mem_nil, false_implies, implies_true, and_true]
    refine ⟨?_, ?_, ?_, ?_, ?_⟩
    all_goals exact congrArg Host.Outcome.next (hwrite _ (by decide))
  case record =>
    have hpos : 1 ≤ words.length := by
      obtain ⟨c, hc, -⟩ := h
      exact List.length_pos_of_mem hc
    rw [exec_controlIntake_legal m s hpos hlen,
      regionWrite_damaged m (by decide) hr (h.imp fun c => And.imp_right wordAgrees_eq_false)]
    rfl
  case region =>
    have ht := takeTxn_region_damaged hr hin hw hlen (h.imp fun b => And.imp_right beatAgrees_eq_false)
    intro c hc
    obtain rfl | rfl : c = .controlRegionRefused t ∨ c = windowCommand t := by simpa using hc
    · exact ht
    · exact (exec_windowCommand_eq_takeTxn t s).trans ht

end Sys2Proof.TrunkMasters
end

section
/-! A piece that ends ACK with a further piece to perform leaves its access in flight (R110, R111, R112, R114): O42. -/

namespace Sys2Proof.CardBusTransfers

open Sys2Proof Sys2Proof.Machine Sys2Proof.Safety

section

variable {s : State} {a : Access} {p : PieceOp}

/-- The event of a piece that leaves its access in flight ends with the next operation started (R114). -/
theorem exec_pieceAcked_goesOn (ha : s.cbc.access = some a) (hop : a.op = some p) (data : Word)
    (hgoes : (pieceAcked a p data s).cbc.access.isSome = true) :
    exec (.pieceEnd (.ack data)) s = .next (pieceAcked a p data s) := by
  change execPieceEnd (.ack data) s = _
  have hout : outstanding s = some (a, p) := (Scope.outstanding_eq_some s a p).2 ⟨ha, hop⟩
  simp only [execPieceEnd, hout, WindowTable.afterPiece_goesOn hgoes]

/-! ### Drains -/

/-- The access of a drain once its piece has been performed (R111). -/
def piecePerformed (a : Access) (p : PieceOp) : Access := { a with bytes := a.bytes + laneCount p.op.enables, op := none }

variable {d : DataEntry} {rest : List Entry} {n : Nat}

theorem piecesAfter_performed (h : Draining s a p d rest n) : piecesAfter (piecePerformed a p) =
    d.beats.length * piecesPerBeat a.unit a.portWidth - (n + 1) := by
  rw [h.place, ← h.beats]
  rfl

/-- A drain that keeps its tenure takes up the pieces behind the one performed (R111, R114). -/
theorem pieceAcked_drain (h : Draining s a p d rest n) (hstop : a.stop = false) (data : Word)
    (hmore : n + 1 < d.beats.length * piecesPerBeat a.unit a.portWidth) :
    pieceAcked a p data s = continueDrain (piecePerformed a p) d (piecesAfter (piecePerformed a p))
      { s with cbc.access := some (piecePerformed a p) } := by
  have hleft : piecesAfter (piecePerformed a p) ≠ 0 := by
    rw [piecesAfter_performed h]
    omega
  have hkind : pieceAcked a p data s = drainPieceAcked a p s := by rw [pieceAcked, h.kind]
  refine hkind.trans ((if_neg hleft).trans ((if_neg (by rw [hstop]; nofun)).trans ?_))
  dsimp only
  rw [h.head]
  rfl

/-- The next piece with an enabled lane is the one the drain performs, the beats begun on the way having passed their
checks (R111, R120). -/
theorem takeUp_performed {next : Nat} {b : Beat} (h : Draining s a p d rest n) (hlt : n < next)
    (hin : next < d.beats.length * piecesPerBeat a.unit a.portWidth)
    (hskip : ∀ j, n < j → j < next → drainLanes a d j = 0) (hon : drainLanes a d next ≠ 0)
    (hb : d.beats[next / piecesPerBeat a.unit a.portWidth]? = some b)
    (hcheck : ∀ i x, n < i * piecesPerBeat a.unit a.portWidth → i * piecesPerBeat a.unit a.portWidth ≤ next →
      d.beats[i]? = some x → beatAgrees x = true) :
    takeUp (piecePerformed a p) d.beats (piecesAfter (piecePerformed a p)) =
      .perform (next / piecesPerBeat a.unit a.portWidth) (next % piecesPerBeat a.unit a.portWidth)
        (drainLanes a d next) b.data := by
  have hlanes : drainLanes a d next = b.enables &&& pieceLanes (pieceAddr a.cardAddr a.unit a.portWidth
      (next / piecesPerBeat a.unit a.portWidth) (next % piecesPerBeat a.unit a.portWidth)) a.unit a.portWidth := by
    simp only [drainLanes, hb, Option.map_some, Option.getD_some]
  have htotal : pieceTotal (piecePerformed a p) = d.beats.length * piecesPerBeat a.unit a.portWidth := by
    rw [← h.beats]
    rfl
  have hcount : n + 1 + piecesAfter (piecePerformed a p) = pieceTotal (piecePerformed a p) := by
    rw [piecesAfter_performed h, htotal]
    omega
  rw [hlanes] at hon ⊢
  exact takeUp_perform (piecePerformed a p) d.beats next b hb _ (n + 1) hcount hlt (htotal ▸ hin) hskip hon hcheck

/-! ### Fetches -/

theorem nextPiece_eq (a : Access) : nextPiece a =
    (if a.piece + 1 < piecesPerBeat a.unit a.portWidth then a.beat else a.beat + 1,
      if a.piece + 1 < piecesPerBeat a.unit a.portWidth then a.piece + 1 else 0) := by
  unfold nextPiece
  split <;> rfl

/-- A fetch for a slot goes on with the piece behind the one that returned its lanes (R112, R114). -/
theorem pieceAcked_fetch (h : Fetching s a p) (data : Word) (hslot : a.slot.isSome = true) (hlast : ¬LastPiece a) :
    pieceAcked a p data s = { s with
      cbc.access := some (fetchPiece s { a with gathered := gatheredWith a p data } (nextPiece a).1 (nextPiece a).2) } := by
  have hleft : piecesAfter { a with gathered := gather a p data, op := none } ≠ 0 := by
    unfold LastPiece at hlast
    unfold piecesAfter pieceTotal
    dsimp only
    omega
  have hgoes : ¬((a.slot = none || piecesAfter { a with gathered := gather a p data, op := none } = 0) = true) := by
    simpa [Option.ne_none_iff_isSome, hleft] using hslot
  have hkind : pieceAcked a p data s = fetchPieceAcked a p data s := by rw [pieceAcked, h.kind]
  exact hkind.trans (if_neg hgoes)

/-- The data that the operation of a read shows are zero (log 26). -/
theorem pieceOp_read (s : State) (a : Access) (beat piece : Nat) (enables : Lanes) :
    pieceOp s a beat piece false enables 0 =
      ⟨⟨pieceAddr a.cardAddr a.unit a.portWidth beat piece, unitOfBytes (pieceBytes a.unit a.portWidth), false, enables,
        0⟩, startTimer s s.cu.cardResponse⟩ := by
  rw [pieceOp, mergeLanes_zero]

end

/-- Settles O42: a drain takes up the next piece with an enabled lane, a fetch the next piece, and the operation started
is the access's, so that nothing of the event is left to settle. -/
theorem anAccessGoesOnWithItsNextPiece : Obligations.AnAccessGoesOnWithItsNextPiece := by
  refine ⟨?drain, ?fetch⟩
  case drain =>
    intro s a p d rest n next b data h hstop per hlt hin hskip hon hb hcheck
    have hacked : pieceAcked a p data s = performPiece (piecePerformed a p) (next / per) (next % per)
        (drainLanes a d next) b.data { s with cbc.access := some (piecePerformed a p) } := by
      rw [pieceAcked_drain h hstop data (Nat.lt_of_le_of_lt hlt hin), continueDrain,
        takeUp_performed h hlt hin hskip hon hb hcheck]
    rw [exec_pieceAcked_goesOn h.access h.op data (by rw [hacked]; rfl), hacked]
    rfl
  case fetch =>
    intro s a p i data h hslot hlast per beat piece addr
    have hacked := pieceAcked_fetch h data (by rw [hslot]; rfl) hlast
    rw [exec_pieceAcked_goesOn h.access h.op data (by rw [hacked]; rfl), hacked, nextPiece_eq, fetchPiece, pieceOp_read]
    rfl

end Sys2Proof.CardBusTransfers
end

section
/-! The residents' request and hold lines, and new arbitration settings, in each state of the arbiter (R126 to R132): O51
and O39. -/

namespace Sys2Proof.CardBusArbitration

-- One proof after the other: the text is compiled as one file, within a limit on memory that each thread draws on.
set_option Elab.async false

open Sys2Proof Sys2Proof.Machine Sys2Proof.Safety

section

variable {s : State} {p : Port} {r owner : Requester}

/-! ### A request arrives (R127) -/

theorem requestArrives_parkedOwner (h : s.arb.state = .parked r) : requestArrives r s = granted r s := by
  rw [requestArrives, h]
  exact (if_pos rfl).trans (granted_eq r s)

theorem requestArrives_parkedElsewhere (h : s.arb.state = .parked owner) (hne : owner ≠ r) :
    requestArrives r s = decision s := by
  rw [requestArrives, h]
  exact if_neg hne

theorem requestArrives_stopped (h : s.arb.state = .stopped) : requestArrives r s = s := by
  rw [requestArrives, h]

theorem requestArrives_tenure (h : s.arb.state = .tenure owner) : requestArrives r s = s := by
  rw [requestArrives, h]

theorem requestArrives_locked {inTenure : Bool} (h : s.arb.state = .locked owner inTenure)
    (hwait : owner ≠ r ∨ inTenure = true) : requestArrives r s = s := by
  rw [requestArrives, h]
  refine if_neg ?_
  obtain hwait | hwait := hwait <;> simp [hwait]

theorem requestArrives_betweenTenures (h : s.arb.state = .locked r false) :
    requestArrives r s = { s with arb.state := .locked r true } := by
  rw [requestArrives, h]
  exact if_pos (by simp)

/-- In PARKED a request that is the only one is granted, whoever the grant is parked at (R127, R129). -/
theorem requestArrives_parked_wins (h : s.arb.state = .parked owner) (hw : Wins s r) :
    requestArrives r s = granted r s := by
  by_cases ho : owner = r
  · exact requestArrives_parkedOwner (ho ▸ h)
  · rw [requestArrives_parkedElsewhere h ho, decision_wins s r hw]

/-! ### Decisions -/

/-- A requester that stands alone wins the decision (R128). -/
theorem wins_of_sole (hr : Requests s r) (hsole : ∀ q, Requests s q → q = r) : Wins s r := by
  refine ⟨hr, ?_⟩
  split
  · next hurgent => exact (hsole .gate hurgent.1).symm
  · exact fun q hq => hsole q hq ▸ Nat.le_refl _

/-- The port whose line is raised while nothing requests wins the decision (R128). -/
theorem wins_of_firstRaised (he : portOf s.arb.enabled p = true) (hn : ∀ q, ¬Requests s q) :
    Wins (setRequestLine p true s) (.port p) := by
  have hlines (q : Port) : portOf (setRequestLine p true s).lines.request q =
      if q = p then true else portOf s.lines.request q := TrunkMasters.portOf_setPort _ _ _ _
  refine wins_of_sole ⟨he, by rw [hlines, if_pos rfl]⟩ fun q hq => ?_
  cases q with
  | gate => exact absurd hq (hn .gate)
  | port q =>
    obtain ⟨hqe, hql⟩ := hq
    by_contra hne
    rw [hlines, if_neg fun hqp => hne (congrArg _ hqp)] at hql
    exact hn (.port q) ⟨hqe, hql⟩

/-- An event that comes to a decision of `x` goes on from the winner's grant, or from the parked grant. -/
theorem exec_decision {c : Instr} {x : State} (hx : exec c s = .next (settle (decision x))) :
    (∀ r, Wins x r → ∃ t, exec c s = .next t ∧ SettlesTo (granted r x) t) ∧
      ((∀ r, ¬Requests x r) → ∃ t, exec c s = .next t ∧ SettlesTo (parkedAtTarget x) t) :=
  ⟨fun r hr => ⟨_, hx, decision_wins x r hr ▸ settle_settlesTo _⟩,
    fun hn => ⟨_, hx, decision_parks x hn ▸ settle_settlesTo _⟩⟩

/-! ### A resident's lines (R126, R130) -/

theorem residentTenureEnds_tenure (h : s.arb.state = .tenure (.port p)) :
    residentTenureEnds p s = settle (decision s) := by
  rw [residentTenureEnds, h]
  exact if_pos rfl

theorem residentTenureEnds_locked (h : s.arb.state = .locked (.port p) true) :
    residentTenureEnds p s = { s with arb.state := .locked (.port p) false } := by
  rw [residentTenureEnds, h]
  exact if_pos rfl

theorem residentTenureEnds_idle (ht : s.arb.state ≠ .tenure (.port p)) (hl : s.arb.state ≠ .locked (.port p) true) :
    residentTenureEnds p s = s := by
  unfold residentTenureEnds
  split
  · next q hq => exact if_neg fun hqp : q = p => ht (hqp ▸ hq)
  · next q hq => exact if_neg fun hqp : q = p => hl (hqp ▸ hq)
  · rfl

theorem holdTaken_tenure (h : s.arb.state = .tenure (.port p)) (he : portOf s.arb.enabled p = true) :
    holdTaken p s = { s with arb.state := .locked (.port p) true } :=
  if_pos (by simp [h, he])

theorem holdTaken_ignored (h : s.arb.state ≠ .tenure (.port p) ∨ portOf s.arb.enabled p = false) : holdTaken p s = s :=
  if_neg (by obtain h | h := h <;> simp [h])

theorem holdReleased_inTenure (h : s.arb.state = .locked (.port p) true) :
    holdReleased p s = { s with arb.state := .tenure (.port p) } := by
  rw [holdReleased, h]
  exact (if_pos rfl).trans (if_pos rfl)

theorem holdReleased_betweenTenures (h : s.arb.state = .locked (.port p) false) :
    holdReleased p s = settle (decision s) := by
  rw [holdReleased, h]
  exact (if_pos rfl).trans (if_neg Bool.false_ne_true)

theorem holdReleased_ignored (h : ∀ inTenure, s.arb.state ≠ .locked (.port p) inTenure) : holdReleased p s = s := by
  unfold holdReleased
  split
  · next q inTenure hq => exact if_neg fun hqp : q = p => h inTenure (hqp ▸ hq)
  · rfl

/-! ### The four rows -/

theorem exec_requestRaise_disabled (hl : portOf s.lines.request p = false) (he : portOf s.arb.enabled p = false) :
    exec (.residentRequestRaise p) s = .next (setRequestLine p true s) := by
  change execResidentRequestRaise p s = _
  rw [execResidentRequestRaise, hl, if_neg Bool.false_ne_true]
  simp [he]

theorem exec_requestRaise_enabled (hl : portOf s.lines.request p = false) (he : portOf s.arb.enabled p = true) :
    exec (.residentRequestRaise p) s = .next (settle (requestArrives (.port p) (setRequestLine p true s))) := by
  change execResidentRequestRaise p s = _
  rw [execResidentRequestRaise, hl, if_neg Bool.false_ne_true]
  simp [he]

theorem exec_requestDrop (hl : portOf s.lines.request p = true) :
    exec (.residentRequestDrop p) s = .next (residentTenureEnds p (setRequestLine p false s)) :=
  congrArg Host.Outcome.next (if_pos hl)

theorem exec_holdRaise (hl : portOf s.lines.hold p = false) :
    exec (.residentHoldRaise p) s = .next (holdTaken p (setHoldLine p true s)) :=
  congrArg Host.Outcome.next (if_neg (by simp [hl]))

theorem exec_holdDrop (hl : portOf s.lines.hold p = true) :
    exec (.residentHoldDrop p) s = .next (holdReleased p (setHoldLine p false s)) :=
  congrArg Host.Outcome.next (if_pos hl)

/-- A raised request of an enabled port: the event goes on from what the arrival makes of the state. -/
theorem requestRaise_settlesTo {x : State} (hl : portOf s.lines.request p = false) (he : portOf s.arb.enabled p = true)
    (hx : requestArrives (.port p) (setRequestLine p true s) = x) :
    ∃ t, exec (.residentRequestRaise p) s = .next t ∧ SettlesTo x t :=
  ⟨_, exec_requestRaise_enabled hl he, hx ▸ settle_settlesTo _⟩

end

/-- Settles O51: each row in each state of the arbiter. -/
theorem residentLinesMoveTheGrant : Obligations.ResidentLinesMoveTheGrant := by
  intro s p request hold becomes
  refine ⟨fun hl => if_pos hl, fun hl => ⟨exec_requestRaise_disabled hl, fun he => ?raise⟩,
    fun hl => congrArg Host.Outcome.next (if_neg (by simp [hl])), fun hl => ?drop,
    fun hl => congrArg Host.Outcome.next (if_pos hl), fun hl => ?holdRaise,
    fun hl => congrArg Host.Outcome.next (if_neg (by simp [hl])), fun hl => ?holdDrop⟩
  case raise =>
    have hb {x : State} := requestRaise_settlesTo (x := x) hl he
    exact ⟨fun hs => hb (requestArrives_parkedOwner hs),
      fun owner hs hn => hb (requestArrives_parked_wins hs (wins_of_firstRaised he hn)),
      fun owner r hs hne hw =>
        hb ((requestArrives_parkedElsewhere (s := request true) hs hne).trans (decision_wins _ r hw)),
      fun hs => hb (requestArrives_stopped hs), fun owner hs => hb (requestArrives_tenure hs),
      fun owner inTenure hs hwait => hb (requestArrives_locked hs hwait),
      fun hs => hb (requestArrives_betweenTenures hs)⟩
  case drop =>
    have hx := exec_requestDrop hl
    exact ⟨fun hs => exec_decision (x := request false) (hx.trans (congrArg _ (residentTenureEnds_tenure hs))),
      fun hs => hx.trans (congrArg _ (residentTenureEnds_locked hs)),
      fun ht hk => hx.trans (congrArg _ (residentTenureEnds_idle ht hk))⟩
  case holdRaise =>
    have hx := exec_holdRaise hl
    exact ⟨fun hs he => hx.trans (congrArg _ (holdTaken_tenure hs he)),
      fun h => hx.trans (congrArg _ (holdTaken_ignored h))⟩
  case holdDrop =>
    have hx := exec_holdDrop hl
    exact ⟨fun hs => hx.trans (congrArg _ (holdReleased_inTenure hs)),
      fun hs => exec_decision (x := hold false) (hx.trans (congrArg _ (holdReleased_betweenTenures hs))),
      fun h => hx.trans (congrArg _ (holdReleased_ignored h))⟩

/-! ### New settings (R132) -/

section

variable {before : PortSet} {s : State} {p : Port} {owner : Requester}

theorem settingsTakeEffect_parked (h : s.arb.state = .parked owner) : settingsTakeEffect before s = decision s := by
  rw [settingsTakeEffect, h]

theorem settingsTakeEffect_gate (h : s.arb.state = .tenure .gate ∨ s.arb.state = .locked .gate true) :
    settingsTakeEffect before s = s := by
  obtain h | h := h <;> rw [settingsTakeEffect, h]

theorem settingsTakeEffect_locked_enabled {inTenure : Bool} (h : s.arb.state = .locked (.port p) inTenure)
    (he : portOf s.arb.enabled p = true) : settingsTakeEffect before s = s := by
  rw [settingsTakeEffect, h]
  exact if_pos he

theorem settingsTakeEffect_inTenure_disabled (h : s.arb.state = .locked (.port p) true)
    (he : portOf s.arb.enabled p = false) :
    settingsTakeEffect before s = { s with arb.state := .tenure (.port p) } := by
  rw [settingsTakeEffect, h]
  exact (if_neg (by simp [he])).trans (if_pos rfl)

theorem settingsTakeEffect_betweenTenures_disabled (h : s.arb.state = .locked (.port p) false)
    (he : portOf s.arb.enabled p = false) : settingsTakeEffect before s = decision s := by
  rw [settingsTakeEffect, h]
  exact (if_neg (by simp [he])).trans (if_neg Bool.false_ne_true)

theorem settingsTakeEffect_tenure_kept (h : s.arb.state = .tenure (.port p))
    (hkeep : (portOf s.arb.enabled p = true → portOf before p = true) ∨ portOf s.lines.hold p = false) :
    settingsTakeEffect before s = s := by
  rw [settingsTakeEffect, h]
  refine if_neg fun hnew => ?_
  simp only [Bool.and_eq_true, Bool.not_eq_true'] at hnew
  obtain ⟨⟨he, hb⟩, hl⟩ := hnew
  obtain hkeep | hkeep := hkeep
  · rw [hkeep he] at hb
    cases hb
  · rw [hkeep] at hl
    cases hl

/-- An owner newly enabled in its tenure, with its hold line raised: the hold is heeded or not (log 11). -/
theorem settingsTakeEffect_tenure_enabled (h : s.arb.state = .tenure (.port p)) (he : portOf s.arb.enabled p = true)
    (hb : portOf before p = false) (hl : portOf s.lines.hold p = true) :
    settingsTakeEffect before s = { s with freeCount := s.freeCount + 1 } ∨
      settingsTakeEffect before s = { s with freeCount := s.freeCount + 1, arb.state := .locked (.port p) true } := by
  have hchoice : settingsTakeEffect before s = heedHoldByChoice p s := by
    rw [settingsTakeEffect, h]
    exact if_pos (by simp [he, hb, hl])
  rw [hchoice, heedHoldByChoice]
  split
  · exact .inl rfl
  · exact .inr rfl

theorem settingsTakeEffect_lockHold (before : PortSet) (s : State) :
    (settingsTakeEffect before s).arb.lockHold = s.arb.lockHold := by
  obtain ⟨_, _, _, _, _, h⟩ := WindowTable.settingsTakeEffect_shape before s
  rw [h]

end

/-! ### SET ARBITRATION (R158, R185) -/

theorem parkPolicyOfCode_of_mem {n : Nat} {policy : ParkPolicy}
    (h : (n, policy) ∈ [(0, ParkPolicy.last), (1, .gate), (2, .portA), (3, .portB), (4, .portC)]) :
    parkPolicyOfCode n = some policy := by
  simp only [List.mem_cons, Prod.mk.injEq, List.not_mem_nil, or_false] at h
  rcases h with ⟨rfl, rfl⟩ | ⟨rfl, rfl⟩ | ⟨rfl, rfl⟩ | ⟨rfl, rfl⟩ | ⟨rfl, rfl⟩ <;> rfl

/-- Operands in range write the three settings. -/
theorem doSetArbitration_legal {c : ControlEntry} {a : Word} {policy : ParkPolicy} (s : State) (hc : c.operands = [a])
    (hpolicy : ((a.extractLsb' 0 3).toNat, policy) ∈
      [(0, ParkPolicy.last), (1, .gate), (2, .portA), (3, .portB), (4, .portC)])
    (h8 : 8 ≤ (a.extractLsb' 8 8).toNat) (h30 : (a.extractLsb' 8 8).toNat ≤ 30) :
    doSetArbitration c s = ⟨.ok, 0, writeSettings policy (a.extractLsb' 8 8).toNat
      ⟨a.getLsbD 16, a.getLsbD 17, a.getLsbD 18⟩ s⟩ := by
  have h1 : operand c 1 = a := by rw [operand, hc]; rfl
  unfold doSetArbitration operandPorts
  simp only [h1, WindowTable.field_eq, WindowTable.flagBit_eq, parkPolicyOfCode_of_mem hpolicy]
  exact if_pos (by rw [decide_eq_true h8, decide_eq_true h30]; rfl)

/-- With nobody requesting, the decision moves the grant to the new park target (R129). -/
theorem decision_parks_residents {s : State} (hg : s.cbc.request = false)
    (hp : ∀ p, portOf s.arb.enabled p = true → portOf s.lines.request p = false) :
    decision s = parkedAtTarget s := by
  refine decision_parks s fun r hr => ?_
  cases r with
  | gate => exact absurd (hg.symm.trans hr) Bool.false_ne_true
  | port p => exact absurd ((hp p hr.1).symm.trans hr.2) Bool.false_ne_true

/-- Settles O39: the settings are written, and each state of the arbiter takes its own effect of them. -/
theorem setArbitrationWritesTheSettings : Obligations.SetArbitrationWritesTheSettings := by
  intro s c rest a policy hx hc hpolicy mark ports h8 h30 written target becomes
  have hb {x : State} (heffect : settingsTakeEffect s.arb.enabled written = x) : becomes x := by
    subst heffect
    exact ⟨_, rfl, WindowTable.executeHead_settlesTo hx (doSetArbitration_legal s hc hpolicy h8 h30)
      (PostedWrites.settingsTakeEffect_pwq _ _) (settingsTakeEffect_lockHold _ _)⟩
  have hdecided (heffect : settingsTakeEffect s.arb.enabled written = decision written) :
      (∀ r, Wins written r → becomes (granted r written)) ∧
        ((∀ r, ¬Requests written r) → becomes (parkedAtTarget written)) :=
    ⟨fun r hr => hb (heffect.trans (decision_wins written r hr)),
      fun hn => hb (heffect.trans (decision_parks written hn))⟩
  refine ⟨fun hs => hb (settingsTakeEffect_gate hs),
    fun p hs hkeep => hb (settingsTakeEffect_tenure_kept hs (.inl hkeep)),
    fun p inTenure hs => ⟨fun he => hb (settingsTakeEffect_locked_enabled hs he), fun he hin => ?inTenure⟩,
    fun owner hs hg hp => ?parks, fun owner hs => hdecided (settingsTakeEffect_parked hs),
    fun p hs he => hdecided (settingsTakeEffect_betweenTenures_disabled hs he),
    fun p hs he hold => ⟨fun hl => hb (settingsTakeEffect_tenure_kept hs (.inr hl)), fun hl => ?newlyEnabled⟩⟩
  case inTenure =>
    subst hin
    exact hb (settingsTakeEffect_inTenure_disabled hs he)
  case parks =>
    exact hb ((settingsTakeEffect_parked (s := written) hs).trans (decision_parks_residents hg hp))
  case newlyEnabled =>
    exact (settingsTakeEffect_tenure_enabled (s := written) hs he hold hl).imp hb hb

end Sys2Proof.CardBusArbitration
end

section
/-! The immediate operations of the control region: who may use one, and what each answers and does (R139 to R145, R168,
R169, R186): O23, O25, O26, O27 and O31. -/

namespace Sys2Proof.ControlRecords

open Sys2Proof Sys2Proof.Machine Sys2Proof.Safety

/-! ### Who may use an operation (R139, R140) -/

/-- The manager is refused only what FAULTED refuses to every master (R140). -/
theorem refusedOp_manager {s : State} {m : MasterId} (hm : s.cu.manager = some m) (op : ControlOp) :
    refusedOp s m op = (decide (s.gsc.state = .faulted) && refusedInFault op) := by
  have hb : resetGateBarred s m op = false := by cases op <;> simp [resetGateBarred, hm]
  rw [refusedOp, hb, hm]
  simp

theorem serveOp_manager {s : State} {m : MasterId} {op : ControlOp} (hm : s.cu.manager = some m)
    (hf : s.gsc.state ≠ .faulted ∨ refusedInFault op = false) : serveOp m op s = operate m op s := by
  refine serve_ok ?_
  rw [refusedOp_manager hm]
  obtain hf | hf := hf
  · rw [decide_eq_false hf, Bool.false_and]
  · rw [hf, Bool.and_false]

/-- CLAIM is open to every master outside FAULTED (R140, R141). -/
theorem serveOp_claim {s : State} (m : MasterId) (data : Word) (hf : s.gsc.state ≠ .faulted) :
    serveOp m (.claim data) s = claimRole m data s :=
  serve_ok (by simp [refusedOp, managerOnly, resetGateBarred, hf])

theorem refusedOp_faulted {s : State} {op : ControlOp} (m : MasterId) (hf : s.gsc.state = .faulted)
    (hop : refusedInFault op = true) : refusedOp s m op = true := by
  simp [refusedOp, hf, hop]

theorem refusedOp_notManager {s : State} {m : MasterId} {op : ControlOp} (hm : s.cu.manager ≠ some m)
    (hop : managerOnly op = true) : refusedOp s m op = true := by
  simp [refusedOp, hm, hop]

theorem refusedOp_resetGate {s : State} {m : MasterId} (data : Word) (hset : s.cu.manager.isSome = true)
    (hm : s.cu.manager ≠ some m) : refusedOp s m (.resetGate data) = true := by
  simp [refusedOp, resetGateBarred, hset, hm]

/-- A row that reaches an operation which rows 3 to 5 of R140 refuse has no other effect. -/
theorem exec_refused {s : State} {m : MasterId} {row : Instr} {op : ControlOp} (hrow : exec row s = .next (serveOp m op s))
    (h : refusedOp s m op = true) : exec row s = .next { s with ti.answer := some .refuse } := by
  rw [hrow, serve_refused h]
  rfl

/-! ### The listed shapes (R139) -/

theorem readShape_listed {offset n : Nat} {op : ControlOp} (h : readShape offset n = some op) :
    (offset, n) ∈ [(0x0000, 1), (0x0004, 1), (0x0010, 3), (0x0200, 4)] ∨
      (∃ w : WindowId, offset = 0x1000 + w.val * 0x20 ∧ n = 8) ∨
      (∃ m : MasterId, offset = 0x2000 + m.val * 0x10 ∧ n = 4) := by
  simp only [readShape, Bool.and_eq_true, decide_eq_true_eq] at h
  split_ifs at h with h0 hn h4 hn h10 hn h200 hn hw hn hm hn
  iterate 4 · exact .inl (by simp [*])
  · obtain ⟨⟨hmod, hlow⟩, hhigh⟩ := hw
    exact .inr (.inl ⟨⟨(offset - 0x1000) / 0x20, by omega⟩, by dsimp only; omega, hn⟩)
  · obtain ⟨⟨hmod, hlow⟩, hhigh⟩ := hm
    exact .inr (.inr ⟨⟨(offset - 0x2000) / 0x10, by omega⟩, by dsimp only; omega, hn⟩)

theorem writeShape_listed {offset : Nat} {words : List Word} {op : ControlOp} (h : writeShape offset words = some op) :
    (offset ∈ [0x0100, 0x0104, 0x0108, 0x010C, 0x0110] ∧ words.length = 1) ∨
      (offset = 0x0400 ∧ 1 ≤ words.length ∧ words.length ≤ 16) := by
  unfold writeShape at h
  split at h
  next hoffset =>
    split at h
    next hlength => exact .inr ⟨hoffset, by simpa using hlength⟩
    next => cases h
  next =>
    split at h
    next w =>
      refine .inl ⟨?_, rfl⟩
      split_ifs at h <;> simp [*]
    next => cases h

/-- The shape test passes listed shapes alone (R139). -/
theorem shapeOf_listed {offset : Nat} {t : Txn} {op : ControlOp} (h : shapeOf offset t = some op) :
    ListedShape offset t := by
  unfold shapeOf at h
  split at h
  next hunit =>
    simp only [Bool.and_eq_true, decide_eq_true_eq] at hunit
    refine ⟨hunit.1, hunit.2, ?_⟩
    cases hp : t.payload with
    | read n =>
      rw [hp] at h
      exact readShape_listed h
    | write beats =>
      rw [hp] at h
      dsimp only at h ⊢
      split at h
      next henables =>
        have hlisted := writeShape_listed h
        rw [List.length_map] at hlisted
        exact ⟨by simpa using henables, hlisted⟩
      next => cases h
  next => cases h

theorem regionOffset_eq (n : BitVec 4) (a : TrunkAddr) :
    regionOffset n a = a.toNat - (0xFFF00000 + n.toNat * 0x10000) := by
  rw [regionOffset, regionBase_toNat]

/-- A transaction of the region whose codes agree and whose shape is not listed is refused (R140 row 2). -/
theorem controlTxn_unlisted {s : State} {t : Txn}
    (hcodes : ∀ beats, t.payload = .write beats → ∀ b ∈ beats, CodeAgrees b.data b.code)
    (hshape : ¬ListedShape (regionOffset s.ti.slotNumber t.addr) t) : controlTxn t s = answer .refuse s := by
  have hgood : disagreeing (writtenBeats t) = [] := by
    refine (disagreeing_nil_iff _).2 fun b hb => (WindowTable.beatAgrees_iff b).2 ?_
    cases hp : t.payload with
    | read n => simp [writtenBeats, hp] at hb
    | write beats => exact hcodes beats hp b (by simpa [writtenBeats, hp] using hb)
  have hnone : shapeOf (regionOffset s.ti.slotNumber t.addr) t = none :=
    Option.eq_none_iff_forall_ne_some.2 fun op hop => hshape (shapeOf_listed hop)
  rw [controlTxn, hgood, hnone]
  rfl

/-- Settles O31: the shape test is row 2 of R140, and rows 3 to 5 refuse before an operation's own rule. -/
theorem theControlRegionRefuses : Obligations.TheControlRegionRefuses := by
  refine ⟨fun s t h1 h16 hr hin hcodes hshape => ?unlisted,
    fun s m d words w k hr hd hwords h1 h16 => ⟨fun hf => ?faulted, fun hm => ?notManager, fun hset hm => ?resetGate⟩⟩
  case unlisted =>
    rw [← regionOffset_eq] at hshape
    refine (TrunkMasters.takeTxn_legal s h1 h16).trans (congrArg Host.Outcome.next ?_)
    rw [trunkTxn, if_neg hr, if_pos ((Laws.inRegion_iff s t.addr).2 hin), controlTxn_unlisted hcodes hshape]
    rfl
  case faulted =>
    simp only [List.forall_mem_cons, List.not_mem_nil, false_implies, implies_true, and_true]
    have refused {op : ControlOp} (hop : refusedInFault op = true) := refusedOp_faulted m hf hop
    exact ⟨exec_refused (exec_claim s m d hr hd) (refused rfl), exec_refused (exec_relinquish s m d hr hd) (refused rfl),
      exec_refused (exec_attention s m d hr hd) (refused rfl),
      exec_refused (exec_intake s m words h1 h16 hr hwords) (refused rfl)⟩
  case notManager =>
    simp only [List.forall_mem_cons, List.not_mem_nil, false_implies, implies_true, and_true]
    have refused {op : ControlOp} (hop : managerOnly op = true) := refusedOp_notManager hm hop
    exact ⟨exec_refused (exec_counts s m hr) (refused rfl), exec_refused (exec_relinquish s m d hr hd) (refused rfl),
      exec_refused (exec_release s m d hr hd) (refused rfl), exec_refused (exec_attention s m d hr hd) (refused rfl),
      exec_refused (exec_reportHead s m hr) (refused rfl),
      exec_refused (exec_intake s m words h1 h16 hr hwords) (refused rfl),
      exec_refused (exec_windowReadback s m w hr) (refused rfl), exec_refused (exec_masterReadback s m k hr) (refused rfl)⟩
  case resetGate => exact exec_refused (exec_resetGate s m d hr hd) (refusedOp_resetGate d.word hset hm)

/-! ### CLAIM and RELINQUISH (R141, R142) -/

theorem masterWord_eq_iff (data : Word) (m : MasterId) : data = BitVec.ofNat 32 m.val ↔ data.toNat = m.val := by
  rw [← BitVec.toNat_inj, BitVec.toNat_ofNat, Nat.mod_eq_of_lt (by omega)]

theorem claimRole_foreign {data : Word} {m : MasterId} (s : State) (hd : data.toNat ≠ m.val) :
    claimRole m data s = answer .refuse s :=
  if_pos (bne_iff_ne.2 (mt (masterWord_eq_iff data m).1 hd))

section
variable {data : Word} {m : MasterId} {s : State} (hd : data.toNat = m.val)
include hd

theorem not_foreign : ¬(data != BitVec.ofNat 32 m.val) = true := by
  rw [bne_iff_ne, not_not]
  exact (masterWord_eq_iff data m).2 hd

theorem claimRole_unset (hm : s.cu.manager = none) :
    claimRole m data s = answer (.done []) { s with cu.manager := some m } := by
  rw [claimRole, if_neg (not_foreign hd), hm]

theorem claimRole_manager (hm : s.cu.manager = some m) : claimRole m data s = answer (.done []) s := by
  rw [claimRole, if_neg (not_foreign hd), hm]
  exact if_pos rfl

theorem claimRole_taken {k : MasterId} (hk : k ≠ m) (hm : s.cu.manager = some k) :
    claimRole m data s = answer .refuse s := by
  rw [claimRole, if_neg (not_foreign hd), hm]
  exact if_neg hk

end

/-- Settles O25: the data word is tested first, and then who is the manager. -/
theorem claimTakesAnUnsetRole : Obligations.ClaimTakesAnUnsetRole := by
  intro s m d hr hf hd
  rw [exec_claim s m d hr hd, serveOp_claim m d.word hf]
  exact ⟨fun hne => congrArg Host.Outcome.next (claimRole_foreign s hne),
    fun heq => ⟨fun hm => congrArg Host.Outcome.next (claimRole_unset heq hm),
      fun hm => congrArg Host.Outcome.next (claimRole_manager heq hm),
      fun k hk hm => congrArg Host.Outcome.next (claimRole_taken heq hk hm)⟩⟩

/-! ### RELEASE (R144, R168, R169) -/

/-- The two tests of RELEASE's data word: it is the sequence number in 32 bits (R144). -/
theorem releaseWord_iff (data : Word) (seq : BitVec 16) :
    (field data 16 16 = 0 && seq.toNat = field data 0 16) = true ↔ data = seq.setWidth 32 := by
  have := data.isLt
  have := seq.isLt
  rw [Bool.and_eq_true, decide_eq_true_eq, decide_eq_true_eq, field, field, ← BitVec.toNat_inj, BitVec.toNat_setWidth]
  omega

theorem releaseReport_named {data : Word} {s : State} {r : Report} {rest : List Report} (hr : s.rq.reports = r :: rest)
    (hd : data = r.seq.setWidth 32) : releaseReport data s = answer (.done []) (removeReport s) := by
  rw [releaseReport, hr]
  exact if_pos ((releaseWord_iff _ _).2 hd)

theorem releaseReport_other {data : Word} {s : State} {r : Report} {rest : List Report} (hr : s.rq.reports = r :: rest)
    (hd : data ≠ r.seq.setWidth 32) : releaseReport data s = answer .refuse s := by
  rw [releaseReport, hr]
  exact if_neg (mt (releaseWord_iff _ _).1 hd)

theorem releaseReport_empty {s : State} (data : Word) (hr : s.rq.reports = []) :
    releaseReport data s = answer .refuse s := by
  rw [releaseReport, hr]

/-- The oldest report leaves (R168), and the line follows those that stay (R169). -/
theorem removeReport_cons {s : State} {r : Report} {rest : List Report} (hr : s.rq.reports = r :: rest) :
    removeReport s = { s with
      rq.reports := rest
      rq.space := if s.rq.space = .waiting then .held else s.rq.space
      ti.serviceLine := s.cu.attention && !rest.isEmpty } := by
  rw [removeReport, hr]
  rfl

/-- Settles O26: each operation is the manager's, and RELEASE tests the report and the data word. -/
theorem relinquishAndReleaseGiveUpWhatTheyName : Obligations.RelinquishAndReleaseGiveUpWhatTheyName := by
  intro s m d hr hd hm
  have hrelease : exec (.release m d) s = .next (releaseReport d.word s) := by
    rw [exec_release s m d hr hd, serveOp_manager hm (.inr rfl), operate]
  rw [hrelease]
  refine ⟨fun hf => ?relinquish, fun he => ?empty, fun r rest he => ⟨fun hw => ?other, fun hw => ?named⟩⟩
  case relinquish =>
    rw [exec_relinquish s m d hr hd, serveOp_manager hm (.inl hf)]
    rfl
  case empty => rw [releaseReport_empty _ he]; rfl
  case other => rw [releaseReport_other he hw]; rfl
  case named => rw [releaseReport_named he hw, removeReport_cons he]; rfl

/-! ### ATTENTION (R145) -/

/-- 0 stands for off and 1 for on (R145). -/
theorem setAttention_bool (on : Bool) (s : State) :
    setAttention (if on then 1 else 0) s = answer (.done []) (driveLine { s with cu.attention := on }) := by
  cases on <;> rfl

theorem driveLine_of_lineFollows {s : State} (h : LineFollows s) : driveLine s = s := by
  rw [driveLine, ← h]

/-- The value it holds already changes nothing, since the line follows it (R145, R169). -/
theorem setAttention_held {s : State} (h : LineFollows s) :
    setAttention (if s.cu.attention then 1 else 0) s = answer (.done []) s :=
  (setAttention_bool s.cu.attention s).trans (congrArg (answer (.done [])) (driveLine_of_lineFollows h))

theorem setAttention_other {data : Word} (s : State) (h0 : data ≠ 0) (h1 : data ≠ 1) :
    setAttention data s = answer .refuse s := by
  rw [setAttention, if_neg h0, if_neg h1]

/-- Settles O27: the data word is 0, 1, or refused. -/
theorem attentionMovesTheServiceLine : Obligations.AttentionMovesTheServiceLine := by
  intro s m d hr hf hd hm
  rw [exec_attention s m d hr hd, serveOp_manager hm (.inl hf), operate]
  refine ⟨fun h => ?off, fun h => ?on, fun hline h => ?held,
    fun h0 h1 => congrArg Host.Outcome.next (setAttention_other s h0 h1)⟩
  case off => rw [h]; exact congrArg Host.Outcome.next (setAttention_bool false s)
  case on => rw [h]; exact congrArg Host.Outcome.next (setAttention_bool true s)
  case held => rw [h]; exact congrArg Host.Outcome.next (setAttention_held hline)

/-! ### REPORT HEAD (R144, R168, R186) -/

theorem ofBool_toNat (b : Bool) : (BitVec.ofBool b).toNat = bit b := by cases b <;> rfl

theorem bit_le (b : Bool) : bit b ≤ 1 := by cases b <;> decide

/-- Word 0 of a report: sequence number, kind, the three flags and the suppressed count, side by side (R186). -/
theorem reportWord0_eq (seq : BitVec 16) {kind : Nat} (suppressed : Nat) (master window addr : Bool) (hkind : kind < 32) :
    BitVec.ofNat 32 (seq.toNat + 2 ^ 16 * kind + 2 ^ 21 * bit master + 2 ^ 22 * bit window + 2 ^ 23 * bit addr +
        2 ^ 24 * suppressed) =
      BitVec.ofNat 8 suppressed ++ BitVec.ofBool addr ++ BitVec.ofBool window ++ BitVec.ofBool master ++
        BitVec.ofNat 5 kind ++ seq := by
  have := seq.isLt
  have := bit_le master
  have := bit_le window
  have := bit_le addr
  apply BitVec.eq_of_toNat_eq
  simp only [append_toNat, BitVec.toNat_ofNat, ofBool_toNat]
  omega

/-- Word 1 of a report: tag, status, master id and window id, side by side (R186). -/
theorem reportWord1_eq (tag : Tag) {status master window : Nat} (hstatus : status < 8) (hmaster : master < 16)
    (hwindow : window < 32) :
    BitVec.ofNat 32 (tag.toNat + 2 ^ 16 * status + 2 ^ 20 * master + 2 ^ 24 * window) =
      (0 : BitVec 3) ++ BitVec.ofNat 5 window ++ BitVec.ofNat 4 master ++ (0 : BitVec 1) ++ BitVec.ofNat 3 status ++ tag := by
  have := tag.isLt
  apply BitVec.eq_of_toNat_eq
  simp only [append_toNat, BitVec.toNat_ofNat, BitVec.ofNat_eq_ofNat]
  omega

/-- The EMPTY marker's word 0: kind code 0 and no flag (R168, R186). -/
theorem emptyWord0_eq (seq : BitVec 16) (suppressed : Nat) :
    BitVec.ofNat 32 (seq.toNat + 2 ^ 24 * suppressed) = BitVec.ofNat 8 suppressed ++ (0 : BitVec 8) ++ seq := by
  have := seq.isLt
  apply BitVec.eq_of_toNat_eq
  simp only [append_toNat, BitVec.toNat_ofNat, BitVec.ofNat_eq_ofNat]
  omega

/-- A kind's code is its place in R186's list, counted from 1. -/
theorem kindCode_eq (k : ReportKind) : kindCode k = ([.result, .resetNotice, .writeLost, .readFailed, .readAbandoned,
    .lockBroken, .violation, .masterBarred, .dataCheck, .windowFrozen, .windowFreed, .quiesced, .residentOverstay,
    .fault] : List ReportKind).idxOf k + 1 := by
  cases k <;> rfl

theorem kindCode_lt (k : ReportKind) : kindCode k < 32 := by cases k <;> decide

/-- A status's code is its place in R186's list, counted from 0. -/
theorem statusCode_eq (x : Status) :
    statusCode x = ([.ok, .already, .busy, .badOperand, .wrongState, .started] : List Status).idxOf x := by
  cases x <;> rfl

theorem statusCode_lt (x : Status) : statusCode x < 8 := by cases x <;> decide

theorem val_getD_lt {n : Nat} [NeZero n] (x : Option (Fin n)) : (x.map Fin.val).getD 0 < n := by
  cases x with
  | none => exact NeZero.pos n
  | some i => exact i.isLt

theorem tag_getD_toNat (x : Option Tag) : (x.map BitVec.toNat).getD 0 = (x.getD 0).toNat := by cases x <;> rfl

theorem statusField_lt (x : Option Status) : (x.map statusCode).getD 0 < 8 := by
  cases x with
  | none => exact Nat.succ_pos 7
  | some x => exact statusCode_lt x

/-- The four words of a stored report (R186). -/
theorem reportWords_eq (r : Report) : reportWords r =
    [BitVec.ofNat 8 r.suppressed ++ BitVec.ofBool r.body.addr.isSome ++ BitVec.ofBool r.body.window.isSome ++
        BitVec.ofBool r.body.master.isSome ++ BitVec.ofNat 5 (kindCode r.body.kind) ++ r.seq,
      (0 : BitVec 3) ++ BitVec.ofNat 5 ((r.body.window.map Fin.val).getD 0) ++
        BitVec.ofNat 4 ((r.body.master.map Fin.val).getD 0) ++ (0 : BitVec 1) ++
        BitVec.ofNat 3 ((r.body.status.map statusCode).getD 0) ++ r.body.tag.getD 0,
      r.body.addr.getD 0, r.body.detail] := by
  rw [reportWords, reportWord0_eq _ _ _ _ _ (kindCode_lt _), tag_getD_toNat,
    reportWord1_eq _ (statusField_lt _) (val_getD_lt _) (val_getD_lt _)]

/-- Settles O23: the words are those of the oldest report, or the EMPTY marker. -/
theorem reportHeadReturnsTheOldest : Obligations.ReportHeadReturnsTheOldest := by
  intro s m hr hm _
  rw [exec_reportHead s m hr, serveOp_manager hm (.inr rfl), operate]
  constructor
  · intro he
    have hwords : reportHeadWords s = emptyMarker s := by rw [reportHeadWords, he]
    rw [hwords, emptyMarker, emptyWord0_eq]
    rfl
  · intro r rest he kind status
    have hstatus : (r.body.status.map statusCode).getD 0 = status := by
      cases hx : r.body.status with
      | none => simp [status, hx]
      | some x => simp [status, hx, statusCode_eq]
    have hwords : reportHeadWords s = reportWords r := by rw [reportHeadWords, he]
    rw [hwords, reportWords_eq, hstatus, kindCode_eq]
    rfl

end Sys2Proof.ControlRecords
end

section
/-! Ordered records: their form, and the commands that set the timers and move the gate (R148 to R151, R157, R159, R160,
R176, R177, R185): O29, O38 and O40. -/

namespace Sys2Proof.ControlRecords

open Sys2Proof Sys2Proof.Machine Sys2Proof.Safety

/-! ### The form of a record (R148, R149, R185) -/

/-- The code of a command in bits 7:0 of word 0 (R185). -/
def commandCode : Command → BitVec 8
  | .loadWindow => 0x01
  | .retireWindow => 0x02
  | .modifyWindow => 0x03
  | .thawWindow => 0x04
  | .setMaster => 0x10
  | .setTimers => 0x11
  | .setArbitration => 0x12
  | .enable => 0x20
  | .quiesce => 0x21
  | .fence => 0x22

/-- The record table has one row for each command: its code and its used bits. -/
theorem mem_recordTable_iff (cmd : Command) (code : BitVec 8) (used : List Word) :
    (cmd, code, used) ∈ recordTable ↔ code = commandCode cmd ∧ used = usedBits cmd := by
  cases cmd <;> simp [recordTable, commandCode, usedBits]

theorem commandOfCode_eq_some {n : Nat} {cmd : Command} (h : commandOfCode n = some cmd) : n = (commandCode cmd).toNat := by
  unfold commandOfCode at h
  split_ifs at h <;> cases h <;> assumption

theorem commandOfCode_commandCode (cmd : Command) : commandOfCode (commandCode cmd).toNat = some cmd := by
  cases cmd <;> rfl

/-- The command field of word 0 names the command whose code it holds. -/
theorem recordCommand_iff (word0 : Word) (cmd : Command) :
    recordCommand word0 = some cmd ↔ word0.extractLsb' 0 8 = commandCode cmd := by
  rw [recordCommand, WindowTable.field_eq, ← BitVec.toNat_inj]
  exact ⟨commandOfCode_eq_some, fun h => h ▸ commandOfCode_commandCode cmd⟩

theorem usedBits_length (cmd : Command) : (usedBits cmd).length = operandWords cmd := by cases cmd <;> rfl

/-- The reserved bits of every operand word that has used bits of its own are 0. -/
theorem reservedClear_iff (used operands : List Word) :
    reservedClear used operands = true ↔ ∀ p ∈ operands.zip used, p.1 &&& ~~~p.2 = 0 := by
  induction used generalizing operands with
  | nil => simp [reservedClear]
  | cons u us ih =>
    cases operands with
    | nil => simp [reservedClear]
    | cons w ws => simp [reservedClear, ih]

/-- Conditions 1 to 3 of R149 on a record whose command is listed. -/
def FormPasses (word0 : Word) (operands : List Word) (cmd : Command) : Prop :=
  recordLength word0 = operandWords cmd ∧ operands.length = operandWords cmd ∧ field word0 28 4 = 0 ∧
    reservedClear (usedBits cmd) operands = true

/-- A record makes an entry exactly where its form passes, and the entry's fields are the record's (R149, R150). -/
theorem recordEntry_iff (m : MasterId) (word0 : Word) (operands : List Word) (c : ControlEntry) :
    recordEntry m (word0 :: operands) = some c ↔
      recordCommand word0 = some c.command ∧ FormPasses word0 operands c.command ∧
        c.tag = recordTag word0 ∧ c.operands = operands ∧ c.writer = m := by
  obtain ⟨cmd, tag, ops, writer⟩ := c
  unfold FormPasses
  rw [recordEntry]
  cases recordCommand word0 with
  | none => simp
  | some named =>
    simp only [Bool.and_eq_true, decide_eq_true_eq, and_assoc, Option.ite_none_right_eq_some, Option.some.injEq,
      ControlEntry.mk.injEq]
    constructor
    · rintro ⟨hlength, hcount, hbits, hclear, rfl, rfl, rfl, rfl⟩
      exact ⟨rfl, hlength, hcount, hbits, hclear, rfl, rfl, rfl⟩
    · rintro ⟨rfl, hlength, hcount, hbits, hclear, rfl, rfl, rfl⟩
      exact ⟨hlength, hcount, hbits, hclear, rfl, rfl, rfl, rfl⟩

/-- The form test in the terms of the record table (R149, R185). -/
theorem formPasses_iff (word0 : Word) (operands : List Word) (cmd : Command) :
    FormPasses word0 operands cmd ↔
      (word0.extractLsb' 24 4).toNat = operands.length ∧ word0.extractLsb' 28 4 = 0 ∧
        operands.length = (usedBits cmd).length ∧ ∀ p ∈ operands.zip (usedBits cmd), p.1 &&& ~~~p.2 = 0 := by
  have hbits : (word0.extractLsb' 28 4).toNat = 0 ↔ word0.extractLsb' 28 4 = 0 := BitVec.toNat_inj (y := 0)
  unfold FormPasses recordLength
  rw [usedBits_length, reservedClear_iff, WindowTable.field_eq, WindowTable.field_eq, hbits]
  constructor
  · rintro ⟨hlength, hcount, hzero, hclear⟩
    exact ⟨hlength.trans hcount.symm, hzero, hcount, hclear⟩
  · rintro ⟨hlength, hzero, hcount, hclear⟩
    exact ⟨hlength.trans hcount, hcount, hzero, hclear⟩

/-- Settles O29: the command's row of the table is the one its code names. -/
theorem recordsAreTestedForTheirForm : Obligations.RecordsAreTestedForTheirForm := by
  intro m word0 operands c
  have htag : recordTag word0 = word0.extractLsb' 8 16 := WindowTable.ofNat_field word0 8 16
  rw [recordEntry_iff, recordCommand_iff, formPasses_iff, htag]
  simp only [mem_recordTable_iff]
  constructor
  · rintro ⟨hcommand, ⟨hlength, hzero, hcount, hclear⟩, ht, ho, hw⟩
    exact ⟨ht, ho, hw, hlength, hzero, _, ⟨hcommand, rfl⟩, hcount, hclear⟩
  · rintro ⟨ht, ho, hw, hlength, hzero, _, ⟨hcommand, rfl⟩, hcount, hclear⟩
    exact ⟨hcommand, ⟨hlength, hzero, hcount, hclear⟩, ht, ho, hw⟩

/-! ### SET TIMERS (R138, R157) -/

/-- Settles O38: limits in range pass the operand test, and are written. -/
theorem setTimersWritesFourLimits : Obligations.SetTimersWritesFourLimits := by
  intro s c rest a b hx hc readHold lockHold cardResponse tenure hr8 hr4096 hl4 hl1024 hc1 hc255 ht1023
  refine ⟨_, rfl, WindowTable.executeHead_settlesTo hx ?_ rfl rfl⟩
  have h1 : operand c 1 = a := by rw [operand, hc]; rfl
  have h2 : operand c 2 = b := by rw [operand, hc]; rfl
  unfold doSetTimers
  simp only [h1, h2, WindowTable.field_eq]
  refine if_pos ?_
  simp only [Bool.and_eq_true, decide_eq_true_eq]
  exact ⟨⟨⟨⟨⟨⟨hr8, hr4096⟩, hl4⟩, hl1024⟩, hc1⟩, hc255⟩, ht1023⟩

/-! ### ENABLE and QUIESCE (R159, R160, R176, R177) -/

/-- Behind a record at the head stand all the data entries of the queue. -/
theorem dataCount_atHead {cmd : Command} {c : ControlEntry} {rest : List Entry} {s : State} (h : AtHead cmd c rest s) :
    dataCount s = rest.countP isData := by
  rw [dataCount, h.entries]
  rfl

theorem slotsInUse_eq (s : State) : slotsInUse s = (List.finRange 8).countP fun i => s.slots[i].state ≠ .free := by
  rw [slotsInUse, countTable_eq]
  exact List.countP_congr fun i _ => by simp

theorem quiesceConditions_iff (s : State) :
    quiesceConditions s = true ↔ dataCount s = 0 ∧ slotsInUse s = 0 ∧ s.lock.state = .free := by
  simp [quiesceConditions, and_assoc]

theorem doEnable_standby {s : State} (c : ControlEntry) (h : s.gsc.state = .standby) :
    doEnable c s = ⟨.ok, 0, { s with gsc := ⟨.enabled, .none, none⟩ }⟩ := by
  rw [doEnable, h]

theorem doEnable_quiescing {s : State} (c : ControlEntry) (h : s.gsc.state = .quiescing) :
    doEnable c s = ⟨.ok, 1, { s with gsc := ⟨.enabled, .none, none⟩ }⟩ := by
  rw [doEnable, h]

theorem doEnable_enabled {s : State} (c : ControlEntry) (h : s.gsc.state = .enabled) :
    doEnable c s = noChange .already s := by
  rw [doEnable, h]

theorem doQuiesce_empty {s : State} (c : ControlEntry) (h : s.gsc.state = .enabled) (hq : quiesceConditions s = true) :
    doQuiesce c s = ⟨.ok, 0, { s with gsc := ⟨.standby, .none, none⟩ }⟩ := by
  rw [doQuiesce, h]
  exact if_pos hq

theorem doQuiesce_starts {s : State} (c : ControlEntry) (h : s.gsc.state = .enabled) (hq : ¬quiesceConditions s = true) :
    doQuiesce c s = ⟨.started, quiesceDetail s, { s with gsc := ⟨.quiescing, .none, some c.tag⟩ }⟩ := by
  rw [doQuiesce, h]
  exact if_neg hq

theorem doQuiesce_already {s : State} (c : ControlEntry) (h : s.gsc.state ≠ .enabled) :
    doQuiesce c s = noChange .already s := by
  unfold doQuiesce
  split
  next he => exact absurd he h
  next => rfl

/-- Settles O40: each gate state takes its own branch of the command, which writes the gate's record alone. -/
theorem enableAndQuiesceMoveTheGate : Obligations.EnableAndQuiesceMoveTheGate := by
  intro s c rest becomes
  have hb {cmd : Command} {act : ControlEntry → State → Execution} {status : Status} {detail : Nat}
      {gate : GateController} (hx : AtHead cmd c rest s) (ha : act c s = ⟨status, detail, { s with gsc := gate }⟩) :
      SettlesTo (afterResult c rest status detail { s with gsc := gate }) (executeHead cmd act s) :=
    WindowTable.executeHead_settlesTo hx ha rfl rfl
  constructor
  · intro hx
    exact ⟨fun h => ⟨_, rfl, hb hx (doEnable_standby c h)⟩, fun h => ⟨_, rfl, hb hx (doEnable_enabled c h)⟩,
      fun h => ⟨_, rfl, hb hx (doEnable_quiescing c h)⟩⟩
  · intro hx slotsUsed lockBits
    have hconditions : quiesceConditions s = true ↔ rest.countP isData = 0 ∧ slotsUsed = 0 ∧ s.lock.state = .free := by
      rw [quiesceConditions_iff, dataCount_atHead hx, slotsInUse_eq]
    have hlock : lockCode s.lock.state = lockBits := by
      simp only [lockBits]
      cases s.lock.state <;> rfl
    have hdetail : quiesceDetail s = rest.countP isData + 256 * slotsUsed + 4096 * lockBits := by
      rw [quiesceDetail, dataCount_atHead hx, slotsInUse_eq, hlock]
      rfl
    rw [← hconditions, ← hdetail]
    exact ⟨fun h => ⟨fun hq => ⟨_, rfl, hb hx (doQuiesce_empty c h hq)⟩,
        fun hq => ⟨_, rfl, hb hx (doQuiesce_starts c h hq)⟩⟩,
      fun h => ⟨_, rfl, hb hx (doQuiesce_already c h)⟩⟩

end Sys2Proof.ControlRecords
end

section
/-! The laws of the report queue and the service line (R163, R165, R166, R167, R169) under each operation that touches them,
and under the gate's internal work. -/

namespace Sys2Proof.Reports

-- One proof after the other: the text is compiled as one file, within a limit on memory that each thread draws on.
set_option Elab.async false

open Sys2Proof Sys2Proof.Machine Sys2Proof.Safety Sys2Proof.WindowTable

/-! ### Operations that do nothing to the report queue but offer reports -/

/-- One turn of an operation that at most offers reports. -/
inductive Offer : State → State → Prop where
  | quiet {s t : State} : t.rq = s.rq → t.cu.attention = s.cu.attention → t.ti.serviceLine = s.ti.serviceLine →
      Offer s t
  | offers (s : State) (b : ReportBody) : Offer s (offerReport b s)

/-- An operation that at most offers reports: it stores no RESULT, asks for no place and gives none up. -/
abbrev Offers : State → State → Prop := Relation.ReflTransGen Offer

theorem quiet_offers {s t : State} (hr : t.rq = s.rq := by simp) (ha : t.cu.attention = s.cu.attention := by simp)
    (hl : t.ti.serviceLine = s.ti.serviceLine := by simp) : Offers s t := .single (.quiet hr ha hl)

/-- A report offered after a change of other blocks. -/
theorem offers_after {s t : State} (b : ReportBody) (hr : t.rq = s.rq := by simp)
    (ha : t.cu.attention = s.cu.attention := by simp) (hl : t.ti.serviceLine = s.ti.serviceLine := by simp) :
    Offers s (offerReport b t) := (quiet_offers hr ha hl).tail (.offers t b)

theorem Offers.space {s t : State} (h : Offers s t) : t.rq.space = s.rq.space := by
  induction h with
  | refl => rfl
  | tail _ h ih =>
    cases h with
    | quiet hr _ _ => rw [hr, ih]
    | offers b => rw [offerReport_rq_space, ih]

theorem breakLock_offers (c : BreakCause) (s : State) : Offers s (breakLock c s) := by
  unfold breakLock
  split
  · dsimp only
    refine offers_after _ ?_ ?_ ?_
    · split <;> simp
    · split <;> simp
    · split <;> simp
  · exact .refl

theorem freeIfDrained_offers (s : State) (w : WindowId) : Offers s (freeIfDrained s w) := by
  unfold freeIfDrained
  split
  · exact offers_after _ rfl rfl rfl
  · exact .refl

theorem freeDrainedWindows_offers (s : State) : Offers s (freeDrainedWindows s) := foldl_steps _ freeIfDrained_offers _ s

theorem testQuiesce_offers (s : State) : Offers s (testQuiesce s) := by
  unfold testQuiesce
  split
  · exact offers_after _ rfl rfl rfl
  · exact .refl

/-- What the execution of a withdrawal ends with (R15, R177). -/
theorem withdrawals_offers (s : State) : Offers s (testQuiesce (freeDrainedWindows s)) :=
  (freeDrainedWindows_offers s).trans (testQuiesce_offers _)

theorem withdrawSlots_offers (p : Slot → Bool) (s : State) : Offers s (withdrawSlots p s) :=
  foldl_steps _ (fun s i => by
    split
    · exact quiet_offers
    · exact .refl) _ s

theorem writeSettings_offers (policy : ParkPolicy) (highWater : Nat) (enabled : PortSet) (s : State) :
    Offers s (writeSettings policy highWater enabled s) := by
  unfold writeSettings
  obtain ⟨_, _, _, _, _, h⟩ := settingsTakeEffect_shape s.arb.enabled
    { s with arb.policy := policy, arb.highWater := highWater, arb.enabled := enabled }
  rw [h]
  exact quiet_offers rfl rfl rfl

/-! ### The report queue (R165 to R169) -/

theorem heldPlaces_le (s : State) : heldPlaces s ≤ 1 := by
  unfold heldPlaces
  split
  · exact Nat.le_refl 1
  · exact Nat.zero_le 1

/-- The laws of the report queue and the service line, together. -/
structure ReportLaws (s : State) : Prop where
  fit : ReportsFit s
  consecutive : ReportsConsecutive s
  waiting : WaitingMeansFull s
  line : LineFollows s

/-- A sequence number is as far behind the next one as it was, after both have risen by one. -/
theorem seq_behind (next : Tag) {n i : Nat} (h : i ≤ n) :
    next + 1 - BitVec.ofNat 16 (n + 1 - i) = next - BitVec.ofNat 16 (n - i) := by
  rw [show n + 1 - i = n - i + 1 by omega, BitVec.ofNat_add]
  bv_omega

theorem stored_consecutive {s : State} (b : ReportBody) (h : ReportsConsecutive s) :
    ReportsConsecutive (storeReport b s) := by
  have hr : (storeReport b s).rq.reports = s.rq.reports ++ [⟨s.rq.nextSeq, s.rq.suppressed, b⟩] := rfl
  have hn : (storeReport b s).rq.nextSeq = s.rq.nextSeq + 1 := rfl
  unfold ReportsConsecutive at h ⊢
  rw [hr, hn, List.map_append, h, List.length_append, List.length_singleton, List.range_succ, List.map_append]
  congr 1
  · exact List.map_congr_left fun i hi => (seq_behind _ (List.mem_range.1 hi).le).symm
  · simp

theorem removed_consecutive {s t : State} {r : Report} (hr : s.rq.reports = r :: t.rq.reports)
    (hn : t.rq.nextSeq = s.rq.nextSeq) (h : ReportsConsecutive s) : ReportsConsecutive t := by
  unfold ReportsConsecutive at h ⊢
  rw [hr, List.map_cons, List.length_cons, List.range_succ_eq_map, List.map_cons, List.map_map] at h
  rw [(List.cons.inj h).2, hn]
  exact List.map_congr_left fun i _ => by simp

namespace ReportLaws

variable {s t : State}

/-- A change of other blocks alone. -/
theorem same (h : ReportLaws s) (hr : t.rq = s.rq := by simp) (ha : t.cu.attention = s.cu.attention := by simp)
    (hl : t.ti.serviceLine = s.ti.serviceLine := by simp) : ReportLaws t := by
  obtain ⟨hf, hc, hw, hline⟩ := h
  constructor
  · unfold ReportsFit heldPlaces; rw [hr]; exact hf
  · unfold ReportsConsecutive; rw [hr]; exact hc
  · unfold WaitingMeansFull; rw [hr]; exact hw
  · unfold LineFollows; rw [hr, ha, hl]; exact hline

/-- Whatever has become of the line and of attention, a line that is driven follows (R169). -/
theorem driven (h : ReportLaws s) (hr : t.rq = s.rq := by rfl) : ReportLaws (driveLine t) := by
  obtain ⟨hf, hc, hw, -⟩ := h
  refine ⟨?_, ?_, ?_, rfl⟩
  · unfold ReportsFit heldPlaces; rw [driveLine_rq, hr]; exact hf
  · unfold ReportsConsecutive; rw [driveLine_rq, hr]; exact hc
  · unfold WaitingMeansFull; rw [driveLine_rq, hr]; exact hw

/-- A report is stored where a place is free (R165). -/
theorem stored (b : ReportBody) (h : ReportLaws s) (hroom : s.rq.reports.length + heldPlaces s < Config.reportPlaces) :
    ReportLaws (storeReport b s) := by
  obtain ⟨⟨-, hsup, hall⟩, hc, hw, -⟩ := h
  refine ⟨⟨?_, Nat.zero_le _, fun r hr => ?_⟩, stored_consecutive b hc, fun hwait => ?_, rfl⟩
  · change (s.rq.reports ++ [_]).length + heldPlaces s ≤ _
    rw [List.length_append, List.length_singleton]
    omega
  · obtain hr | hr := List.mem_append.1 hr
    · exact hall r hr
    · rw [List.mem_singleton.1 hr]; exact hsup
  · have := hw hwait
    omega

/-- A report that finds no place is counted, up to 255 (R166). -/
theorem reported (b : ReportBody) (h : ReportLaws s) : ReportLaws (offerReport b s) := by
  unfold offerReport
  split
  · next hfree =>
    refine h.stored b ?_
    unfold freePlaces at hfree
    unfold heldPlaces
    omega
  · obtain ⟨⟨hplaces, -, hall⟩, hc, hw, hl⟩ := h
    exact ⟨⟨hplaces, Nat.min_le_left _ _, hall⟩, hc, hw, hl⟩

theorem offers (h : ReportLaws s) (ho : Offers s t) : ReportLaws t := by
  induction ho with
  | refl => exact h
  | tail _ ho ih =>
    cases ho with
    | quiet hr ha hl => exact ih.same hr ha hl
    | offers b => exact ih.reported b

/-- A space request may become HELD where a place is free, WAITING where none is, and NONE at any time (R167). -/
theorem request (h : ReportLaws s) (space : SpaceRequest)
    (hheld : space = .held → s.rq.reports.length < Config.reportPlaces)
    (hwait : space = .waiting → s.rq.reports.length = Config.reportPlaces) :
    ReportLaws { s with rq.space := space } := by
  obtain ⟨⟨hplaces, hrest⟩, hc, -, hl⟩ := h
  refine ⟨⟨?_, hrest⟩, hc, hwait, hl⟩
  change s.rq.reports.length + (if space = .held then 1 else 0) ≤ _
  split
  · next hs => exact hheld hs
  · omega

theorem withdrawn (h : ReportLaws s) : ReportLaws { s with rq.space := .none } := h.request .none nofun nofun

theorem asked (h : ReportLaws s) : ReportLaws (askForPlace s) := by
  have hplaces := h.fit.1
  unfold askForPlace
  split
  · split
    · next hnone =>
      have hfree : freePlaces s = Config.reportPlaces - s.rq.reports.length := by simp [freePlaces, hnone]
      rw [hfree]
      split
      · exact h.request .held (fun _ => by omega) nofun
      · exact h.request .waiting nofun fun _ => by omega
    · exact h
  · exact h

/-- The RESULT takes the place that was held for it (R166, R167). -/
theorem resultStored (b : ReportBody) (hheld : s.rq.space = .held) (h : ReportLaws s) : ReportLaws (storeResult b s) := by
  refine h.withdrawn.stored b ?_
  have := h.fit.1
  rw [heldPlaces, if_pos hheld] at this
  change s.rq.reports.length + 0 < _
  omega

/-- The place of the report that is removed goes to a WAITING request (R168). -/
theorem reportRemoved {r : Report} {rest : List Report} (hr : s.rq.reports = r :: rest) (h : ReportLaws s) :
    ReportLaws (removeReport s) := by
  obtain ⟨⟨hplaces, hsup, hall⟩, hc, -, -⟩ := h
  rw [ControlRecords.removeReport_cons hr]
  refine ⟨⟨?_, hsup, fun x hx => hall x (hr ▸ List.mem_cons_of_mem r hx)⟩, removed_consecutive hr rfl hc, ?_, rfl⟩
  · rw [hr, List.length_cons] at hplaces
    exact (Nat.add_le_add_left (heldPlaces_le _) rest.length).trans (by omega)
  · intro hw
    dsimp only at hw
    split at hw
    · cases hw
    · contradiction

/-! ### The gate's internal work -/

theorem act (h : ReportLaws s) (ha : Act s t) : ReportLaws t := by
  cases ha with
  | reports b => exact h.reported b
  | frees w => exact h.offers (freeIfDrained_offers s w)
  | breaks c _ => exact h.offers (breakLock_offers c s)
  | quiesces => exact h.offers (testQuiesce_offers s)
  | asks => exact h.asked
  | empties => rw [emptyQueue_eq]; exact h.withdrawn.same rfl rfl rfl
  | leaves _ => exact h.same (removeHead_rq s) (by rw [(removeHead_kept s).cu]) (by unfold removeHead; split <;> simp)
  | accesses a => exact h.same rfl rfl rfl
  | changesSlot i f _ _ _ _ => exact h.same rfl rfl rfl
  | freezes d rest _ _ => exact h.same rfl rfl rfl
  | owns _ => exact h.same rfl rfl rfl
  -- The other operations are of blocks that no report law looks at.
  | _ => exact h.same

theorem work (h : ReportLaws s) (hw : Work s t) : ReportLaws t := by
  induction hw with
  | refl => exact h
  | tail _ ha ih => exact ih.act ha

theorem settle (h : ReportLaws s) : ReportLaws (settle s) := h.work (settle_work s)

theorem answered (a : Answer) (h : ReportLaws s) : ReportLaws (answer a s) := h.same rfl rfl rfl

end ReportLaws

end Sys2Proof.Reports
end

section
/-! Every command keeps the laws of the report queue and the service line (R163, R165, R166, R167, R169): O55. -/

namespace Sys2Proof.Reports

-- One proof after the other: the text is compiled as one file, within a limit on memory that each thread draws on.
set_option Elab.async false

open Sys2Proof Sys2Proof.Machine Sys2Proof.Safety Sys2Proof.WindowTable

/-! ### Window transactions -/

section

variable {s : State}

theorem chargeViolation_offers (c : ViolationCause) (w : WindowId) (t : Txn) (s : State) :
    Offers s (chargeViolation c w t s) := by
  have threshold (x : State) : Offers x (applyThreshold c w t x) := by
    unfold applyThreshold
    split
    · exact offers_after _ rfl rfl rfl
    · exact .refl
  have counted : Offers s (countViolation t.master s) := quiet_offers rfl rfl rfl
  unfold chargeViolation
  dsimp only
  split
  · exact (counted.tail (.offers _ _)).trans (threshold _)
  · exact counted.trans (threshold _)

theorem clearNoteIf_reportLaws (clear : Bool) (m : MasterId) (h : ReportLaws s) : ReportLaws (clearNoteIf clear m s) := by
  cases clear with
  | false => exact h
  | true => exact h.same rfl rfl rfl

theorem writeStep_reportLaws (w : WindowId) (t : Txn) (beats : List Beat) (h : ReportLaws s) :
    ReportLaws (writeStep w t beats s) := by
  have closing {x : State} (hx : ReportLaws x) : ReportLaws (noteClosing t x) := by
    unfold noteClosing
    split
    · exact hx.same rfl rfl rfl
    · exact hx
  unfold writeStep
  split
  · exact (h.reported _).answered _
  · split
    · exact (closing (h.same (t := appendData (entryOf s w t beats) s))).settle.answered _
    · exact h.answered _

theorem collectSlot_reportLaws (i : SlotId) (h : ReportLaws s) : ReportLaws (collectSlot i s) := by
  unfold collectSlot
  dsimp only
  split
  · exact (h.same (t := { s with lock.slot := none }) rfl rfl rfl).act (.freesSlot _ i)
  · exact h.act (.freesSlot s i)

theorem faultGate_reportLaws (c : FaultCause) (h : ReportLaws s) : ReportLaws (faultGate c s) :=
  (h.same (t := becomeFaulted c s) rfl rfl rfl).work (faultGate_work c s)

theorem returnTo_reportLaws (i : SlotId) (h : ReportLaws s) : ReportLaws (returnTo i s) := by
  have freed : ReportLaws (freeSlot i s) := h.act (.freesSlot s i)
  unfold returnTo
  split
  · unfold returnReady
    dsimp only
    split
    · exact (collectSlot_reportLaws i h).settle.answered _
    · exact ((faultGate_reportLaws _ h).work (endStoppedAccess_work _)).settle.answered _
  · exact freed.settle.answered _
  · unfold returnStale
    split
    · exact (h.same (t := restartSlot i s) rfl rfl rfl).settle.answered _
    · exact freed.settle.answered _
    · exact h.answered _
  · exact h.answered _

theorem newRead_reportLaws (w : WindowId) (t : Txn) (h : ReportLaws s) : ReportLaws (newRead w t s) := by
  have allocated (i : SlotId) : ReportLaws (allocateSlot i w t s) := by
    unfold allocateSlot openLockOn
    split
    · exact h.same rfl rfl rfl
    · exact h.same rfl rfl rfl
  unfold newRead
  split
  · split
    · exact (allocated _).settle.answered _
    · exact h.answered _
  · exact h.answered _

theorem lastStep_reportLaws (w : WindowId) (t : Txn) (h : ReportLaws s) : ReportLaws (lastStep w t s) := by
  unfold lastStep readStep
  split
  · split
    · exact returnTo_reportLaws _ h
    · exact newRead_reportLaws w t h
  · exact writeStep_reportLaws w t _ h

theorem claimedTxn_reportLaws (w : WindowId) (t : Txn) (h : ReportLaws s) : ReportLaws (claimedTxn w t s) := by
  have charged (c : ViolationCause) : ReportLaws (answer .refuse (chargeViolation c w t s)) :=
    (h.offers (chargeViolation_offers c w t s)).answered _
  unfold claimedTxn
  split
  · exact h.answered _
  split
  · exact h.answered _
  split
  · exact charged _
  split
  · exact h.answered _
  split
  · exact charged _
  split
  · exact charged _
  split
  · exact h.answered _
  · unfold lockAndLastStep
    split
    · exact (clearNoteIf_reportLaws _ _ h).answered _
    · exact (clearNoteIf_reportLaws _ _ h).answered _
    · exact lastStep_reportLaws w t (clearNoteIf_reportLaws _ _ h)

/-! ### Resets -/

/-- CLEAR turns attention off and drives the line (R147, R162, R169). -/
theorem clearConfiguration_reportLaws (h : ReportLaws s) : ReportLaws (clearConfiguration s) := by
  have cleared : ReportLaws { clearWindows s with masters := mapTable (clearWindows s).masters defaultMaster } :=
    h.same rfl rfl rfl
  exact (cleared.offers (writeSettings_offers _ _ _ _)).driven

/-- Every slot is freed and the lock ended (R70, R87), and the notes are cleared (R76). -/
theorem lockReset_reportLaws (held : Bool) (h : ReportLaws s) :
    ReportLaws (clearNotes (endIdleTenure held (releaseHold (breakLock .reset (freeAllSlots s))))) :=
  ReportLaws.same (h.work ((((freeAllSlots_work s).trans (breakLock_work .reset _)).tail (.releases _)).trans
    (endIdleTenure_work held _)))

theorem gateReset_reportLaws (clear : Bool) (h : ReportLaws s) : ReportLaws (gateReset clear s) := by
  have emptied : ReportLaws (emptyQueue (markStop { s with gsc := ⟨.standby, .none, none⟩ })) :=
    (h.same (t := markStop { s with gsc := ⟨.standby, .none, none⟩ }) rfl rfl rfl).act (.empties _)
  have notice {x : State} (b : ReportBody) (hx : ReportLaws x) :
      ReportLaws (settle (endStoppedAccess (offerReport b x))) :=
    ((hx.reported b).work (endStoppedAccess_work _)).settle
  cases clear with
  | false => exact notice _ (lockReset_reportLaws _ emptied)
  | true => exact notice _ (clearConfiguration_reportLaws (lockReset_reportLaws _ emptied))

theorem trunkReset_reportLaws (h : ReportLaws s) : ReportLaws (trunkReset s) := by
  have detached : ReportLaws (detachFetch { s with gsc := trunkResetState s.gsc }) := h.same rfl rfl rfl
  have dropped {x : State} (hx : ReportLaws x) : ReportLaws (dropManager x) := hx.driven
  exact (((dropped (lockReset_reportLaws _ detached)).reported _).work (endStoppedAccess_work _)).settle

theorem assertPowerOn_reportLaws (lines : BitVec 4) (s : State) : ReportLaws (assertPowerOn lines s) :=
  ⟨⟨Nat.zero_le 16, Nat.zero_le 255, fun _ hr => absurd hr List.not_mem_nil⟩, rfl, nofun, rfl⟩

/-- The stored reports outlast a card reset; the space request and attention do not (R172). -/
theorem assertCard_reportLaws (lines : BitVec 4) (h : ReportLaws s) : ReportLaws (assertCard lines s) := by
  obtain ⟨hf, hc, hw, -⟩ := h.withdrawn
  exact ⟨hf, hc, hw, rfl⟩

theorem takeArrivals_reportLaws (h : ReportLaws s) : ReportLaws (takeArrivals s) := by
  have arrival (x : State) (p : Port) (hx : ReportLaws x) : ReportLaws (takeArrival x p) :=
    hx.same (by simp [takeArrival]) (by simp [takeArrival]) (by simp [takeArrival])
  have lowered : ReportLaws { s with lines.request := ⟨false, false, false⟩ } := h.same rfl rfl rfl
  unfold takeArrivals
  dsimp only
  split
  · exact Scope.Closed.foldl _ arrival _ lowered
  · exact (Scope.Closed.foldl (P := ReportLaws) _ arrival _ lowered).act (.chooses _)

theorem leaveReset_reportLaws (lines : BitVec 4) (kind : ResetKind) (data control : Nat) (h : ReportLaws s) :
    ReportLaws (leaveReset lines kind data control s) := by
  obtain ⟨hf, hc, hw, hl⟩ := h
  exact takeArrivals_reportLaws (ReportLaws.reported _ ⟨hf, hc, hw, hl⟩)

theorem releasePowerOn_reportLaws (lines : BitVec 4) (h : ReportLaws s) : ReportLaws (releasePowerOn lines s) := by
  unfold releasePowerOn
  split
  · exact h.same rfl rfl rfl
  · exact leaveReset_reportLaws _ _ _ _ (h.same rfl rfl rfl)

theorem releaseCard_reportLaws (lines : BitVec 4) (h : ReportLaws s) : ReportLaws (releaseCard lines s) := by
  unfold releaseCard
  split
  · exact h.same rfl rfl rfl
  · exact leaveReset_reportLaws _ _ _ _ (h.same rfl rfl rfl)

/-! ### The control region -/

theorem claimRole_reportLaws (m : MasterId) (data : Word) (h : ReportLaws s) : ReportLaws (claimRole m data s) := by
  unfold claimRole
  split
  · exact h.answered _
  · split
    · exact h.same rfl rfl rfl
    · split
      · exact h.answered _
      · exact h.answered _

theorem releaseReport_reportLaws (data : Word) (h : ReportLaws s) : ReportLaws (releaseReport data s) := by
  unfold releaseReport
  split
  · exact h.answered _
  · next hr =>
    split
    · exact (h.reportRemoved hr).answered _
    · exact h.answered _

theorem setAttention_reportLaws (data : Word) (h : ReportLaws s) : ReportLaws (setAttention data s) := by
  unfold setAttention
  split
  · exact h.driven.answered _
  · split
    · exact h.driven.answered _
    · exact h.answered _

theorem resetGateWord_reportLaws (data : Word) (h : ReportLaws s) : ReportLaws (resetGateWord data s) := by
  unfold resetGateWord
  split
  · exact (gateReset_reportLaws _ h).answered _
  · split
    · exact (gateReset_reportLaws _ h).answered _
    · exact h.answered _

theorem takeRecord_reportLaws (m : MasterId) (words : List Word) (h : ReportLaws s) :
    ReportLaws (takeRecord m words s) := by
  unfold takeRecord
  split
  · exact h.answered _
  · split
    · exact (h.same (t := appendControl _ s)).settle.answered _
    · exact h.answered _

theorem operate_reportLaws (m : MasterId) (op : ControlOp) (h : ReportLaws s) : ReportLaws (operate m op s) := by
  cases op with
  | claim data => exact claimRole_reportLaws m data h
  | release data => exact releaseReport_reportLaws data h
  | attention data => exact setAttention_reportLaws data h
  | resetGate data => exact resetGateWord_reportLaws data h
  | intake words => exact takeRecord_reportLaws m words h
  | _ => exact h.same rfl rfl rfl

theorem controlTxn_reportLaws (t : Txn) (h : ReportLaws s) : ReportLaws (controlTxn t s) := by
  unfold controlTxn refuseDamaged serveOp
  split
  · exact (h.reported _).answered _
  · split
    · exact h.answered _
    · split
      · exact h.answered _
      · exact operate_reportLaws _ _ h

theorem trunkTxn_reportLaws (t : Txn) (h : ReportLaws s) : ReportLaws (trunkTxn t s) := by
  unfold trunkTxn windowTxn
  split
  · exact h.answered _
  · split
    · exact controlTxn_reportLaws t h
    · split
      · exact h.answered _
      · exact claimedTxn_reportLaws _ t h

/-! ### Ordered commands -/

/-- A command at the head of the queue at most offers reports before its RESULT, so the place is still held for it. -/
theorem executeHead_reportLaws (cmd : Command) (act : ControlEntry → State → Execution)
    (hact : ∀ c, Offers s (act c s).state) (h : ReportLaws s) : ReportLaws (executeHead cmd act s) := by
  unfold executeHead
  split
  · exact h
  · next c hc =>
    obtain ⟨rest, hhead⟩ := PostedWrites.entryToExecute_some hc
    have hheld : (act c s).state.rq.space = .held := (hact c).space.trans hhead.place
    have hresult := (h.offers (hact c)).resultStored (resultBody c (act c s).status (act c s).detail) hheld
    have hremoved := hresult.act (.leaves _ (.inr rfl))
    exact ((hremoved.work (leaveDeadHeads_work _)).work (endIdleTenure_work _ _)).settle

end

section

variable (c : ControlEntry) (s : State)

theorem doLoadWindow_offers : Offers s (doLoadWindow c s).state := by
  unfold doLoadWindow
  split
  · exact .refl
  · split
    · exact quiet_offers rfl rfl rfl
    · exact .refl

theorem doRetireWindow_offers : Offers s (doRetireWindow c s).state := by
  have broken (w : WindowId) (x : State) : Offers x (breakIfOnWindow w x) := by
    unfold breakIfOnWindow
    split
    · exact breakLock_offers _ x
    · exact .refl
  have freed (w : WindowId) (x : State) : Offers x (freeAtOnce w x) := by
    unfold freeAtOnce
    split
    · exact quiet_offers rfl rfl rfl
    · exact .refl
  have retired (w : WindowId) : Offers s (retireLive w c.tag s) := by
    have drained : Offers s (drainWindow w c.tag s) := quiet_offers rfl rfl rfl
    exact ((drained.trans (broken w _)).trans (withdrawSlots_offers _ _)).trans (freed w _)
  unfold doRetireWindow
  split
  · exact .refl
  · split
    · dsimp only
      exact (retired _).trans (withdrawals_offers _)
    · exact .refl

theorem doModifyWindow_offers : Offers s (doModifyWindow c s).state := by
  unfold doModifyWindow
  split
  · split
    · exact quiet_offers rfl rfl rfl
    · exact .refl
  · exact .refl

theorem doThawWindow_offers : Offers s (doThawWindow c s).state := by
  unfold doThawWindow
  split
  · exact .refl
  · split
    · exact .refl
    · split
      · exact quiet_offers rfl rfl rfl
      · exact .refl

theorem doSetMaster_offers : Offers s (doSetMaster c s).state := by
  have withdrawn (m : MasterId) (x : State) : Offers x (withdrawMaster m x) := by
    unfold withdrawMaster breakIfOwner
    split
    · exact (breakLock_offers _ x).trans (withdrawSlots_offers _ _)
    · exact withdrawSlots_offers _ x
  unfold doSetMaster
  split
  · exact .refl
  · next o _ =>
    have written : Offers s { s with masters := modAt s.masters o.master (writtenMaster o) } := quiet_offers rfl rfl rfl
    dsimp only
    split
    · exact written
    · dsimp only
      exact (written.trans (withdrawn _ _)).trans (withdrawals_offers _)

theorem doSetTimers_offers : Offers s (doSetTimers c s).state := by
  unfold doSetTimers
  dsimp only
  split
  · exact quiet_offers rfl rfl rfl
  · exact .refl

theorem doSetArbitration_offers : Offers s (doSetArbitration c s).state := by
  unfold doSetArbitration
  dsimp only
  split
  · exact .refl
  · split
    · exact writeSettings_offers _ _ _ s
    · exact .refl

theorem doEnable_offers : Offers s (doEnable c s).state := by
  unfold doEnable
  split
  · exact quiet_offers rfl rfl rfl
  · exact quiet_offers rfl rfl rfl
  · exact .refl

theorem doQuiesce_offers : Offers s (doQuiesce c s).state := by
  unfold doQuiesce
  split
  · split
    · exact quiet_offers rfl rfl rfl
    · exact quiet_offers rfl rfl rfl
  · exact .refl

end

/-! ### Pieces, timers and residents -/

section

variable {s t : State}

theorem next_reportLaws {x : State} (h : ReportLaws x)
    (hx : (.next x : Host.Outcome State Machine.Fault Refusal) = .next t) : ReportLaws t := by
  injection hx with hx
  exact hx ▸ h

theorem pieceEnd_reportLaws (r : TargetAnswer) (hx : execPieceEnd r s = .next t) (h : ReportLaws s) : ReportLaws t := by
  unfold execPieceEnd at hx
  split at hx
  · next a p data _ =>
    have hp := h.work (DelayedReads.pieceAcked_work a p data s)
    refine next_reportLaws ?_ hx
    unfold afterPiece
    split
    · exact hp
    · exact hp.settle
  · next a p _ => exact next_reportLaws (h.work (pieceFailed_work a p _ s)).settle hx
  · exact next_reportLaws h hx

theorem responseExpires_reportLaws (h : ReportLaws s) : ReportLaws (responseExpires s) := by
  unfold responseExpires
  split
  · split
    · exact (h.work (pieceFailed_work _ _ _ s)).settle
    · exact h
  · exact h

theorem slotExpires_reportLaws (i : SlotId) (h : ReportLaws s) : ReportLaws (slotExpires i s) := by
  unfold slotExpires holdExpires
  split
  · split
    · exact ((h.reported _).act (.freesSlot _ i)).settle
    · exact ((h.reported _).act (.freesSlot _ i)).settle
    · exact (h.act (.freesSlot s i)).settle
    · exact h
  · exact h

theorem lockExpires_reportLaws (h : ReportLaws s) : ReportLaws (lockExpires s) := by
  unfold lockExpires
  split
  · exact (((h.work (breakLock_work _ s)).work (leaveDeadHeads_work _)).work (endIdleTenure_work _ _)).settle
  · exact h

theorem overstayExpires_reportLaws (h : ReportLaws s) : ReportLaws (overstayExpires s) := by
  unfold overstayExpires
  split
  · split
    · exact h.offers (offers_after _ rfl rfl rfl)
    · exact h
  · exact h

theorem expireDue_reportLaws (h : ReportLaws s) : ReportLaws (expireDue s) :=
  overstayExpires_reportLaws (Scope.Closed.foldl (P := ReportLaws) _ (fun _ i hx => slotExpires_reportLaws i hx) _
    (lockExpires_reportLaws (responseExpires_reportLaws h)))

theorem timebase_reportLaws (now : Time) (h : ReportLaws s) : ReportLaws { s with timebase := now } :=
  h.same rfl rfl rfl

theorem requestRaise_reportLaws {p : Port} (hx : execResidentRequestRaise p s = .next t) (h : ReportLaws s) :
    ReportLaws t := by
  have raised : ReportLaws (setRequestLine p true s) := h.same
  unfold execResidentRequestRaise at hx
  split at hx
  · exact next_reportLaws h hx
  · refine next_reportLaws ?_ hx
    split
    · exact (raised.same (t := requestArrives _ _)).settle
    · exact raised

theorem residentTenureEnds_reportLaws (p : Port) (h : ReportLaws s) : ReportLaws (residentTenureEnds p s) := by
  unfold residentTenureEnds
  split
  · split
    · exact (h.same (t := decision s)).settle
    · exact h
  · split
    · exact h.same rfl rfl rfl
    · exact h
  · exact h

theorem holdTaken_reportLaws (p : Port) (h : ReportLaws s) : ReportLaws (holdTaken p s) := by
  unfold holdTaken
  split
  · exact h.same rfl rfl rfl
  · exact h

theorem holdReleased_reportLaws (p : Port) (h : ReportLaws s) : ReportLaws (holdReleased p s) := by
  unfold holdReleased
  split
  · split
    · split
      · exact h.same rfl rfl rfl
      · exact (h.same (t := decision s)).settle
    · exact h
  · exact h

/-! ### Every command -/

theorem ite_reportLaws {x y : State} {c : Prop} [Decidable c] (h : ReportLaws x) (k : ReportLaws y) :
    ReportLaws (if c then x else y) := by
  split
  · exact h
  · exact k

theorem takeTxn_reportLaws (txn : Txn) (hx : takeTxn txn s = .next t) (h : ReportLaws s) : ReportLaws t := by
  unfold takeTxn at hx
  split at hx
  · exact next_reportLaws (trunkTxn_reportLaws txn h) hx
  · cases hx

theorem exec_reportLaws {c : Instr} (hx : exec c s = .next t) (h : ReportLaws s) : ReportLaws t := by
  cases c with
  | timebaseTick =>
    exact next_reportLaws (ite_reportLaws (timebase_reportLaws 0 h) (timebase_reportLaws _ (expireDue_reportLaws h))) hx
  | powerOnResetAssert l => exact next_reportLaws (ite_reportLaws h (assertPowerOn_reportLaws l s)) hx
  | powerOnResetRelease l => exact next_reportLaws (ite_reportLaws (releasePowerOn_reportLaws l h) h) hx
  | cardResetAssert l => exact next_reportLaws (ite_reportLaws h (assertCard_reportLaws l h)) hx
  | cardResetRelease l => exact next_reportLaws (ite_reportLaws (releaseCard_reportLaws l h) h) hx
  | trunkReset => exact next_reportLaws (ite_reportLaws h (trunkReset_reportLaws h)) hx
  | windowWrite m a u k b => exact takeTxn_reportLaws _ hx h
  | windowRead m a u k b => exact takeTxn_reportLaws _ hx h
  | controlIntake m ws => exact takeTxn_reportLaws _ hx h
  | controlRegionRefused txn => exact takeTxn_reportLaws _ hx h
  | identity m => exact next_reportLaws (trunkTxn_reportLaws _ h) hx
  | status m => exact next_reportLaws (trunkTxn_reportLaws _ h) hx
  | counts m => exact next_reportLaws (trunkTxn_reportLaws _ h) hx
  | reportHead m => exact next_reportLaws (trunkTxn_reportLaws _ h) hx
  | windowReadback m w => exact next_reportLaws (trunkTxn_reportLaws _ h) hx
  | masterReadback m k => exact next_reportLaws (trunkTxn_reportLaws _ h) hx
  | claim m d => exact next_reportLaws (trunkTxn_reportLaws _ h) hx
  | relinquish m d => exact next_reportLaws (trunkTxn_reportLaws _ h) hx
  | release m d => exact next_reportLaws (trunkTxn_reportLaws _ h) hx
  | attention m d => exact next_reportLaws (trunkTxn_reportLaws _ h) hx
  | resetGate m d => exact next_reportLaws (trunkTxn_reportLaws _ h) hx
  | loadWindow => exact next_reportLaws (executeHead_reportLaws _ _ (fun c => doLoadWindow_offers c s) h) hx
  | retireWindow => exact next_reportLaws (executeHead_reportLaws _ _ (fun c => doRetireWindow_offers c s) h) hx
  | modifyWindow => exact next_reportLaws (executeHead_reportLaws _ _ (fun c => doModifyWindow_offers c s) h) hx
  | thawWindow => exact next_reportLaws (executeHead_reportLaws _ _ (fun c => doThawWindow_offers c s) h) hx
  | setMaster => exact next_reportLaws (executeHead_reportLaws _ _ (fun c => doSetMaster_offers c s) h) hx
  | setTimers => exact next_reportLaws (executeHead_reportLaws _ _ (fun c => doSetTimers_offers c s) h) hx
  | setArbitration => exact next_reportLaws (executeHead_reportLaws _ _ (fun c => doSetArbitration_offers c s) h) hx
  | enable => exact next_reportLaws (executeHead_reportLaws _ _ (fun c => doEnable_offers c s) h) hx
  | quiesce => exact next_reportLaws (executeHead_reportLaws _ _ (fun c => doQuiesce_offers c s) h) hx
  | fence => exact next_reportLaws (executeHead_reportLaws _ _ (fun _ => .refl) h) hx
  | pieceEnd r => exact pieceEnd_reportLaws r hx h
  | noResponse => exact next_reportLaws (responseExpires_reportLaws h) hx
  | holdTimerExpiry i => exact next_reportLaws (slotExpires_reportLaws i h) hx
  | lockHoldTimerExpiry => exact next_reportLaws (lockExpires_reportLaws h) hx
  | overstayTimerExpiry => exact next_reportLaws (overstayExpires_reportLaws h) hx
  | residentRequestRaise p => exact requestRaise_reportLaws hx h
  | residentRequestDrop p =>
    exact next_reportLaws (ite_reportLaws (residentTenureEnds_reportLaws p (h.same (t := setRequestLine p false s))) h) hx
  | residentHoldRaise p =>
    exact next_reportLaws (ite_reportLaws h (holdTaken_reportLaws p (h.same (t := setHoldLine p true s)))) hx
  | residentHoldDrop p =>
    exact next_reportLaws (ite_reportLaws (holdReleased_reportLaws p (h.same (t := setHoldLine p false s))) h) hx
  | residentWriteObserved p a z => exact next_reportLaws (ite_reportLaws (h.act (.makesStale s _ _)) h) hx

end

/-- Settles O55: each operation that stores or removes a report keeps the laws, and a RESULT takes the place that its
command found HELD, since a command at most offers reports before it. -/
theorem reportLawsHoldAfterEveryEvent : Obligations.ReportLawsHoldAfterEveryEvent := by
  intro s t hf hc hw hl hx
  have h : ReportLaws s := ⟨hf, hc, hw, hl⟩
  have ht : ReportLaws t := by
    unfold step at hx
    split at hx
    · exact next_reportLaws h hx
    · next rest _ => exact exec_reportLaws hx (h.same (t := { s with pending := rest }) rfl rfl rfl)
  exact ⟨ht.fit, ht.consecutive, ht.waiting, ht.line⟩

end Sys2Proof.Reports
end

section
/-! The gate state and the emptiness of a closed gate (R173, R174) under the gate's internal work: the work leaves the gate
state as it is, completes a quiesce, or brings the gate down by a fault. -/

namespace Sys2Proof.GateStates

-- One proof after the other: the text is compiled as one file, within a limit on memory that each thread draws on.
set_option Elab.async false

open Sys2Proof Sys2Proof.Machine Sys2Proof.Safety Sys2Proof.WindowTable

/-! ### A gate with nothing in its slots and no lock -/

/-- Every slot and the lock are FREE (R174). -/
structure Vacant (s : State) : Prop where
  slots : ∀ i : SlotId, s.slots[i].state = .free
  lock : s.lock.state = .free

theorem Vacant.same {s t : State} (h : Vacant s) (hs : ∀ i : SlotId, t.slots[i].state = s.slots[i].state := by simp)
    (hl : t.lock.state = s.lock.state := by simp) : Vacant t :=
  ⟨fun i => (hs i).trans (h.slots i), hl.trans h.lock⟩

theorem act_vacant {s t : State} (ha : Act s t) (h : Vacant s) : Vacant t := by
  cases ha with
  | leaves _ => exact h.same (removeHead_slot s) (by rw [(removeHead_outside s).1])
  | frees w => exact h.same (by rw [(freeIfDrained_alone s w).slots]; simp) (by rw [(freeIfDrained_alone s w).lock])
  | freesSlot i => rw [freeSlot, if_pos (h.slots i)]; exact h
  | changesSlot i _ hi _ _ _ => exact absurd (h.slots i) hi
  | makesStale a n =>
    refine ⟨fun i => ?_, h.lock⟩
    exact (congrArg Slot.state (mapTable_get _ _ i)).trans ((staleSlot_claims a n _).1.mpr (h.slots i))
  | empties => exact h.same (by rw [(Scope.emptyQueue_same s).slots]; simp) (by rw [(Scope.emptyQueue_same s).lock])
  | breaks c hst => simp [lockStands, h.lock] at hst
  | clearsLock => exact ⟨h.slots, rfl⟩
  | stopsTimer d => rw [stopLockTimer, if_neg (by simp [h.lock])]; exact h
  | owns hp => rw [h.lock] at hp; cases hp
  -- The other operations are of blocks that hold neither slots nor the lock.
  | _ => exact h.same

theorem work_vacant {s t : State} (hw : Work s t) (h : Vacant s) : Vacant t := by
  induction hw with
  | refl => exact h
  | tail _ ha ih => exact act_vacant ha ih

/-! ### Operations that leave the gate state as it is -/

theorem leaveDeadHeads_gsc (s : State) : (leaveDeadHeads s).gsc = s.gsc := by rw [leaveDeadHeads_eq, headsGone_gsc]

theorem withdrawSlots_gsc (p : Slot → Bool) (s : State) : (withdrawSlots p s).gsc = s.gsc :=
  Scope.Closed.foldl (P := fun x => x.gsc = s.gsc) _ (fun x i hx => by
    split
    · rw [withdrawSlot_gsc, hx]
    · exact hx) _ rfl

theorem drainBegins_gsc (d : DataEntry) (s : State) : (drainBegins d s).gsc = s.gsc := by
  unfold drainBegins raceCloseTimer
  split
  · split
    · rw [stopLockTimer_gsc, takeChoice_gsc]
    · rw [breakLock_gsc, takeChoice_gsc]
  · exact stopLockTimer_gsc d s

theorem drainStaleness_gsc (o : DrainOutcome) (d : DataEntry) (s : State) : (drainStaleness o d s).gsc = s.gsc := by
  unfold drainStaleness
  split
  · rfl
  · exact markStale_gsc _ _ s

theorem freezeOnError_gsc (d : DataEntry) (k : ErrorKind) (a : CardAddr) (s : State) :
    (freezeOnError d k a s).gsc = s.gsc := by
  unfold freezeOnError
  dsimp only
  split
  · split
    · rw [breakLock_gsc, offerReport_gsc]
    · exact offerReport_gsc _ _
  · rfl

theorem drainConsequences_gsc (o : DrainOutcome) (d : DataEntry) (s : State) :
    (drainConsequences o d s).gsc = s.gsc := by
  cases o with
  | cutOff k a => exact (freezeOnError_gsc d k a _).trans (offerReport_gsc _ _)
  | _ => rfl

theorem fetchOutcome_gsc (o : FetchOutcome) (i : SlotId) (ws : List Word) (s : State) :
    (fetchOutcome o i ws s).gsc = s.gsc := by
  have succeeds : (fetchSucceeds i ws s).gsc = s.gsc := by
    unfold fetchSucceeds
    dsimp only
    split
    · split <;> rfl
    · rfl
  have fails (k : ErrorKind) (a : CardAddr) : (fetchFails i k a s).gsc = s.gsc := by
    unfold fetchFails
    dsimp only
    split <;> simp
  unfold fetchOutcome
  split
  · split
    · exact freeSlot_gsc i s
    · cases o with
      | success => exact succeeds
      | failed k a => exact fails k a
  · rfl

/-! ### Turns -/

/-- One turn of the gate's work as its gate state sees it: work that leaves the gate state, the completion test of a quiesce
(R177), or the fault of a failed check (R178). -/
inductive Turn : State → State → Prop where
  | works {s t : State} : Work s t → t.gsc = s.gsc → Turn s t
  | quiesces (s : State) : Turn s (testQuiesce s)
  | faults (s : State) {c : FaultCause} : c ≠ .none → Turn s (faultGate c s)

/-- A course of turns. -/
abbrev Turns : State → State → Prop := Relation.ReflTransGen Turn

theorem work_turns {s t : State} (hw : Work s t) (hg : t.gsc = s.gsc := by simp) : Turns s t := .single (.works hw hg)

theorem leaveDeadHeads_turns (s : State) : Turns s (leaveDeadHeads s) :=
  work_turns (leaveDeadHeads_work s) (leaveDeadHeads_gsc s)

theorem freeDrainedWindows_turns (s : State) : Turns s (freeDrainedWindows s) :=
  work_turns (freeDrainedWindows_work s) (freeDrainedWindows_alone s).gsc

/-- What the execution of a withdrawal ends with (R15, R177). -/
theorem withdrawals_turns (s : State) : Turns s (testQuiesce (freeDrainedWindows s)) :=
  (freeDrainedWindows_turns s).tail (.quiesces _)

theorem finishEvent_turns (s : State) : Turns s (finishEvent s) :=
  (withdrawals_turns s).trans (work_turns (Act.asks _).work (askForPlace_gsc _))

theorem breakLock_turns (c : BreakCause) (s : State) : Turns s (breakLock c s) :=
  work_turns (breakLock_work c s) breakLock_gsc

theorem endIdleTenure_turns (held : Bool) (s : State) : Turns s (endIdleTenure held s) :=
  work_turns (endIdleTenure_work held s)

theorem settleTenure_turns (s : State) : Turns s (settleTenure s) := work_turns (settleTenure_work s)

/-- The end of a drain leaves the gate state, but for a failed check (R43), whose fault comes last. -/
theorem drainEnded_turns (o : DrainOutcome) (d : DataEntry) (rest : List Entry) (s : State)
    (he : s.pwq.entries = .data d :: rest) : Turns s (drainEnded o d s) := by
  have hc : (closeLock d (drainStaleness o d s)).pwq.entries = .data d :: rest := by
    rw [closeLock_pwq, drainStaleness_entries, he]
  have ended : Turns s (clearAccess (removeHead (drainConsequences o d (closeLock d (drainStaleness o d s))))) := by
    refine work_turns ?_ ?_
    · exact ((((drainStaleness_work o d s).trans (closeLock_work d _)).trans (drainConsequences_work o d rest _ hc)).tail
        (.leaves _ (.inl (drainConsequences_headIsData o d _ ⟨d, rest, hc⟩)))).tail (.accesses _ none)
    · rw [clearAccess_gsc, (removeHead_outside _).2.2.2, drainConsequences_gsc, closeLock_gsc, drainStaleness_gsc]
  unfold drainEnded
  dsimp only
  split
  · exact ended.tail (.faults _ nofun)
  · exact ended.trans (leaveDeadHeads_turns _)

theorem endDrain_turns (o : DrainOutcome) (s : State) : Turns s (endDrain o s) := by
  unfold endDrain
  split
  · next d rest he => exact (drainEnded_turns o d rest s he).trans (settleTenure_turns _)
  · exact (work_turns (Act.accesses s none).work).trans (settleTenure_turns _)

theorem access_turns (a : Option Access) (s : State) : Turns s { s with cbc.access := a } :=
  work_turns (Act.accesses s a).work rfl

theorem continueDrain_turns (a : Access) (d : DataEntry) (n : Nat) (s : State) : Turns s (continueDrain a d n s) := by
  unfold continueDrain
  split
  · exact access_turns _ s
  · exact endDrain_turns _ s
  · exact endDrain_turns _ s

theorem startDrain_turns (d : DataEntry) (s : State) : Turns s (startDrain d s) :=
  ((access_turns _ s).trans (work_turns (drainBegins_work d _) (drainBegins_gsc d _))).trans (continueDrain_turns _ d _ _)

theorem runBus_turns (n : Nat) (s : State) : Turns s (runBus n s) := by
  induction n generalizing s with
  | zero => exact .refl
  | succ n ih =>
    unfold runBus
    split
    · exact .refl
    · split
      · split
        · next i he => exact work_turns (startFetch_work i s (eligible_ne_free (List.find?_some he))) rfl
        · exact (startDrain_turns _ s).trans (ih _)
        · split
          · exact .refl
          · exact (work_turns (Act.endsTenure s).work).trans (ih _)
      · have reviewed : Turns s (reviewRequest s) := work_turns (Act.reviews s).work
        dsimp only
        split
        · exact reviewed.trans (ih _)
        · exact reviewed

theorem settle_turns (s : State) : Turns s (settle s) :=
  ((leaveDeadHeads_turns s).trans (runBus_turns _ _)).trans (finishEvent_turns _)

theorem endFetch_turns (o : FetchOutcome) (a : Access) (s : State) : Turns s (endFetch o a s) := by
  refine work_turns (endFetch_work o a s) ?_
  unfold endFetch
  dsimp only
  rw [settleTenure_gsc, leaveDeadHeads_gsc, clearAccess_gsc]
  split
  · exact fetchOutcome_gsc _ _ _ s
  · rfl

theorem pieceFailed_turns (a : Access) (p : PieceOp) (k : ErrorKind) (s : State) : Turns s (pieceFailed a p k s) := by
  unfold pieceFailed
  split
  · exact endDrain_turns _ s
  · exact endFetch_turns _ _ s

theorem pieceAcked_turns (a : Access) (p : PieceOp) (data : Word) (s : State) : Turns s (pieceAcked a p data s) := by
  unfold pieceAcked
  split
  · unfold drainPieceAcked
    dsimp only
    refine .trans (access_turns (some { a with bytes := a.bytes + laneCount p.op.enables, op := none }) s) ?_
    split
    · exact endDrain_turns _ _
    · split
      · exact endDrain_turns _ _
      · split
        · exact continueDrain_turns _ _ _ _
        · exact endDrain_turns _ _
  · unfold fetchPieceAcked
    dsimp only
    split
    · exact endFetch_turns _ _ s
    · exact access_turns _ s

theorem endStoppedAccess_turns (s : State) : Turns s (endStoppedAccess s) := by
  unfold endStoppedAccess
  split
  · split
    · split
      · exact endDrain_turns _ s
      · exact endFetch_turns _ _ s
    · exact .refl
  · exact .refl

/-! ### The laws of the gate states outside RESET -/

/-- No reset is asserted and the gate is not RESET, and the other laws of the gate states hold (R173, R174, R175). -/
structure Running (s : State) : Prop where
  released : s.porAsserted = false ∧ s.cardAsserted = false
  running : s.gsc.state ≠ .reset
  idle : IdleWhenClosed s
  record : GateRecordLegal s

namespace Running

variable {s t : State}

/-- A change that leaves the gate state, the states of the slots and of the lock, and the reset inputs. -/
theorem same (h : Running s) (hg : t.gsc = s.gsc := by simp)
    (hs : ∀ i : SlotId, t.slots[i].state = s.slots[i].state := by simp) (hl : t.lock.state = s.lock.state := by simp)
    (hp : t.porAsserted = s.porAsserted := by simp) (hc : t.cardAsserted = s.cardAsserted := by simp) : Running t where
  released := ⟨hp.trans h.released.1, hc.trans h.released.2⟩
  running := hg ▸ h.running
  idle hclosed := by
    obtain ⟨hfree, hlock⟩ := h.idle (hg ▸ hclosed)
    exact ⟨fun i => (hs i).trans (hfree i), hl.trans hlock⟩
  record := by unfold GateRecordLegal; rw [hg]; exact h.record

/-- A gate that is vacant is idle in every gate state. -/
theorem of_vacant (hr : t.porAsserted = false ∧ t.cardAsserted = false) (hg : t.gsc.state ≠ .reset)
    (hrec : GateRecordLegal t) (hv : Vacant t) : Running t := ⟨hr, hg, fun _ => ⟨hv.slots, hv.lock⟩, hrec⟩

/-- In ENABLED and QUIESCING slots and lock are free to change (R174). -/
theorem of_open (hr : t.porAsserted = false ∧ t.cardAsserted = false) (hrec : GateRecordLegal t)
    (hg : t.gsc.state = .enabled ∨ t.gsc.state = .quiescing) : Running t := by
  refine ⟨hr, ?_, fun hclosed => ?_, hrec⟩
  · obtain hg | hg := hg <;> rw [hg] <;> nofun
  · obtain hg | hg := hg <;> simp [hg] at hclosed

theorem released_of_kept (h : Running s) (hk : Kept s t) : t.porAsserted = false ∧ t.cardAsserted = false :=
  ⟨hk.porAsserted.trans h.released.1, hk.cardAsserted.trans h.released.2⟩

/-- Work that leaves the gate state finds a closed gate vacant, and leaves it so. -/
theorem works (h : Running s) (hw : Work s t) (hg : t.gsc = s.gsc) : Running t where
  released := h.released_of_kept hw.kept
  running := hg ▸ h.running
  idle hclosed := by
    obtain ⟨hs, hl⟩ := h.idle (hg ▸ hclosed)
    obtain ⟨hs, hl⟩ := work_vacant hw ⟨hs, hl⟩
    exact ⟨hs, hl⟩
  record := by unfold GateRecordLegal; rw [hg]; exact h.record

theorem reported (b : ReportBody) (h : Running s) : Running (offerReport b s) := h.same

/-- A quiesce completes with every slot and the lock FREE (R177). -/
theorem quiesced (h : Running s) : Running (testQuiesce s) := by
  unfold testQuiesce
  split
  · next hq =>
    simp only [Bool.and_eq_true, decide_eq_true_eq] at hq
    obtain ⟨hstate, hconditions⟩ := hq
    have hcause : s.gsc.cause = .none := h.record.1.2 (by rw [hstate]; nofun)
    have hlock : s.lock.state = .free := ((ControlRecords.quiesceConditions_iff s).1 hconditions).2.2
    refine reported _ (of_vacant h.released nofun ?_ ⟨PostedWrites.quiesceConditions_free hconditions, hlock⟩)
    simp [GateRecordLegal, hcause]
  · exact h

/-- A fault leaves the gate FAULTED and vacant (R178). -/
theorem faulted (h : Running s) {c : FaultCause} (hc : c ≠ .none) : Running (faultGate c s) := by
  obtain ⟨hs, -, -, hg, -⟩ := faultGate_facts c s
  refine of_vacant (h.released_of_kept (faultGate_kept c s)) (by rw [hg]; nofun) ?_ ⟨hs.slots, hs.lock⟩
  simp [GateRecordLegal, hg, hc]

theorem turns (h : Running s) (ht : Turns s t) : Running t := by
  induction ht with
  | refl => exact h
  | tail _ ht ih =>
    cases ht with
    | works hw hg => exact ih.works hw hg
    | quiesces => exact ih.quiesced
    | faults hc => exact ih.faulted hc

theorem settle (h : Running s) : Running (settle s) := h.turns (settle_turns s)

theorem answered (a : Answer) (h : Running s) : Running (answer a s) := h.same

theorem freeSlot (i : SlotId) (h : Running s) : Running (freeSlot i s) := h.works (Act.freesSlot s i).work (by simp)

end Running

end Sys2Proof.GateStates
end

section
/-! Every command keeps the laws of the gate states outside RESET (R173, R174). -/

namespace Sys2Proof.GateStates

-- One proof after the other: the text is compiled as one file, within a limit on memory that each thread draws on.
set_option Elab.async false

open Sys2Proof Sys2Proof.Machine Sys2Proof.Safety Sys2Proof.WindowTable

section

variable {s : State}

/-! ### Window transactions -/

theorem chargeViolation_running (c : ViolationCause) (w : WindowId) (t : Txn) (h : Running s) :
    Running (chargeViolation c w t s) := by
  have threshold {x : State} (hx : Running x) : Running (applyThreshold c w t x) := by
    unfold applyThreshold
    split
    · exact hx.same
    · exact hx
  have counted : Running (countViolation t.master s) := h.same rfl (fun _ => rfl) rfl rfl rfl
  unfold chargeViolation
  dsimp only
  split
  · exact threshold (counted.reported _)
  · exact threshold counted

theorem clearNoteIf_running (clear : Bool) (m : MasterId) (h : Running s) : Running (clearNoteIf clear m s) := by
  cases clear with
  | false => exact h
  | true => exact h.same rfl (fun _ => rfl) rfl rfl rfl

theorem writeStep_running (w : WindowId) (t : Txn) (beats : List Beat) (h : Running s) :
    Running (writeStep w t beats s) := by
  have closing {x : State} (hx : Running x) : Running (noteClosing t x) := by
    unfold noteClosing
    split
    · exact hx.same
    · exact hx
  have appended : Running (appendData (entryOf s w t beats) s) := h.same
  unfold writeStep
  split
  · exact (h.reported _).answered _
  · split
    · exact (closing appended).settle.answered _
    · exact h.answered _

theorem collectSlot_running (i : SlotId) (h : Running s) : Running (collectSlot i s) := by
  have unnamed : Running { s with lock.slot := none } := h.same
  unfold collectSlot
  dsimp only
  split
  · exact unnamed.freeSlot i
  · exact h.freeSlot i

/-- A STALE slot is taken up again in ENABLED alone (R53). -/
theorem returnStale_running (i : SlotId) (h : Running s) : Running (returnStale i s) := by
  unfold returnStale
  split
  · next hg =>
    have restarted : Running (restartSlot i s) := .of_open h.released h.record (.inl hg)
    exact restarted.settle.answered _
  · exact (h.freeSlot i).settle.answered _
  · exact h.answered _

theorem returnTo_running (i : SlotId) (h : Running s) : Running (returnTo i s) := by
  unfold returnTo
  split
  · unfold returnReady
    dsimp only
    split
    · exact (collectSlot_running i h).settle.answered _
    · have hf : Running (faultGate .slotCheck s) := h.faulted nofun
      exact (hf.turns (endStoppedAccess_turns _)).settle.answered _
  · exact (h.freeSlot i).settle.answered _
  · exact returnStale_running i h
  · exact h.answered _

/-- A slot is allocated, and a lock made PENDING, in ENABLED alone (R54, R74). -/
theorem newRead_running (w : WindowId) (t : Txn) (h : Running s) : Running (newRead w t s) := by
  unfold newRead
  split
  · next hc =>
    simp only [Bool.and_eq_true, decide_eq_true_eq] at hc
    obtain ⟨⟨hg, -⟩, -⟩ := hc
    have allocated (i : SlotId) : Running (allocateSlot i w t s) := by
      unfold allocateSlot openLockOn
      split
      · exact .of_open h.released h.record (.inl hg)
      · exact .of_open h.released h.record (.inl hg)
    split
    · exact (allocated _).settle.answered _
    · exact h.answered _
  · exact h.answered _

theorem lastStep_running (w : WindowId) (t : Txn) (h : Running s) : Running (lastStep w t s) := by
  unfold lastStep readStep
  split
  · split
    · exact returnTo_running _ h
    · exact newRead_running w t h
  · exact writeStep_running w t _ h

theorem claimedTxn_running (w : WindowId) (t : Txn) (h : Running s) : Running (claimedTxn w t s) := by
  have charged (c : ViolationCause) : Running (answer .refuse (chargeViolation c w t s)) :=
    (chargeViolation_running c w t h).answered _
  unfold claimedTxn
  split
  · exact h.answered _
  split
  · exact h.answered _
  split
  · exact charged _
  split
  · exact h.answered _
  split
  · exact charged _
  split
  · exact charged _
  split
  · exact h.answered _
  · unfold lockAndLastStep
    split
    · exact (clearNoteIf_running _ _ h).answered _
    · exact (clearNoteIf_running _ _ h).answered _
    · exact lastStep_running w t (clearNoteIf_running _ _ h)

/-! ### Resets of the gate and of the trunk -/

/-- A gate reset leaves the two reset inputs as they are, the clearing of the configuration with it (R147). -/
theorem resetDone_inputs (clear : Bool) (s : State) :
    (resetDone clear s).porAsserted = s.porAsserted ∧ (resetDone clear s).cardAsserted = s.cardAsserted := by
  have hk := resetKept_kept s
  cases clear with
  | false => exact ⟨hk.porAsserted, hk.cardAsserted⟩
  | true =>
    rw [resetCleared_eq]
    generalize resetDone false s = x at *
    obtain ⟨_, _, _, _, _, ht⟩ := settingsTakeEffect_shape x.arb.enabled (configurationCleared x)
    rw [ht]
    exact ⟨hk.porAsserted, hk.cardAsserted⟩

/-- A gate reset leaves the gate STANDBY and vacant before its notice (R70, R87, R181). -/
theorem gateReset_running (clear : Bool) (h : Running s) : Running (gateReset clear s) := by
  have hs := (resetDone_facts clear s).stripped
  have hg := (resetDone_facts clear s).gate
  obtain ⟨hp, hc⟩ := resetDone_inputs clear s
  rw [gateReset_eq]
  generalize resetDone clear s = x at *
  have reset : Running x :=
    .of_vacant ⟨hp.trans h.released.1, hc.trans h.released.2⟩ (by rw [hg]; nofun) (by simp [GateRecordLegal, hg])
      ⟨hs.slots, hs.lock⟩
  exact ((reset.reported _).turns (endStoppedAccess_turns _)).settle

/-- FAULTED outlives a trunk reset with its cause; every other state gives STANDBY (R180). -/
theorem trunkResetState_legal {s t : State} (h : GateRecordLegal s) (hr : s.gsc.state ≠ .reset)
    (ht : t.gsc = trunkResetState s.gsc) : t.gsc.state ≠ .reset ∧ GateRecordLegal t := by
  obtain ⟨hcause, -⟩ := h
  unfold GateRecordLegal
  rw [ht]
  unfold trunkResetState
  split
  · contradiction
  · simp
  · simp
  · simp
  · next hf => simp [hf, hcause]

theorem trunkReset_running (h : Running s) : Running (trunkReset s) := by
  have hs := trunkDone_stripped s
  obtain ⟨hr, hrec⟩ := trunkResetState_legal h.record h.running (trunkDone_gsc s)
  have hreleased := h.released_of_kept (trunkBroken_kept s)
  have reset : Running (trunkDone s) := by
    refine .of_vacant ?_ hr hrec ⟨hs.slots, hs.lock⟩
    unfold trunkDone
    rw [offerReport_porAsserted, offerReport_cardAsserted]
    exact hreleased
  rw [trunkReset_eq]
  exact (reset.turns (endStoppedAccess_turns _)).settle

/-! ### The control region -/

theorem claimRole_running (m : MasterId) (data : Word) (h : Running s) : Running (claimRole m data s) := by
  unfold claimRole
  split
  · exact h.answered _
  · split
    · exact h.same
    · split
      · exact h.answered _
      · exact h.answered _

theorem releaseReport_running (data : Word) (h : Running s) : Running (releaseReport data s) := by
  have removed : Running (removeReport s) := h.same rfl (fun _ => rfl) rfl rfl rfl
  unfold releaseReport
  split
  · exact h.answered _
  · split
    · exact removed.answered _
    · exact h.answered _

theorem setAttention_running (data : Word) (h : Running s) : Running (setAttention data s) := by
  unfold setAttention
  split
  · exact h.same
  · split
    · exact h.same
    · exact h.answered _

theorem resetGateWord_running (data : Word) (h : Running s) : Running (resetGateWord data s) := by
  unfold resetGateWord
  split
  · exact (gateReset_running _ h).answered _
  · split
    · exact (gateReset_running _ h).answered _
    · exact h.answered _

theorem takeRecord_running (m : MasterId) (words : List Word) (h : Running s) : Running (takeRecord m words s) := by
  have appended (c : ControlEntry) : Running (appendControl c s) := h.same
  unfold takeRecord
  split
  · exact h.answered _
  · split
    · exact (appended _).settle.answered _
    · exact h.answered _

theorem operate_running (m : MasterId) (op : ControlOp) (h : Running s) : Running (operate m op s) := by
  cases op with
  | claim data => exact claimRole_running m data h
  | release data => exact releaseReport_running data h
  | attention data => exact setAttention_running data h
  | resetGate data => exact resetGateWord_running data h
  | intake words => exact takeRecord_running m words h
  -- The reads answer with words of the gate, and RELINQUISH unsets the manager.
  | _ => exact h.same rfl (fun _ => rfl) rfl rfl rfl

theorem controlTxn_running (t : Txn) (h : Running s) : Running (controlTxn t s) := by
  unfold controlTxn refuseDamaged serveOp
  split
  · exact (h.reported _).answered _
  · split
    · exact h.answered _
    · split
      · exact h.answered _
      · exact operate_running _ _ h

theorem trunkTxn_running (t : Txn) (h : Running s) : Running (trunkTxn t s) := by
  unfold trunkTxn windowTxn
  split
  · exact h.answered _
  · split
    · exact controlTxn_running t h
    · split
      · exact h.answered _
      · exact claimedTxn_running _ t h

/-! ### Ordered commands -/

/-- After the command itself the RESULT is stored, the entry leaves, and the event ends (R151). -/
theorem executeHead_running (cmd : Command) (act : ControlEntry → State → Execution)
    (hact : ∀ c, Running (act c s).state) (h : Running s) : Running (executeHead cmd act s) := by
  have removed {x : State} (hx : Running x) : Running (removeHead x) := by
    obtain ⟨hl, -, -, hg⟩ := removeHead_outside x
    exact hx.same hg (removeHead_slot x) (by rw [hl]) (removeHead_kept x).porAsserted (removeHead_kept x).cardAsserted
  unfold executeHead
  split
  · exact h
  · next c _ =>
    have stored (b : ReportBody) : Running (storeResult b (act c s).state) := (hact c).same
    exact (((removed (stored _)).turns (leaveDeadHeads_turns _)).turns (endIdleTenure_turns _ _)).settle

end

section

variable {s : State} (c : ControlEntry) (h : Running s)
include h

theorem doLoadWindow_running : Running (doLoadWindow c s).state := by
  unfold doLoadWindow
  split
  · exact h
  · split
    · exact h.same
    · exact h

theorem doRetireWindow_running : Running (doRetireWindow c s).state := by
  have freed (w : WindowId) {x : State} (hx : Running x) : Running (freeAtOnce w x) := by
    unfold freeAtOnce
    split
    · exact hx.same
    · exact hx
  have broken (w : WindowId) (x : State) : Turns x (breakIfOnWindow w x) := by
    unfold breakIfOnWindow
    split
    · exact breakLock_turns _ x
    · exact .refl
  have retired (w : WindowId) : Running (retireLive w c.tag s) := by
    have drained : Running (drainWindow w c.tag s) := h.same rfl (fun _ => rfl) rfl rfl rfl
    exact freed w ((drained.turns (broken w _)).works (withdrawSlots_work _ _) (withdrawSlots_gsc _ _))
  unfold doRetireWindow
  split
  · exact h
  · split
    · dsimp only
      exact (retired _).turns (withdrawals_turns _)
    · exact h

theorem doModifyWindow_running : Running (doModifyWindow c s).state := by
  unfold doModifyWindow
  split
  · split
    · exact h.same
    · exact h
  · exact h

theorem doThawWindow_running : Running (doThawWindow c s).state := by
  unfold doThawWindow
  split
  · exact h
  · split
    · exact h
    · split
      · exact h.same
      · exact h

theorem doSetMaster_running : Running (doSetMaster c s).state := by
  have withdrawn (m : MasterId) (x : State) : Turns x (withdrawMaster m x) := by
    refine work_turns (withdrawMaster_work m x) ?_
    unfold withdrawMaster breakIfOwner
    split
    · exact (withdrawSlots_gsc _ _).trans breakLock_gsc
    · exact withdrawSlots_gsc _ x
  unfold doSetMaster
  split
  · exact h
  · next o _ =>
    have written : Running { s with masters := modAt s.masters o.master (writtenMaster o) } := h.same
    dsimp only
    split
    · exact written
    · dsimp only
      exact (written.turns (withdrawn _ _)).turns (withdrawals_turns _)

theorem doSetTimers_running : Running (doSetTimers c s).state := by
  unfold doSetTimers
  dsimp only
  split
  · exact h.same
  · exact h

theorem doSetArbitration_running : Running (doSetArbitration c s).state := by
  unfold doSetArbitration
  dsimp only
  split
  · exact h
  · next policy _ =>
    split
    · obtain ⟨_, _, _, _, _, ht⟩ := settingsTakeEffect_shape s.arb.enabled
        { s with arb.policy := policy, arb.highWater := field (operand c 1) 8 8, arb.enabled := operandPorts (operand c 1) }
      unfold writeSettings
      rw [ht]
      exact h.same
    · exact h

/-- ENABLE goes to ENABLED from STANDBY and QUIESCING (R176). -/
theorem doEnable_running : Running (doEnable c s).state := by
  have enabled : Running { s with gsc := ⟨.enabled, .none, none⟩ } :=
    .of_open h.released (by simp [GateRecordLegal]) (.inl rfl)
  unfold doEnable
  split
  · exact enabled
  · exact enabled
  · exact h

/-- QUIESCE goes to STANDBY at once with every slot and the lock FREE, and else to QUIESCING with its tag (R160, R176). -/
theorem doQuiesce_running : Running (doQuiesce c s).state := by
  unfold doQuiesce
  split
  · split
    · next hq =>
      have hlock : s.lock.state = .free := ((ControlRecords.quiesceConditions_iff s).1 hq).2.2
      exact .of_vacant h.released nofun (by simp [GateRecordLegal]) ⟨PostedWrites.quiesceConditions_free hq, hlock⟩
    · exact .of_open h.released (by simp [GateRecordLegal]) (.inr rfl)
  · exact h

end

/-! ### Pieces, timers and residents -/

section

variable {s t : State}

theorem next_running {x : State} (h : Running x)
    (hx : (.next x : Host.Outcome State Machine.Fault Refusal) = .next t) : Running t := by
  injection hx with hx
  exact hx ▸ h

theorem pieceEnd_running (r : TargetAnswer) (hx : execPieceEnd r s = .next t) (h : Running s) : Running t := by
  unfold execPieceEnd at hx
  split at hx
  · next a p data _ =>
    have hp := h.turns (pieceAcked_turns a p data s)
    refine next_running ?_ hx
    unfold afterPiece
    split
    · exact hp
    · exact hp.settle
  · next a p _ => exact next_running (h.turns (pieceFailed_turns a p _ s)).settle hx
  · exact next_running h hx

theorem responseExpires_running (h : Running s) : Running (responseExpires s) := by
  unfold responseExpires
  split
  · split
    · exact (h.turns (pieceFailed_turns _ _ _ s)).settle
    · exact h
  · exact h

theorem slotExpires_running (i : SlotId) (h : Running s) : Running (slotExpires i s) := by
  unfold slotExpires holdExpires
  split
  · split
    · exact ((h.reported _).freeSlot i).settle
    · exact ((h.reported _).freeSlot i).settle
    · exact (h.freeSlot i).settle
    · exact h
  · exact h

theorem lockExpires_running (h : Running s) : Running (lockExpires s) := by
  unfold lockExpires
  split
  · exact (((h.turns (breakLock_turns _ s)).turns (leaveDeadHeads_turns _)).turns (endIdleTenure_turns _ _)).settle
  · exact h

theorem overstayExpires_running (h : Running s) : Running (overstayExpires s) := by
  have stopped : Running { s with arb.overstay := none } := h.same
  unfold overstayExpires
  split
  · split
    · exact stopped.reported _
    · exact h
  · exact h

theorem expireDue_running (h : Running s) : Running (expireDue s) :=
  overstayExpires_running (Scope.Closed.foldl (P := Running) _ (fun _ i hx => slotExpires_running i hx) _
    (lockExpires_running (responseExpires_running h)))

theorem timebase_running (now : Time) (h : Running s) : Running { s with timebase := now } := h.same

theorem requestRaise_running {p : Port} (hx : execResidentRequestRaise p s = .next t) (h : Running s) : Running t := by
  have raised : Running (setRequestLine p true s) := h.same
  have arrived : Running (requestArrives (.port p) (setRequestLine p true s)) := raised.same
  unfold execResidentRequestRaise at hx
  split at hx
  · exact next_running h hx
  · refine next_running ?_ hx
    split
    · exact arrived.settle
    · exact raised

theorem decided_running (h : Running s) : Running (settle (decision s)) :=
  Running.settle (h.same (t := decision s))

theorem grantState_running (a : ArbState) (h : Running s) : Running { s with arb.state := a } := h.same

theorem residentTenureEnds_running (p : Port) (h : Running s) : Running (residentTenureEnds p s) := by
  unfold residentTenureEnds
  split
  · split
    · exact decided_running h
    · exact h
  · split
    · exact grantState_running _ h
    · exact h
  · exact h

theorem holdTaken_running (p : Port) (h : Running s) : Running (holdTaken p s) := by
  unfold holdTaken
  split
  · exact grantState_running _ h
  · exact h

theorem holdReleased_running (p : Port) (h : Running s) : Running (holdReleased p s) := by
  unfold holdReleased
  split
  · split
    · split
      · exact grantState_running _ h
      · exact decided_running h
    · exact h
  · exact h

end

end Sys2Proof.GateStates
end

section
/-! RESET is entered by an assertion, left by the release of the last reset, and changed by no other command; and so every
event keeps the laws of the gate states (R173, R174, R175): O56. -/

namespace Sys2Proof.GateStates

-- One proof after the other: the text is compiled as one file, within a limit on memory that each thread draws on.
set_option Elab.async false

open Sys2Proof Sys2Proof.Machine Sys2Proof.Safety Sys2Proof.WindowTable

/-! ### The gate while a reset is asserted -/

/-- A reset is asserted, the gate is RESET with no cause and no tag, and every block is held (R44, R122, R135, R175). -/
structure InReset (s : State) : Prop where
  asserted : s.porAsserted = true ∨ s.cardAsserted = true
  gate : s.gsc = ⟨.reset, .none, none⟩
  entries : s.pwq.entries = []
  space : s.rq.space = .none
  cbc : s.cbc = Controller.powerOn
  arb : s.arb = Arbiter.held
  cu : s.cu = ControlUnit.powerOn
  vacant : Vacant s

/-- The laws of the gate states, in RESET and outside it. -/
def GateLaws (s : State) : Prop := InReset s ∨ Running s

theorem gateLaws_iff (s : State) :
    GateLaws s ↔ ResetWhileAsserted s ∧ HeldInReset s ∧ IdleWhenClosed s ∧ GateRecordLegal s := by
  constructor
  · rintro (h | ⟨⟨hp, hc⟩, hrunning, hidle, hrecord⟩)
    · have hreset : s.gsc.state = .reset := congrArg GateController.state h.gate
      exact ⟨iff_of_true hreset h.asserted, fun _ => ⟨h.entries, h.space, h.cbc, h.arb, h.cu⟩,
        fun _ => ⟨h.vacant.slots, h.vacant.lock⟩, by simp [GateRecordLegal, h.gate]⟩
    · exact ⟨iff_of_false hrunning (by simp [hp, hc]), fun hr => absurd hr hrunning, hidle, hrecord⟩
  · rintro ⟨hasserted, hheld, hidle, hrecord⟩
    by_cases hr : s.gsc.state = .reset
    · obtain ⟨he, hs, hc, ha, hu⟩ := hheld hr
      obtain ⟨hslots, hlock⟩ := hidle (.inl hr)
      obtain ⟨hcause, htag⟩ := hrecord
      have hcause : s.gsc.cause = .none := hcause.2 (by rw [hr]; nofun)
      have htag : s.gsc.quiesceTag = none := by simpa [hr] using htag
      refine .inl ⟨hasserted.1 hr, ?_, he, hs, hc, ha, hu, ⟨hslots, hlock⟩⟩
      rw [← hr, ← hcause, ← htag]
    · have hreleased := fun h => hr (hasserted.2 h)
      exact .inr ⟨by simpa using hreleased, hr, hidle, hrecord⟩

namespace InReset

variable {s t : State}

/-- A change of none of the blocks that the laws of RESET look at. -/
theorem same (h : InReset s) (hp : t.porAsserted = s.porAsserted := by rfl) (hc : t.cardAsserted = s.cardAsserted := by rfl)
    (hg : t.gsc = s.gsc := by rfl) (he : t.pwq.entries = s.pwq.entries := by rfl)
    (hr : t.rq.space = s.rq.space := by rfl) (hb : t.cbc = s.cbc := by rfl) (ha : t.arb = s.arb := by rfl)
    (hu : t.cu = s.cu := by rfl) (hs : t.slots = s.slots := by rfl) (hl : t.lock = s.lock := by rfl) : InReset t where
  asserted := by rw [hp, hc]; exact h.asserted
  gate := hg.trans h.gate
  entries := he.trans h.entries
  space := hr.trans h.space
  cbc := hb.trans h.cbc
  arb := ha.trans h.arb
  cu := hu.trans h.cu
  vacant := h.vacant.same (fun _ => by rw [hs]) (by rw [hl])

theorem reset (h : InReset s) : s.gsc.state = .reset := congrArg GateController.state h.gate

theorem noAccess (h : InReset s) : s.cbc.access = none := congrArg Controller.access h.cbc

theorem stopped (h : InReset s) : s.arb.state = .stopped := congrArg Arbiter.state h.arb

theorem busQuiet (h : InReset s) : BusQuiet s := by
  refine .inr ⟨(hasCandidate_eq_false s).2 (noCandidate_of_emptied h.vacant.slots h.entries), .inl ?_⟩
  rw [h.cbc]
  exact ⟨rfl, rfl⟩

/-- In RESET the end of an event frees windows at most. -/
theorem settle (h : InReset s) : InReset (settle s) := by
  have hquiet : HeadQuiet s := .inr fun ⟨_, _, he⟩ => by rw [h.entries] at he; cases he
  have ha := freeDrainedWindows_alone s
  have freed : InReset (freeDrainedWindows s) :=
    h.same (freeDrainedWindows_kept s).porAsserted (freeDrainedWindows_kept s).cardAsserted ha.gsc (congrArg _ ha.pwq)
      ha.space ha.cbc ha.arb (freeDrainedWindows_kept s).cu ha.slots ha.lock
  have hq : testQuiesce (freeDrainedWindows s) = freeDrainedWindows s :=
    testQuiesce_open _ fun hq => by rw [freed.reset] at hq; cases hq.1
  have hask : askForPlace (freeDrainedWindows s) = freeDrainedWindows s := by
    unfold askForPlace
    rw [freed.entries]
  rw [Machine.settle, leaveDeadHeads_quiet hquiet, settleBus_quiet s h.busQuiet, finishEvent, hq, hask]
  exact freed

/-! ### Events that do nothing in RESET -/

theorem executeHead_eq (h : InReset s) (cmd : Command) (act : ControlEntry → State → Execution) :
    executeHead cmd act s = s := by
  unfold executeHead entryToExecute
  rw [h.entries]

theorem responseExpires_eq (h : InReset s) : responseExpires s = s :=
  Scope.responseExpires_notDue s fun a _ ha => by rw [h.noAccess] at ha; cases ha

theorem slotExpires_eq (h : InReset s) (i : SlotId) : slotExpires i s = s := by
  unfold slotExpires holdExpires
  rw [h.vacant.slots i]
  exact ite_self s

theorem lockExpires_eq (h : InReset s) : lockExpires s = s :=
  Scope.lockExpires_notDue s fun ho => by rw [h.vacant.lock] at ho; cases ho

theorem overstayExpires_eq (h : InReset s) : overstayExpires s = s :=
  Scope.overstayExpires_notDue s fun timer ho => by rw [h.arb] at ho; cases ho

theorem expireDue_eq (h : InReset s) : expireDue s = s := by
  have slots (l : List SlotId) : l.foldl (fun x i => slotExpires i x) s = s := by
    induction l with
    | nil => rfl
    | cons i l ih => rw [List.foldl_cons, h.slotExpires_eq i, ih]
  unfold expireDue
  rw [h.responseExpires_eq, h.lockExpires_eq, slots, h.overstayExpires_eq]

theorem pieceEnd_eq (h : InReset s) (answer : TargetAnswer) : execPieceEnd answer s = .next s :=
  Scope.pieceEnd_ignored s answer fun a ha => by rw [h.noAccess] at ha; cases ha

/-- The stopped arbiter lets a request wait (R135). -/
theorem requestRaise (h : InReset s) (p : Port) (hx : execResidentRequestRaise p s = .next t) : InReset t := by
  have raised : InReset (setRequestLine p true s) := h.same
  have hwaits : requestArrives (.port p) (setRequestLine p true s) = setRequestLine p true s := by
    unfold requestArrives
    rw [raised.stopped]
  unfold execResidentRequestRaise at hx
  split at hx
  · cases hx; exact h
  · injection hx with hx
    rw [← hx]
    split
    · rw [hwaits]; exact raised.settle
    · exact raised

theorem residentTenureEnds_eq (h : InReset s) (p : Port) : residentTenureEnds p s = s := by
  unfold residentTenureEnds
  rw [h.stopped]

theorem holdTaken_eq (h : InReset s) (p : Port) : holdTaken p s = s := by
  unfold holdTaken
  rw [h.stopped]
  rfl

theorem holdReleased_eq (h : InReset s) (p : Port) : holdReleased p s = s := by
  unfold holdReleased
  rw [h.stopped]

theorem writeObserved_eq (h : InReset s) (p : Port) (addr : CardAddr) (size : BeatUnit) :
    execResidentWriteObserved p addr size s = .next s := by
  unfold execResidentWriteObserved residentInTenure
  rw [h.stopped]
  rfl

theorem trunkTxn (h : InReset s) (txn : Txn) : InReset (trunkTxn txn s) := by
  rw [TrunkMasters.trunkTxn_reset txn h.reset]
  exact h.same

theorem takeTxn (h : InReset s) (txn : Txn) (hx : takeTxn txn s = .next t) : InReset t := by
  unfold Machine.takeTxn at hx
  split at hx
  · injection hx with hx
    exact hx ▸ h.trunkTxn txn
  · cases hx

end InReset

/-! ### The assertion and the release of a reset -/

theorem vacant_powerOn {s : State} (hs : s.slots = Vector.replicate 8 Slot.powerOn) (hl : s.lock = Lock.powerOn) :
    Vacant s :=
  ⟨fun i => by rw [hs]; simp [Slot.powerOn], by rw [hl]; rfl⟩

theorem assertPowerOn_inReset (lines : BitVec 4) (s : State) : InReset (assertPowerOn lines s) :=
  ⟨.inl rfl, rfl, rfl, rfl, rfl, rfl, rfl, vacant_powerOn rfl rfl⟩

theorem assertCard_inReset (lines : BitVec 4) (s : State) : InReset (assertCard lines s) :=
  ⟨.inr rfl, rfl, rfl, rfl, rfl, rfl, rfl, vacant_powerOn rfl rfl⟩

theorem takeArrivals_running {s : State} (h : Running s) : Running (takeArrivals s) := by
  have arrival (x : State) (p : Port) (hx : Running x) : Running (takeArrival x p) := by
    have raised : Running (setRequestLine p true x) := hx.same
    exact raised.same (t := requestArrives _ _)
  have lowered : Running { s with lines.request := ⟨false, false, false⟩ } := h.same
  have chosen {x : State} (hx : Running x) : Running (takeChoice x) := hx.same
  unfold takeArrivals
  dsimp only
  split
  · exact Scope.Closed.foldl _ arrival _ lowered
  · exact chosen (Scope.Closed.foldl (P := Running) _ arrival _ lowered)

/-- The release of the last reset leaves the gate STANDBY, and what was held stays vacant (R135, R175). -/
theorem leaveReset_running (lines : BitVec 4) (kind : ResetKind) (data control : Nat) {s : State} (hv : Vacant s)
    (hr : s.porAsserted = false ∧ s.cardAsserted = false) : Running (leaveReset lines kind data control s) := by
  have standby : Running { s with
      ti.slotNumber := lines, arb := Arbiter.powerOn, gsc := ⟨.standby, .none, none⟩,
      rq.cardData := 0, rq.cardControl := 0 } :=
    .of_vacant hr nofun (by simp [GateRecordLegal]) ⟨hv.slots, hv.lock⟩
  exact takeArrivals_running (standby.reported _)

theorem releasePowerOn_gateLaws (lines : BitVec 4) {s : State} (h : InReset s) : GateLaws (releasePowerOn lines s) := by
  unfold releasePowerOn
  split
  · next hc => exact .inl ⟨.inr hc, h.gate, h.entries, h.space, h.cbc, h.arb, h.cu, ⟨h.vacant.slots, h.vacant.lock⟩⟩
  · next hc =>
    exact .inr (leaveReset_running _ _ _ _ ⟨h.vacant.slots, h.vacant.lock⟩ ⟨rfl, eq_false_of_ne_true hc⟩)

theorem releaseCard_gateLaws (lines : BitVec 4) {s : State} (h : InReset s) : GateLaws (releaseCard lines s) := by
  unfold releaseCard
  split
  · next hp => exact .inl ⟨.inl hp, h.gate, h.entries, h.space, h.cbc, h.arb, h.cu, ⟨h.vacant.slots, h.vacant.lock⟩⟩
  · next hp =>
    exact .inr (leaveReset_running _ _ _ _ ⟨h.vacant.slots, h.vacant.lock⟩ ⟨eq_false_of_ne_true hp, rfl⟩)

/-! ### Every command -/

section

variable {s t : State}

theorem next_gateLaws {x : State} (h : GateLaws x)
    (hx : (.next x : Host.Outcome State Machine.Fault Refusal) = .next t) : GateLaws t := by
  injection hx with hx
  exact hx ▸ h

theorem ite_law {P : State → Prop} {x y : State} {c : Prop} [Decidable c] (h : P x) (k : P y) : P (if c then x else y) := by
  split
  · exact h
  · exact k

/-- In RESET a command asserts the other reset, releases one, or leaves all that is held as it is. -/
theorem exec_inReset {c : Instr} (hx : exec c s = .next t) (h : InReset s) : GateLaws t := by
  have held {x : State} (k : InReset x) (hx : (.next x : Host.Outcome State Machine.Fault Refusal) = .next t) :
      GateLaws t := next_gateLaws (.inl k) hx
  cases c with
  | timebaseTick => exact held (ite_law h.same (h.expireDue_eq.symm ▸ h.same)) hx
  | powerOnResetAssert l => exact held (ite_law h (assertPowerOn_inReset l s)) hx
  | powerOnResetRelease l => exact next_gateLaws (ite_law (releasePowerOn_gateLaws l h) (.inl h)) hx
  | cardResetAssert l => exact held (ite_law h (assertCard_inReset l s)) hx
  | cardResetRelease l => exact next_gateLaws (ite_law (releaseCard_gateLaws l h) (.inl h)) hx
  | trunkReset =>
    have hkept : execTrunkReset s = .next s := congrArg Host.Outcome.next (if_pos h.reset)
    exact held h (hkept.symm.trans hx)
  | windowWrite | windowRead | controlIntake | controlRegionRefused => exact .inl (h.takeTxn _ hx)
  | identity | status | counts | reportHead | windowReadback | masterReadback | claim | relinquish | release | attention
  | resetGate => exact held (h.trunkTxn _) hx
  | loadWindow | retireWindow | modifyWindow | thawWindow | setMaster | setTimers | setArbitration | enable | quiesce
  | fence => exact held ((h.executeHead_eq _ _).symm ▸ h) hx
  | pieceEnd r => exact held h ((h.pieceEnd_eq r).symm.trans hx)
  | noResponse => exact held (h.responseExpires_eq.symm ▸ h) hx
  | holdTimerExpiry i => exact held ((h.slotExpires_eq i).symm ▸ h) hx
  | lockHoldTimerExpiry => exact held (h.lockExpires_eq.symm ▸ h) hx
  | overstayTimerExpiry => exact held (h.overstayExpires_eq.symm ▸ h) hx
  | residentRequestRaise p => exact .inl (h.requestRaise p hx)
  | residentRequestDrop p =>
    have dropped : InReset (setRequestLine p false s) := h.same
    exact held (ite_law ((dropped.residentTenureEnds_eq p).symm ▸ dropped) h) hx
  | residentHoldRaise p =>
    have raised : InReset (setHoldLine p true s) := h.same
    exact held (ite_law h ((raised.holdTaken_eq p).symm ▸ raised)) hx
  | residentHoldDrop p =>
    have dropped : InReset (setHoldLine p false s) := h.same
    exact held (ite_law ((dropped.holdReleased_eq p).symm ▸ dropped) h) hx
  | residentWriteObserved p a z => exact held h ((h.writeObserved_eq p a z).symm.trans hx)

/-- Outside RESET a command keeps the laws, or asserts a reset. -/
theorem exec_running {c : Instr} (hx : exec c s = .next t) (h : Running s) : GateLaws t := by
  have runs {x : State} (k : Running x) (hx : (.next x : Host.Outcome State Machine.Fault Refusal) = .next t) :
      GateLaws t := next_gateLaws (.inr k) hx
  have unreleased {b : Bool} {x : State} (hb : b = false) : Running (if b = true then x else s) := by
    rw [hb]; exact h
  have txn {t' : Txn} (hx : takeTxn t' s = .next t) : GateLaws t := by
    unfold takeTxn at hx
    split at hx
    · exact runs (trunkTxn_running t' h) hx
    · cases hx
  cases c with
  | timebaseTick => exact runs (ite_law (timebase_running 0 h) (timebase_running _ (expireDue_running h))) hx
  | powerOnResetAssert l => exact next_gateLaws (ite_law (.inr h) (.inl (assertPowerOn_inReset l s))) hx
  | powerOnResetRelease l => exact runs (unreleased h.released.1) hx
  | cardResetAssert l => exact next_gateLaws (ite_law (.inr h) (.inl (assertCard_inReset l s))) hx
  | cardResetRelease l => exact runs (unreleased h.released.2) hx
  | trunkReset => exact runs (ite_law h (trunkReset_running h)) hx
  | windowWrite | windowRead | controlIntake | controlRegionRefused => exact txn hx
  | identity | status | counts | reportHead | windowReadback | masterReadback | claim | relinquish | release | attention
  | resetGate => exact runs (trunkTxn_running _ h) hx
  | loadWindow => exact runs (executeHead_running _ _ (fun c => doLoadWindow_running c h) h) hx
  | retireWindow => exact runs (executeHead_running _ _ (fun c => doRetireWindow_running c h) h) hx
  | modifyWindow => exact runs (executeHead_running _ _ (fun c => doModifyWindow_running c h) h) hx
  | thawWindow => exact runs (executeHead_running _ _ (fun c => doThawWindow_running c h) h) hx
  | setMaster => exact runs (executeHead_running _ _ (fun c => doSetMaster_running c h) h) hx
  | setTimers => exact runs (executeHead_running _ _ (fun c => doSetTimers_running c h) h) hx
  | setArbitration => exact runs (executeHead_running _ _ (fun c => doSetArbitration_running c h) h) hx
  | enable => exact runs (executeHead_running _ _ (fun c => doEnable_running c h) h) hx
  | quiesce => exact runs (executeHead_running _ _ (fun c => doQuiesce_running c h) h) hx
  | fence => exact runs (executeHead_running _ _ (fun _ => h) h) hx
  | pieceEnd r => exact .inr (pieceEnd_running r hx h)
  | noResponse => exact runs (responseExpires_running h) hx
  | holdTimerExpiry i => exact runs (slotExpires_running i h) hx
  | lockHoldTimerExpiry => exact runs (lockExpires_running h) hx
  | overstayTimerExpiry => exact runs (overstayExpires_running h) hx
  | residentRequestRaise p => exact .inr (requestRaise_running hx h)
  | residentRequestDrop p =>
    have dropped : Running (setRequestLine p false s) := h.same
    exact runs (ite_law (residentTenureEnds_running p dropped) h) hx
  | residentHoldRaise p =>
    have raised : Running (setHoldLine p true s) := h.same
    exact runs (ite_law h (holdTaken_running p raised)) hx
  | residentHoldDrop p =>
    have dropped : Running (setHoldLine p false s) := h.same
    exact runs (ite_law (holdReleased_running p dropped) h) hx
  | residentWriteObserved p a z =>
    have stale : Running (markStale a (unitBytes z) s) := h.works (Act.makesStale s a _).work rfl
    exact runs (ite_law stale h) hx

theorem step_gateLaws (hx : step s = .next t) (h : GateLaws s) : GateLaws t := by
  unfold step at hx
  split at hx
  · exact next_gateLaws h hx
  · obtain h | h := h
    · exact exec_inReset hx h.same
    · exact exec_running hx h.same

end

/-- Settles O56: in RESET no event but the release of the last reset changes what is held; outside it the gate's work leaves
the gate state, completes a quiesce with every slot and the lock FREE, or brings the gate down, and a closed gate stays
vacant. -/
theorem gateStateLawsHoldAfterEveryEvent : Obligations.GateStateLawsHoldAfterEveryEvent := by
  intro s t hreset hheld hidle hrecord hx
  exact (gateLaws_iff t).1 (step_gateLaws hx ((gateLaws_iff s).2 ⟨hreset, hheld, hidle, hrecord⟩))

end Sys2Proof.GateStates
end

section
/-! The words that the gate answers reads of its state with: IDENTITY and COUNTS (R183), STATUS (R184), WINDOW READBACK
and MASTER READBACK (R187): O21, O22 and O24. -/

namespace Sys2Proof.Formats

open Sys2Proof Sys2Proof.Machine Sys2Proof.Safety Sys2Proof.ControlRecords

/-! ### Reads that are served -/

/-- IDENTITY and STATUS are open to every master in every gate state (R140). -/
theorem serveOp_open {op : ControlOp} (s : State) (m : MasterId) (hop : op = .identity ∨ op = .status) :
    serveOp m op s = operate m op s := by
  refine serve_ok ?_
  obtain rfl | rfl := hop <;> simp [refusedOp, refusedInFault, managerOnly, resetGateBarred]

theorem exec_windowReadback_manager {s : State} {m : MasterId} (hr : s.gsc.state ≠ .reset) (hm : s.cu.manager = some m)
    (w : WindowId) : exec (.windowReadback m w) s = .next (answerWords (windowWords s.windows[w]) s) := by
  rw [exec_windowReadback s m w hr, serveOp_manager hm (.inr rfl), operate]

theorem exec_masterReadback_manager {s : State} {m : MasterId} (hr : s.gsc.state ≠ .reset) (hm : s.cu.manager = some m)
    (k : MasterId) : exec (.masterReadback m k) s = .next (answerWords (masterWords s.masters[k]) s) := by
  rw [exec_masterReadback s m k hr, serveOp_manager hm (.inr rfl), operate]

/-! ### IDENTITY and COUNTS (R183) -/

theorem identityWord_eq : identityWord = 0x13206A3D := by decide

/-- Settles O21: rows 3 to 5 of R140 pass IDENTITY from every master, and COUNTS from the manager alone. -/
theorem identityAndCountsReturnTheirWords : Obligations.IdentityAndCountsReturnTheirWords := by
  refine fun s m hr => ⟨?identity, fun hm => ?counts, fun hm => ?refused⟩
  case identity =>
    rw [exec_identity s m hr, serveOp_open s m (.inl rfl), operate, identityWord_eq]
    rfl
  case counts =>
    rw [exec_counts s m hr, serveOp_manager hm (.inr rfl)]
    rfl
  case refused => exact exec_refused (exec_counts s m hr) (refusedOp_notManager hm rfl)

/-! ### How much a field can hold -/

theorem gateCode_lt (g : GateState) : gateCode g < 4 := by cases g <;> decide

theorem lockCode_lt (l : LockState) : lockCode l < 4 := by cases l <;> decide

theorem lockOrCause_lt (s : State) : lockOrCause s < 4 := by
  unfold lockOrCause
  split
  · cases s.gsc.cause <;> decide
  · exact lockCode_lt _

theorem windowCode_lt (x : WindowState) : windowCode x < 4 := by cases x <;> decide

theorem portWidthCode_lt (x : PortWidth) : portWidthCode x < 4 := by cases x <;> decide

theorem policyCode_eq (x : ErrorPolicy) : policyCode x = bit (x = .freezes) := by cases x <;> rfl

theorem admissionCode_eq (x : Admission) : admissionCode x = bit (x = .barred) := by cases x <;> rfl

theorem countTable_le {n : Nat} {α : Type} (t : Vector α n) (p : α → Bool) : countTable t p ≤ n :=
  List.countP_le_length.trans t.size_toArray.le

theorem slotsInUse_le (s : State) : slotsInUse s ≤ 8 := countTable_le _ _

theorem reports_length_le {s : State} (h : ReportsFit s) : s.rq.reports.length ≤ 16 :=
  (Nat.le_add_right _ _).trans h.1

theorem reportField_lt {s : State} (h : ReportsFit s) : reportField s < 32 := by
  have := reports_length_le h
  unfold reportField
  split <;> omega

/-- A count that takes in data entries alone is at most the thirty places for them (R26). -/
theorem countP_le_dataPlaces {s : State} (h : QueueFits s) {p : Entry → Bool} (hp : ∀ c, p (.control c) = false) :
    s.pwq.entries.countP p ≤ 30 := by
  refine (List.countP_mono_left fun e _ he => ?_).trans h.2
  cases e with
  | data d => rfl
  | control c => exact absurd he (by rw [hp c]; decide)

theorem outWrites_le {s : State} (hq : QueueFits s) (hw : WritesAgree s) (m : MasterId) : s.masters[m].outWrites ≤ 30 :=
  (hw m).trans_le (countP_le_dataPlaces hq fun _ => rfl)

theorem outReads_le {s : State} (h : ReadsAgree s) (m : MasterId) : s.masters[m].outReads ≤ 8 :=
  (h m).trans_le (countTable_le _ _)

theorem refCount_le {s : State} (hq : QueueFits s) (h : RefsAgree s) (w : WindowId) : s.windows[w].refCount ≤ 38 :=
  (h w).trans_le (Nat.add_le_add (countP_le_dataPlaces hq fun _ => rfl) (countTable_le _ _))

/-! ### STATUS (R184) -/

/-- The nine fields of the STATUS word, side by side (R184). -/
theorem statusFields_eq {gate lock manager data slots reports : Nat} (present attention : Bool) (suppressed : Nat)
    (hgate : gate < 4) (hlock : lock < 4) (hmanager : manager < 16) (hdata : data < 32) (hslots : slots < 16)
    (hreports : reports < 32) :
    BitVec.ofNat 32 (gate + 2 ^ 2 * lock + 2 ^ 4 * bit present + 2 ^ 5 * manager + 2 ^ 9 * bit attention + 2 ^ 10 * data +
        2 ^ 15 * slots + 2 ^ 19 * reports + 2 ^ 24 * suppressed) =
      BitVec.ofNat 8 suppressed ++ BitVec.ofNat 5 reports ++ BitVec.ofNat 4 slots ++ BitVec.ofNat 5 data ++
        BitVec.ofBool attention ++ BitVec.ofNat 4 manager ++ BitVec.ofBool present ++ BitVec.ofNat 2 lock ++
        BitVec.ofNat 2 gate := by
  have := bit_le present
  have := bit_le attention
  apply BitVec.eq_of_toNat_eq
  simp only [append_toNat, BitVec.toNat_ofNat, ofBool_toNat]
  omega

theorem statusWord_eq {s : State} (hq : QueueFits s) (hr : ReportsFit s) :
    statusWord s =
      BitVec.ofNat 8 s.rq.suppressed ++ BitVec.ofNat 5 (reportField s) ++ BitVec.ofNat 4 (slotsInUse s) ++
        BitVec.ofNat 5 (dataCount s) ++ BitVec.ofBool s.cu.attention ++ BitVec.ofNat 4 (managerField s) ++
        BitVec.ofBool s.cu.manager.isSome ++ BitVec.ofNat 2 (lockOrCause s) ++ BitVec.ofNat 2 (gateCode s.gsc.state) :=
  statusFields_eq _ _ _ (gateCode_lt _) (lockOrCause_lt s) (val_getD_lt _) (Nat.lt_succ_of_le (hq.2.trans (by decide)))
    (Nat.lt_succ_of_le ((slotsInUse_le s).trans (by decide))) (reportField_lt hr)

/-- Sixteen reports at most are stored, so the value 17 tells of a WAITING request alone (R163, R184). -/
theorem reportField_eq_seventeen_iff {s : State} (h : ReportsFit s) :
    BitVec.ofNat 5 (reportField s) = 17 ↔ s.rq.space = .waiting := by
  have := reports_length_le h
  rw [← BitVec.toNat_inj, BitVec.toNat_ofNat, Nat.mod_eq_of_lt (reportField_lt h), reportField]
  split
  next hs => exact iff_of_true rfl hs
  next hs =>
    refine iff_of_false (fun he => ?_) hs
    rw [he] at this
    exact absurd this (by decide)

/-- Settles O22: each field of the statement is the model's code of it in the field's width. -/
theorem statusPacksItsFields : Obligations.StatusPacksItsFields := by
  intro s m hr hq hfit hwaiting hidle hrecord gate lockBits causeBits slotsUsed manager reports
  have hgate : gate = BitVec.ofNat 2 (gateCode s.gsc.state) := by
    dsimp only [gate]
    cases s.gsc.state <;> rfl
  have hlock : (if s.gsc.state = .faulted then causeBits else lockBits) = BitVec.ofNat 2 (lockOrCause s) := by
    unfold lockOrCause
    dsimp only [causeBits, lockBits]
    split
    · cases s.gsc.cause <;> rfl
    · cases s.lock.state <;> rfl
  have hslots : slotsUsed = slotsInUse s := (slotsInUse_eq s).symm
  have hmanager : manager = BitVec.ofNat 4 (managerField s) := by
    unfold managerField
    dsimp only [manager]
    cases s.cu.manager <;> rfl
  have hreports : reports = BitVec.ofNat 5 (reportField s) := (apply_ite (BitVec.ofNat 5) _ _ _).symm
  refine ⟨?word, fun hf => (hidle (.inr (.inr hf))).2, hrecord.1.2, ?seventeen, hwaiting⟩
  case word =>
    rw [exec_status s m hr, serveOp_open s m (.inr rfl), operate, statusWord_eq hq hfit, hgate, hlock, hslots, hmanager,
      hreports]
    rfl
  case seventeen => rw [hreports, reportField_eq_seventeen_iff hfit]

/-! ### WINDOW READBACK (R22, R187) -/

/-- A field with zeros above it (R187). -/
theorem zero_append_eq {k n : Nat} (x : BitVec n) : (0 : BitVec k) ++ x = x.setWidth (k + n) := by
  have := Nat.lt_of_lt_of_le x.isLt (Nat.pow_le_pow_right Nat.two_pos (Nat.le_add_left n k))
  apply BitVec.eq_of_toNat_eq
  simp [Nat.mod_eq_of_lt this]

theorem zero_append_ofNat {k n x : Nat} (h : x < 2 ^ n) :
    (0 : BitVec k) ++ BitVec.ofNat n x = BitVec.ofNat (k + n) x := by
  rw [zero_append_eq, BitVec.setWidth_ofNat_of_le_of_lt (Nat.le_add_left n k) h]

/-- Word 0 of a window: state, frozen, retire tag present, size code, port width, lockable and policy (R187). -/
theorem windowWord0_eq {state size port : Nat} (frozen retiring lockable freezes : Bool) (hstate : state < 4)
    (hsize : size < 32) (hport : port < 4) :
    BitVec.ofNat 32 (state + 2 ^ 2 * bit frozen + 2 ^ 3 * bit retiring + 2 ^ 4 * size + 2 ^ 10 * port +
        2 ^ 12 * bit lockable + 2 ^ 13 * bit freezes) =
      (0 : BitVec 18) ++ BitVec.ofBool freezes ++ BitVec.ofBool lockable ++ BitVec.ofNat 2 port ++ (0 : BitVec 1) ++
        BitVec.ofNat 5 size ++ BitVec.ofBool retiring ++ BitVec.ofBool frozen ++ BitVec.ofNat 2 state := by
  have := bit_le frozen
  have := bit_le retiring
  have := bit_le lockable
  have := bit_le freezes
  apply BitVec.eq_of_toNat_eq
  simp only [append_toNat, BitVec.toNat_ofNat, ofBool_toNat, BitVec.ofNat_eq_ofNat]
  omega

/-- The mask word: the read mask in the lower half, the write mask in the upper half (R187). -/
theorem maskWord_eq (read write : MasterMask) : BitVec.ofNat 32 (read.toNat + 2 ^ 16 * write.toNat) = write ++ read := by
  apply BitVec.eq_of_toNat_eq
  rw [append_toNat, BitVec.toNat_ofNat]
  omega

/-- The eight words of a window whose size code and counts are in range (R187). -/
theorem windowWords_eq {e : Window} (hsize : e.sizeCode < 32) (hrefs : e.refCount < 64) (hdiscards : e.discards < 65536) :
    windowWords e =
      [(0 : BitVec 18) ++ BitVec.ofBool (e.policy = .freezes) ++ BitVec.ofBool e.lockable ++
          BitVec.ofNat 2 (portWidthCode e.portWidth) ++ (0 : BitVec 1) ++ BitVec.ofNat 5 e.sizeCode ++
          BitVec.ofBool e.retireTag.isSome ++ BitVec.ofBool e.frozen ++ BitVec.ofNat 2 (windowCode e.state),
        e.trunkBase, (0 : BitVec 4) ++ e.cardBase, e.writeMask ++ e.readMask,
        (0 : BitVec 26) ++ BitVec.ofNat 6 e.refCount, (0 : BitVec 16) ++ BitVec.ofNat 16 e.discards,
        (0 : BitVec 16) ++ e.retireTag.getD 0, 0] := by
  rw [windowWords, policyCode_eq, windowWord0_eq _ _ _ _ (windowCode_lt _) hsize (portWidthCode_lt _), maskWord_eq,
    tag_getD_toNat, BitVec.ofNat_toNat, zero_append_ofNat (n := 6) hrefs, zero_append_ofNat (n := 16) hdiscards,
    zero_append_eq e.cardBase, zero_append_eq (e.retireTag.getD 0)]

/-! ### MASTER READBACK (R106, R187) -/

/-- Word 0 of a master: admission, credit limit, read limit and bar threshold (R187). -/
theorem masterWord0_eq {credit reads : Nat} (barred : Bool) (threshold : Nat) (hcredit : credit < 32)
    (hreads : reads < 16) :
    BitVec.ofNat 32 (bit barred + 2 ^ 8 * credit + 2 ^ 16 * reads + 2 ^ 24 * threshold) =
      BitVec.ofNat 8 threshold ++ (0 : BitVec 4) ++ BitVec.ofNat 4 reads ++ (0 : BitVec 3) ++ BitVec.ofNat 5 credit ++
        (0 : BitVec 7) ++ BitVec.ofBool barred := by
  have := bit_le barred
  apply BitVec.eq_of_toNat_eq
  simp only [append_toNat, BitVec.toNat_ofNat, ofBool_toNat, BitVec.ofNat_eq_ofNat]
  omega

/-- Word 1 of a master: its two outstanding counts (R187). -/
theorem masterWord1_eq {writes reads : Nat} (hwrites : writes < 32) (hreads : reads < 16) :
    BitVec.ofNat 32 (writes + 2 ^ 8 * reads) =
      (0 : BitVec 20) ++ BitVec.ofNat 4 reads ++ (0 : BitVec 3) ++ BitVec.ofNat 5 writes := by
  apply BitVec.eq_of_toNat_eq
  simp only [append_toNat, BitVec.toNat_ofNat, BitVec.ofNat_eq_ofNat]
  omega

/-- Word 3 of a master: the window of its note, and whether it has one (R187). -/
theorem masterWord3_eq {window : Nat} (noted : Bool) (hwindow : window < 32) :
    BitVec.ofNat 32 (window + 2 ^ 8 * bit noted) =
      (0 : BitVec 23) ++ BitVec.ofBool noted ++ (0 : BitVec 3) ++ BitVec.ofNat 5 window := by
  have := bit_le noted
  apply BitVec.eq_of_toNat_eq
  simp only [append_toNat, BitVec.toNat_ofNat, ofBool_toNat, BitVec.ofNat_eq_ofNat]
  omega

/-- The four words of a master whose limits and counts are in range (R187). -/
theorem masterWords_eq {e : Master} (hcredit : e.creditLimit < 32) (hlimit : e.readLimit < 16)
    (hwrites : e.outWrites < 32) (hreads : e.outReads < 16) (hviolations : e.violations < 256) :
    masterWords e =
      [BitVec.ofNat 8 e.barThreshold ++ (0 : BitVec 4) ++ BitVec.ofNat 4 e.readLimit ++ (0 : BitVec 3) ++
          BitVec.ofNat 5 e.creditLimit ++ (0 : BitVec 7) ++ BitVec.ofBool (e.admission = .barred),
        (0 : BitVec 20) ++ BitVec.ofNat 4 e.outReads ++ (0 : BitVec 3) ++ BitVec.ofNat 5 e.outWrites,
        (0 : BitVec 24) ++ BitVec.ofNat 8 e.violations,
        (0 : BitVec 23) ++ BitVec.ofBool e.note.isSome ++ (0 : BitVec 3) ++
          BitVec.ofNat 5 ((e.note.map Fin.val).getD 0)] := by
  rw [masterWords, admissionCode_eq, masterWord0_eq _ _ hcredit hlimit, masterWord1_eq hwrites hreads,
    masterWord3_eq _ (val_getD_lt _), zero_append_ofNat (n := 8) hviolations]

/-- Settles O24: the counts agree with what is queued, so they fit their fields, and so do the settings; after power-on
reset every entry of a table is the same. -/
theorem readbacksReturnEveryField : Obligations.ReadbacksReturnEveryField := by
  refine ⟨fun s m hr hm hq hwrites hreads hrefs hwindows hsettings => ⟨fun w => ?window, fun k => ?master⟩,
    fun m k w => ?reset⟩
  case window =>
    intro e state port
    have hstate : state = BitVec.ofNat 2 (windowCode e.state) := by
      dsimp only [state]
      cases e.state <;> rfl
    have hport : port = BitVec.ofNat 2 (portWidthCode e.portWidth) := by
      dsimp only [port]
      cases e.portWidth <;> rfl
    obtain ⟨⟨-, -, hsize, hdiscards⟩, -⟩ := hwindows w
    rw [exec_windowReadback_manager hr hm, hstate, hport, windowWords_eq (Nat.lt_of_le_of_lt hsize (by decide))
      (Nat.lt_of_le_of_lt (refCount_le hq hrefs w) (by decide)) (Nat.lt_succ_of_le hdiscards)]
    rfl
  case master =>
    intro e
    obtain ⟨hcredit, hlimit, hviolations, -⟩ := hsettings.1 k
    rw [exec_masterReadback_manager hr hm, masterWords_eq (Nat.lt_of_le_of_lt hcredit (by decide))
      (Nat.lt_of_le_of_lt hlimit (by decide)) (Nat.lt_of_le_of_lt (outWrites_le hq hwrites k) (by decide))
      (Nat.lt_of_le_of_lt (outReads_le hreads k) (by decide)) (Nat.lt_succ_of_le hviolations)]
    rfl
  case reset =>
    have hr : ({ State.reset with cu.manager := some m } : State).gsc.state ≠ .reset := nofun
    rw [exec_windowReadback_manager hr rfl, exec_masterReadback_manager hr rfl, WindowTable.reset_window,
      WindowTable.reset_master]
    exact ⟨⟨_, rfl⟩, ⟨_, rfl⟩⟩

end Sys2Proof.Formats
end
